-- ==== Sys2Proof/Word.lean ====
section
/-! DEFINITION. The word types of the SQ410: a byte, a 16-byte key, a millisecond tick count. -/

namespace Sys2Proof

/-- A byte of a frame, of a record or of the array (R152, R206). -/
abbrev Byte := BitVec 8

/-- A window key or the master key: 16 bytes, the first byte most significant (R51, R206). -/
abbrev Key := BitVec 128

/-- A value of the millisecond tick count, modulo 4,294,967,296 (R204). -/
abbrev Tick := BitVec 32

end Sys2Proof
end

