-- ==== Sys2Proof/Config.lean ====
section
/-! DEFINITION. What is fixed for the part, and the free values of the model. -/

namespace Sys2Proof

/-- The class in which the engine finds one 8-byte word (R109). -/
inductive WordClass
  | clean
  | single
  | double
  deriving DecidableEq, Repr, Inhabited

namespace Config

/-- Lines addressed by masters, 0 to 16,383 (R108, R167). -/
def lines : Nat := 16384

/-- Bytes of a line (R167). -/
def lineBytes : Nat := 64

/-- Spare lines, S0 to S15 (R108, R167). -/
def spares : Nat := 16

/-- Window records, W0 to W31 (R1, R167). -/
def windows : Nat := 32

/-- The scrub interval after power-on and after the release of RESET#, in microseconds (R124). -/
def scrubInterval : Nat := 100

/-- Microsecond ticks to a millisecond tick (R204). -/
def microsecondsPerTick : Nat := 1000

/-- FREE VALUE (log 10): the class in which a word with three or more flipped bits is found, by
draw, physical line and word: "Such a word may be found clean, single or double" (R109). -/
opaque beyondClass : Nat → Nat → Nat → WordClass

/-- FREE VALUE (log 10): the stored data bit (byte of the word, bit of the byte), if any, that the
correction changes in a word with three or more flipped bits found single: "as stored with at most
one bit changed by the correction" (R109). -/
opaque beyondFix : Nat → Nat → Nat → Option (Fin 8 × Fin 8)

end Config

end Sys2Proof
end

