-- ==== Sys2Proof/Syntax.lean ====
section
/-! DEFINITION. The commands of the block: one constructor of `Instr` per row of the opcode table,
and the commands that a master's command frames carry into a port's command queue. -/

namespace Sys2Proof

/-- The four ports, P0 to P3. -/
inductive Port
  | p0 | p1 | p2 | p3
  deriving DecidableEq, Repr

/-- The ports in ascending order. -/
def Port.all : List Port := [.p0, .p1, .p2, .p3]

/-- What happens on a port link while select is asserted (R152): rising edges of SCLKn that clock
bits in, or the release of SELn#, which ends the frame. -/
inductive FrameEvent
  /-- SCLKn pulses: these bits are sampled on SDIn, first bit first. -/
  | clock (bits : List Bool)
  /-- SELn# is released. -/
  | release
  deriving DecidableEq, Repr

/-- A stored bit of an 8-byte word: a bit of its data, or a bit of its check code (R108). The check
code and its width are not in the spec; `code i` is the model's name for a code bit (log 11). -/
inductive StoredBit
  | data (byte : Fin 8) (bit : Fin 8)
  | code (i : Nat)
  deriving DecidableEq, Repr

/-- The kinds of command a command frame can carry (R156). -/
inductive CommandKind
  | defineWindow | setWindowParams | deleteWindow | freeze | setMasterKey | scrubSettings | inject
  | claim | release | renew
  | setKey | clearKey | unlock | lock | wipePrepare | wipe
  | read | write
  | copy | fill | cancelJob
  deriving DecidableEq, Repr

/-- A command with its argument fields as the frame carried them, at their full width: "The link
takes each field whole at its full width and places no limit on its value" (R206, 12.2). -/
inductive Command
  | defineWindow (index : Byte) (base length : BitVec 16) (policy : Byte) (lease wait : BitVec 16)
  | setWindowParams (index selection policy : Byte) (lease wait : BitVec 16)
  | deleteWindow (index : Byte)
  | freeze
  | setMasterKey (oldKey newKey : Key)
  | scrubSettings (enable : Byte) (interval : BitVec 16)
  | inject (line : BitVec 16) (kind : Byte)
  | claim (index kind wait : Byte)
  | release (index : Byte)
  | renew (index : Byte)
  | setKey (index level : Byte) (key : Key)
  | clearKey (index : Byte)
  | unlock (index selector : Byte) (key : Key)
  | lock (index : Byte)
  | wipePrepare (index : Byte)
  | wipe (index selector : Byte) (key : Key)
  | read (index : Byte) (offset : BitVec 24) (length : BitVec 16)
  | write (index : Byte) (offset : BitVec 24) (data : List Byte)
  | copy (source : Byte) (sourceOffset : BitVec 24) (dest : Byte) (destOffset length : BitVec 24)
  | fill (dest : Byte) (destOffset length : BitVec 24) (pattern : Byte)
  | cancelJob (jobTag : Byte)
  deriving DecidableEq, Repr

/-- The kind of a command. -/
def Command.kind : Command → CommandKind
  | .defineWindow .. => .defineWindow
  | .setWindowParams .. => .setWindowParams
  | .deleteWindow .. => .deleteWindow
  | .freeze => .freeze
  | .setMasterKey .. => .setMasterKey
  | .scrubSettings .. => .scrubSettings
  | .inject .. => .inject
  | .claim .. => .claim
  | .release .. => .release
  | .renew .. => .renew
  | .setKey .. => .setKey
  | .clearKey .. => .clearKey
  | .unlock .. => .unlock
  | .lock .. => .lock
  | .wipePrepare .. => .wipePrepare
  | .wipe .. => .wipe
  | .read .. => .read
  | .write .. => .write
  | .copy .. => .copy
  | .fill .. => .fill
  | .cancelJob .. => .cancelJob

/-- The commands and events of the block, one constructor per row of spec/opcode_table.json, in the
table's order. A command that a PCU takes names its port only: its arguments stand at the head of
that port's command queue (R174). -/
inductive Instr
  /-- Supply and REFCLK become stable, with RESET# asserted or not and LSEL[1:0] as given (R198). -/
  | powerOn (resetAsserted : Bool) (lsel : BitVec 2)
  | resetAssert
  /-- RESET# is released with LSEL[1:0] as given (R199). -/
  | resetRelease (lsel : BitVec 2)
  | sweepLineWrite
  | frameStart (p : Port)
  | commandFrame (p : Port) (e : FrameEvent)
  | status (p : Port) (e : FrameEvent)
  | collect (p : Port) (e : FrameEvent)
  | fetchNotice (p : Port) (e : FrameEvent)
  | windowInfo (p : Port) (e : FrameEvent)
  | deviceInfo (p : Port) (e : FrameEvent)
  | portReset (p : Port) (e : FrameEvent)
  | teardownEnd (p : Port)
  | defineWindow (p : Port)
  | setWindowParams (p : Port)
  | deleteWindow (p : Port)
  | claim (p : Port)
  | release (p : Port)
  | renew (p : Port)
  | setKey (p : Port)
  | clearKey (p : Port)
  | unlock (p : Port)
  | lock (p : Port)
  | setMasterKey (p : Port)
  | freeze (p : Port)
  | wipePrepare (p : Port)
  | wipe (p : Port)
  | read (p : Port)
  | write (p : Port)
  | inject (p : Port)
  | scrubSettings (p : Port)
  | copy (p : Port)
  | fill (p : Port)
  | cancelJob (p : Port)
  | grant
  | readCompletion
  | writeCompletion
  | injectCompletion
  | copyStepCompletion
  | fillStepCompletion
  | wipeStepCompletion
  | scrubReadCompletion
  /-- The holder `p` of window `w` reaches its lease-low point (R42). -/
  | leaseLowPoint (w : Nat) (p : Port)
  | leaseExpiry (w : Nat) (p : Port)
  | waitExpiry (w : Nat) (p : Port)
  | scrubTimerExpiry
  /-- A stored bit of a word of a physical line flips; home places are 0 to 16,383 and spare Sk is
  16,384 + k (R108). -/
  | storedBitFlip (phys word : Nat) (bit : StoredBit)
  | millisecondTick
  | microsecondTick
  | emptyFrame (p : Port)
  deriving DecidableEq, Repr

end Sys2Proof
end

