-- ==== Sys2Proof/WellFormed.lean ====
section
/-! DEFINITION. Which commands of the table name something the part has, and which frame commands
a link can take in. -/

namespace Sys2Proof

/-- A command that a frame can carry: an admitted WRITE holds 1 to 64 data bytes (R78, R158). -/
def Command.wellFormed : Command → Bool
  | .write _ _ data => decide (1 ≤ data.length ∧ data.length ≤ 64)
  | _ => true

/-- A command of the table names an existing window record (R1), and an existing physical line and
word (R108). An ill-formed one names nothing, and executing it changes nothing (log 4). -/
def Instr.wellFormed : Instr → Bool
  | .leaseLowPoint w _ => decide (w < 32)
  | .leaseExpiry w _ => decide (w < 32)
  | .waitExpiry w _ => decide (w < 32)
  | .storedBitFlip phys word _ => decide (phys < 16400 ∧ word < 8)
  | _ => true

end Sys2Proof
end

