-- ==== Sys2Proof/Decode.lean ====
section
/-! DEFINITION. The words of the opcode table (none: no row gives bits), the opcodes and argument
layouts of the frames (12.2), and the encoder of command frames. -/

namespace Sys2Proof

/-- The command a word of the opcode table spells: no row of the table gives bits, so none does. -/
def decodeTableWord (_nbits _w : Nat) : Option Instr := none

/-! ### Bytes and multi-byte fields: most significant byte first (R152, R206) -/

/-- The byte whose bits are given, most significant first (R152). -/
def byteOfBits (bits : List Bool) : Byte :=
  bits.foldl (fun b x => (b <<< 1) ||| (if x then 1#8 else 0#8)) 0#8

/-- The bits of a byte, most significant first. -/
def bitsOfByte (b : Byte) : List Bool :=
  [b.getLsbD 7, b.getLsbD 6, b.getLsbD 5, b.getLsbD 4, b.getLsbD 3, b.getLsbD 2, b.getLsbD 1,
    b.getLsbD 0]

/-- The bits a master clocks in to send these bytes. -/
def bitsOfBytes (bs : List Byte) : List Bool := bs.flatMap bitsOfByte

/-- The number that bytes spell, most significant byte first. -/
def beNat (bs : List Byte) : Nat := bs.foldl (fun n b => 256 * n + b.toNat) 0

/-- The `k` bytes of a number, most significant byte first. -/
def beBytes : Nat → Nat → List Byte
  | 0, _ => []
  | k + 1, n => BitVec.ofNat 8 (n / 256 ^ k) :: beBytes k n

/-- A 2-byte field. -/
def be16 (hi lo : Byte) : BitVec 16 := hi ++ lo

/-- A 3-byte field. -/
def be24 (hi mid lo : Byte) : BitVec 24 := (hi ++ mid ++ lo : BitVec (8 + 8 + 8))

/-- The bytes of a 2-byte field. -/
def bytes16 (x : BitVec 16) : List Byte := [x.extractLsb' 8 8, x.extractLsb' 0 8]

/-- The bytes of a 3-byte field. -/
def bytes24 (x : BitVec 24) : List Byte :=
  [x.extractLsb' 16 8, x.extractLsb' 8 8, x.extractLsb' 0 8]

/-- A key from its 16 bytes, first key byte first. -/
def keyOfBytes (bs : List Byte) : Key := BitVec.ofNat 128 (beNat bs)

/-- The 16 bytes of a key. -/
def bytesOfKey (k : Key) : List Byte := beBytes 16 k.toNat

/-! ### Opcodes (12.2) -/

/-- STATUS, COLLECT, FETCH NOTICE, WINDOW INFO, DEVICE INFO and PORT RESET. -/
inductive ImmediateKind
  | status | collect | fetchNotice | windowInfo | deviceInfo | portReset
  deriving DecidableEq, Repr

/-- The immediate frame that an opcode names (12.2). -/
def immediateOf (op : Byte) : Option ImmediateKind :=
  if op = 0x01#8 then some .status
  else if op = 0x02#8 then some .collect
  else if op = 0x03#8 then some .fetchNotice
  else if op = 0x04#8 then some .windowInfo
  else if op = 0x05#8 then some .deviceInfo
  else if op = 0x0F#8 then some .portReset
  else none

/-- The opcode of each command (12.2). -/
def CommandKind.opcode : CommandKind → Byte
  | .defineWindow => 0x20#8
  | .setWindowParams => 0x21#8
  | .deleteWindow => 0x22#8
  | .freeze => 0x23#8
  | .setMasterKey => 0x24#8
  | .scrubSettings => 0x25#8
  | .inject => 0x26#8
  | .claim => 0x30#8
  | .release => 0x31#8
  | .renew => 0x32#8
  | .setKey => 0x40#8
  | .clearKey => 0x41#8
  | .unlock => 0x42#8
  | .lock => 0x43#8
  | .wipePrepare => 0x44#8
  | .wipe => 0x45#8
  | .read => 0x50#8
  | .write => 0x51#8
  | .copy => 0x60#8
  | .fill => 0x61#8
  | .cancelJob => 0x62#8

/-- Every command kind. -/
def CommandKind.all : List CommandKind :=
  [.defineWindow, .setWindowParams, .deleteWindow, .freeze, .setMasterKey, .scrubSettings, .inject,
    .claim, .release, .renew, .setKey, .clearKey, .unlock, .lock, .wipePrepare, .wipe, .read,
    .write, .copy, .fill, .cancelJob]

/-- The command that an opcode names; every opcode not listed is unknown (R156, 12.2). -/
def commandKindOf (op : Byte) : Option CommandKind :=
  CommandKind.all.find? (fun k => k.opcode == op)

/-! ### Command frames (12.2, R158) -/

/-- The tag and command that the argument bytes of a command frame carry: `none` where the frame does
not hold exactly the bytes that its opcode requires (R158). -/
def Command.ofArgs : CommandKind → List Byte → Option (Byte × Command)
  | .defineWindow, [tag, i, b1, b0, l1, l0, pol, p1, p0, w1, w0] =>
    some (tag, .defineWindow i (be16 b1 b0) (be16 l1 l0) pol (be16 p1 p0) (be16 w1 w0))
  | .setWindowParams, [tag, i, sel, pol, p1, p0, w1, w0] =>
    some (tag, .setWindowParams i sel pol (be16 p1 p0) (be16 w1 w0))
  | .deleteWindow, [tag, i] => some (tag, .deleteWindow i)
  | .freeze, [tag] => some (tag, .freeze)
  | .setMasterKey, tag :: keys =>
    if keys.length = 32 then
      some (tag, .setMasterKey (keyOfBytes (keys.take 16)) (keyOfBytes (keys.drop 16)))
    else none
  | .scrubSettings, [tag, en, i1, i0] => some (tag, .scrubSettings en (be16 i1 i0))
  | .inject, [tag, l1, l0, kind] => some (tag, .inject (be16 l1 l0) kind)
  | .claim, [tag, i, kind, wait] => some (tag, .claim i kind wait)
  | .release, [tag, i] => some (tag, .release i)
  | .renew, [tag, i] => some (tag, .renew i)
  | .setKey, tag :: i :: level :: key =>
    if key.length = 16 then some (tag, .setKey i level (keyOfBytes key)) else none
  | .clearKey, [tag, i] => some (tag, .clearKey i)
  | .unlock, tag :: i :: sel :: key =>
    if key.length = 16 then some (tag, .unlock i sel (keyOfBytes key)) else none
  | .lock, [tag, i] => some (tag, .lock i)
  | .wipePrepare, [tag, i] => some (tag, .wipePrepare i)
  | .wipe, tag :: i :: sel :: key =>
    if key.length = 16 then some (tag, .wipe i sel (keyOfBytes key)) else none
  | .read, [tag, i, o2, o1, o0, l1, l0] => some (tag, .read i (be24 o2 o1 o0) (be16 l1 l0))
  | .write, tag :: i :: o2 :: o1 :: o0 :: l1 :: l0 :: data =>
    let n := (be16 l1 l0).toNat
    if 1 ≤ n ∧ n ≤ 64 ∧ data.length = n then some (tag, .write i (be24 o2 o1 o0) data) else none
  | .copy, [tag, si, so2, so1, so0, di, do2, do1, do0, n2, n1, n0] =>
    some (tag, .copy si (be24 so2 so1 so0) di (be24 do2 do1 do0) (be24 n2 n1 n0))
  | .fill, [tag, di, do2, do1, do0, n2, n1, n0, pat] =>
    some (tag, .fill di (be24 do2 do1 do0) (be24 n2 n1 n0) pat)
  | .cancelJob, [tag, job] => some (tag, .cancelJob job)
  | _, _ => none

/-- The argument bytes of a command's frame after the tag (12.2). -/
def Command.args : Command → List Byte
  | .defineWindow i b l pol p w => [i] ++ bytes16 b ++ bytes16 l ++ [pol] ++ bytes16 p ++ bytes16 w
  | .setWindowParams i sel pol p w => [i, sel, pol] ++ bytes16 p ++ bytes16 w
  | .deleteWindow i => [i]
  | .freeze => []
  | .setMasterKey old new => bytesOfKey old ++ bytesOfKey new
  | .scrubSettings en i => [en] ++ bytes16 i
  | .inject l kind => bytes16 l ++ [kind]
  | .claim i kind wait => [i, kind, wait]
  | .release i => [i]
  | .renew i => [i]
  | .setKey i level key => [i, level] ++ bytesOfKey key
  | .clearKey i => [i]
  | .unlock i sel key => [i, sel] ++ bytesOfKey key
  | .lock i => [i]
  | .wipePrepare i => [i]
  | .wipe i sel key => [i, sel] ++ bytesOfKey key
  | .read i o l => [i] ++ bytes24 o ++ bytes16 l
  | .write i o data => [i] ++ bytes24 o ++ bytes16 (BitVec.ofNat 16 data.length) ++ data
  | .copy si so di d n => [si] ++ bytes24 so ++ [di] ++ bytes24 d ++ bytes24 n
  | .fill di d n pat => [di] ++ bytes24 d ++ bytes24 n ++ [pat]
  | .cancelJob job => [job]

/-- A whole command frame: opcode, tag, arguments (12.2). -/
def Command.frame (tag : Byte) (c : Command) : List Byte := c.kind.opcode :: tag :: c.args

/-- The tag and command of a whole command frame. -/
def commandOfFrame : List Byte → Option (Byte × Command)
  | [] => none
  | op :: args => (commandKindOf op).bind (fun k => Command.ofArgs k args)

end Sys2Proof
end

