-- ==== Sys2Proof/Machine/State.lean ====
section
/-! DEFINITION. The state of the SQ410: everything the spec gives the part, as plain data, the state
right after reset, and the reasons a step could stop. -/

namespace Sys2Proof.Machine

/-! ### Names of the manual -/

/-- The start-up phases of the part (R198). -/
inductive Phase
  | held | sweeping | running
  deriving DecidableEq, Repr

/-- The state of a port (R171). -/
inductive PortState
  | init | ready | teardown
  deriving DecidableEq, Repr

/-- The policy of a window (R4). -/
inductive Policy
  | free | writeClaimed | claimed
  deriving DecidableEq, Repr

/-- The activity of a window (R6). -/
inductive Activity
  | idle | wiping
  deriving DecidableEq, Repr

/-- The claim state of a window (R23). -/
inductive ClaimState
  | unclaimed | readHeld | writeHeld
  deriving DecidableEq, Repr

/-- The kind of a claim (R24, R27). -/
inductive ClaimKind
  | read | write
  deriving DecidableEq, Repr

/-- The level of a guard record (R51). -/
inductive Level
  | standard | strict
  deriving DecidableEq, Repr

/-- The state of a spare (R118). -/
inductive SpareState
  | free | inUse | spent
  deriving DecidableEq, Repr

/-- The kind of an INJECT (R91). -/
inductive InjectKind
  | one | two
  deriving DecidableEq, Repr

/-- The order in which a job walks its range (R133, R138). -/
inductive Direction
  | ascending | descending
  deriving DecidableEq, Repr

/-- The transfer channels (R133). -/
inductive Channel
  | c0 | c1
  deriving DecidableEq, Repr

/-- The six positions of the rotation (R98). -/
inductive Slot
  | port (p : Port)
  | channel (c : Channel)
  deriving DecidableEq, Repr

/-- The seven requestors of the array arbiter (R96). -/
inductive Requestor
  | slot (x : Slot)
  | scrub
  deriving DecidableEq, Repr

/-- The outcome codes of completions (12.3). -/
inductive OutcomeCode
  | ok | wouldWait | timedOut | revoked | cancelled
  | noWindow | exists | outOfRange | overlap | badParameter | notLayoutPort | frozen
  | notClaimable | notHeld | alreadyHeld | busyWindow
  | locked | keyed | notKeyed | keyMismatch | barred | noMasterKey | notPrepared
  | noChannel | noJob | dataLost
  deriving DecidableEq, Repr

/-- The reject reasons of frames (R153). -/
inductive RejectReason
  | notReady | unknownOpcode | badLength | partialByte | queueFull | dupTag
  deriving DecidableEq, Repr

/-- The kinds of job a channel can hold (R133). -/
inductive JobKind
  | copy | fill | wipe
  deriving DecidableEq, Repr

/-- One value for each of the four ports. -/
structure PerPort (α : Type) where
  p0 : α
  p1 : α
  p2 : α
  p3 : α
  deriving DecidableEq, Repr

/-! ### Windows (R1, R23, R24, R51, R128) -/

/-- A holder's entry, of the port it stands under (R23). -/
structure Lease where
  /-- the tick on which the claim expires; absent when the term began under lease period 0 -/
  deadline : Option Tick
  /-- a quarter of the period of the term, rounded down; absent with the deadline or where it is 0 -/
  lowPoint : Option Nat
  /-- set when the LEASE_LOW notice of the present term has been posted -/
  lowSent : Bool
  deriving DecidableEq, Repr

/-- An entry of a waiter queue (R24). -/
structure Waiter where
  port : Port
  kind : ClaimKind
  deadline : Option Tick
  tag : Byte
  deriving DecidableEq, Repr

/-- A guard record (R51). -/
structure Guard where
  key : Option Key
  level : Level
  unlocked : PerPort Bool
  attempts : Nat
  deriving DecidableEq, Repr

/-- The fault record of a window (R128). -/
structure FaultCounts where
  corrected : Nat
  poisonings : Nat
  retirements : Nat
  deriving DecidableEq, Repr

/-- A present window record (R1), with its claim part, guard record and fault record. -/
structure Window where
  base : Nat
  length : Nat
  policy : Policy
  leasePeriod : Nat
  waitLimit : Nat
  activity : Activity
  claimState : ClaimState
  /-- the set of holders: at most one entry per port -/
  holders : PerPort (Option Lease)
  /-- the waiter queue, oldest first -/
  waiters : List Waiter
  guard : Guard
  faults : FaultCounts
  deriving DecidableEq, Repr

/-! ### Completions and notices (R180, R184) -/

/-- The extra part of a completion record: a READ's data, a job's byte count, or nothing (R180). -/
inductive Extra
  | none
  | data (bs : List Byte)
  | count (n : Nat)
  deriving DecidableEq, Repr

/-- A completion record (R180). -/
structure Completion where
  tag : Byte
  kind : CommandKind
  outcome : OutcomeCode
  extra : Extra
  deriving DecidableEq, Repr

/-- A notice record (R184). -/
inductive Notice
  | leaseLow (window : Nat)
  | leaseExpired (window : Nat)
  | claimRevoked (window : Nat)
  | linePoisoned (window line count : Nat)
  | sparesExhausted
  deriving DecidableEq, Repr

/-- The mark on the notice under fetch, with its repeat count and repeat line (R165, R171). -/
structure FetchMark where
  notice : Notice
  repeats : Nat
  repeatLine : Option Nat
  deriving DecidableEq, Repr

/-! ### Jobs (R133) -/

/-- A place in a window: its index and a byte offset. -/
structure Place where
  window : Nat
  offset : Nat
  deriving DecidableEq, Repr

/-- The state of a job, with the end outcome recorded while it is ENDING (R133, R145). -/
inductive JobState
  | running
  | ending (o : OutcomeCode)
  deriving DecidableEq, Repr

/-- A job record (R133); its channel is the one it stands on. -/
structure Job where
  owner : Port
  tag : Byte
  kind : JobKind
  source : Option Place
  dest : Place
  total : Nat
  pattern : Option Byte
  direction : Direction
  bytesDone : Nat
  state : JobState
  /-- report: DELIVER when true, DISCARD when false -/
  deliver : Bool
  deriving DecidableEq, Repr

/-! ### Accesses (R79, R95) -/

/-- A line with the physical line that holds it, as the remap table stood at the grant (R94). -/
structure LineRef where
  line : Nat
  phys : Nat
  deriving DecidableEq, Repr

/-- What a port's pending access asks for (R79). -/
inductive AccessBody
  | read (window offset length : Nat)
  | write (window offset : Nat) (data : List Byte)
  | inject (line : Nat) (kind : InjectKind)
  deriving DecidableEq, Repr

/-- A port's pending access (R79): it stands until its completion is written. -/
structure Access where
  tag : Byte
  body : AccessBody
  deriving DecidableEq, Repr

/-- The work of the access in flight (R94, R95): the lines it covers, and where its bytes lie counted
from the first byte of the first line. -/
inductive Work
  | read (window : Nat) (lines : List LineRef) (first length : Nat)
  | write (window : Nat) (lines : List LineRef) (first : Nat) (data : List Byte)
  | inject (line : LineRef) (kind : InjectKind)
  | copyStep (source : List LineRef) (sourceFirst : Nat) (dest : LineRef) (destFirst length : Nat)
  | fillStep (dest : LineRef) (destFirst length : Nat) (pattern : Byte)
  | wipeStep (dest : LineRef)
  | scrub (line : LineRef) (poisonedAtGrant : Bool)
  deriving DecidableEq, Repr

/-- The access in flight (R95). -/
structure InFlight where
  requestor : Requestor
  work : Work
  deriving DecidableEq, Repr

/-! ### Links (R153, R154, R162) -/

/-- The flags of a status byte (R154); CQFULL, COMP, NOTE, LOST and REJ. -/
structure StatusFlags where
  state : PortState
  cqFull : Bool
  comp : Bool
  note : Bool
  lost : Bool
  rej : Bool
  deriving DecidableEq, Repr

/-- The STATUS record (R163, 12.4). -/
structure StatusRecord where
  flags : StatusFlags
  reason : Option RejectReason
  commands : Nat
  completions : Nat
  reservations : Nat
  notices : Nat
  noticeLost : Bool
  layoutPort : Bool
  frozen : Bool
  deriving DecidableEq, Repr

/-- A holder as WINDOW INFO reports it (R50, R209). -/
structure HolderInfo where
  port : Port
  remaining : Option Nat
  lowSent : Bool
  deriving DecidableEq, Repr

/-- A waiter as WINDOW INFO reports it (R50, R209). -/
structure WaiterInfo where
  port : Port
  kind : ClaimKind
  remaining : Option Nat
  tag : Byte
  deriving DecidableEq, Repr

/-- The WINDOW INFO record of a defined window (R166, R209). -/
structure WindowInfo where
  base : Nat
  length : Nat
  policy : Policy
  leasePeriod : Nat
  waitLimit : Nat
  activity : Activity
  claimState : ClaimState
  holders : List HolderInfo
  waiters : List WaiterInfo
  keyPresent : Bool
  level : Level
  unlocked : PerPort Bool
  attempts : Nat
  faults : FaultCounts
  deriving DecidableEq, Repr

/-- A channel as DEVICE INFO reports it: `none` when free (R167, R209). -/
structure ChannelInfo where
  kind : JobKind
  owner : Port
  bytesDone : Nat
  deriving DecidableEq, Repr

/-- The DEVICE INFO record, but for the fixed geometry (R167, R209). -/
structure DeviceInfo where
  frozen : Bool
  masterKeyPresent : Bool
  masterAttempts : Nat
  scrubEnabled : Bool
  scrubInterval : Nat
  scrubPointer : Nat
  correctedTotal : Nat
  poisonedNow : Nat
  retirementsTotal : Nat
  sparesFree : Nat
  sparesInUse : Nat
  sparesSpent : Nat
  suspectLength : Nat
  c0 : Option ChannelInfo
  c1 : Option ChannelInfo
  deriving DecidableEq, Repr

/-- The snapshot of an immediate frame (R162). -/
inductive Snapshot
  | status (r : StatusRecord)
  | collect (c : Option Completion)
  | fetchNotice (n : Option Notice)
  | windowInfo (index : Byte) (r : Option WindowInfo)
  | deviceInfo (r : DeviceInfo)
  deriving DecidableEq, Repr

/-- The state of a frame in progress (R153). The opcode is the first of `bytes`. -/
structure Frame where
  /-- the frame-start status byte (R154) -/
  start : StatusFlags
  bitCount : Nat
  /-- the complete bytes received, until a snapshot is taken -/
  bytes : List Byte
  /-- the bits of the byte in progress -/
  bits : List Bool
  snapshot : Option Snapshot
  deriving DecidableEq, Repr

/-- The decoder state of a link (R153): idle, select held asserted across a reset (R169), or a frame in
progress. -/
inductive Decoder
  | idle
  | waitRelease
  | frame (f : Frame)
  deriving DecidableEq, Repr

/-- A port link (R153). REJ is set exactly while there is a reject reason. -/
structure Link where
  decoder : Decoder
  reject : Option RejectReason
  deriving DecidableEq, Repr

/-! ### Port command units (R171, R190) -/

/-- An entry of a command queue (R171). -/
structure Entry where
  tag : Byte
  command : Command
  /-- the taken mark, carried by a head whose access is pending or in flight (R176) -/
  taken : Bool
  deriving DecidableEq, Repr

/-- A port command unit (R171) with its teardown record (R190) and its outstanding tags (R161). -/
structure Pcu where
  state : PortState
  queue : List Entry
  access : Option Access
  completions : List Completion
  reservations : Nat
  notices : List Notice
  noticeLost : Bool
  wipePrepared : Option Nat
  fetchMark : Option FetchMark
  accessAwaited : Bool
  jobsAwaited : Nat
  outstanding : List Byte
  deriving DecidableEq, Repr

/-! ### The array and its map (R108, R114, R117) -/

/-- A stored bit that disagrees with its word as last encoded (R108, R109). -/
structure Flip where
  phys : Nat
  word : Nat
  bit : StoredBit
  deriving DecidableEq, Repr

/-- An entry of the remap table (R117). -/
structure RemapEntry where
  line : Nat
  spare : Nat
  deriving DecidableEq, Repr

/-! ### The state -/

/-- The state of the part. -/
structure State where
  /-- the commands waiting for the block, oldest first (the model's own) -/
  pending : List Instr
  phase : Phase
  /-- the layout-port designation (R9) -/
  layoutPort : Port
  /-- the millisecond tick count (R204) -/
  msCount : Tick
  /-- the microsecond ticks since the last millisecond tick (R204): at 1,000 the millisecond tick falls
  (log 21) -/
  usCount : Nat
  /-- the sweep pointer (R200) -/
  sweepPointer : Nat
  links : PerPort Link
  pcus : PerPort Pcu
  /-- the window table (R1): an absent record is `none` -/
  windows : Vector (Option Window) 32
  masterKey : Option Key
  masterAttempts : Nat
  /-- the freeze flag (R63) -/
  frozen : Bool
  /-- the rotation pointer (R98) -/
  rotation : Slot
  scrubDue : Bool
  /-- the postponement count (R102) -/
  postponed : Nat
  inFlight : Option InFlight
  c0 : Option Job
  c1 : Option Job
  scrubEnabled : Bool
  scrubInterval : Nat
  /-- the scrub timer: stopped, or its remaining time in microseconds (R124) -/
  scrubTimer : Option Nat
  scrubPointer : Nat
  /-- the line state map (R122): the poisoned lines, strictly rising -/
  poisoned : List Nat
  /-- the suspect list, oldest first (R114) -/
  suspects : List Nat
  remap : List RemapEntry
  spares : Vector SpareState 16
  correctedTotal : Nat
  retirementsTotal : Nat
  /-- the bytes stored in the array, by physical byte (log 2) -/
  mem : List Host.Cell
  /-- the flipped stored bits, none twice -/
  flips : List Flip
  /-- the counter the free values are applied to (the model's own, log 10) -/
  draw : Nat
  deriving DecidableEq, Repr

/-- No command of the part ends in a fault: what fails completes with an outcome or is rejected with
a reason (12.3). Closed, with no constructor. -/
inductive Fault
  deriving DecidableEq, Repr

/-- The reasons a command has no meaning. -/
inductive Refusal
  /-- Raised by an arm of `exec` whose command has no meaning yet; safe: the model says nothing of
  it. No arm raises it now. -/
  | notModelled (mnemonic : String)
  deriving DecidableEq, Repr

/-- What a command answers. -/
abbrev Answer := Host.Outcome State Fault Refusal

/-! ### Reset values -/

/-- A port command unit after power-on or the release of RESET# (R172, R190, R161). -/
def Pcu.reset : Pcu :=
  { state := .init, queue := [], access := none, completions := [], reservations := 0, notices := [],
    noticeLost := false, wipePrepared := none, fetchMark := none, accessAwaited := false,
    jobsAwaited := 0, outstanding := [] }

/-- A link after power-on or the release of RESET#, with SELn# released (R153). -/
def Link.reset : Link := { decoder := .idle, reject := none }

/-- The part right after power-on with RESET# released and LSEL[1:0] strapped to P0 (R198, R199; the
strap is log 1, the array's contents are log 2, the phase of the two tick sources is log 21). -/
def State.reset : State :=
  { pending := []
    phase := .sweeping
    layoutPort := .p0
    msCount := 0#32
    usCount := 0
    sweepPointer := 0
    links := ⟨Link.reset, Link.reset, Link.reset, Link.reset⟩
    pcus := ⟨Pcu.reset, Pcu.reset, Pcu.reset, Pcu.reset⟩
    windows := Vector.replicate 32 none
    masterKey := none
    masterAttempts := 4
    frozen := false
    rotation := .port .p0
    scrubDue := false
    postponed := 0
    inFlight := none
    c0 := none
    c1 := none
    scrubEnabled := true
    scrubInterval := 100
    scrubTimer := none
    scrubPointer := 0
    poisoned := []
    suspects := []
    remap := []
    spares := Vector.replicate 16 .free
    correctedTotal := 0
    retirementsTotal := 0
    mem := []
    flips := []
    draw := 0 }

end Sys2Proof.Machine
end

