-- ==== Sys2Proof/Machine/Ops.lean ====
section
/-! DEFINITION. The named operations over the state: port, window and channel records, the array's
bytes, command queues, completions and notices. -/

namespace Sys2Proof.Machine

/-! ### One value per port -/

/-- The value of a port. -/
def PerPort.get {α : Type} (x : PerPort α) : Port → α
  | .p0 => x.p0
  | .p1 => x.p1
  | .p2 => x.p2
  | .p3 => x.p3

/-- The record with one port's value replaced. -/
def PerPort.set {α : Type} (x : PerPort α) (p : Port) (a : α) : PerPort α :=
  match p with
  | .p0 => { x with p0 := a }
  | .p1 => { x with p1 := a }
  | .p2 => { x with p2 := a }
  | .p3 => { x with p3 := a }

/-- The same value for every port. -/
def PerPort.const {α : Type} (a : α) : PerPort α := ⟨a, a, a, a⟩

/-! ### Records of the state -/

/-- The PCU of a port. -/
def State.pcu (s : State) (p : Port) : Pcu := s.pcus.get p

/-- Replaces the PCU of a port. -/
def State.setPcu (s : State) (p : Port) (u : Pcu) : State := { s with pcus := s.pcus.set p u }

/-- The link of a port. -/
def State.link (s : State) (p : Port) : Link := s.links.get p

/-- Replaces the link of a port. -/
def State.setLink (s : State) (p : Port) (l : Link) : State := { s with links := s.links.set p l }

/-- The window record at an index: `none` where it is absent, and for every index of 32 or more
(R7). -/
def State.window? (s : State) (i : Nat) : Option Window := (s.windows[i]?).join

/-- Replaces the window record at an index. -/
def State.setWindow (s : State) (i : Nat) (w : Option Window) : State :=
  { s with windows := s.windows.setIfInBounds i w }

/-- The job on a channel, if it holds one. -/
def State.job (s : State) : Channel → Option Job
  | .c0 => s.c0
  | .c1 => s.c1

/-- Replaces what a channel holds. -/
def State.setJob (s : State) (c : Channel) (j : Option Job) : State :=
  match c with
  | .c0 => { s with c0 := j }
  | .c1 => { s with c1 := j }

/-! ### The array's bytes: physical byte addresses, one canonical form (log 2) -/

/-- What a byte that nothing has written reads as (log 2). -/
def Memory.unlisted : Byte := 0#8

/-- The canonical form: addresses strictly rising, and no byte listed that equals an unlisted one. -/
def Memory.wf : List Host.Cell → Bool
  | [] => true
  | (a, b) :: m => b != Memory.unlisted && m.all (fun c => decide (a < c.1)) && Memory.wf m

/-- The byte stored at a physical byte address. -/
def Memory.read : List Host.Cell → Nat → Byte
  | [], _ => Memory.unlisted
  | (a, b) :: m, x => if a = x then b else Memory.read m x

/-- Stores one byte, keeping the canonical form. -/
def Memory.write : List Host.Cell → Nat → Byte → List Host.Cell
  | [], x, v => if v = Memory.unlisted then [] else [(x, v)]
  | (a, b) :: m, x, v =>
    if x < a then (if v = Memory.unlisted then (a, b) :: m else (x, v) :: (a, b) :: m)
    else if x = a then (if v = Memory.unlisted then m else (x, v) :: m)
    else (a, b) :: Memory.write m x v

/-- Stores bytes at consecutive addresses. -/
def Memory.writeBytes : List Host.Cell → Nat → List Byte → List Host.Cell
  | m, _, [] => m
  | m, a, b :: bs => Memory.writeBytes (Memory.write m a b) (a + 1) bs

/-- The bytes at `n` consecutive addresses. -/
def Memory.readBytes (m : List Host.Cell) (a n : Nat) : List Byte :=
  (List.range n).map (fun k => Memory.read m (a + k))

/-! ### Completions (R174, R181) -/

/-- A completion joins the tail of the completion queue, fills its reservation, and its tag stops
being outstanding (R181). -/
def Pcu.complete (u : Pcu) (c : Completion) : Pcu :=
  { u with
    completions := u.completions ++ [c]
    reservations := u.reservations - 1
    outstanding := u.outstanding.erase c.tag }

/-- Writes a completion into a port's completion queue (R181). -/
def State.complete (s : State) (p : Port) (c : Completion) : State :=
  s.setPcu p ((s.pcu p).complete c)

/-- The head of the command queue leaves it. -/
def Pcu.popHead (u : Pcu) : Pcu := { u with queue := u.queue.tail }

/-- The command at a port's queue head leaves the queue, its completion still to come (R177). -/
def State.leaveQueue (s : State) (p : Port) : State := s.setPcu p (s.pcu p).popHead

/-- The command at a port's queue head finishes in the event of its taking: its completion is
written, with neither data nor byte count, and it leaves the queue (R174, step 4). -/
def State.finish (s : State) (p : Port) (tag : Byte) (k : CommandKind) (o : OutcomeCode) : State :=
  s.setPcu p (((s.pcu p).popHead).complete ⟨tag, k, o, .none⟩)

/-- Whether a PCU takes its head command (R173). -/
def Pcu.takeable (u : Pcu) : Bool :=
  u.state == .ready
    && (match u.queue with
        | [] => false
        | e :: _ => !e.taken)
    && decide (u.completions.length + u.reservations < 8)

/-- The command that a port's PCU takes now, if it takes one (R173). -/
def State.dueHead (s : State) (p : Port) : Option Entry :=
  if (s.pcu p).takeable then (s.pcu p).queue.head? else none

/-- The first steps of every taking: the reservation, and the settling of the wipe-prepared record,
which every taking leaves clear (R174 steps 1 and 2, R67). -/
def State.beginTake (s : State) (p : Port) : State :=
  let u := s.pcu p
  s.setPcu p { u with reservations := u.reservations + 1, wipePrepared := none }

/-- The outcome of checks made in order: the first that fails gives the outcome, and OK stands when
every one passes. -/
def firstFail : List (Bool × OutcomeCode) → OutcomeCode
  | [] => .ok
  | (passes, o) :: rest => if passes then firstFail rest else o

/-- Every command that is refused or done at its taking: `effect` first when the checks pass, then the
completion with the outcome (R174, step 4). -/
def State.finishWith (s : State) (p : Port) (tag : Byte) (k : CommandKind) (o : OutcomeCode)
    (effect : State) : State :=
  if o = .ok then effect.finish p tag k .ok else s.finish p tag k o

/-! ### Counts -/

/-- A count that rises by one and stops at its top (R113, R120, R165, R185). -/
@[irreducible] def countUp (top n : Nat) : Nat := min top (n + 1)

/-! ### Notices (R183 to R187) -/

/-- Whether two notices are of one kind and one window (R185). -/
def Notice.sameKey : Notice → Notice → Bool
  | .leaseLow w, .leaseLow v => w == v
  | .leaseExpired w, .leaseExpired v => w == v
  | .claimRevoked w, .claimRevoked v => w == v
  | .linePoisoned w _ _, .linePoisoned v _ _ => w == v
  | .sparesExhausted, .sparesExhausted => true
  | _, _ => false

/-- A queued notice after a notice of its kind and window has coalesced with it: the count of a
LINE_POISONED rises, stopping at 255; the others keep their contents (R185). -/
def Notice.coalesced : Notice → Notice
  | .linePoisoned w l n => .linePoisoned w l (countUp 255 n)
  | n => n

/-- The line a LINE_POISONED names. -/
def Notice.line? : Notice → Option Nat
  | .linePoisoned _ l _ => some l
  | _ => none

/-- A fetch mark after `n` has coalesced with its notice: the repeat count rises, stopping at 255, and
the first repeat line is recorded (R165). -/
def FetchMark.repeated (m : FetchMark) (n : Notice) : FetchMark :=
  { m with repeats := countUp 255 m.repeats, repeatLine := m.repeatLine.or n.line? }

/-- The removal of every queued notice of one kind and window, which is then no longer under fetch
(R165, R186). -/
def Pcu.removeNotice (u : Pcu) (n : Notice) : Pcu :=
  { u with
    notices := u.notices.filter (fun m => !n.sameKey m)
    fetchMark := u.fetchMark.filter (fun m => !n.sameKey m.notice) }

/-- A LEASE_EXPIRED removes the LEASE_LOW of its window before it is stored (R186). -/
def Pcu.supersede (u : Pcu) : Notice → Pcu
  | .leaseExpired w => u.removeNotice (.leaseLow w)
  | _ => u

/-- The storing, coalescing or losing of a notice at a READY port, after any supersession (R185,
R187). -/
def Pcu.store (u : Pcu) (n : Notice) : Pcu :=
  if u.notices.any n.sameKey then
    { u with
      notices := u.notices.map (fun m => if n.sameKey m then m.coalesced else m)
      fetchMark := u.fetchMark.map (fun m => if n.sameKey m.notice then m.repeated n else m) }
  else if u.notices.length < 8 then { u with notices := u.notices ++ [n] }
  else { u with noticeLost := true }

/-- A notice reaches a port: stored by R185 to R187 at a READY port, and otherwise not kept (R183). -/
def Pcu.post (u : Pcu) (n : Notice) : Pcu :=
  if u.state = .ready then (u.supersede n).store n else u

/-- Posts a notice to one port (R183). -/
def State.post (s : State) (p : Port) (n : Notice) : State := s.setPcu p ((s.pcu p).post n)

/-- Posts a notice to every READY port (R119, R121). -/
def State.postAll (s : State) (n : Notice) : State := Port.all.foldl (fun s p => s.post p n) s

/-! ### The physical places of lines (R117) -/

/-- The physical line that holds a line: the spare of its remap entry, or its home place (R117). -/
def State.physOf (s : State) (line : Nat) : Nat :=
  match s.remap.find? (fun e => e.line == line) with
  | some e => 16384 + e.spare
  | none => line

/-- A line with its physical line as the remap table stands. -/
def State.lineRef (s : State) (line : Nat) : LineRef := ⟨line, s.physOf line⟩

/-- A write of a whole physical line with correct check codes: every flip it held is gone (R110). -/
def State.writeLine (s : State) (phys : Nat) (bytes : List Byte) : State :=
  { s with
    mem := Memory.writeBytes s.mem (64 * phys) bytes
    flips := s.flips.filter (fun f => f.phys != phys) }

end Sys2Proof.Machine
end

