-- ==== Sys2Proof/Machine/Operands.lean ====
section
/-! DEFINITION. The operand forms: the codes of the argument fields (12.3), window offsets and the
lines they name, and the bytes a run covers. -/

namespace Sys2Proof.Machine

/-! ### Field codes (12.3): a value absent from the table is undefined (R206) -/

/-- The policy a field names. -/
def policyOf (b : Byte) : Option Policy :=
  if b = 0#8 then some .free else if b = 1#8 then some .writeClaimed
  else if b = 2#8 then some .claimed else none

/-- The claim kind a field names. -/
def claimKindOf (b : Byte) : Option ClaimKind :=
  if b = 1#8 then some .read else if b = 2#8 then some .write else none

/-- The wait choice a field names: no or yes. -/
def waitChoiceOf (b : Byte) : Option Bool :=
  if b = 0#8 then some false else if b = 1#8 then some true else none

/-- The level a field names. -/
def levelOf (b : Byte) : Option Level :=
  if b = 0#8 then some .standard else if b = 1#8 then some .strict else none

/-- The selectors of UNLOCK and WIPE. -/
inductive Selector
  | none | window | master
  deriving DecidableEq, Repr

/-- The unlock selector a field names. -/
def unlockSelectorOf (b : Byte) : Option Selector :=
  if b = 1#8 then some .window else if b = 2#8 then some .master else Option.none

/-- The wipe selector a field names. -/
def wipeSelectorOf (b : Byte) : Option Selector :=
  if b = 0#8 then some .none else if b = 1#8 then some .window
  else if b = 2#8 then some .master else Option.none

/-- The INJECT kind a field names. -/
def injectKindOf (b : Byte) : Option InjectKind :=
  if b = 1#8 then some .one else if b = 2#8 then some .two else none

/-- The scrub enable a field names: DISABLED or ENABLED. -/
def enableOf (b : Byte) : Option Bool :=
  if b = 0#8 then some false else if b = 1#8 then some true else none

/-- Bit 0, 1 and 2 of the selection of SET WINDOW PARAMS: policy, lease period, wait limit (R206). -/
def selects (selection : Byte) (field : Nat) : Bool := selection.getLsbD field

/-- Whether a selection holds no undefined value: bits 7 to 3 are clear (R206). -/
def selectionDefined (selection : Byte) : Bool := selection &&& 0xF8#8 == 0#8

/-! ### Window offsets (R3) -/

/-- The size of a window in bytes (R3). -/
def Window.size (w : Window) : Nat := 64 * w.length

/-- The window-relative lines touched by `n` bytes from a byte offset (R3). -/
def lineSpan (offset n : Nat) : List Nat :=
  List.range' (offset / 64) ((offset + n - 1) / 64 + 1 - offset / 64)

/-- A run of bytes of a window that an access or a step reads or writes. -/
structure Run where
  window : Nat
  offset : Nat
  length : Nat
  deriving DecidableEq, Repr

/-- Whether a run includes all 64 bytes of a window-relative line (R83). -/
def Run.coversWhole (r : Run) (k : Nat) : Bool :=
  decide (r.offset ≤ 64 * k ∧ 64 * k + 64 ≤ r.offset + r.length)

/-- The bytes `new` laid over `old` from position `start`. -/
def splice (old : List Byte) (start : Nat) (new : List Byte) : List Byte :=
  old.take start ++ new ++ old.drop (start + new.length)

/-- The 64 bytes of the `j`-th line of a run of lines laid end to end. -/
def lineChunk (bytes : List Byte) (j : Nat) : List Byte := (bytes.drop (64 * j)).take 64

end Sys2Proof.Machine
end

