-- ==== Sys2Proof/Machine/Flags.lean ====
section
/-! DEFINITION. The status byte of a port, its attention output, and the numeric values of the codes
that records carry (12.3, 12.4). -/

namespace Sys2Proof.Machine

/-! ### Status byte and attention (R154, R188) -/

/-- The flags of a port's status byte as they stand (R154). -/
def State.statusFlags (s : State) (p : Port) : StatusFlags :=
  let u := s.pcu p
  { state := u.state
    cqFull := u.queue.length == 4
    comp := !u.completions.isEmpty
    note := !u.notices.isEmpty
    lost := u.noticeLost
    rej := (s.link p).reject.isSome }

/-- A flag at a bit position. -/
def flagBit (b : Bool) (k : Nat) : Byte := if b then 1#8 <<< k else 0#8

/-- The status byte: bit 7 READY, 6 INIT, 5 TEARDOWN, 4 CQFULL, 3 COMP, 2 NOTE, 1 LOST, 0 REJ (12.4). -/
def StatusFlags.byte (f : StatusFlags) : Byte :=
  flagBit (f.state == .ready) 7 ||| flagBit (f.state == .init) 6 ||| flagBit (f.state == .teardown) 5
    ||| flagBit f.cqFull 4 ||| flagBit f.comp 3 ||| flagBit f.note 2 ||| flagBit f.lost 1
    ||| flagBit f.rej 0

/-- Whether a port's ATNn# is asserted (R188). -/
def State.attention (s : State) (p : Port) : Bool :=
  let u := s.pcu p
  !u.completions.isEmpty || !u.notices.isEmpty || u.noticeLost

/-! ### Code values (12.3) -/

/-- The value of an outcome code. -/
def OutcomeCode.byte : OutcomeCode → Byte
  | .ok => 0x00#8
  | .wouldWait => 0x01#8
  | .timedOut => 0x02#8
  | .revoked => 0x03#8
  | .cancelled => 0x04#8
  | .noWindow => 0x10#8
  | .exists => 0x11#8
  | .outOfRange => 0x12#8
  | .overlap => 0x13#8
  | .badParameter => 0x14#8
  | .notLayoutPort => 0x15#8
  | .frozen => 0x16#8
  | .notClaimable => 0x20#8
  | .notHeld => 0x21#8
  | .alreadyHeld => 0x22#8
  | .busyWindow => 0x23#8
  | .locked => 0x30#8
  | .keyed => 0x31#8
  | .notKeyed => 0x32#8
  | .keyMismatch => 0x33#8
  | .barred => 0x34#8
  | .noMasterKey => 0x35#8
  | .notPrepared => 0x36#8
  | .noChannel => 0x40#8
  | .noJob => 0x41#8
  | .dataLost => 0x50#8

/-- The value of a reject reason, 00h for none. -/
def rejectByte : Option RejectReason → Byte
  | none => 0x00#8
  | some .notReady => 0x01#8
  | some .unknownOpcode => 0x02#8
  | some .badLength => 0x03#8
  | some .partialByte => 0x04#8
  | some .queueFull => 0x05#8
  | some .dupTag => 0x06#8

/-- The value of a policy. -/
def Policy.byte : Policy → Byte
  | .free => 0#8
  | .writeClaimed => 1#8
  | .claimed => 2#8

/-- The value of an activity. -/
def Activity.byte : Activity → Byte
  | .idle => 0#8
  | .wiping => 1#8

/-- The value of a claim state. -/
def ClaimState.byte : ClaimState → Byte
  | .unclaimed => 0#8
  | .readHeld => 1#8
  | .writeHeld => 2#8

/-- The value of a claim kind. -/
def ClaimKind.byte : ClaimKind → Byte
  | .read => 1#8
  | .write => 2#8

/-- The value of a level. -/
def Level.byte : Level → Byte
  | .standard => 0#8
  | .strict => 1#8

/-- The value of a port. -/
def portByte : Port → Byte
  | .p0 => 0#8
  | .p1 => 1#8
  | .p2 => 2#8
  | .p3 => 3#8

/-- The command kind of a job. -/
def JobKind.command : JobKind → CommandKind
  | .copy => .copy
  | .fill => .fill
  | .wipe => .wipe

/-- A flag as a whole byte, 00h or 01h. -/
def boolByte (b : Bool) : Byte := if b then 1#8 else 0#8

end Sys2Proof.Machine
end

