-- ==== Sys2Proof/Machine/Formats.lean ====
section
/-! DEFINITION. The output records of the immediate frames, byte by byte (12.4 to 12.6), and what the
blocks report in a snapshot (R162 to R167). -/

namespace Sys2Proof.Machine

/-! ### Records as bytes -/

/-- The STATUS record, 7 bytes (12.4). -/
def StatusRecord.bytes (r : StatusRecord) : List Byte :=
  [r.flags.byte, rejectByte r.reason, BitVec.ofNat 8 r.commands, BitVec.ofNat 8 r.completions,
    BitVec.ofNat 8 r.reservations, BitVec.ofNat 8 r.notices,
    flagBit r.noticeLost 0 ||| flagBit r.layoutPort 1 ||| flagBit r.frozen 2]

/-- The extra part of a completion record: a READ's data, or bytes done as a 3-byte number (R207). -/
def Extra.bytes : Extra → List Byte
  | .none => []
  | .data bs => bs
  | .count n => beBytes 3 n

/-- A completion record: tag, command kind, outcome, length of the extra part, extra part (R207). -/
def Completion.bytes (c : Completion) : List Byte :=
  [c.tag, c.kind.opcode, c.outcome.byte, BitVec.ofNat 8 c.extra.bytes.length] ++ c.extra.bytes

/-- What COLLECT shows: a completion record, or the empty record of four bytes of 00h (R207). -/
def collectBytes : Option Completion → List Byte
  | some c => c.bytes
  | none => [0#8, 0#8, 0#8, 0#8]

/-- A notice record, 5 bytes (R208). -/
def Notice.bytes : Notice → List Byte
  | .leaseLow w => [0x01#8, BitVec.ofNat 8 w, 0#8, 0#8, 0#8]
  | .leaseExpired w => [0x02#8, BitVec.ofNat 8 w, 0#8, 0#8, 0#8]
  | .claimRevoked w => [0x03#8, BitVec.ofNat 8 w, 0#8, 0#8, 0#8]
  | .linePoisoned w l n => [0x04#8, BitVec.ofNat 8 w] ++ beBytes 2 l ++ [BitVec.ofNat 8 n]
  | .sparesExhausted => [0x05#8, 0xFF#8, 0#8, 0#8, 0#8]

/-- What FETCH NOTICE shows: a notice record, or the empty record of five bytes of 00h (R208). -/
def fetchBytes : Option Notice → List Byte
  | some n => n.bytes
  | none => [0#8, 0#8, 0#8, 0#8, 0#8]

/-- A remaining time field: FFFFh marks a holder or waiter without a deadline (R209). -/
def remainingBytes : Option Nat → List Byte
  | some n => beBytes 2 n
  | none => [0xFF#8, 0xFF#8]

/-- The unlocked set as a byte: bit n set when Pn is in the set (R209). -/
def unlockedByte (u : PerPort Bool) : Byte :=
  flagBit u.p0 0 ||| flagBit u.p1 1 ||| flagBit u.p2 2 ||| flagBit u.p3 3

/-- A holder entry, 4 bytes (R209). -/
def HolderInfo.bytes (h : HolderInfo) : List Byte :=
  [portByte h.port] ++ remainingBytes h.remaining ++ [flagBit h.lowSent 0]

/-- A waiter entry, 5 bytes (R209). -/
def WaiterInfo.bytes (x : WaiterInfo) : List Byte :=
  [portByte x.port, x.kind.byte] ++ remainingBytes x.remaining ++ [x.tag]

/-- The bytes of a WINDOW INFO record from the base line on (R209). -/
def WindowInfo.bytes (r : WindowInfo) : List Byte :=
  beBytes 2 r.base ++ beBytes 2 r.length ++ [r.policy.byte] ++ beBytes 2 r.leasePeriod
    ++ beBytes 2 r.waitLimit ++ [r.activity.byte, r.claimState.byte]
    ++ [BitVec.ofNat 8 r.holders.length] ++ r.holders.flatMap HolderInfo.bytes
    ++ [BitVec.ofNat 8 r.waiters.length] ++ r.waiters.flatMap WaiterInfo.bytes
    ++ [boolByte r.keyPresent, r.level.byte, unlockedByte r.unlocked, BitVec.ofNat 8 r.attempts]
    ++ beBytes 2 r.faults.corrected ++ beBytes 2 r.faults.poisonings
    ++ beBytes 1 r.faults.retirements

/-- A WINDOW INFO record: the index as carried, the defined byte, and the rest (R209). -/
def windowInfoBytes (index : Byte) : Option WindowInfo → List Byte
  | none => [index, 0#8]
  | some r => [index, 1#8] ++ r.bytes

/-- The state, owner and bytes done of a channel, 5 bytes; all 0 when it is free (R209, 12.3). -/
def channelBytes : Option ChannelInfo → List Byte
  | none => [0#8, 0#8, 0#8, 0#8, 0#8]
  | some c => [c.kind.command.opcode, portByte c.owner] ++ beBytes 3 c.bytesDone

/-- The DEVICE INFO record, 33 bytes (R209). -/
def DeviceInfo.bytes (r : DeviceInfo) : List Byte :=
  beBytes 2 Config.lines ++ beBytes 1 Config.lineBytes ++ beBytes 1 Config.spares
    ++ beBytes 1 Config.windows
    ++ [flagBit r.frozen 0 ||| flagBit r.masterKeyPresent 1, BitVec.ofNat 8 r.masterAttempts,
        boolByte r.scrubEnabled]
    ++ beBytes 2 r.scrubInterval ++ beBytes 2 r.scrubPointer ++ beBytes 4 r.correctedTotal
    ++ beBytes 2 r.poisonedNow ++ beBytes 1 r.retirementsTotal ++ beBytes 1 r.sparesFree
    ++ beBytes 1 r.sparesInUse ++ beBytes 1 r.sparesSpent ++ beBytes 1 r.suspectLength
    ++ channelBytes r.c0 ++ channelBytes r.c1

/-- The bytes of a snapshot's record, in the order in which they are shifted out (R155, R162). -/
def Snapshot.bytes : Snapshot → List Byte
  | .status r => r.bytes
  | .collect c => collectBytes c
  | .fetchNotice n => fetchBytes n
  | .windowInfo i r => windowInfoBytes i r
  | .deviceInfo r => r.bytes

/-! ### What a snapshot reports -/

/-- The STATUS record of a port as it stands (R163). -/
def State.statusRecord (s : State) (p : Port) : StatusRecord :=
  let u := s.pcu p
  { flags := s.statusFlags p
    reason := (s.link p).reject
    commands := u.queue.length
    completions := u.completions.length
    reservations := u.reservations
    notices := u.notices.length
    noticeLost := u.noticeLost
    layoutPort := s.layoutPort == p
    frozen := s.frozen }

/-- A remaining time in milliseconds: the deadline less the count, modulo 4,294,967,296 (R204). -/
def remainingMs (now deadline : Tick) : Nat := (deadline - now).toNat

/-- The holders as WINDOW INFO reports them, in ascending order of port (R50, R209). -/
def Window.holderInfos (w : Window) (now : Tick) : List HolderInfo :=
  Port.all.filterMap (fun p =>
    (w.holders.get p).map (fun h => ⟨p, h.deadline.map (remainingMs now), h.lowSent⟩))

/-- A defined window as WINDOW INFO reports it; no byte of its key (R166). -/
def Window.info (w : Window) (now : Tick) : WindowInfo :=
  { base := w.base
    length := w.length
    policy := w.policy
    leasePeriod := w.leasePeriod
    waitLimit := w.waitLimit
    activity := w.activity
    claimState := w.claimState
    holders := w.holderInfos now
    waiters := w.waiters.map (fun x => ⟨x.port, x.kind, x.deadline.map (remainingMs now), x.tag⟩)
    keyPresent := w.guard.key.isSome
    level := w.guard.level
    unlocked := w.guard.unlocked
    attempts := w.guard.attempts
    faults := w.faults }

/-- A channel as DEVICE INFO reports it (R133, R167). -/
def State.channelInfo (s : State) (c : Channel) : Option ChannelInfo :=
  (s.job c).map (fun j => ⟨j.kind, j.owner, j.bytesDone⟩)

/-- How many spares are in a state (R129). -/
def State.spareCount (s : State) (x : SpareState) : Nat := s.spares.toList.count x

/-- The DEVICE INFO record as the blocks hold it (R167). -/
def State.deviceInfo (s : State) : DeviceInfo :=
  { frozen := s.frozen
    masterKeyPresent := s.masterKey.isSome
    masterAttempts := s.masterAttempts
    scrubEnabled := s.scrubEnabled
    scrubInterval := s.scrubInterval
    scrubPointer := s.scrubPointer
    correctedTotal := s.correctedTotal
    poisonedNow := s.poisoned.length
    retirementsTotal := s.retirementsTotal
    sparesFree := s.spareCount .free
    sparesInUse := s.spareCount .inUse
    sparesSpent := s.spareCount .spent
    suspectLength := s.suspects.length
    c0 := s.channelInfo .c0
    c1 := s.channelInfo .c1 }

end Sys2Proof.Machine
end

