-- ==== Sys2Proof/Machine/Claims.lean ====
section
/-! DEFINITION. Claims, waiters and leases (chapter 2): the grant pass, revocation, touches, the
takings of CLAIM, RELEASE and RENEW, and the lease and wait timer events. -/

namespace Sys2Proof.Machine

/-! ### The claim part of a window -/

/-- Whether a port is a holder of a window. -/
def Window.holds (w : Window) (p : Port) : Bool := (w.holders.get p).isSome

/-- Whether a port holds the write claim of a window (R23). -/
def Window.holdsWrite (w : Window) (p : Port) : Bool := w.claimState == .writeHeld && w.holds p

/-- Whether a port is in a window's waiter queue. -/
def Window.waits (w : Window) (p : Port) : Bool := w.waiters.any (fun x => x.port == p)

/-- Whether a window has no holders. -/
def Window.noHolders (w : Window) : Bool := Port.all.all (fun p => !w.holds p)

/-- The guard check of a window for a port (R53). -/
def Window.guardPasses (w : Window) (p : Port) : Bool :=
  w.guard.key.isNone || w.guard.unlocked.get p

/-- The lease of a term that begins now under a period (R39). -/
def newLease (period : Nat) (now : Tick) : Lease :=
  if period = 0 then { deadline := none, lowPoint := none, lowSent := false }
  else
    { deadline := some (now + BitVec.ofNat 32 period)
      lowPoint := if 1 ≤ period / 4 then some (period / 4) else none
      lowSent := false }

/-- A term begins for a port's holder entry, which it makes present (R39). -/
def Window.beginTerm (w : Window) (p : Port) (now : Tick) : Window :=
  { w with holders := w.holders.set p (some (newLease w.leasePeriod now)) }

/-- The claim state of a window on which a claim of a kind is granted (R28). -/
def ClaimKind.held : ClaimKind → ClaimState
  | .read => .readHeld
  | .write => .writeHeld

/-- A port becomes a holder of a kind (R28, R33). -/
def Window.grantClaim (w : Window) (p : Port) (k : ClaimKind) (now : Tick) : Window :=
  { w.beginTerm p now with claimState := k.held }

/-- A port's holder entry leaves the set of holders; the claim state follows (R36). -/
def Window.removeHolder (w : Window) (p : Port) : Window :=
  let w' := { w with holders := w.holders.set p none }
  { w' with claimState := if w'.noHolders then .unclaimed else w.claimState }

/-- A port's waiter entry leaves the queue. -/
def Window.removeWaiter (w : Window) (p : Port) : Window :=
  { w with waiters := w.waiters.filter (fun x => x.port != p) }

/-- The claim part emptied (R48). -/
def Window.clearClaims (w : Window) : Window :=
  { w with claimState := .unclaimed, holders := PerPort.const none, waiters := [] }

/-! ### The grant pass (R31 to R33) -/

/-- The waiters that a grant pass grants, from the head of the queue (R32). -/
def Window.passGrants (w : Window) : List Waiter :=
  let readers := w.waiters.takeWhile (fun x => x.kind == .read)
  match w.claimState with
  | .writeHeld => []
  | .readHeld => readers
  | .unclaimed =>
    match w.waiters with
    | [] => []
    | x :: _ => if x.kind = .write then [x] else readers

/-- The window after a grant pass: the granted waiters are holders, in queue order (R33). -/
def Window.afterPass (w : Window) (now : Tick) : Window :=
  w.passGrants.foldl (fun v x => v.grantClaim x.port x.kind now)
    { w with waiters := w.waiters.drop w.passGrants.length }

/-- A waiting CLAIM completes in the slot it reserved (R33, R34, R37, R48). -/
def State.completeWait (s : State) (x : Waiter) (o : OutcomeCode) : State :=
  s.complete x.port ⟨x.tag, .claim, o, .none⟩

/-- A grant pass on a window: each waiter granted becomes a holder and its CLAIM completes OK (R31 to
R33). -/
def State.grantPass (s : State) (i : Nat) : State :=
  match s.window? i with
  | none => s
  | some w =>
    w.passGrants.foldl (fun t x => t.completeWait x .ok) (s.setWindow i (some (w.afterPass s.msCount)))

/-! ### Revocation and touch -/

/-- Revocation of every claim and every wait on a window (R48). -/
def State.revoke (s : State) (i : Nat) : State :=
  match s.window? i with
  | none => s
  | some w =>
    let s₁ := Port.all.foldl (fun t p => if w.holds p then t.post p (.claimRevoked i) else t) s
    let s₂ := w.waiters.foldl (fun t x => t.completeWait x .revoked) s₁
    s₂.setWindow i (some w.clearClaims)

/-- The touch: a new term of the claim that the port holds on a window at this moment, if it holds
one (R41). -/
def State.touch (s : State) (p : Port) (i : Nat) : State :=
  match s.window? i with
  | none => s
  | some w => if w.holds p then s.setWindow i (some (w.beginTerm p s.msCount)) else s

/-! ### CLAIM (R27 to R29) -/

/-- The checks of CLAIM, in order (R27). -/
def claimOutcome (s : State) (p : Port) (index kind wait : Byte) : OutcomeCode :=
  let w? := s.window? index.toNat
  firstFail
    [ (w?.isSome, .noWindow),
      (w?.any (fun w => w.activity == .idle), .busyWindow),
      (w?.any (fun w => w.policy != .free), .notClaimable),
      (w?.any (fun w => w.guardPasses p), .locked),
      (w?.any (fun w => !w.holds p && !w.waits p), .alreadyHeld),
      ((claimKindOf kind).isSome && (waitChoiceOf wait).isSome, .badParameter) ]

/-- Whether a claim of a kind is grantable (R28). -/
def Window.grantable (w : Window) : ClaimKind → Bool
  | .read => w.claimState != .writeHeld && w.waiters.isEmpty
  | .write => w.noHolders && w.waiters.isEmpty

/-- The entry with which a CLAIM joins the waiter queue (R29). -/
def Window.newWaiter (w : Window) (p : Port) (k : ClaimKind) (tag : Byte) (now : Tick) : Waiter :=
  { port := p
    kind := k
    deadline := if w.waitLimit = 0 then none else some (now + BitVec.ofNat 32 w.waitLimit)
    tag := tag }

/-- A CLAIM that has passed its checks is granted, completes WOULD_WAIT, or joins the waiter queue
(R28, R29). -/
def claimDecide (s : State) (p : Port) (tag index : Byte) (k : ClaimKind) (wait : Bool)
    (w : Window) : State :=
  if w.grantable k then
    (s.setWindow index.toNat (some (w.grantClaim p k s.msCount))).finish p tag .claim .ok
  else if wait then
    (s.setWindow index.toNat
      (some { w with waiters := w.waiters ++ [w.newWaiter p k tag s.msCount] })).leaveQueue p
  else s.finish p tag .claim .wouldWait

/-- Carrying out CLAIM at its taking (R27 to R29). -/
def doClaim (s : State) (p : Port) (tag index kind wait : Byte) : State :=
  if claimOutcome s p index kind wait = .ok then
    match s.window? index.toNat, claimKindOf kind, waitChoiceOf wait with
    | some w, some k, some c => claimDecide s p tag index k c w
    | _, _, _ => s
  else s.finish p tag .claim (claimOutcome s p index kind wait)

/-! ### RELEASE and RENEW (R36 to R40) -/

/-- Carrying out RELEASE at its taking: the end of a claim (R36), the cancelling of a wait (R37), or
NOT_HELD (R38). -/
def doRelease (s : State) (p : Port) (tag index : Byte) : State :=
  let i := index.toNat
  match s.window? i with
  | none => s.finish p tag .release .notHeld
  | some w =>
    if w.holds p then
      ((s.setWindow i (some (w.removeHolder p))).finish p tag .release .ok).grantPass i
    else
      match w.waiters.find? (fun x => x.port == p) with
      | some x =>
        (((s.setWindow i (some (w.removeWaiter p))).completeWait x .cancelled).finish p tag
          .release .ok).grantPass i
      | none => s.finish p tag .release .notHeld

/-- Carrying out RENEW at its taking (R40). -/
def doRenew (s : State) (p : Port) (tag index : Byte) : State :=
  match s.window? index.toNat with
  | none => s.finish p tag .renew .notHeld
  | some w =>
    if w.holds p then
      (s.setWindow index.toNat (some (w.beginTerm p s.msCount))).finish p tag .renew .ok
    else s.finish p tag .renew .notHeld

/-- Taking CLAIM from a port's queue head (R27, R174). -/
def execClaim (p : Port) (s : State) : Answer :=
  match s.dueHead p with
  | some ⟨tag, .claim index kind wait, _⟩ => .next (doClaim (s.beginTake p) p tag index kind wait)
  | _ => .next s

/-- Taking RELEASE from a port's queue head (R36, R174). -/
def execRelease (p : Port) (s : State) : Answer :=
  match s.dueHead p with
  | some ⟨tag, .release index, _⟩ => .next (doRelease (s.beginTake p) p tag index)
  | _ => .next s

/-- Taking RENEW from a port's queue head (R40, R174). -/
def execRenew (p : Port) (s : State) : Answer :=
  match s.dueHead p with
  | some ⟨tag, .renew index, _⟩ => .next (doRenew (s.beginTake p) p tag index)
  | _ => .next s

/-! ### Lease-low points, lease expiries and wait expiries (R34, R42, R43) -/

/-- Whether a holder's lease-low point is reached at this tick, its notice still to be posted
(R42). -/
def Lease.lowDue (l : Lease) (now : Tick) : Bool :=
  match l.deadline, l.lowPoint with
  | some d, some q => remainingMs now d == q && !l.lowSent
  | _, _ => false

/-- Whether a deadline is reached at this tick (R34, R43). -/
def reached (deadline : Option Tick) (now : Tick) : Bool := deadline == some now

/-- The lease-low point of a holder: LEASE_LOW is posted and the mark set (R42); nothing where no such
point is reached. -/
def State.leaseLow (s : State) (i : Nat) (p : Port) : State :=
  match s.window? i with
  | none => s
  | some w =>
    match w.holders.get p with
    | none => s
    | some l =>
      if l.lowDue s.msCount then
        (s.setWindow i (some { w with holders := w.holders.set p (some { l with lowSent := true }) })).post
          p (.leaseLow i)
      else s

/-- The expiry of a holder's lease: the claim ends, LEASE_EXPIRED is posted, a grant pass is made
(R43); nothing where no lease has reached its deadline. -/
def State.leaseExpire (s : State) (i : Nat) (p : Port) : State :=
  match s.window? i with
  | none => s
  | some w =>
    match w.holders.get p with
    | none => s
    | some l =>
      if reached l.deadline s.msCount then
        ((s.setWindow i (some (w.removeHolder p))).post p (.leaseExpired i)).grantPass i
      else s

/-- The expiry of a wait: its CLAIM completes TIMED_OUT and a grant pass follows (R34); nothing where
no wait has reached its deadline. -/
def State.waitExpire (s : State) (i : Nat) (p : Port) : State :=
  match s.window? i with
  | none => s
  | some w =>
    match w.waiters.find? (fun x => x.port == p) with
    | none => s
    | some x =>
      if reached x.deadline s.msCount then
        ((s.setWindow i (some (w.removeWaiter p))).completeWait x .timedOut).grantPass i
      else s

/-- LEASE_LOW_POINT (R42). -/
def execLeaseLowPoint (i : Nat) (p : Port) (s : State) : Answer := .next (s.leaseLow i p)

/-- LEASE_EXPIRY (R43). -/
def execLeaseExpiry (i : Nat) (p : Port) (s : State) : Answer := .next (s.leaseExpire i p)

/-- WAIT_EXPIRY (R34). -/
def execWaitExpiry (i : Nat) (p : Port) (s : State) : Answer := .next (s.waitExpire i p)

end Sys2Proof.Machine
end

