-- ==== Sys2Proof/Machine/Integrity.lean ====
section
/-! DEFINITION. The integrity unit (chapter 6): what the engine finds when it reads a physical line,
correction, the suspect list, retirement, poison, fault records and the stored flips. -/

namespace Sys2Proof.Machine

/-! ### Reading a physical line (R109) -/

/-- The flipped bits of one word of a physical line. -/
def State.wordFlips (s : State) (phys word : Nat) : List Flip :=
  s.flips.filter (fun f => f.phys == phys && f.word == word)

/-- The class of a word by its flipped bits: none, one, two, or more, where the class is a free value
(R109, log 10). -/
def State.wordClass (s : State) (phys word : Nat) : WordClass :=
  match (s.wordFlips phys word).length with
  | 0 => .clean
  | 1 => .single
  | 2 => .double
  | _ => Config.beyondClass s.draw phys word

/-- The data bit that the correction changes in a single word, if any: the flipped bit, where it is a
data bit and the only flip; a free value where three or more bits are flipped (R109, log 10). -/
def State.wordFix (s : State) (phys word : Nat) : Option (Fin 8 × Fin 8) :=
  match s.wordFlips phys word with
  | [f] =>
    match f.bit with
    | .data byte bit => some (byte, bit)
    | .code _ => none
  | _ => Config.beyondFix s.draw phys word

/-- The eight bytes of a word as stored. -/
def State.storedWord (s : State) (phys word : Nat) : List Byte :=
  Memory.readBytes s.mem (64 * phys + 8 * word) 8

/-- Changes one data bit of a word. -/
def toggleBit (bytes : List Byte) : Option (Fin 8 × Fin 8) → List Byte
  | none => bytes
  | some (byte, bit) => bytes.modify byte.val (fun b => b ^^^ (1#8 <<< bit.val))

/-- The eight bytes a word gives when read: corrected where it is single (R109). -/
def State.wordBytes (s : State) (phys word : Nat) : List Byte :=
  match s.wordClass phys word with
  | .single => toggleBit (s.storedWord phys word) (s.wordFix phys word)
  | _ => s.storedWord phys word

/-- The class of a line (R109). -/
inductive LineClass
  | clean | correctable | uncorrectable
  deriving DecidableEq, Repr

/-- The class in which the engine finds a physical line (R109). -/
def State.lineClass (s : State) (phys : Nat) : LineClass :=
  let classes := (List.range 8).map (s.wordClass phys)
  if classes.any (· == .double) then .uncorrectable
  else if classes.any (· == .single) then .correctable
  else .clean

/-- The 64 bytes a physical line gives when read, after correction (R85, R109). -/
def State.lineBytes (s : State) (phys : Nat) : List Byte :=
  (List.range 8).flatMap (s.wordBytes phys)

/-- A line as an access read it. -/
structure LineRead where
  ref : LineRef
  cls : LineClass
  bytes : List Byte
  deriving DecidableEq, Repr

/-- The engine reads a line at the physical line recorded at the grant (R94, R110). -/
def State.readLine (s : State) (r : LineRef) : LineRead :=
  { ref := r, cls := s.lineClass r.phys, bytes := s.lineBytes r.phys }

/-- Whether no line read is uncorrectable. -/
def readsGood (rs : List LineRead) : Bool := rs.all (fun r => r.cls != .uncorrectable)

/-- The bytes of the lines read, laid end to end. -/
def readBytes (rs : List LineRead) : List Byte := rs.flatMap LineRead.bytes

/-! ### Which window a line counts against (R2, R112) -/

/-- Whether a line belongs to a window (R2). -/
def Window.covers (w : Window) (line : Nat) : Bool :=
  decide (w.base ≤ line ∧ line < w.base + w.length)

/-- The index of the defined window a line belongs to now, if any (R2, R112). -/
def State.owner? (s : State) (line : Nat) : Option Nat :=
  (List.range 32).find? (fun i => (s.window? i).any (fun w => w.covers line))

/-- Changes the fault record of the window a line counts against (R112). -/
def State.countFault (s : State) (line : Nat) (f : FaultCounts → FaultCounts) : State :=
  match s.owner? line with
  | none => s
  | some i =>
    match s.window? i with
    | none => s
    | some w => s.setWindow i (some { w with faults := f w.faults })

/-! ### Correction, suspects and retirement (R113 to R119) -/

/-- The correction counts: the device's total and the window's count, each stopping at its top
(R113). -/
def State.countCorrection (s : State) (line : Nat) : State :=
  ({ s with correctedTotal := countUp 4294967295 s.correctedTotal }).countFault line
    (fun c => { c with corrected := countUp 65535 c.corrected })

/-- A line joins the suspect list at the tail; a full list loses its head (R115). -/
def joinSuspects (l : List Nat) (line : Nat) : List Nat :=
  if l.length < 32 then l ++ [line] else l.tail ++ [line]

/-- The lowest-numbered FREE spare (R116). -/
def State.freeSpare? (s : State) : Option Nat :=
  (List.range 16).find? (fun k => s.spares[k]? == some .free)

/-- The spare states after a line moves onto a spare: the new one IN-USE, the one its entry named
before SPENT (R116). -/
def State.sparesAfter (s : State) (line spare : Nat) : Vector SpareState 16 :=
  let inUse := s.spares.setIfInBounds spare .inUse
  match s.remap.find? (fun e => e.line == line) with
  | some e => inUse.setIfInBounds e.spare .spent
  | none => inUse

/-- The remap table after a line moves onto a spare: its entry updated, or an entry added (R116). -/
def remapAfter (t : List RemapEntry) (line spare : Nat) : List RemapEntry :=
  if t.any (fun e => e.line == line) then
    t.map (fun e => if e.line == line then { e with spare := spare } else e)
  else t ++ [⟨line, spare⟩]

/-- The retirement of a line onto a FREE spare, with the bytes the access writes to it (R116). -/
def State.retire (s : State) (line spare : Nat) (bytes : List Byte) : State :=
  (({ s with
      suspects := s.suspects.erase line
      spares := s.sparesAfter line spare
      remap := remapAfter s.remap line spare
      retirementsTotal := s.retirementsTotal + 1 }).countFault line
    (fun c => { c with retirements := c.retirements + 1 })).writeLine (16384 + spare) bytes

/-- The suspect list is consulted and the corrected or merged line rewritten: at its present place, or
at a spare when the line is due for retirement and one is FREE (R115, R116, R119). -/
def State.rewriteSuspect (s : State) (r : LineRef) (bytes : List Byte) : State :=
  if s.suspects.contains r.line then
    match s.freeSpare? with
    | some k => s.retire r.line k bytes
    | none => (s.postAll .sparesExhausted).writeLine r.phys bytes
  else ({ s with suspects := joinSuspects s.suspects r.line }).writeLine r.phys bytes

/-! ### Poison (R120 to R122) -/

/-- The line state map with a line's mark set, kept strictly rising (R122). -/
def insertRising : List Nat → Nat → List Nat
  | [], x => [x]
  | a :: l, x => if x < a then x :: a :: l else if x = a then a :: l else a :: insertRising l x

/-- A line found uncorrectable is marked poisoned, counted against its window and reported to every
READY port; an unassigned line is only marked (R120, R121). -/
def State.poisonLine (s : State) (line : Nat) : State :=
  let s₁ := { s with poisoned := insertRising s.poisoned line }
  match s.owner? line with
  | none => s₁
  | some i =>
    match s.window? i with
    | none => s₁
    | some w =>
      (s₁.countFault line (fun c => { c with poisonings := countUp 65535 c.poisonings })).postAll
        (.linePoisoned i (line - w.base) 1)

/-- The poison mark of a line written whole is cleared (R122). -/
def State.clearPoison (s : State) (line : Nat) : State :=
  { s with poisoned := s.poisoned.filter (fun l => l != line) }

/-- A write of a whole line that was not read: data and correct codes at its physical line, and its
poison cleared (R110, R122). -/
def State.overwriteLine (s : State) (r : LineRef) (bytes : List Byte) : State :=
  (s.writeLine r.phys bytes).clearPoison r.line

/-! ### The handling of the lines an access read (R110, R111) -/

/-- The integrity unit's handling of one line at the completion of the access that read it. `stored`
is what the access writes into the line (a merged line), where it writes it (R110, R111, R120). -/
def State.handleRead (s : State) (r : LineRead) (stored : Option (List Byte)) : State :=
  match r.cls with
  | .clean =>
    match stored with
    | some b => s.writeLine r.ref.phys b
    | none => s
  | .correctable => (s.countCorrection r.ref.line).rewriteSuspect r.ref (stored.getD r.bytes)
  | .uncorrectable => s.poisonLine r.ref.line

/-- The handling of every line read, one after another, in the order in which they were read; `merge`
gives what the access writes into a line it read, where it writes it (R111). -/
def State.handleReads (s : State) (rs : List LineRead) (merge : LineRef → Option (List Byte)) :
    State :=
  rs.foldl (fun t r => t.handleRead r (merge r.ref)) s

/-! ### Stored flips and planted errors (R92, R108, R127) -/

/-- The byte of the array that a stored data bit lies in. -/
def dataByteAddr (phys word : Nat) (byte : Fin 8) : Nat := 64 * phys + 8 * word + byte.val

/-- A stored bit flips: it disagrees with its word as last encoded from now on, or agrees again; a
data bit changes the stored byte (R108). -/
def State.flipBit (s : State) (f : Flip) : State :=
  let flips := if s.flips.contains f then s.flips.erase f else s.flips ++ [f]
  match f.bit with
  | .data byte bit =>
    let a := dataByteAddr f.phys f.word byte
    { s with
      flips := flips
      mem := Memory.write s.mem a (Memory.read s.mem a ^^^ (1#8 <<< bit.val)) }
  | .code _ => { s with flips := flips }

/-- STORED_BIT_FLIP (R108): an existing physical line and word, at any time. -/
def execStoredBitFlip (phys word : Nat) (bit : StoredBit) (s : State) : Answer :=
  if phys < 16400 ∧ word < 8 then .next (s.flipBit ⟨phys, word, bit⟩) else .next s

/-- The code bits that an INJECT leaves disagreeing with word 0's data (R92; the names are log 11). -/
def plantedFlips (phys : Nat) : InjectKind → List Flip
  | .one => [⟨phys, 0, .code 0⟩]
  | .two => [⟨phys, 0, .code 0⟩, ⟨phys, 0, .code 1⟩]

/-- An INJECT rewrites word 0's check code from word 0's data as stored: word 0 then holds exactly the
planted flips; everything else stays (R92, R127). -/
def State.plant (s : State) (phys : Nat) (k : InjectKind) : State :=
  { s with
    flips := s.flips.filter (fun f => !(f.phys == phys && f.word == 0)) ++ plantedFlips phys k }

end Sys2Proof.Machine
end

