-- ==== Sys2Proof/Machine/Jobs.lean ====
section
/-! DEFINITION. The transfer engine's job records (chapter 7): the shape of a step, and the end of a
job. -/

namespace Sys2Proof.Machine

/-- Whether a job names a window as source or destination (R133). -/
def Job.names (j : Job) (i : Nat) : Bool :=
  j.dest.window == i || (j.source.any (fun x => x.window == i))

/-- Whether the access in flight is the step of a channel. -/
def State.stepInFlight (s : State) (c : Channel) : Bool :=
  s.inFlight.any (fun f => f.requestor == .slot (.channel c))

/-- Whether the access in flight is the access of a port. -/
def State.accessInFlight (s : State) (p : Port) : Bool :=
  s.inFlight.any (fun f => f.requestor == .slot (.port p))

/-- The lowest-numbered free channel (R133). -/
def State.freeChannel? (s : State) : Option Channel :=
  if s.c0.isNone then some .c0 else if s.c1.isNone then some .c1 else none

/-- A job starts on the lowest-numbered free channel (R133, R137). -/
def State.startJob (s : State) (j : Job) : State :=
  match s.freeChannel? with
  | some c => s.setJob c (some j)
  | none => s

/-- The step a job presents: the destination run it writes (R139). -/
def Job.destRun (j : Job) : Run :=
  let remaining := j.total - j.bytesDone
  match j.direction with
  | .ascending =>
    let start := j.dest.offset + j.bytesDone
    { window := j.dest.window, offset := start, length := min remaining (64 - start % 64) }
  | .descending =>
    let stop := j.dest.offset + remaining
    let len := min remaining ((stop - 1) % 64 + 1)
    { window := j.dest.window, offset := stop - len, length := len }

/-- The source run of a COPY's step: the same length, at the same distance from the source offset
(R139). -/
def Job.sourceRun (j : Job) : Option Run :=
  j.source.map (fun x =>
    { window := x.window
      offset := x.offset + (j.destRun.offset - j.dest.offset)
      length := j.destRun.length })

/-- The direction of a COPY (R138). -/
def copyDirection (source dest : Place) (n : Nat) : Direction :=
  if source.window = dest.window ∧ source.offset < dest.offset ∧ dest.offset - source.offset < n then
    .descending
  else .ascending

/-- The end of a teardown when nothing is awaited (R195). -/
def Pcu.endTeardown (u : Pcu) : Pcu :=
  if u.state = .teardown ∧ u.accessAwaited = false ∧ u.jobsAwaited = 0 then { u with state := .ready }
  else u

/-- The end of a job: its channel is freed; its completion is written with bytes done, or, with report
DISCARD, its owner's teardown record is lowered, and a wipe's tag stops being outstanding (R146,
R195, R196). -/
def State.endJob (s : State) (c : Channel) (o : OutcomeCode) : State :=
  match s.job c with
  | none => s
  | some j =>
    let s₁ := s.setJob c none
    let u := s₁.pcu j.owner
    if j.deliver then s₁.complete j.owner ⟨j.tag, j.kind.command, o, .count j.bytesDone⟩
    else if j.kind = .wipe then
      s₁.setPcu j.owner { u with outstanding := u.outstanding.erase j.tag }
    else s₁.setPcu j.owner ({ u with jobsAwaited := u.jobsAwaited - 1 }).endTeardown

end Sys2Proof.Machine
end

