-- ==== Sys2Proof/Machine/Arbiter.lean ====
section
/-! DEFINITION. The array arbiter (chapter 5): requests, the rotation, the checks at the grant, the
start and the refusal of an access, and the scrub schedule. -/

namespace Sys2Proof.Machine

/-! ### Requests and the choice (R96, R98) -/

/-- The position after one, in the cyclic order P0, P1, P2, P3, C0, C1 (R98). -/
def Slot.next : Slot → Slot
  | .port .p0 => .port .p1
  | .port .p1 => .port .p2
  | .port .p2 => .port .p3
  | .port .p3 => .channel .c0
  | .channel .c0 => .channel .c1
  | .channel .c1 => .port .p0

/-- The six positions from one onward in cyclic order. -/
def Slot.around (x : Slot) : List Slot :=
  [x, x.next, x.next.next, x.next.next.next, x.next.next.next.next, x.next.next.next.next.next]

/-- Whether a rotation requestor has a request pending (R96): a port with a pending access not yet
granted; a channel whose job is RUNNING with no step in flight. -/
def State.requests (s : State) : Slot → Bool
  | .port p => (s.pcu p).access.isSome && !s.accessInFlight p
  | .channel c => (s.job c).any (fun j => j.state == .running) && !s.stepInFlight c

/-- The requestor the arbiter grants when the engine is free (R98). -/
def State.choose (s : State) : Option Requestor :=
  if s.scrubDue && s.postponed == 4 then some .scrub
  else
    match s.rotation.around.find? s.requests with
    | some x => some (.slot x)
    | none => if s.scrubDue then some .scrub else none

/-! ### The checks at the grant (R80, R82, R83, R140) -/

/-- The absolute lines that a run covers, from the window's base line as it stands (R3, R84). -/
def Window.lines (w : Window) (r : Run) : List Nat := (lineSpan r.offset r.length).map (w.base + ·)

/-- Whether a port holds what a READ or a WRITE needs under the window's policy (R82). -/
def Window.claimPasses (w : Window) (p : Port) (write : Bool) : Bool :=
  match w.policy with
  | .free => true
  | .writeClaimed => !write || w.holdsWrite p
  | .claimed => if write then w.holdsWrite p else w.holds p

/-- Whether no line the run covers is poisoned, except a line that a WRITE covers whole (R83). -/
def State.poisonPasses (s : State) (w : Window) (write : Bool) (r : Run) : Bool :=
  (lineSpan r.offset r.length).all
    (fun k => (write && r.coversWhole k) || !s.poisoned.contains (w.base + k))

/-- The six checks of a run, in order, for the port the access is made for (R80). -/
def State.runChecks (s : State) (p : Port) (write : Bool) (r : Run) : List Bool :=
  let w? := s.window? r.window
  [ w?.isSome,
    w?.any (fun w => w.activity == .idle),
    w?.any (fun w => decide (r.offset + r.length ≤ w.size)),
    w?.any (fun w => w.guardPasses p),
    w?.any (fun w => w.claimPasses p write),
    w?.any (fun w => s.poisonPasses w write r) ]

/-- The outcomes of the six checks when they fail (R80). -/
def runOutcomes : List OutcomeCode :=
  [.noWindow, .busyWindow, .outOfRange, .locked, .notHeld, .dataLost]

/-- The outcome of the grant checks of a READ or WRITE, or of a FILL step (R80, R140). -/
def State.runOutcome (s : State) (p : Port) (write : Bool) (r : Run) : OutcomeCode :=
  firstFail ((s.runChecks p write r).zip runOutcomes)

/-- The outcome of the grant checks of a COPY step: each check on the source and then on the
destination, before the next check (R140). -/
def State.copyOutcome (s : State) (p : Port) (src dst : Run) : OutcomeCode :=
  firstFail ((List.zipWith (· && ·) (s.runChecks p false src) (s.runChecks p true dst)).zip
    runOutcomes)

/-- The lines of a run with their physical lines, as the remap table stands at the grant (R84). -/
def State.runRefs (s : State) (r : Run) : List LineRef :=
  match s.window? r.window with
  | some w => (w.lines r).map s.lineRef
  | none => []

/-! ### Granting (R95, R99 to R103) -/

/-- An access starts: it is recorded in flight, and while the scrub-due flag is set the postponement
count rises (R95, R102). -/
def State.startAccess (s : State) (x : Slot) (work : Work) : State :=
  { s with
    inFlight := some { requestor := .slot x, work := work }
    postponed := if s.scrubDue then s.postponed + 1 else s.postponed }

/-- The end of a port's access: the completion is written and the head freed, or, where a teardown
awaits it, the completion is discarded and the teardown record lowered (R81, R89, R176, R195). -/
def State.endAccess (s : State) (p : Port) (k : CommandKind) (o : OutcomeCode) (e : Extra) : State :=
  let u := s.pcu p
  if u.accessAwaited then s.setPcu p ({ u with accessAwaited := false }).endTeardown
  else
    match u.access with
    | none => s
    | some a => s.setPcu p (({ u.popHead with access := none }).complete ⟨a.tag, k, o, e⟩)

/-- The grant to a port's pending access: checked, then started or refused (R80, R81, R91, R99). -/
def State.grantPort (s : State) (p : Port) : State :=
  match (s.pcu p).access with
  | none => s
  | some a =>
    match a.body with
    | .read w o n =>
      let run : Run := { window := w, offset := o, length := n }
      if s.runOutcome p false run = .ok then
        s.startAccess (.port p) (.read w (s.runRefs run) (o % 64) n)
      else s.endAccess p .read (s.runOutcome p false run) .none
    | .write w o data =>
      let run : Run := { window := w, offset := o, length := data.length }
      if s.runOutcome p true run = .ok then
        s.startAccess (.port p) (.write w (s.runRefs run) (o % 64) data)
      else s.endAccess p .write (s.runOutcome p true run) .none
    | .inject line k => s.startAccess (.port p) (.inject (s.lineRef line) k)

/-- The step of a job at its grant: checked, then started or refused, which ends the job (R140, R141,
R149). -/
def State.grantChannel (s : State) (c : Channel) : State :=
  match s.job c with
  | none => s
  | some j =>
    let dst := j.destRun
    match j.kind, j.sourceRun, s.window? dst.window with
    | .copy, some src, some w =>
      if s.copyOutcome j.owner src dst = .ok then
        s.startAccess (.channel c)
          (.copyStep (s.runRefs src) (src.offset % 64) (s.lineRef (w.base + dst.offset / 64))
            (dst.offset % 64) dst.length)
      else s.endJob c (s.copyOutcome j.owner src dst)
    | .fill, _, some w =>
      if s.runOutcome j.owner true dst = .ok then
        s.startAccess (.channel c)
          (.fillStep (s.lineRef (w.base + dst.offset / 64)) (dst.offset % 64) dst.length
            (j.pattern.getD 0#8))
      else s.endJob c (s.runOutcome j.owner true dst)
    | .wipe, _, some w =>
      s.startAccess (.channel c) (.wipeStep (s.lineRef (w.base + dst.offset / 64)))
    | _, _, _ => s.endJob c .noWindow

/-- The grant to the scrubber: the flag and the count are cleared and a scrub read of the line at the
scrub pointer starts (R103, R123). -/
def State.grantScrub (s : State) : State :=
  { s with
    scrubDue := false
    postponed := 0
    inFlight := some
      { requestor := .scrub
        work := .scrub (s.lineRef s.scrubPointer) (s.poisoned.contains s.scrubPointer) } }

/-- The grant to a requestor; a grant in the rotation moves the pointer past it, whether it starts an
access or is refused (R98, R100). -/
def State.grantTo (s : State) : Requestor → State
  | .scrub => s.grantScrub
  | .slot (.port p) => ({ s with rotation := (Slot.port p).next }).grantPort p
  | .slot (.channel c) => ({ s with rotation := (Slot.channel c).next }).grantChannel c

/-- The arbiter's choice and its grant, where a request is pending (R98). -/
def State.grantNow (s : State) : State :=
  match s.choose with
  | some r => s.grantTo r
  | none => s

/-- The arrival of a request in an event: where the engine was free and no request was pending before
the event, a request that the event made pending is granted in it (R97). That "no other request is
pending" is judged by the state before the event is the model's choice where one event withdraws the
only other request and makes its own pending, as a wipe start that ends a revoked job may: there the
new request is left to the row GRANT (log 22). -/
def arrive (before after : State) : State :=
  if before.inFlight.isNone && before.choose.isNone then after.grantNow else after

/-! ### The scrub timer (R101, R124) -/

/-- What the arbiter makes of an expiry of the scrub timer: the flag is set, or an overrun sets the
postponement count to 4 (R101). -/
def State.scrubSignal (s : State) : State :=
  if s.scrubDue then { s with postponed := 4 } else { s with scrubDue := true }

/-- An expiry of the scrub timer: it restarts with the stored interval and the arbiter is told (R101,
R124); the scrubber may be granted at once (R97). -/
def State.scrubExpire (s : State) : State :=
  arrive s ({ s with scrubTimer := some s.scrubInterval }).scrubSignal

/-- SCRUB_TIMER_EXPIRY: the remaining time of a running timer has reached 0 (R124). -/
def execScrubTimerExpiry (s : State) : Answer :=
  if s.scrubTimer = some 0 then .next s.scrubExpire else .next s

end Sys2Proof.Machine
end

