-- ==== Sys2Proof/Machine/Windows.lean ====
section
/-! DEFINITION. The layout commands of the window manager (chapter 1): DEFINE WINDOW, SET WINDOW
PARAMS and DELETE WINDOW. -/

namespace Sys2Proof.Machine

/-- The two checks every layout command but FREEZE makes first (R10). -/
def State.layoutChecks (s : State) (p : Port) : List (Bool × OutcomeCode) :=
  [(s.layoutPort == p, .notLayoutPort), (!s.frozen, .frozen)]

/-- Whether no line of a range belongs to a defined window (R12, check 6). -/
def State.rangeFree (s : State) (base length : Nat) : Bool :=
  (List.range 32).all (fun i =>
    !(s.window? i).any (fun w => decide (base < w.base + w.length ∧ w.base < base + length)))

/-- The checks of DEFINE WINDOW, in order (R12). -/
def defineOutcome (s : State) (p : Port) (index : Byte) (base length : BitVec 16) (policy : Byte)
    (lease wait : BitVec 16) : OutcomeCode :=
  firstFail (s.layoutChecks p ++
    [ (decide (index.toNat < 32), .badParameter),
      ((s.window? index.toNat).isNone, .exists),
      (decide (1 ≤ length.toNat ∧ base.toNat + length.toNat ≤ 16384), .outOfRange),
      (s.rangeFree base.toNat length.toNat, .overlap),
      ((policyOf policy).isSome && decide (lease.toNat ≤ 4095 ∧ wait.toNat ≤ 4095),
        .badParameter) ])

/-- The guard record of a new window: no key, an empty unlocked set, attempts 4 (R13). -/
def Guard.fresh : Guard :=
  { key := none, level := .standard, unlocked := PerPort.const false, attempts := 4 }

/-- A new window record (R13). -/
def Window.fresh (base length : Nat) (policy : Policy) (lease wait : Nat) : Window :=
  { base := base
    length := length
    policy := policy
    leasePeriod := lease
    waitLimit := wait
    activity := .idle
    claimState := .unclaimed
    holders := PerPort.const none
    waiters := []
    guard := Guard.fresh
    faults := { corrected := 0, poisonings := 0, retirements := 0 } }

/-- Carrying out DEFINE WINDOW at its taking (R12, R13). -/
def doDefineWindow (s : State) (p : Port) (tag index : Byte) (base length : BitVec 16)
    (policy : Byte) (lease wait : BitVec 16) : State :=
  s.finishWith p tag .defineWindow (defineOutcome s p index base length policy lease wait)
    (s.setWindow index.toNat
      ((policyOf policy).map (fun pol =>
        Window.fresh base.toNat length.toNat pol lease.toNat wait.toNat)))

/-- Whether the selection of SET WINDOW PARAMS selects a policy other than a window's own (R16). -/
def changesPolicy (w : Window) (selection policy : Byte) : Bool :=
  selects selection 0 && policyOf policy != some w.policy

/-- The checks of SET WINDOW PARAMS, in order (R16). -/
def paramsOutcome (s : State) (p : Port) (index selection policy : Byte) (lease wait : BitVec 16) :
    OutcomeCode :=
  let w? := s.window? index.toNat
  firstFail (s.layoutChecks p ++
    [ (decide (index.toNat < 32), .badParameter),
      (w?.isSome, .noWindow),
      (selectionDefined selection
        && (!selects selection 0 || (policyOf policy).isSome)
        && (!selects selection 1 || decide (lease.toNat ≤ 4095))
        && (!selects selection 2 || decide (wait.toNat ≤ 4095)), .badParameter),
      (w?.any (fun w => !changesPolicy w selection policy
        || (w.activity == .idle && w.noHolders && w.waiters.isEmpty)), .busyWindow),
      (w?.any (fun w => !changesPolicy w selection policy
        || policyOf policy != some .free || w.guard.key.isNone), .keyed) ])

/-- A window with its selected parameters changed (R16). -/
def Window.withParams (w : Window) (selection policy : Byte) (lease wait : BitVec 16) : Window :=
  { w with
    policy := if selects selection 0 then (policyOf policy).getD w.policy else w.policy
    leasePeriod := if selects selection 1 then lease.toNat else w.leasePeriod
    waitLimit := if selects selection 2 then wait.toNat else w.waitLimit }

/-- Carrying out SET WINDOW PARAMS at its taking (R16, R17). -/
def doSetWindowParams (s : State) (p : Port) (tag index selection policy : Byte)
    (lease wait : BitVec 16) : State :=
  s.finishWith p tag .setWindowParams (paramsOutcome s p index selection policy lease wait)
    (s.setWindow index.toNat
      ((s.window? index.toNat).map (fun w => w.withParams selection policy lease wait)))

/-- Whether a job on either channel names a window (R19). -/
def State.jobNames (s : State) (i : Nat) : Bool :=
  s.c0.any (fun j => j.names i) || s.c1.any (fun j => j.names i)

/-- The checks of DELETE WINDOW, in order (R19). -/
def deleteOutcome (s : State) (p : Port) (index : Byte) : OutcomeCode :=
  let w? := s.window? index.toNat
  firstFail (s.layoutChecks p ++
    [ (decide (index.toNat < 32), .badParameter),
      (w?.isSome, .noWindow),
      (w?.any (fun w => w.guard.key.isNone), .keyed),
      (w?.any (fun w => w.activity == .idle) && !s.jobNames index.toNat, .busyWindow) ])

/-- Carrying out DELETE WINDOW at its taking: every claim and wait is revoked and the record becomes
absent (R19, R20). -/
def doDeleteWindow (s : State) (p : Port) (tag index : Byte) : State :=
  s.finishWith p tag .deleteWindow (deleteOutcome s p index)
    ((s.revoke index.toNat).setWindow index.toNat none)

/-- Taking DEFINE WINDOW from a port's queue head (R12, R174). -/
def execDefineWindow (p : Port) (s : State) : Answer :=
  match s.dueHead p with
  | some ⟨tag, .defineWindow index base length policy lease wait, _⟩ =>
    .next (doDefineWindow (s.beginTake p) p tag index base length policy lease wait)
  | _ => .next s

/-- Taking SET WINDOW PARAMS from a port's queue head (R16, R174). -/
def execSetWindowParams (p : Port) (s : State) : Answer :=
  match s.dueHead p with
  | some ⟨tag, .setWindowParams index selection policy lease wait, _⟩ =>
    .next (doSetWindowParams (s.beginTake p) p tag index selection policy lease wait)
  | _ => .next s

/-- Taking DELETE WINDOW from a port's queue head (R19, R174). -/
def execDeleteWindow (p : Port) (s : State) : Answer :=
  match s.dueHead p with
  | some ⟨tag, .deleteWindow index, _⟩ => .next (doDeleteWindow (s.beginTake p) p tag index)
  | _ => .next s

end Sys2Proof.Machine
end

