-- ==== Sys2Proof/Machine/Guards.lean ====
section
/-! DEFINITION. The guard unit's commands (chapter 3): SET KEY, CLEAR KEY, UNLOCK, LOCK, SET MASTER KEY
and FREEZE. -/

namespace Sys2Proof.Machine

/-! ### Keying a window (R54, R55) -/

/-- The checks of SET KEY, in order (R54). -/
def setKeyOutcome (s : State) (p : Port) (index level : Byte) : OutcomeCode :=
  let w? := s.window? index.toNat
  firstFail
    [ (!s.frozen, .frozen),
      (w?.isSome, .noWindow),
      (w?.any (fun w => w.activity == .idle), .busyWindow),
      (w?.any (fun w => w.holdsWrite p), .notHeld),
      (w?.any (fun w => w.guard.key.isNone), .keyed),
      ((levelOf level).isSome, .badParameter) ]

/-- The guard record after SET KEY: the key and level carried, attempts 4, the setter alone unlocked
(R54). -/
def Guard.keyedBy (p : Port) (key : Key) (level : Level) : Guard :=
  { key := some key, level := level, unlocked := (PerPort.const false).set p true, attempts := 4 }

/-- Changes the guard record of a window. -/
def State.setGuard (s : State) (i : Nat) (f : Guard → Guard) : State :=
  match s.window? i with
  | none => s
  | some w => s.setWindow i (some { w with guard := f w.guard })

/-- Carrying out SET KEY at its taking (R54). -/
def doSetKey (s : State) (p : Port) (tag index level : Byte) (key : Key) : State :=
  s.finishWith p tag .setKey (setKeyOutcome s p index level)
    (s.setGuard index.toNat (fun _ => Guard.keyedBy p key ((levelOf level).getD .standard)))

/-- The checks of CLEAR KEY, in order (R55). -/
def clearKeyOutcome (s : State) (p : Port) (index : Byte) : OutcomeCode :=
  let w? := s.window? index.toNat
  firstFail
    [ (!s.frozen, .frozen),
      (w?.isSome, .noWindow),
      (w?.any (fun w => w.holdsWrite p), .notHeld),
      (w?.any (fun w => w.guard.key.isSome), .notKeyed),
      (w?.any (fun w => w.guard.attempts != 0), .barred),
      (w?.any (fun w => w.guardPasses p), .locked) ]

/-- Carrying out CLEAR KEY at its taking (R55). -/
def doClearKey (s : State) (p : Port) (tag index : Byte) : State :=
  s.finishWith p tag .clearKey (clearKeyOutcome s p index)
    (s.setGuard index.toNat (fun _ => Guard.fresh))

/-! ### Key comparisons (R52, R57, R58, R70) -/

/-- A comparison with a window's key: a match sets its attempts counter to 4, a mismatch lowers it by 1
(R57, R70). -/
def State.compareWindow (s : State) (i : Nat) (isMatch : Bool) : State :=
  s.setGuard i (fun g => { g with attempts := if isMatch then 4 else g.attempts - 1 })

/-- A comparison with the master key: a match sets the master attempts counter to 4, a mismatch lowers
it by 1 (R58, R61, R70). -/
def State.compareMaster (s : State) (isMatch : Bool) : State :=
  { s with masterAttempts := if isMatch then 4 else s.masterAttempts - 1 }

/-- A port joins a window's unlocked set (R57, R58). -/
def State.joinUnlocked (s : State) (i : Nat) (p : Port) : State :=
  s.setGuard i (fun g => { g with unlocked := g.unlocked.set p true })

/-! ### UNLOCK and LOCK (R56 to R59) -/

/-- The checks of UNLOCK before any comparison, in order: checks 1 to 5, and 6 to 8 for selector MASTER
(R56, R58). -/
def unlockOutcome (s : State) (index selector : Byte) : OutcomeCode :=
  let w? := s.window? index.toNat
  let common : List (Bool × OutcomeCode) :=
    [ (w?.isSome, .noWindow),
      ((unlockSelectorOf selector).isSome, .badParameter),
      (w?.any (fun w => w.activity == .idle), .busyWindow),
      (w?.any (fun w => w.guard.key.isSome), .notKeyed),
      (w?.any (fun w => w.guard.attempts != 0), .barred) ]
  let master : List (Bool × OutcomeCode) :=
    [ (w?.any (fun w => w.guard.level == .standard), .barred),
      (s.masterKey.isSome, .noMasterKey),
      (s.masterAttempts != 0, .barred) ]
  firstFail (if unlockSelectorOf selector = some .master then common ++ master else common)

/-- The comparison of an UNLOCK that passed its checks, for selector WINDOW (R57) or MASTER (R58). -/
def unlockCompare (s : State) (p : Port) (tag index : Byte) (sel : Selector) (key : Key) (w : Window) :
    State :=
  let i := index.toNat
  match sel with
  | .master =>
    if s.masterKey = some key then
      ((s.joinUnlocked i p).compareMaster true).finish p tag .unlock .ok
    else (s.compareMaster false).finish p tag .unlock .keyMismatch
  | _ =>
    if w.guard.key = some key then
      ((s.joinUnlocked i p).compareWindow i true).finish p tag .unlock .ok
    else (s.compareWindow i false).finish p tag .unlock .keyMismatch

/-- Carrying out UNLOCK at its taking (R56 to R58). -/
def doUnlock (s : State) (p : Port) (tag index selector : Byte) (key : Key) : State :=
  if unlockOutcome s index selector = .ok then
    match s.window? index.toNat, unlockSelectorOf selector with
    | some w, some sel => unlockCompare s p tag index sel key w
    | _, _ => s
  else s.finish p tag .unlock (unlockOutcome s index selector)

/-- Carrying out LOCK at its taking (R59). -/
def doLock (s : State) (p : Port) (tag index : Byte) : State :=
  match s.window? index.toNat with
  | none => s.finish p tag .lock .noWindow
  | some _ =>
    (s.setGuard index.toNat (fun g => { g with unlocked := g.unlocked.set p false })).finish p tag
      .lock .ok

/-! ### The master key and freeze (R61, R63) -/

/-- Carrying out SET MASTER KEY at its taking (R10, R61). -/
def doSetMasterKey (s : State) (p : Port) (tag : Byte) (oldKey newKey : Key) : State :=
  let o := firstFail (s.layoutChecks p)
  if o = .ok then
    match s.masterKey with
    | none =>
      ({ s with masterKey := some newKey, masterAttempts := 4 }).finish p tag .setMasterKey .ok
    | some k =>
      if s.masterAttempts = 0 then s.finish p tag .setMasterKey .barred
      else if k = oldKey then
        ({ s with masterKey := some newKey, masterAttempts := 4 }).finish p tag .setMasterKey .ok
      else (s.compareMaster false).finish p tag .setMasterKey .keyMismatch
  else s.finish p tag .setMasterKey o

/-- Whether any defined window is WIPING (R63). -/
def State.anyWiping (s : State) : Bool :=
  (List.range 32).any (fun i => (s.window? i).any (fun w => w.activity == .wiping))

/-- The outcome of FREEZE (R63): it makes no freeze check, and a second FREEZE completes OK (R10). -/
def freezeOutcome (s : State) (p : Port) : OutcomeCode :=
  firstFail [(s.layoutPort == p, .notLayoutPort), (s.frozen || !s.anyWiping, .busyWindow)]

/-- Carrying out FREEZE at its taking (R63). -/
def doFreeze (s : State) (p : Port) (tag : Byte) : State :=
  s.finishWith p tag .freeze (freezeOutcome s p) { s with frozen := true }

/-! ### Takings -/

/-- Taking SET KEY from a port's queue head (R54, R174). -/
def execSetKey (p : Port) (s : State) : Answer :=
  match s.dueHead p with
  | some ⟨tag, .setKey index level key, _⟩ => .next (doSetKey (s.beginTake p) p tag index level key)
  | _ => .next s

/-- Taking CLEAR KEY from a port's queue head (R55, R174). -/
def execClearKey (p : Port) (s : State) : Answer :=
  match s.dueHead p with
  | some ⟨tag, .clearKey index, _⟩ => .next (doClearKey (s.beginTake p) p tag index)
  | _ => .next s

/-- Taking UNLOCK from a port's queue head (R56, R174). -/
def execUnlock (p : Port) (s : State) : Answer :=
  match s.dueHead p with
  | some ⟨tag, .unlock index selector key, _⟩ =>
    .next (doUnlock (s.beginTake p) p tag index selector key)
  | _ => .next s

/-- Taking LOCK from a port's queue head (R59, R174). -/
def execLock (p : Port) (s : State) : Answer :=
  match s.dueHead p with
  | some ⟨tag, .lock index, _⟩ => .next (doLock (s.beginTake p) p tag index)
  | _ => .next s

/-- Taking SET MASTER KEY from a port's queue head (R61, R174). -/
def execSetMasterKey (p : Port) (s : State) : Answer :=
  match s.dueHead p with
  | some ⟨tag, .setMasterKey oldKey newKey, _⟩ =>
    .next (doSetMasterKey (s.beginTake p) p tag oldKey newKey)
  | _ => .next s

/-- Taking FREEZE from a port's queue head (R63, R174). -/
def execFreeze (p : Port) (s : State) : Answer :=
  match s.dueHead p with
  | some ⟨tag, .freeze, _⟩ => .next (doFreeze (s.beginTake p) p tag)
  | _ => .next s

end Sys2Proof.Machine
end

