-- ==== Sys2Proof/Machine/Wipe.lean ====
section
/-! DEFINITION. WIPE PREPARE and WIPE (chapter 3): the wipe-prepared record, the authority to wipe, the
wipe start and the wipe end. -/

namespace Sys2Proof.Machine

/-! ### WIPE PREPARE (R66) -/

/-- The checks of WIPE PREPARE, in order (R66). -/
def wipePrepareOutcome (s : State) (index : Byte) : OutcomeCode :=
  firstFail [(!s.frozen, .frozen), ((s.window? index.toNat).isSome, .noWindow)]

/-- Records the window index as a port's wipe-prepared record (R66). -/
def State.setPrepared (s : State) (p : Port) (i : Nat) : State :=
  s.setPcu p { s.pcu p with wipePrepared := some i }

/-- Carrying out WIPE PREPARE at its taking (R66). -/
def doWipePrepare (s : State) (p : Port) (tag index : Byte) : State :=
  s.finishWith p tag .wipePrepare (wipePrepareOutcome s index) (s.setPrepared p index.toNat)

/-! ### The checks of WIPE (R68 to R70) -/

/-- Checks 1 to 4 of WIPE, in order (R67, R68). -/
def wipeOutcome (s : State) (index : Byte) (prepared : Bool) : OutcomeCode :=
  let w? := s.window? index.toNat
  firstFail
    [ (prepared, .notPrepared),
      (!s.frozen, .frozen),
      (w?.isSome, .noWindow),
      (w?.any (fun w => w.activity == .idle), .busyWindow) ]

/-- The authority to wipe (check 5): its outcome, and the state after the key comparison it makes, if
it makes one (R69, R70). -/
def wipeAuthority (s : State) (p : Port) (index selector : Byte) (key : Key) (w : Window) :
    OutcomeCode × State :=
  match w.guard.key with
  | none =>
    if wipeSelectorOf selector = some .none then
      (if w.holdsWrite p then .ok else .notHeld, s)
    else (.badParameter, s)
  | some k =>
    match wipeSelectorOf selector with
    | some .window =>
      if w.guard.attempts = 0 then (.barred, s)
      else if k = key then (.ok, s.compareWindow index.toNat true)
      else (.keyMismatch, s.compareWindow index.toNat false)
    | some .master =>
      match s.masterKey with
      | none => (.noMasterKey, s)
      | some m =>
        if s.masterAttempts = 0 then (.barred, s)
        else if m = key then (.ok, s.compareMaster true)
        else (.keyMismatch, s.compareMaster false)
    | _ => (.badParameter, s)

/-! ### The wipe start (R71, R72) -/

/-- A COPY or FILL job that names the window being wiped ends with REVOKED: at once where no step of it
is in flight, and otherwise it becomes ENDING, unless it already is (R72, R145). -/
def State.revokeJob (s : State) (i : Nat) (c : Channel) : State :=
  match s.job c with
  | none => s
  | some j =>
    if j.names i && j.kind != .wipe then
      if s.stepInFlight c then
        if j.state = .running then s.setJob c (some { j with state := .ending .revoked }) else s
      else s.endJob c .revoked
    else s

/-- The WIPE job of a window (R71, step 5). -/
def Window.wipeJob (w : Window) (i : Nat) (p : Port) (tag : Byte) : Job :=
  { owner := p
    tag := tag
    kind := .wipe
    source := none
    dest := { window := i, offset := 0 }
    total := w.size
    pattern := some 0#8
    direction := .ascending
    bytesDone := 0
    state := .running
    deliver := true }

/-- The window becomes WIPING and its unlocked set is emptied (R71, steps 1 and 3). -/
def Window.startWiping (w : Window) : Window :=
  { w with
    activity := .wiping
    guard := { w.guard with unlocked := PerPort.const false } }

/-- The wipe start, in the order of its steps: WIPING, revocation, the unlocked set, the other jobs,
the WIPE job on the lowest-numbered channel that is then free (log 15), and the command leaves the
queue (R71). -/
def State.wipeStart (s : State) (p : Port) (tag : Byte) (i : Nat) (w : Window) : State :=
  let s₁ := (s.setWindow i (some w.startWiping)).revoke i
  let s₂ := (s₁.revokeJob i .c0).revokeJob i .c1
  (s₂.startJob (w.wipeJob i p tag)).leaveQueue p

/-- Carrying out WIPE at its taking; `prepared` is whether the port's wipe-prepared record named this
index when the command was taken (R67, R68, R71). -/
def doWipe (s : State) (p : Port) (tag index selector : Byte) (key : Key) (prepared : Bool) : State :=
  if wipeOutcome s index prepared = .ok then
    match s.window? index.toNat with
    | none => s
    | some w =>
      let a := wipeAuthority s p index selector key w
      if a.1 = .ok then
        if s.freeChannel?.isSome then
          match a.2.window? index.toNat with
          | some v => a.2.wipeStart p tag index.toNat v
          | none => a.2
        else a.2.finish p tag .wipe .noChannel
      else a.2.finish p tag .wipe a.1
  else s.finish p tag .wipe (wipeOutcome s index prepared)

/-- Whether a port's wipe-prepared record names an index (R67). -/
def State.preparedFor (s : State) (p : Port) (index : Byte) : Bool :=
  (s.pcu p).wipePrepared == some index.toNat

/-- The window after its wipe has ended: no key, STANDARD, attempts 4, IDLE (R74). -/
def Window.wiped (w : Window) : Window :=
  { w with
    activity := .idle
    guard := { w.guard with key := none, level := .standard, attempts := 4 } }

/-- The end of a wipe: the guard record, the activity, the channel and the completion (R74, R75). -/
def State.wipeEnd (s : State) (c : Channel) (i : Nat) : State :=
  (s.setWindow i ((s.window? i).map Window.wiped)).endJob c .ok

/-- Taking WIPE PREPARE from a port's queue head (R66, R174). -/
def execWipePrepare (p : Port) (s : State) : Answer :=
  match s.dueHead p with
  | some ⟨tag, .wipePrepare index, _⟩ => .next (doWipePrepare (s.beginTake p) p tag index)
  | _ => .next s

/-- Taking WIPE from a port's queue head (R68, R174); the wipe's first step is a request that arrives at
the arbiter (R97). -/
def execWipe (p : Port) (s : State) : Answer :=
  match s.dueHead p with
  | some ⟨tag, .wipe index selector key, _⟩ =>
    .next (arrive s (doWipe (s.beginTake p) p tag index selector key (s.preparedFor p index)))
  | _ => .next s

end Sys2Proof.Machine
end

