-- ==== Sys2Proof/Machine/Access.lean ====
section
/-! DEFINITION. The takings of READ, WRITE and INJECT (chapter 4) and of SCRUB SETTINGS (chapter 6). -/

namespace Sys2Proof.Machine

/-- The command at the queue head becomes the port's pending access: the head carries the taken mark
(R79, R176). -/
def State.formAccess (s : State) (p : Port) (tag : Byte) (b : AccessBody) : State :=
  let u := s.pcu p
  s.setPcu p
    { u with
      queue := u.queue.modifyHead (fun e => { e with taken := true })
      access := some { tag := tag, body := b } }

/-- Carrying out READ at its taking: the length is checked and the pending access formed (R77). -/
def doRead (s : State) (p : Port) (tag index : Byte) (offset : BitVec 24) (length : BitVec 16) :
    State :=
  if 1 ≤ length.toNat ∧ length.toNat ≤ 64 then
    s.formAccess p tag (.read index.toNat offset.toNat length.toNat)
  else s.finish p tag .read .badParameter

/-- Carrying out WRITE at its taking: the pending access with its data (R78). -/
def doWrite (s : State) (p : Port) (tag index : Byte) (offset : BitVec 24) (data : List Byte) :
    State :=
  s.formAccess p tag (.write index.toNat offset.toNat data)

/-- The checks of INJECT at its taking, in order (R91). -/
def injectOutcome (s : State) (p : Port) (line : BitVec 16) (kind : Byte) : OutcomeCode :=
  firstFail (s.layoutChecks p ++
    [(decide (line.toNat ≤ 16383) && (injectKindOf kind).isSome, .badParameter)])

/-- Carrying out INJECT at its taking (R91). -/
def doInject (s : State) (p : Port) (tag : Byte) (line : BitVec 16) (kind : Byte) : State :=
  if injectOutcome s p line kind = .ok then
    match injectKindOf kind with
    | some k => s.formAccess p tag (.inject line.toNat k)
    | none => s
  else s.finish p tag .inject (injectOutcome s p line kind)

/-- The checks of SCRUB SETTINGS, in order (R126). -/
def scrubOutcome (s : State) (p : Port) (enable : Byte) (interval : BitVec 16) : OutcomeCode :=
  firstFail (s.layoutChecks p ++
    [((enableOf enable).any (fun e => !e || decide (1 ≤ interval.toNat)), .badParameter)])

/-- The new scrub settings: ENABLED restarts the timer with the interval carried and keeps flag and
count; DISABLED stops it and clears them (R104, R126). -/
def State.applyScrub (s : State) (enable : Bool) (interval : Nat) : State :=
  if enable then
    { s with scrubEnabled := true, scrubInterval := interval, scrubTimer := some interval }
  else
    { s with scrubEnabled := false, scrubTimer := none, scrubDue := false, postponed := 0 }

/-- Carrying out SCRUB SETTINGS at its taking (R104, R126). -/
def doScrubSettings (s : State) (p : Port) (tag enable : Byte) (interval : BitVec 16) : State :=
  s.finishWith p tag .scrubSettings (scrubOutcome s p enable interval)
    (s.applyScrub (enable == 1#8) interval.toNat)

/-- Taking READ from a port's queue head (R77, R174); the request arrives at the arbiter (R97). -/
def execRead (p : Port) (s : State) : Answer :=
  match s.dueHead p with
  | some ⟨tag, .read index offset length, _⟩ =>
    .next (arrive s (doRead (s.beginTake p) p tag index offset length))
  | _ => .next s

/-- Taking WRITE from a port's queue head (R78, R174); the request arrives at the arbiter (R97). -/
def execWrite (p : Port) (s : State) : Answer :=
  match s.dueHead p with
  | some ⟨tag, .write index offset data, _⟩ =>
    .next (arrive s (doWrite (s.beginTake p) p tag index offset data))
  | _ => .next s

/-- Taking INJECT from a port's queue head (R91, R174); the request arrives at the arbiter (R97). -/
def execInject (p : Port) (s : State) : Answer :=
  match s.dueHead p with
  | some ⟨tag, .inject line kind, _⟩ => .next (arrive s (doInject (s.beginTake p) p tag line kind))
  | _ => .next s

/-- Taking SCRUB SETTINGS from a port's queue head (R126, R174). -/
def execScrubSettings (p : Port) (s : State) : Answer :=
  match s.dueHead p with
  | some ⟨tag, .scrubSettings enable interval, _⟩ =>
    .next (doScrubSettings (s.beginTake p) p tag enable interval)
  | _ => .next s

end Sys2Proof.Machine
end

