-- ==== Sys2Proof/Machine/Transfer.lean ====
section
/-! DEFINITION. The takings of COPY, FILL and CANCEL JOB (chapter 7), and the taking of whatever
command stands at a port's queue head (R173 to R175). -/

namespace Sys2Proof.Machine

/-- Whether a run lies within its window (R3). -/
def State.runFits (s : State) (r : Run) : Bool :=
  (s.window? r.window).any (fun w => decide (r.offset + r.length ≤ w.size))

/-- The checks of COPY, in order (R135). -/
def copyStartOutcome (s : State) (src dst : Place) (n : Nat) : OutcomeCode :=
  firstFail
    [ (decide (1 ≤ n ∧ n ≤ 65536), .badParameter),
      ((s.window? src.window).isSome, .noWindow),
      (s.runFits ⟨src.window, src.offset, n⟩, .outOfRange),
      ((s.window? dst.window).isSome, .noWindow),
      (s.runFits ⟨dst.window, dst.offset, n⟩, .outOfRange),
      (s.freeChannel?.isSome, .noChannel) ]

/-- The checks of FILL, in order (R136). -/
def fillStartOutcome (s : State) (dst : Place) (n : Nat) : OutcomeCode :=
  firstFail
    [ (decide (1 ≤ n ∧ n ≤ 65536), .badParameter),
      ((s.window? dst.window).isSome, .noWindow),
      (s.runFits ⟨dst.window, dst.offset, n⟩, .outOfRange),
      (s.freeChannel?.isSome, .noChannel) ]

/-- The job record of a COPY (R133, R137, R138). -/
def copyJob (p : Port) (tag : Byte) (src dst : Place) (n : Nat) : Job :=
  { owner := p
    tag := tag
    kind := .copy
    source := some src
    dest := dst
    total := n
    pattern := none
    direction := copyDirection src dst n
    bytesDone := 0
    state := .running
    deliver := true }

/-- The job record of a FILL (R133, R137, R138). -/
def fillJob (p : Port) (tag : Byte) (dst : Place) (n : Nat) (pattern : Byte) : Job :=
  { owner := p
    tag := tag
    kind := .fill
    source := none
    dest := dst
    total := n
    pattern := some pattern
    direction := .ascending
    bytesDone := 0
    state := .running
    deliver := true }

/-- Carrying out COPY at its taking (R135, R137). -/
def doCopy (s : State) (p : Port) (tag source : Byte) (sourceOffset : BitVec 24) (dest : Byte)
    (destOffset length : BitVec 24) : State :=
  let src : Place := { window := source.toNat, offset := sourceOffset.toNat }
  let dst : Place := { window := dest.toNat, offset := destOffset.toNat }
  if copyStartOutcome s src dst length.toNat = .ok then
    (s.startJob (copyJob p tag src dst length.toNat)).leaveQueue p
  else s.finish p tag .copy (copyStartOutcome s src dst length.toNat)

/-- Carrying out FILL at its taking (R136, R137). -/
def doFill (s : State) (p : Port) (tag dest : Byte) (destOffset length : BitVec 24)
    (pattern : Byte) : State :=
  let dst : Place := { window := dest.toNat, offset := destOffset.toNat }
  if fillStartOutcome s dst length.toNat = .ok then
    (s.startJob (fillJob p tag dst length.toNat pattern)).leaveQueue p
  else s.finish p tag .fill (fillStartOutcome s dst length.toNat)

/-- The channel that holds a job of a port under a tag, if either does (R147). -/
def State.findJob (s : State) (p : Port) (tag : Byte) : Option Channel :=
  [Channel.c0, Channel.c1].find? (fun c =>
    (s.job c).any (fun j => j.owner == p && j.tag == tag))

/-- Carrying out CANCEL JOB at its taking (R147). -/
def doCancelJob (s : State) (p : Port) (tag jobTag : Byte) : State :=
  match s.findJob p jobTag with
  | none => s.finish p tag .cancelJob .noJob
  | some c =>
    match s.job c with
    | none => s
    | some j =>
      if j.kind = .wipe then s.finish p tag .cancelJob .badParameter
      else if j.state ≠ .running then s.finish p tag .cancelJob .ok
      else if s.stepInFlight c then
        (s.setJob c (some { j with state := .ending .cancelled })).finish p tag .cancelJob .ok
      else (s.endJob c .cancelled).finish p tag .cancelJob .ok

/-- Taking COPY from a port's queue head (R135, R174); the first step arrives at the arbiter (R97). -/
def execCopy (p : Port) (s : State) : Answer :=
  match s.dueHead p with
  | some ⟨tag, .copy source sourceOffset dest destOffset length, _⟩ =>
    .next (arrive s (doCopy (s.beginTake p) p tag source sourceOffset dest destOffset length))
  | _ => .next s

/-- Taking FILL from a port's queue head (R136, R174); the first step arrives at the arbiter (R97). -/
def execFill (p : Port) (s : State) : Answer :=
  match s.dueHead p with
  | some ⟨tag, .fill dest destOffset length pattern, _⟩ =>
    .next (arrive s (doFill (s.beginTake p) p tag dest destOffset length pattern))
  | _ => .next s

/-- Taking CANCEL JOB from a port's queue head (R147, R174). -/
def execCancelJob (p : Port) (s : State) : Answer :=
  match s.dueHead p with
  | some ⟨tag, .cancelJob jobTag, _⟩ => .next (doCancelJob (s.beginTake p) p tag jobTag)
  | _ => .next s

/-! ### Taking in the event that makes it possible (R173) -/

/-- Hands a command to the block that carries it out (R174 step 3, R175). -/
def carryOut (s : State) (p : Port) (tag : Byte) (prepared : Byte → Bool) : Command → State
  | .defineWindow i b l pol lease wait => doDefineWindow s p tag i b l pol lease wait
  | .setWindowParams i sel pol lease wait => doSetWindowParams s p tag i sel pol lease wait
  | .deleteWindow i => doDeleteWindow s p tag i
  | .freeze => doFreeze s p tag
  | .setMasterKey old new => doSetMasterKey s p tag old new
  | .scrubSettings en iv => doScrubSettings s p tag en iv
  | .inject line kind => doInject s p tag line kind
  | .claim i kind wait => doClaim s p tag i kind wait
  | .release i => doRelease s p tag i
  | .renew i => doRenew s p tag i
  | .setKey i level key => doSetKey s p tag i level key
  | .clearKey i => doClearKey s p tag i
  | .unlock i sel key => doUnlock s p tag i sel key
  | .lock i => doLock s p tag i
  | .wipePrepare i => doWipePrepare s p tag i
  | .wipe i sel key => doWipe s p tag i sel key (prepared i)
  | .read i o l => doRead s p tag i o l
  | .write i o data => doWrite s p tag i o data
  | .copy si so di d n => doCopy s p tag si so di d n
  | .fill di d n pat => doFill s p tag di d n pat
  | .cancelJob job => doCancelJob s p tag job

/-- Takes the command at a port's queue head, if the PCU takes it now (R173, R174). -/
def State.takeHead (s : State) (p : Port) : State :=
  match s.dueHead p with
  | none => s
  | some e => carryOut (s.beginTake p) p e.tag (s.preparedFor p) e.command

/-- The PCU takes its head in the event at which the last of the conditions of R173 comes to hold:
`before` and `after` are the states around the rest of that event. -/
def takeIfDue (before after : State) (p : Port) : State :=
  if (before.pcu p).takeable then after else after.takeHead p

/-- GRANT: with the engine free and requests pending, the arbiter makes one choice (R98). A port's
access refused at it frees the port's queue head, whose next command is then taken (R100, R173). -/
def execGrant (s : State) : Answer :=
  if s.phase = .running ∧ s.inFlight = none then
    match s.choose with
    | some (.slot (.port p)) => .next (takeIfDue s s.grantNow p)
    | _ => .next s.grantNow
  else .next s

end Sys2Proof.Machine
end

