-- ==== Sys2Proof/Machine/Engine.lean ====
section
/-! DEFINITION. The completions of the access engine: READ, WRITE, INJECT, the steps of COPY, FILL and
WIPE, and the scrub read (chapters 4 to 7). The engine's reads and writes are made at the completion
(log 12). -/

namespace Sys2Proof.Machine

/-- The in-flight record is discarded and the engine is free; the free values of the next completion
are fresh (R95, log 10). -/
def State.endFlight (s : State) : State := { s with inFlight := none, draw := s.draw + 1 }

/-! ### Port accesses -/

/-- The touch of an access or step that completed OK (R41). -/
def State.touchIf (s : State) (good : Bool) (p : Port) (i : Nat) : State :=
  if good then s.touch p i else s

/-- The completion of a READ in flight (R85, R86, R89). -/
def State.readDone (s : State) (p : Port) (window : Nat) (lines : List LineRef) (first length : Nat) :
    State :=
  let rs := lines.map s.readLine
  let good := readsGood rs
  let data := ((readBytes rs).drop first).take length
  let s₁ := (s.handleReads rs (fun _ => none)).endFlight
  (s₁.endAccess p .read (if good then .ok else .dataLost) (if good then .data data else .none)).touchIf
    good p window

/-- The bytes a WRITE leaves in the `j`-th line it covers (R87). -/
def writeChunk (rs : List LineRead) (first : Nat) (data : List Byte) (j : Nat) : List Byte :=
  lineChunk (splice (readBytes rs) first data) j

/-- What a WRITE stores into a line it read: its part of the merged bytes, where no line it read is
uncorrectable (R87, R88). -/
def writeMerge (rs : List LineRead) (first : Nat) (data : List Byte) (r : LineRef) :
    Option (List Byte) :=
  if readsGood rs then some (writeChunk rs first data (rs.findIdx (fun x => x.ref == r))) else none

/-- The array's part of a WRITE in flight: a line covered whole is written without being read, and
otherwise every line covered is read, merged and handled (R87, R88). -/
def State.writeLines (s : State) (lines : List LineRef) (first : Nat) (data : List Byte) :
    State × Bool :=
  match lines with
  | [r] =>
    if first = 0 ∧ data.length = 64 then (s.overwriteLine r data, true)
    else
      let rs := [s.readLine r]
      (s.handleReads rs (writeMerge rs first data), readsGood rs)
  | _ =>
    let rs := lines.map s.readLine
    (s.handleReads rs (writeMerge rs first data), readsGood rs)

/-- The completion of a WRITE in flight (R87 to R89). -/
def State.writeDone (s : State) (p : Port) (window : Nat) (lines : List LineRef) (first : Nat)
    (data : List Byte) : State :=
  let r := s.writeLines lines first data
  (r.1.endFlight.endAccess p .write (if r.2 then .ok else .dataLost) .none).touchIf r.2 p window

/-- READ_COMPLETION (R85): the READ in flight completes, and the PCU may take the next command (R173). -/
def execReadCompletion (s : State) : Answer :=
  match s.inFlight with
  | some ⟨.slot (.port p), .read window lines first length⟩ =>
    .next (takeIfDue s (s.readDone p window lines first length) p)
  | _ => .next s

/-- WRITE_COMPLETION (R87): the WRITE in flight completes, and the PCU may take the next command
(R173). -/
def execWriteCompletion (s : State) : Answer :=
  match s.inFlight with
  | some ⟨.slot (.port p), .write window lines first data⟩ =>
    .next (takeIfDue s (s.writeDone p window lines first data) p)
  | _ => .next s

/-- The completion of an INJECT in flight (R92). -/
def State.injectDone (s : State) (p : Port) (r : LineRef) (k : InjectKind) : State :=
  (s.plant r.phys k).endFlight.endAccess p .inject .ok .none

/-- INJECT_COMPLETION (R92): the INJECT in flight completes, and the PCU may take the next command
(R173). -/
def execInjectCompletion (s : State) : Answer :=
  match s.inFlight with
  | some ⟨.slot (.port p), .inject r k⟩ => .next (takeIfDue s (s.injectDone p r k) p)
  | _ => .next s

/-! ### Job steps -/

/-- The outcome with which an ENDING job ends at the completion of its step (R145). -/
def endingOutcome (recorded : OutcomeCode) (good : Bool) (finished : Bool) : OutcomeCode :=
  if recorded = .cancelled ∧ good ∧ finished then .ok else recorded

/-- The touches of a COPY or FILL step that completed OK: the source and the destination window, once
where they are one window (R144, step 1). -/
def State.touchStep (s : State) (j : Job) : State :=
  let s₁ := match j.source with
    | some x => s.touch j.owner x.window
    | none => s
  s₁.touch j.owner j.dest.window

/-- After the integrity unit's handling, the completion of a COPY or FILL step of `n` bytes at its
channel (R144, R145): bytes done and touches when it completed OK; then the next step is presented,
or the job ends. -/
def State.stepDone (s : State) (c : Channel) (n : Nat) (good : Bool) : State :=
  match s.job c with
  | none => s
  | some j =>
    let j' := { j with bytesDone := if good then j.bytesDone + n else j.bytesDone }
    let finished := decide (j.total ≤ j'.bytesDone)
    let s₁ := s.setJob c (some j')
    let s₂ := if good then s₁.touchStep j' else s₁
    match j.state with
    | .running =>
      if !good then s₂.endJob c .dataLost
      else if finished then s₂.endJob c .ok
      else s₂
    | .ending o => s₂.endJob c (endingOutcome o good finished)

/-- The array's part of a COPY step in flight: the source lines are read, and the destination line
where the step covers it in part and it is no source line; then the step's bytes are stored unless a
line read is uncorrectable (R142). -/
def State.copyLines (s : State) (source : List LineRef) (sourceFirst : Nat) (dest : LineRef)
    (destFirst n : Nat) : State × Bool :=
  let src := source.map s.readLine
  let isSource := source.contains dest
  let whole := destFirst == 0 && n == 64
  let rs := if isSource || whole then src else src ++ [s.readLine dest]
  let good := readsGood rs
  let bytes := ((readBytes src).drop sourceFirst).take n
  let merged := splice (s.lineBytes dest.phys) destFirst bytes
  let merge := fun r : LineRef => if good && r == dest then some merged else none
  let s₁ := s.handleReads rs merge
  if whole && !isSource && good then (s₁.overwriteLine dest bytes, good) else (s₁, good)

/-- The array's part of a FILL step in flight (R143). -/
def State.fillLines (s : State) (dest : LineRef) (destFirst n : Nat) (pattern : Byte) : State × Bool :=
  let bytes := List.replicate n pattern
  if destFirst = 0 ∧ n = 64 then (s.overwriteLine dest bytes, true)
  else
    let r := s.readLine dest
    let good := readsGood [r]
    (s.handleReads [r] (fun _ => if good then some (splice r.bytes destFirst bytes) else none), good)

/-- COPY_STEP_COMPLETION (R142, R144). -/
def execCopyStepCompletion (s : State) : Answer :=
  match s.inFlight with
  | some ⟨.slot (.channel c), .copyStep source sourceFirst dest destFirst n⟩ =>
    let r := s.copyLines source sourceFirst dest destFirst n
    .next (r.1.endFlight.stepDone c n r.2)
  | _ => .next s

/-- FILL_STEP_COMPLETION (R143, R144). -/
def execFillStepCompletion (s : State) : Answer :=
  match s.inFlight with
  | some ⟨.slot (.channel c), .fillStep dest destFirst n pattern⟩ =>
    let r := s.fillLines dest destFirst n pattern
    .next (r.1.endFlight.stepDone c n r.2)
  | _ => .next s

/-- The completion of a WIPE step at its channel: 64 bytes done; then the next step is presented, or
the wipe ends (R74, R149). -/
def State.wipeStepDone (s : State) (c : Channel) : State :=
  match s.job c with
  | none => s
  | some j =>
    let j' := { j with bytesDone := j.bytesDone + 64 }
    let s₁ := s.setJob c (some j')
    if j'.total ≤ j'.bytesDone then s₁.wipeEnd c j.dest.window else s₁

/-- WIPE_STEP_COMPLETION (R149): the line is written with zeros and its poison cleared. -/
def execWipeStepCompletion (s : State) : Answer :=
  match s.inFlight with
  | some ⟨.slot (.channel c), .wipeStep dest⟩ =>
    .next ((s.overwriteLine dest (List.replicate 64 0#8)).endFlight.wipeStepDone c)
  | _ => .next s

/-! ### The scrub read -/

/-- The line after one, from 16,383 back to 0 (R125). -/
def nextLine (line : Nat) : Nat := if line = 16383 then 0 else line + 1

/-- The completion of a scrub read: the line is handled, unless it was poisoned at the grant, and the
scrub pointer moves on (R123, R125). -/
def State.scrubDone (s : State) (r : LineRef) (poisonedAtGrant : Bool) : State :=
  let s₁ := if poisonedAtGrant then s else s.handleReads [s.readLine r] (fun _ => none)
  { s₁.endFlight with scrubPointer := nextLine r.line }

/-- SCRUB_READ_COMPLETION (R125). -/
def execScrubReadCompletion (s : State) : Answer :=
  match s.inFlight with
  | some ⟨.scrub, .scrub r poisonedAtGrant⟩ => .next (s.scrubDone r poisonedAtGrant)
  | _ => .next s

end Sys2Proof.Machine
end

