-- ==== Sys2Proof/Machine/Teardown.lean ====
section
/-! DEFINITION. The teardown of one port (chapter 10, R190 to R196). -/

namespace Sys2Proof.Machine

/-- The two channels, in order. -/
def Channel.all : List Channel := [.c0, .c1]

/-- The tags of the WIPE jobs a port owns, which stay outstanding through its teardown (R191, R196). -/
def State.wipeTags (s : State) (p : Port) : List Byte :=
  Channel.all.filterMap (fun c =>
    match s.job c with
    | some j => if j.owner = p ∧ j.kind = .wipe then some j.tag else none
    | none => none)

/-- The PCU's part of the start of a teardown, with the access awaited (R191, R193). -/
def State.teardownPcu (s : State) (p : Port) : State :=
  s.setPcu p
    { state := .teardown
      queue := []
      access := none
      completions := []
      reservations := 0
      notices := []
      noticeLost := false
      wipePrepared := none
      fetchMark := none
      accessAwaited := s.accessInFlight p
      jobsAwaited := 0
      outstanding := s.wipeTags p }

/-- Whether a port is in the claim part of a window. -/
def State.claimsOn (s : State) (p : Port) (i : Nat) : Bool :=
  (s.window? i).any (fun w => w.holds p || w.waits p)

/-- Removes a port from the claim part and from the unlocked set of a window (R49, R192). -/
def Window.removePort (w : Window) (p : Port) : Window :=
  let v := (w.removeHolder p).removeWaiter p
  { v with guard := { v.guard with unlocked := v.guard.unlocked.set p false } }

/-- The window manager's and the guard unit's part of the start of a teardown: every removal, and then
one grant pass on each window from which the port was removed, in ascending order (R49, R192). -/
def State.teardownClaims (s : State) (p : Port) : State :=
  let affected := (List.range 32).filter (s.claimsOn p)
  let s₁ := { s with windows := s.windows.map (fun w => w.map (fun v => v.removePort p)) }
  affected.foldl (fun t i => t.grantPass i) s₁

/-- A job becomes awaited by its owner's teardown (R193). -/
def State.awaitJob (s : State) (p : Port) : State :=
  let u := s.pcu p
  s.setPcu p { u with jobsAwaited := u.jobsAwaited + 1 }

/-- The transfer engine's part of the start of a teardown, for one channel (R150, R193). -/
def State.teardownJob (s : State) (p : Port) (c : Channel) : State :=
  match s.job c with
  | none => s
  | some j =>
    if j.owner = p then
      if j.kind = .wipe then s.setJob c (some { j with deliver := false })
      else
        match j.state with
        | .running =>
          if s.stepInFlight c then
            (s.setJob c (some { j with state := .ending .cancelled, deliver := false })).awaitJob p
          else s.setJob c none
        | .ending _ => (s.setJob c (some { j with deliver := false })).awaitJob p
    else s

/-- The start of a port's teardown, in the one event of the PORT RESET frame's end (R153, R168, R191 to
R193). -/
def State.teardownStart (s : State) (p : Port) : State :=
  let s₁ := (s.teardownPcu p).setLink p Link.reset
  let s₂ := s₁.teardownClaims p
  (s₂.teardownJob p .c0).teardownJob p .c1

/-- TEARDOWN_END: with nothing awaited, the port returns from TEARDOWN to READY (R195). -/
def execTeardownEnd (p : Port) (s : State) : Answer :=
  .next (s.setPcu p (s.pcu p).endTeardown)

end Sys2Proof.Machine
end

