-- ==== Sys2Proof/Machine/Links.lean ====
section
/-! DEFINITION. The port links (chapter 8): frames bit by bit, snapshots, what SDOn shows, admission and
rejection of command frames, and the ends of the immediate frames. -/

namespace Sys2Proof.Machine

/-! ### A frame in progress (R152, R153, R156) -/

/-- The frames of the opcode table's rows: an empty frame, the six immediate frames, and every other
frame: a command frame, one of unknown opcode, or one cut short inside its opcode. -/
inductive FrameSort
  | empty
  | immediate (k : ImmediateKind)
  | command
  deriving DecidableEq, Repr

/-- The sort of a frame, by its opcode once that is complete (R156). -/
def Frame.sort (f : Frame) : FrameSort :=
  if f.bitCount = 0 then .empty
  else
    match f.bytes.head?.bind immediateOf with
    | some k => .immediate k
    | none => .command

/-- Whether the frame-start status byte showed READY (R156, R157). -/
def Frame.ready (f : Frame) : Bool := f.start.state == .ready

/-- The length in bytes of an immediate frame's header (R162). -/
def headerLength : ImmediateKind → Nat
  | .windowInfo => 2
  | .portReset => 2
  | _ => 1

/-- One rising edge of SCLKn: the bit is counted and, until a snapshot is taken, joins the byte in
progress (R152, R162). -/
def Frame.clock (f : Frame) (b : Bool) : Frame :=
  if f.snapshot.isSome then { f with bitCount := f.bitCount + 1 }
  else if f.bits.length = 7 then
    { f with
      bitCount := f.bitCount + 1
      bytes := f.bytes ++ [byteOfBits (f.bits ++ [b])]
      bits := [] }
  else { f with bitCount := f.bitCount + 1, bits := f.bits ++ [b] }

/-- The immediate frame whose header has just been completed and which is served, so that its snapshot
is taken now: STATUS in every port state, the others from a READY port (R156, R162, R163). PORT RESET
takes no snapshot. -/
def Frame.snapshotDue (f : Frame) : Option ImmediateKind :=
  if f.snapshot.isSome || !f.bits.isEmpty then none
  else
    match f.bytes.head?.bind immediateOf with
    | some .portReset => none
    | some k =>
      if f.bytes.length = headerLength k ∧ (f.ready = true ∨ k = .status) then some k else none
    | none => none

/-- The snapshot of an immediate frame (R162 to R167). -/
def State.snapshotOf (s : State) (p : Port) (f : Frame) : ImmediateKind → Snapshot
  | .status => .status (s.statusRecord p)
  | .collect => .collect (s.pcu p).completions.head?
  | .fetchNotice => .fetchNotice (s.pcu p).notices.head?
  | .windowInfo =>
    let index := f.bytes.getD 1 0#8
    .windowInfo index ((s.window? index.toNat).map (fun w => w.info s.msCount))
  | .deviceInfo => .deviceInfo s.deviceInfo
  | .portReset => .status (s.statusRecord p)

/-- The mark on the oldest notice from the snapshot of a FETCH NOTICE on (R165). -/
def Pcu.markFetch (u : Pcu) : Pcu :=
  { u with
    fetchMark := u.notices.head?.map (fun n => { notice := n, repeats := 0, repeatLine := none }) }

/-- Replaces a link's decoder state. -/
def State.setDecoder (s : State) (p : Port) (d : Decoder) : State :=
  s.setLink p { s.link p with decoder := d }

/-- One rising edge of SCLKn on a port's link: with the completion of a header the snapshot is taken,
in the same event; outside a frame the link ignores SCLKn (R152, R162, R169). -/
def State.clockBit (s : State) (p : Port) (b : Bool) : State :=
  match (s.link p).decoder with
  | .frame f =>
    let g := f.clock b
    match g.snapshotDue with
    | some k =>
      let s₁ := s.setDecoder p (.frame { g with snapshot := some (s.snapshotOf p g k) })
      if k = .fetchNotice then s₁.setPcu p (s₁.pcu p).markFetch else s₁
    | none => s.setDecoder p (.frame g)
  | _ => s

/-- SCLKn clocks bits into a port's link. -/
def State.clockBits (s : State) (p : Port) (bits : List Bool) : State :=
  bits.foldl (fun t b => t.clockBit p b) s

/-! ### What the link drives on SDOn (R155) -/

/-- The `k`-th byte that a frame shows: the frame-start status byte, and after the header of a served
immediate frame the bytes of its record and then 00h (R155). -/
def Frame.shownByte (f : Frame) (k : Nat) : Byte :=
  match f.snapshot, f.bytes.head?.bind immediateOf with
  | some sn, some i =>
    if k < headerLength i then f.start.byte else sn.bytes.getD (k - headerLength i) 0#8
  | _, _ => f.start.byte

/-- The bit a port's link drives on SDOn for the next rising edge; `none` is high impedance (R152,
R155, R169). -/
def State.sdo (s : State) (p : Port) : Option Bool :=
  match (s.link p).decoder with
  | .frame f => some ((f.shownByte (f.bitCount / 8)).getLsbD (7 - f.bitCount % 8))
  | _ => none

/-- Whether the record was read whole: every bit of its last byte clocked out before the release
(R162). -/
def Frame.readWhole (f : Frame) (k : ImmediateKind) : Bool :=
  f.snapshot.any (fun sn => decide (8 * (headerLength k + sn.bytes.length) ≤ f.bitCount))

/-! ### The start of a frame (R154, R169) -/

/-- FRAME_START: SELn# is asserted, and the link samples its port's status byte (R154). While RESET# is
held there is no frame: the link waits for the release (R169). -/
def execFrameStart (p : Port) (s : State) : Answer :=
  match (s.link p).decoder with
  | .idle =>
    if s.phase = .held then .next (s.setDecoder p .waitRelease)
    else
      .next (s.setDecoder p (.frame
        { start := s.statusFlags p, bitCount := 0, bytes := [], bits := [], snapshot := none }))
  | _ => .next s

/-! ### The end of a frame -/

/-- The release of SELn# under a row of the table: the frame end, where the frame in progress is of the
row's sort; a link that waited for the release is idle (R169); nothing otherwise (log 5). -/
def State.onRelease (s : State) (p : Port) (k : FrameSort) (ends : Frame → State) : State :=
  match (s.link p).decoder with
  | .idle => s
  | .waitRelease => s.setDecoder p .idle
  | .frame f => if f.sort = k then ends f else s

/-- A frame is rejected at its end: REJ is set with the reason, and nothing else changes (R160). -/
def State.rejectFrame (s : State) (p : Port) (r : RejectReason) : State :=
  s.setLink p { decoder := .idle, reject := some r }

/-- The tag of a command frame: its first argument byte (R158). -/
def Frame.tag (f : Frame) : Byte := f.bytes.getD 1 0#8

/-- The reason for which a command frame, or one of unknown opcode, is rejected at its end; `none` where
every check of R157 passes. -/
def State.rejectReason (s : State) (p : Port) (f : Frame) : Option RejectReason :=
  if !f.ready then some .notReady
  else if f.bitCount % 8 ≠ 0 then some .partialByte
  else if (f.bytes.head?.bind commandKindOf).isNone then some .unknownOpcode
  else if f.start.cqFull then some .queueFull
  else if (commandOfFrame f.bytes).isNone then some .badLength
  else if (s.pcu p).outstanding.contains f.tag then some .dupTag
  else none

/-- Admission: the command joins the tail of the command queue, its tag becomes outstanding, REJ is
cleared and the link is idle (R159). -/
def State.admitCommand (s : State) (p : Port) (tag : Byte) (c : Command) : State :=
  let u := s.pcu p
  (s.setPcu p
    { u with
      queue := u.queue ++ [{ tag := tag, command := c, taken := false }]
      outstanding := u.outstanding ++ [tag] }).setLink p Link.reset

/-- The end of a command frame, or of a frame of unknown opcode: admitted, and then taken at once where
the PCU is free to take it (R157, R159, R160, R173); the request it may make arrives at the arbiter
(R97). -/
def State.endCommandFrame (s : State) (p : Port) (f : Frame) : State :=
  match s.rejectReason p f, commandOfFrame f.bytes with
  | some r, _ => s.rejectFrame p r
  | none, some (tag, c) => arrive s (takeIfDue s (s.admitCommand p tag c) p)
  | none, none => s.rejectFrame p .badLength

/-- COMMAND_FRAME (R157). -/
def execCommandFrame (p : Port) (e : FrameEvent) (s : State) : Answer :=
  match e with
  | .clock bits => .next (s.clockBits p bits)
  | .release => .next (s.onRelease p .command (s.endCommandFrame p))

/-- Whether the snapshot of a STATUS frame showed notice-lost set (R163). -/
def Frame.sawLost (f : Frame) : Bool :=
  match f.snapshot with
  | some (.status r) => r.noticeLost
  | _ => false

/-- The end of a STATUS frame: read whole, it clears REJ, and a notice-lost flag its snapshot showed set
(R163). -/
def State.endStatus (s : State) (p : Port) (f : Frame) : State :=
  if f.readWhole .status then
    let s₁ := s.setLink p Link.reset
    if f.sawLost then s₁.setPcu p { s₁.pcu p with noticeLost := false } else s₁
  else s.setDecoder p .idle

/-- STATUS (R163). -/
def execStatus (p : Port) (e : FrameEvent) (s : State) : Answer :=
  match e with
  | .clock bits => .next (s.clockBits p bits)
  | .release => .next (s.onRelease p (.immediate .status) (s.endStatus p))

/-- Whether the snapshot of a COLLECT frame showed a completion (R164). -/
def Frame.sawCompletion (f : Frame) : Bool :=
  match f.snapshot with
  | some (.collect (some _)) => true
  | _ => false

/-- The end of a COLLECT frame: read whole, it removes the completion it showed, and the PCU may then
take its head (R164, R173, R179); from a port that was not READY the frame is rejected (R156). -/
def State.endCollect (s : State) (p : Port) (f : Frame) : State :=
  if !f.ready then s.rejectFrame p .notReady
  else if f.readWhole .collect && f.sawCompletion then
    let s₁ := s.setDecoder p .idle
    let u := s₁.pcu p
    arrive s (takeIfDue s (s₁.setPcu p { u with completions := u.completions.tail }) p)
  else s.setDecoder p .idle

/-- COLLECT (R164). -/
def execCollect (p : Port) (e : FrameEvent) (s : State) : Answer :=
  match e with
  | .clock bits => .next (s.clockBits p bits)
  | .release => .next (s.onRelease p (.immediate .collect) (s.endCollect p))

/-- A notice that stays for the repeat the master has not fetched: a LINE_POISONED holds the repeat
line and the repeat count (R165). -/
def Notice.keptFor (m : FetchMark) : Notice → Notice
  | .linePoisoned w l _ => .linePoisoned w (m.repeatLine.getD l) m.repeats
  | n => n

/-- What the end of a FETCH NOTICE frame read whole does to the notice under fetch (R165). -/
def Pcu.fetched (u : Pcu) : Pcu :=
  match u.fetchMark with
  | none => u
  | some m =>
    if m.repeats = 0 then
      { u with notices := u.notices.filter (fun n => !m.notice.sameKey n), fetchMark := none }
    else
      { u with
        notices := u.notices.map (fun n => if m.notice.sameKey n then n.keptFor m else n)
        fetchMark := none }

/-- The end of a FETCH NOTICE frame (R165); the mark of being under fetch ends in every case. -/
def State.endFetchNotice (s : State) (p : Port) (f : Frame) : State :=
  if !f.ready then s.rejectFrame p .notReady
  else
    let s₁ := s.setDecoder p .idle
    let u := s₁.pcu p
    s₁.setPcu p (if f.readWhole .fetchNotice then u.fetched else { u with fetchMark := none })

/-- FETCH_NOTICE (R165). -/
def execFetchNotice (p : Port) (e : FrameEvent) (s : State) : Answer :=
  match e with
  | .clock bits => .next (s.clockBits p bits)
  | .release => .next (s.onRelease p (.immediate .fetchNotice) (s.endFetchNotice p))

/-- The end of a WINDOW INFO frame: no effect where its record was served; rejected where the port was
not READY or the frame ended before its index byte was complete (R156, R162, R166). -/
def State.endWindowInfo (s : State) (p : Port) (f : Frame) : State :=
  if !f.ready then s.rejectFrame p .notReady
  else if f.snapshot.isSome then s.setDecoder p .idle
  else if f.bitCount % 8 ≠ 0 then s.rejectFrame p .partialByte
  else s.rejectFrame p .badLength

/-- WINDOW_INFO (R166). -/
def execWindowInfo (p : Port) (e : FrameEvent) (s : State) : Answer :=
  match e with
  | .clock bits => .next (s.clockBits p bits)
  | .release => .next (s.onRelease p (.immediate .windowInfo) (s.endWindowInfo p))

/-- The end of a DEVICE INFO frame: no effect, or rejected where the port was not READY (R156, R167). -/
def State.endDeviceInfo (s : State) (p : Port) (f : Frame) : State :=
  if !f.ready then s.rejectFrame p .notReady else s.setDecoder p .idle

/-- DEVICE_INFO (R167). -/
def execDeviceInfo (p : Port) (e : FrameEvent) (s : State) : Answer :=
  match e with
  | .clock bits => .next (s.clockBits p bits)
  | .release => .next (s.onRelease p (.immediate .deviceInfo) (s.endDeviceInfo p))

/-- The reason for which a PORT RESET frame is rejected; `none` where its checks pass (R168). -/
def portResetReason (f : Frame) : Option RejectReason :=
  if !f.ready then some .notReady
  else if f.bitCount % 8 ≠ 0 then some .partialByte
  else if f.bytes.length = 2 ∧ f.bytes.getD 1 0#8 = 0x5A#8 then none
  else some .badLength

/-- The end of a PORT RESET frame: rejected, or the start of the port's teardown (R168). -/
def State.endPortReset (s : State) (p : Port) (f : Frame) : State :=
  match portResetReason f with
  | some r => s.rejectFrame p r
  | none => s.teardownStart p

/-- PORT_RESET (R168). -/
def execPortReset (p : Port) (e : FrameEvent) (s : State) : Answer :=
  match e with
  | .clock bits => .next (s.clockBits p bits)
  | .release => .next (s.onRelease p (.immediate .portReset) (s.endPortReset p))

/-- EMPTY_FRAME: SELn# is released with no bit clocked, and the link returns to idle (R152). -/
def execEmptyFrame (p : Port) (s : State) : Answer :=
  .next (s.onRelease p .empty (fun _ => s.setDecoder p .idle))

end Sys2Proof.Machine
end

