-- ==== Sys2Proof/Machine/Startup.lean ====
section
/-! DEFINITION. Power-on, RESET#, the initialization sweep (chapter 10) and the timebase ticks (R124,
R204). -/

namespace Sys2Proof.Machine

/-- The port that a sampled LSEL[1:0] names (R9). -/
def portOfStrap (lsel : BitVec 2) : Port :=
  if lsel = 0#2 then .p0 else if lsel = 1#2 then .p1 else if lsel = 2#2 then .p2 else .p3

/-- A link at a reset: REJ clear, and not in a frame; with select held asserted it waits for the
release (R153, R169). -/
def Link.afterReset (l : Link) : Link :=
  { decoder := if l.decoder = .idle then .idle else .waitRelease, reject := none }

/-- Every block at its reset values, in a phase; the queue of commands, the array, the remap table, the
spares and the timebase are as they stood (R131, R199, R203, log 21). -/
def State.blocksReset (s : State) (phase : Phase) : State :=
  { State.reset with
    pending := s.pending
    phase := phase
    layoutPort := s.layoutPort
    msCount := s.msCount
    usCount := s.usCount
    links :=
      ⟨s.links.p0.afterReset, s.links.p1.afterReset, s.links.p2.afterReset, s.links.p3.afterReset⟩
    remap := s.remap
    spares := s.spares
    mem := s.mem
    flips := s.flips
    draw := s.draw }

/-- POWER_ON: every block at its power-on values, the remap table empty and every spare FREE; LSEL[1:0]
is sampled; SWEEPING, or HELD where RESET# is asserted (R9, R198, R199, R203). The array holds what it
held (log 2), and a first millisecond begins (log 21). -/
def execPowerOn (resetAsserted : Bool) (lsel : BitVec 2) (s : State) : Answer :=
  .next
    { s.blocksReset (if resetAsserted then .held else .sweeping) with
      layoutPort := portOfStrap lsel
      msCount := 0#32
      usCount := 0
      remap := []
      spares := Vector.replicate 16 .free }

/-- RESET_ASSERT: the part enters HELD, and everything in progress is abandoned, with no completion,
notice, reject or integrity effect; the remap table, the spares and the array stay (R202, R203). -/
def execResetAssert (s : State) : Answer :=
  if s.phase = .held then .next s else .next (s.blocksReset .held)

/-- RESET_RELEASE: SWEEPING is entered, LSEL[1:0] sampled, and every block set to its reset values (R9,
R199, R204). -/
def execResetRelease (lsel : BitVec 2) (s : State) : Answer :=
  if s.phase = .held then
    .next { s.blocksReset .sweeping with layoutPort := portOfStrap lsel, msCount := 0#32 }
  else .next s

/-- The end of the sweep: RUNNING, every port READY, and the scrub timer starts with the interval
(R124, R201). The sweep pointer goes back to 0 (log 16). -/
def State.sweepEnd (s : State) : State :=
  { s with
    phase := .running
    sweepPointer := 0
    scrubTimer := some s.scrubInterval
    pcus :=
      ⟨{ s.pcus.p0 with state := .ready }, { s.pcus.p1 with state := .ready },
        { s.pcus.p2 with state := .ready }, { s.pcus.p3 with state := .ready }⟩ }

/-- SWEEP_LINE_WRITE: the line at the sweep pointer is written whole with zeros through the remap table
and the pointer moves on; the write of line 16,383 ends the sweep (R200, R201). -/
def execSweepLineWrite (s : State) : Answer :=
  if s.phase = .sweeping then
    let s₁ := s.overwriteLine (s.lineRef s.sweepPointer) (List.replicate 64 0#8)
    .next (if s.sweepPointer = 16383 then s₁.sweepEnd
      else { s₁ with sweepPointer := s.sweepPointer + 1 })
  else .next s

/-! ### Ticks (R124, R204, R205) -/

/-- The timer events of one port at one window that fall on the present tick and are still to be taken
(R205, log 8). -/
def State.dueEvents (s : State) (i : Nat) (p : Port) : State :=
  ((s.leaseLow i p).leaseExpire i p).waitExpire i p

/-- Every lease-low point, lease expiry and wait expiry that falls on the present tick and is still to
be taken, window by window and port by port (R205, log 8). -/
def State.settleTick (s : State) : State :=
  (List.range 32).foldl (fun t i => Port.all.foldl (fun u p => u.dueEvents i p) t) s

/-- Whether the millisecond tick is due: it falls on every 1,000th microsecond tick (R204). -/
def State.millisecondDue (s : State) : Bool := decide (Config.microsecondsPerTick ≤ s.usCount)

/-- The millisecond tick: in SWEEPING and RUNNING the count rises by 1, modulo 4,294,967,296; in HELD it
stands still (R204). The events of the tick before are taken before it (log 8). -/
def State.millisecond (s : State) : State :=
  if s.phase = .held then { s with usCount := 0 }
  else
    let s₁ := s.settleTick
    { s₁ with msCount := s₁.msCount + 1#32, usCount := 0 }

/-- MILLISECOND_TICK: the millisecond tick that falls on the 1,000th microsecond tick since the last one
(R204); no such tick falls at any other time (log 21). -/
def execMillisecondTick (s : State) : Answer :=
  .next (if s.millisecondDue then s.millisecond else s)

/-- An expiry of the scrub timer that is still to be taken (log 8). -/
def State.settleScrub (s : State) : State := if s.scrubTimer = some 0 then s.scrubExpire else s

/-- A microsecond tick: it counts towards the next millisecond tick (R204), and the remaining time of a
running scrub timer falls by 1 (R124). -/
def State.microsecond (s : State) : State :=
  { s with usCount := s.usCount + 1, scrubTimer := s.scrubTimer.map (fun t => t - 1) }

/-- MICROSECOND_TICK (R124, R204). A millisecond tick and an expiry of the scrub timer that fell on the
tick before and are still to be taken are taken before it (logs 8 and 21). -/
def execMicrosecondTick (s : State) : Answer :=
  .next (if s.millisecondDue then s.millisecond else s).settleScrub.microsecond

end Sys2Proof.Machine
end

