-- ==== Sys2Proof/Machine/Dispatch.lean ====
section
/-! DEFINITION. What each command does: one arm per constructor of `Instr`. -/

namespace Sys2Proof.Machine

def exec (i : Instr) (s : State) : Host.Outcome State Fault Refusal :=
  match i with
  | .powerOn r l => Sys2Proof.Machine.execPowerOn r l s
  | .resetAssert => Sys2Proof.Machine.execResetAssert s
  | .resetRelease l => Sys2Proof.Machine.execResetRelease l s
  | .sweepLineWrite => Sys2Proof.Machine.execSweepLineWrite s
  | .frameStart p => Sys2Proof.Machine.execFrameStart p s
  | .commandFrame p e => Sys2Proof.Machine.execCommandFrame p e s
  | .status p e => Sys2Proof.Machine.execStatus p e s
  | .collect p e => Sys2Proof.Machine.execCollect p e s
  | .fetchNotice p e => Sys2Proof.Machine.execFetchNotice p e s
  | .windowInfo p e => Sys2Proof.Machine.execWindowInfo p e s
  | .deviceInfo p e => Sys2Proof.Machine.execDeviceInfo p e s
  | .portReset p e => Sys2Proof.Machine.execPortReset p e s
  | .teardownEnd p => Sys2Proof.Machine.execTeardownEnd p s
  | .defineWindow p => Sys2Proof.Machine.execDefineWindow p s
  | .setWindowParams p => Sys2Proof.Machine.execSetWindowParams p s
  | .deleteWindow p => Sys2Proof.Machine.execDeleteWindow p s
  | .claim p => Sys2Proof.Machine.execClaim p s
  | .release p => Sys2Proof.Machine.execRelease p s
  | .renew p => Sys2Proof.Machine.execRenew p s
  | .setKey p => Sys2Proof.Machine.execSetKey p s
  | .clearKey p => Sys2Proof.Machine.execClearKey p s
  | .unlock p => Sys2Proof.Machine.execUnlock p s
  | .lock p => Sys2Proof.Machine.execLock p s
  | .setMasterKey p => Sys2Proof.Machine.execSetMasterKey p s
  | .freeze p => Sys2Proof.Machine.execFreeze p s
  | .wipePrepare p => Sys2Proof.Machine.execWipePrepare p s
  | .wipe p => Sys2Proof.Machine.execWipe p s
  | .read p => Sys2Proof.Machine.execRead p s
  | .write p => Sys2Proof.Machine.execWrite p s
  | .inject p => Sys2Proof.Machine.execInject p s
  | .scrubSettings p => Sys2Proof.Machine.execScrubSettings p s
  | .copy p => Sys2Proof.Machine.execCopy p s
  | .fill p => Sys2Proof.Machine.execFill p s
  | .cancelJob p => Sys2Proof.Machine.execCancelJob p s
  | .grant => Sys2Proof.Machine.execGrant s
  | .readCompletion => Sys2Proof.Machine.execReadCompletion s
  | .writeCompletion => Sys2Proof.Machine.execWriteCompletion s
  | .injectCompletion => Sys2Proof.Machine.execInjectCompletion s
  | .copyStepCompletion => Sys2Proof.Machine.execCopyStepCompletion s
  | .fillStepCompletion => Sys2Proof.Machine.execFillStepCompletion s
  | .wipeStepCompletion => Sys2Proof.Machine.execWipeStepCompletion s
  | .scrubReadCompletion => Sys2Proof.Machine.execScrubReadCompletion s
  | .leaseLowPoint w p => Sys2Proof.Machine.execLeaseLowPoint w p s
  | .leaseExpiry w p => Sys2Proof.Machine.execLeaseExpiry w p s
  | .waitExpiry w p => Sys2Proof.Machine.execWaitExpiry w p s
  | .scrubTimerExpiry => Sys2Proof.Machine.execScrubTimerExpiry s
  | .storedBitFlip phys word bit => Sys2Proof.Machine.execStoredBitFlip phys word bit s
  | .millisecondTick => Sys2Proof.Machine.execMillisecondTick s
  | .microsecondTick => Sys2Proof.Machine.execMicrosecondTick s
  | .emptyFrame p => Sys2Proof.Machine.execEmptyFrame p s

end Sys2Proof.Machine
end

