-- ==== Sys2Proof/Safety.lean ====
section
/-! DEFINITION. The vocabulary of the statements: when a PCU takes a command and what the taking leaves,
ordered checks, frame relations between two states, and the invariants of the part. -/

namespace Sys2Proof.Machine

/-! ### Taking a command (R173, R174, R176, R177) -/

/-- A port's PCU takes the command `c` under `tag` now, with `rest` behind it in the queue: the four
conditions of R173. -/
def State.takes (s : State) (p : Port) (tag : Byte) (c : Command) (rest : List Entry) : Prop :=
  (s.pcu p).state = .ready ∧ (s.pcu p).queue = ⟨tag, c, false⟩ :: rest ∧
    (s.pcu p).completions.length + (s.pcu p).reservations < 8

/-- A command that finishes at its taking: it leaves the queue, its completion joins the tail of the
completion queue, its tag is free, the wipe-prepared record is clear, and the reservation it took is
filled (R174). -/
def State.answers (s : State) (p : Port) (tag : Byte) (k : CommandKind) (o : OutcomeCode) : State :=
  s.setPcu p
    { s.pcu p with
      queue := (s.pcu p).queue.tail
      completions := (s.pcu p).completions ++ [⟨tag, k, o, .none⟩]
      outstanding := (s.pcu p).outstanding.erase tag
      wipePrepared := none }

/-- A command with ordered checks that finishes at its taking: its effect first when the outcome is OK,
and otherwise "the command then changes nothing". -/
def State.answersWith (s : State) (p : Port) (tag : Byte) (k : CommandKind) (o : OutcomeCode)
    (effect : State) : State :=
  (if o = .ok then effect else s).answers p tag k o

/-- A command that leaves the queue with its reservation and its tag held (R177). -/
def State.handsOver (s : State) (p : Port) : State :=
  s.setPcu p
    { s.pcu p with
      queue := (s.pcu p).queue.tail
      reservations := (s.pcu p).reservations + 1
      wipePrepared := none }

/-- A command that stays at the queue head, marked taken, as the port's pending access (R176). -/
def State.holdsHead (s : State) (p : Port) (tag : Byte) (rest : List Entry) (c : Command)
    (b : AccessBody) : State :=
  s.setPcu p
    { s.pcu p with
      queue := ⟨tag, c, true⟩ :: rest
      reservations := (s.pcu p).reservations + 1
      wipePrepared := none
      access := some ⟨tag, b⟩ }

/-- The command of the table that takes a command of this kind from a port's queue head. -/
def CommandKind.taking (p : Port) : CommandKind → Instr
  | .defineWindow => .defineWindow p
  | .setWindowParams => .setWindowParams p
  | .deleteWindow => .deleteWindow p
  | .freeze => .freeze p
  | .setMasterKey => .setMasterKey p
  | .scrubSettings => .scrubSettings p
  | .inject => .inject p
  | .claim => .claim p
  | .release => .release p
  | .renew => .renew p
  | .setKey => .setKey p
  | .clearKey => .clearKey p
  | .unlock => .unlock p
  | .lock => .lock p
  | .wipePrepare => .wipePrepare p
  | .wipe => .wipe p
  | .read => .read p
  | .write => .write p
  | .copy => .copy p
  | .fill => .fill p
  | .cancelJob => .cancelJob p

/-! ### Ordered checks -/

/-- The outcome of checks made in order: "The first check that fails gives the outcome", and OK stands
where none fails. -/
def Verdict : List (Prop × OutcomeCode) → OutcomeCode → Prop
  | [], o => o = .ok
  | (c, e) :: rest, o => (¬ c ∧ o = e) ∨ (c ∧ Verdict rest o)

/-- The same for the reject reasons of a frame; `none` where no check fails (R157). -/
def RejectVerdict : List (Prop × RejectReason) → Option RejectReason → Prop
  | [], r => r = none
  | (c, e) :: rest, r => (¬ c ∧ r = some e) ∨ (c ∧ RejectVerdict rest r)

/-- The window-relative lines from a byte offset to the last of `n` bytes (R3). -/
def touches (offset n k : Nat) : Prop := offset / 64 ≤ k ∧ k ≤ (offset + n - 1) / 64

/-- The six checks of a READ or WRITE, or of the run of a step, at its grant (R80, R82, R83). -/
def GrantChecks (s : State) (p : Port) (write : Bool) (r : Run) : List (Prop × OutcomeCode) :=
  [ (s.window? r.window ≠ none, .noWindow),
    (∀ w, s.window? r.window = some w → w.activity = .idle, .busyWindow),
    (∀ w, s.window? r.window = some w → r.offset + r.length ≤ 64 * w.length, .outOfRange),
    (∀ w, s.window? r.window = some w → w.guard.key = none ∨ w.guard.unlocked.get p = true, .locked),
    (∀ w, s.window? r.window = some w →
      match w.policy with
      | .free => True
      | .writeClaimed =>
        write = true → w.claimState = .writeHeld ∧ (w.holders.get p).isSome = true
      | .claimed =>
        (w.holders.get p).isSome = true ∧ (write = true → w.claimState = .writeHeld), .notHeld),
    (∀ w, s.window? r.window = some w → ∀ k, touches r.offset r.length k →
      w.base + k ∈ s.poisoned →
        write = true ∧ r.offset ≤ 64 * k ∧ 64 * k + 64 ≤ r.offset + r.length, .dataLost) ]

/-- The six checks of a COPY step, each on the source and then on the destination (R140). -/
def CopyChecks (s : State) (p : Port) (src dst : Run) : List (Prop × OutcomeCode) :=
  List.zipWith (fun a b => (a.1 ∧ b.1, a.2)) (GrantChecks s p false src) (GrantChecks s p true dst)

/-- The lease of a term that begins under a period (R39). -/
def termLease (period : Nat) (now : Tick) : Lease :=
  if period = 0 then { deadline := none, lowPoint := none, lowSent := false }
  else
    { deadline := some (now + BitVec.ofNat 32 period)
      lowPoint := if 4 ≤ period then some (period / 4) else none
      lowSent := false }

/-- The physical address of the `k`-th byte of a run of lines laid end to end. -/
def runAddress (lines : List LineRef) (k : Nat) : Nat :=
  64 * (lines.getD (k / 64) ⟨0, 0⟩).phys + k % 64

/-- The lines and the bytes of an access lie where they were recorded at the grant: distinct physical
lines, and the run inside them. -/
def RunLies (lines : List LineRef) (first n : Nat) : Prop :=
  (lines.map LineRef.phys).Nodup ∧ first + n ≤ 64 * lines.length

/-- The integrity unit's handling of the lines an access read, one line after another in the order in
which they were read, each as it was found; `stored` is what the access writes into a line it read
(R110, R111). -/
def State.handlesLines (s : State) (lines : List LineRef) (stored : LineRef → Option (List Byte)) :
    State :=
  lines.foldl (fun t r => t.handleRead ⟨r, s.lineClass r.phys, s.lineBytes r.phys⟩ (stored r)) s

/-- No line read is found uncorrectable. -/
def AllReadable (s : State) (lines : List LineRef) : Prop :=
  ∀ r ∈ lines, s.lineClass r.phys ≠ .uncorrectable

/-- The bytes of lines laid end to end, as read and corrected (R85). -/
def State.correctedBytes (s : State) (lines : List LineRef) : List Byte :=
  lines.flatMap (fun r => s.lineBytes r.phys)

/-- What a WRITE that covers its lines in part leaves in the array: every line merged with its data, or,
where a line is found uncorrectable, none of its data (R87, R88). -/
def WriteLeaves (s : State) (lines : List LineRef) (first : Nat) (data : List Byte) (u : State) :
    Prop :=
  (AllReadable s lines → u = s.handlesLines lines (fun r =>
    some (((((s.correctedBytes lines).take first ++ data ++
      (s.correctedBytes lines).drop (first + data.length)).drop
        (64 * lines.findIdx (fun x => x == r))).take 64)))) ∧
  (¬ AllReadable s lines → u = s.handlesLines lines (fun _ => none))

/-- The PCU of a port whose access completes: the head leaves the queue, the pending access is gone,
and the completion fills its reservation (R89, R176, R181). -/
def Pcu.accessEnds (u : Pcu) (a : Access) (k : CommandKind) (o : OutcomeCode) (e : Extra) : Pcu :=
  { u with
    queue := u.queue.tail, access := none
    completions := u.completions ++ [⟨a.tag, k, o, e⟩]
    reservations := u.reservations - 1
    outstanding := u.outstanding.erase a.tag }

/-- A number as two bytes, the most significant first (R206). -/
def be2 (n : Nat) : List Byte := [BitVec.ofNat 8 (n / 256), BitVec.ofNat 8 n]

/-- A number as three bytes, the most significant first (R206). -/
def be3 (n : Nat) : List Byte := BitVec.ofNat 8 (n / 65536) :: be2 n

/-- The 16 bytes of a key, first key byte first (12.2); the model holds a key as the number that its
bytes spell. -/
def keyBytes (k : Key) : List Byte :=
  (List.range 16).map (fun i => BitVec.ofNat 8 (k.toNat / 256 ^ (15 - i)))

/-- The state after rows that are taken one after another. -/
def State.afterRows (s : State) (rows : List Instr) : State :=
  rows.foldl (fun t c => match exec c t with
    | .next u => u
    | _ => t) s

/-- The timer rows of every window and port, in the model's order (log 8). -/
def timerRows : List Instr :=
  (List.range 32).flatMap (fun i => Port.all.flatMap (fun p =>
    [.leaseLowPoint i p, .leaseExpiry i p, .waitExpiry i p]))

/-- The stored bits of a word that disagree with the word as last encoded (R108, R109). -/
def State.flipsIn (s : State) (phys word : Nat) : List StoredBit :=
  (s.flips.filter (fun f => f.phys == phys && f.word == word)).map Flip.bit

/-! ### Frame relations -/

/-- The array and the integrity unit's records of it are the same: every byte reads the same, and so
do the flips, the poison marks, the suspects, the map, the spares and the device's counts. -/
def SameArray (s t : State) : Prop :=
  (∀ a, Memory.read t.mem a = Memory.read s.mem a) ∧ t.flips = s.flips ∧ t.poisoned = s.poisoned ∧
    t.suspects = s.suspects ∧ t.remap = s.remap ∧ t.spares = s.spares ∧
    t.correctedTotal = s.correctedTotal ∧ t.retirementsTotal = s.retirementsTotal

/-- The array and the integrity unit's records of it, the windows' fault counts among them, are the
same. -/
def SameIntegrity (s t : State) : Prop :=
  SameArray s t ∧ ∀ i, (t.window? i).map Window.faults = (s.window? i).map Window.faults

/-- Every window's fault counts have changed by `f` where the line belongs to the window, and nothing
else of any window has changed (R112). -/
def FaultsCounted (s t : State) (line : Nat) (f : FaultCounts → FaultCounts) : Prop :=
  ∀ i, t.window? i = (s.window? i).map (fun w =>
    if w.covers line then { w with faults := f w.faults } else w)

/-- The holders of every window, with their terms, are the same. -/
def SameHolders (s t : State) : Prop :=
  ∀ i, (t.window? i).map Window.holders = (s.window? i).map Window.holders

/-- What the completion of a COPY or FILL step of `n` bytes makes of its job, whose report is DELIVER:
the next step, or the end with the outcome and the bytes done of R144 and R145; `good` says that the
step completed OK. No other port receives a completion. -/
def StepSettles (s t : State) (c : Channel) (j : Job) (n : Nat) (good : Prop) : Prop :=
  let ends (o : OutcomeCode) (count : Nat) : Prop :=
    t.job c = none ∧
      (t.pcu j.owner).completions =
        (s.pcu j.owner).completions ++ [⟨j.tag, j.kind.command, o, .count count⟩] ∧
      (t.pcu j.owner).reservations = (s.pcu j.owner).reservations - 1 ∧
      (t.pcu j.owner).outstanding = (s.pcu j.owner).outstanding.erase j.tag
  (∀ q, q ≠ j.owner → (t.pcu q).completions = (s.pcu q).completions) ∧
  ((t.pcu j.owner).state = (s.pcu j.owner).state ∧
    (t.pcu j.owner).jobsAwaited = (s.pcu j.owner).jobsAwaited) ∧
  (j.state = .running → good → j.bytesDone + n < j.total →
    t.job c = some { j with bytesDone := j.bytesDone + n } ∧
      (t.pcu j.owner).completions = (s.pcu j.owner).completions ∧
      (t.pcu j.owner).reservations = (s.pcu j.owner).reservations ∧
      (t.pcu j.owner).outstanding = (s.pcu j.owner).outstanding) ∧
  (j.state = .running → good → j.bytesDone + n = j.total → ends .ok j.total) ∧
  (j.state = .running → ¬ good → ends .dataLost j.bytesDone) ∧
  (∀ o, j.state = .ending o →
    (good → o = .cancelled → j.bytesDone + n = j.total → ends .ok j.total) ∧
    (good → o ≠ .cancelled ∨ j.bytesDone + n < j.total → ends o (j.bytesDone + n)) ∧
    (¬ good → ends o j.bytesDone))

/-- The layout-port designation, the phase, the timebase and the sweep are the same. -/
def SameDevice (s t : State) : Prop :=
  t.phase = s.phase ∧ t.layoutPort = s.layoutPort ∧ t.msCount = s.msCount ∧
    t.usCount = s.usCount ∧ t.sweepPointer = s.sweepPointer ∧ t.pending = s.pending

/-- The master key, its attempts counter and the freeze flag are the same. -/
def SameKeys (s t : State) : Prop :=
  t.masterKey = s.masterKey ∧ t.masterAttempts = s.masterAttempts ∧ t.frozen = s.frozen

/-- The scrub settings, timer and pointer are the same. -/
def SameScrub (s t : State) : Prop :=
  t.scrubEnabled = s.scrubEnabled ∧ t.scrubInterval = s.scrubInterval ∧
    t.scrubTimer = s.scrubTimer ∧ t.scrubPointer = s.scrubPointer

/-- The rotation pointer, the scrub-due flag, the postponement count and the access in flight are the
same. -/
def SameArbiter (s t : State) : Prop :=
  t.rotation = s.rotation ∧ t.scrubDue = s.scrubDue ∧ t.postponed = s.postponed ∧
    t.inFlight = s.inFlight

/-- Both channels are the same. -/
def SameJobs (s t : State) : Prop := t.c0 = s.c0 ∧ t.c1 = s.c1

/-- What the completion of a step of channel `c` leaves as it was: the other channel, every link, the
device, the keys and the freeze flag, the scrub settings, and the arbiter's pointer, flag and count. -/
def SameOutsideStep (s t : State) (c : Channel) : Prop :=
  (∀ d, d ≠ c → t.job d = s.job d) ∧ t.links = s.links ∧ SameDevice s t ∧ SameKeys s t ∧
    SameScrub s t ∧ t.rotation = s.rotation ∧ t.scrubDue = s.scrubDue ∧ t.postponed = s.postponed

/-- Every PCU is the same but one port's, and that one but for what the end of a job of the port
changes: its completions, reservations and tags, or its teardown (R146). -/
def SamePcusBut (s t : State) (p : Port) : Prop :=
  (∀ q, q ≠ p → t.pcu q = s.pcu q) ∧
    t.pcu p =
      { s.pcu p with
        state := (t.pcu p).state, completions := (t.pcu p).completions
        reservations := (t.pcu p).reservations, outstanding := (t.pcu p).outstanding
        jobsAwaited := (t.pcu p).jobsAwaited }

/-- Every window is the same but for its holders' terms. -/
def SameWindowsButHolders (s t : State) : Prop :=
  ∀ i, (s.window? i = none → t.window? i = none) ∧
    ∀ w, s.window? i = some w → ∃ h, t.window? i = some { w with holders := h }

/-! ### Invariants -/

/-- A property holds of every defined window. -/
def EveryWindow (s : State) (P : Window → Prop) : Prop := ∀ i w, s.window? i = some w → P w

/-- The array's bytes keep their canonical form. -/
def MemoryCanonical (s : State) : Prop := Memory.wf s.mem = true

/-- The arbiter's scrub schedule: the postponement count never exceeds 4 and is 0 while the scrub-due
flag is clear (R101, R102). -/
def ScheduleLawful (s : State) : Prop :=
  s.postponed ≤ 4 ∧ (s.scrubDue = false → s.postponed = 0)

/-- How many ports hold a window. -/
def Window.holderCount (w : Window) : Nat := (Port.all.filter w.holds).length

/-- The guard records and the master attempts counter: attempts within 0 to 4; a window without a key
is STANDARD with an empty unlocked set and attempts 4; a window being wiped has an empty unlocked set;
a FREE window is unclaimed and carries no key (R4, R51, R54, R71). -/
def GuardsLawful (s : State) : Prop :=
  s.masterAttempts ≤ 4 ∧ EveryWindow s (fun w =>
    w.guard.attempts ≤ 4 ∧
    (w.guard.key = none →
      w.guard.level = .standard ∧ w.guard.unlocked = PerPort.const false ∧ w.guard.attempts = 4) ∧
    (w.activity = .wiping → w.guard.unlocked = PerPort.const false) ∧
    (w.policy = .free → w.guard.key = none ∧ w.holderCount = 0 ∧ w.waiters = []))

/-- The law of placement: every defined window lies within the array and holds at least one line, and
no line belongs to two defined windows (R1, R2). -/
def PlacementLawful (s : State) : Prop :=
  EveryWindow s (fun w => 1 ≤ w.length ∧ w.base + w.length ≤ 16384) ∧
    ∀ i j v w, i ≠ j → s.window? i = some v → s.window? j = some w →
      ∀ line, ¬ (v.covers line = true ∧ w.covers line = true)

/-- The claim part of a window: the claim state follows the holders, with a write holder alone; no
port waits twice or waits while it holds; and somebody waits only while somebody holds (R23, R24). -/
def Window.ClaimsLawful (w : Window) : Prop :=
  (w.claimState = .unclaimed ↔ w.holderCount = 0) ∧
    (w.claimState = .writeHeld → w.holderCount = 1) ∧
    (w.waiters.map Waiter.port).Nodup ∧ (∀ x ∈ w.waiters, w.holds x.port = false) ∧
    (w.waiters ≠ [] → 1 ≤ w.holderCount)

/-- Every defined window's claim part is lawful, and a window being wiped has neither holders nor
waiters (R23, R24, R48). -/
def ClaimsLawful (s : State) : Prop :=
  EveryWindow s (fun w => w.ClaimsLawful ∧
    (w.activity = .wiping → w.holderCount = 0 ∧ w.waiters = []))

/-- Whether the work of a step is the work of a job's kind. -/
def Work.ofJob : Work → JobKind → Prop
  | .copyStep .., k => k = .copy
  | .fillStep .., k => k = .fill
  | .wipeStep .., k => k = .wipe
  | _, _ => False

/-- The channels: a step in flight is a step of the job its channel holds; a job is ENDING only while a
step of it is in flight; a WIPE job stays RUNNING; and a window is WIPING exactly while the WIPE job for
it exists, which is one job (R6, R133, R145, R149). -/
def JobsLawful (s : State) : Prop :=
  (∀ c work, s.inFlight = some ⟨.slot (.channel c), work⟩ →
    ∃ j, s.job c = some j ∧ work.ofJob j.kind) ∧
  (∀ c j, s.job c = some j → j.state ≠ .running → s.stepInFlight c = true) ∧
  (∀ c j, s.job c = some j → j.kind = .wipe →
    j.state = .running ∧ ∃ w, s.window? j.dest.window = some w ∧ w.activity = .wiping) ∧
  (∀ j k, s.c0 = some j → s.c1 = some k → j.kind = .wipe → k.kind = .wipe →
    j.dest.window ≠ k.dest.window) ∧
  (∀ i w, s.window? i = some w → w.activity = .wiping →
    ∃ c j, s.job c = some j ∧ j.kind = .wipe ∧ j.dest.window = i)

/-- The WIPE jobs: each covers its window from the first byte to the last, in whole lines, and has bytes
left to write (R71, R149). -/
def WipeJobsLawful (s : State) : Prop :=
  ∀ c j, s.job c = some j → j.kind = .wipe →
    j.dest.offset = 0 ∧ 64 ∣ j.bytesDone ∧ j.bytesDone < j.total ∧
      ∃ w, s.window? j.dest.window = some w ∧ j.total = 64 * w.length

/-- A command queue holds at most four commands, and at most three while a frame runs whose start did
not show it full (R159, R171). -/
def QueuesLawful (s : State) : Prop :=
  ∀ p, (s.pcu p).queue.length ≤ 4 ∧
    ∀ f, (s.link p).decoder = .frame f → f.start.cqFull = false → (s.pcu p).queue.length ≤ 3

/-- A notice queue holds at most eight records, and no two of one kind and window (R184). -/
def NoticesLawful (s : State) : Prop :=
  ∀ p, (s.pcu p).notices.length ≤ 8 ∧
    (s.pcu p).notices.Pairwise (fun m n => m.sameKey n = false)

/-- On how many windows a port waits. -/
def State.waitCount (s : State) (p : Port) : Nat :=
  ((List.range 32).filter (fun i =>
    (s.window? i).any (fun w => w.waiters.any (fun x => x.port == p)))).length

/-- How many jobs a port owns whose completion is still to be delivered. -/
def State.deliverCount (s : State) (p : Port) : Nat :=
  ([Channel.c0, Channel.c1].filter (fun c =>
    (s.job c).any (fun j => j.owner == p && j.deliver))).length

/-- A port's queued completions and reservations never exceed eight; its reservations are the commands
taken whose completions are still to be written: its pending access, its waiting CLAIMs and its jobs;
and a pending access stands at the queue head, which carries the taken mark (R171, R176 to R178). -/
def CompletionsLawful (s : State) : Prop :=
  ∀ p, (s.pcu p).completions.length + (s.pcu p).reservations ≤ 8 ∧
    (s.pcu p).reservations =
      (if (s.pcu p).access = none then 0 else 1) + s.waitCount p + s.deliverCount p ∧
    ((s.pcu p).access ≠ none → ∃ e rest, (s.pcu p).queue = e :: rest ∧ e.taken = true)

/-- The integrity unit's lists: at most 32 suspects, none twice; the poison marks strictly rising; and a
remap table in which no line and no spare stands twice and whose spares are exactly the ones IN-USE
(R114, R117, R118, R122). -/
def IntegrityLawful (s : State) : Prop :=
  s.suspects.length ≤ 32 ∧ s.suspects.Nodup ∧ s.poisoned.Pairwise (· < ·) ∧
    (s.remap.map RemapEntry.line).Nodup ∧ (s.remap.map RemapEntry.spare).Nodup ∧
    ∀ k, s.spares[k]? = some SpareState.inUse ↔ ∃ e ∈ s.remap, e.spare = k

end Sys2Proof.Machine
end

