-- ==== Sys2Proof/Certificates/Slice0/Obligations.lean ====
section
/-! DEFINITION. The statements for the provers. -/

section Statements

open Sys2Proof Sys2Proof.Machine

/-! ### The step, the resets and the sweep -/

/-- A step runs the command at the front of the queue, on the state with the queue's rest; with no
command waiting the block idles, which is the model's choice (log 3). -/
def Obligations.StepRunsFrontCommand : Prop :=
  (∀ (c : Instr) (s : State), step { s with pending := c :: s.pending } = exec c s) ∧
  (∀ s : State, s.pending = [] → step s = .next s)

/-- What the state right after power-on holds of what the spec gives a value at reset (R8, R52,
R107, R124, R125, R131, R134, R153, R172, R190, R199, R204). That the part then stands in
SWEEPING, its RESET# released, is the model's choice of the state to start from (log 1), and so is
that a first millisecond then begins (log 21). -/
def Obligations.ResetStateHoldsResetValues : Prop :=
  State.reset.phase = .sweeping ∧ State.reset.msCount = 0#32 ∧ State.reset.usCount = 0 ∧
  State.reset.sweepPointer = 0 ∧
  (∀ i, State.reset.window? i = none) ∧
  State.reset.masterKey = none ∧ State.reset.masterAttempts = 4 ∧ State.reset.frozen = false ∧
  State.reset.rotation = .port .p0 ∧ State.reset.scrubDue = false ∧ State.reset.postponed = 0 ∧
  State.reset.inFlight = none ∧ (∀ x, State.reset.requests x = false) ∧
  (∀ c, State.reset.job c = none) ∧
  State.reset.scrubEnabled = true ∧ State.reset.scrubInterval = 100 ∧
  State.reset.scrubTimer = none ∧ State.reset.scrubPointer = 0 ∧
  State.reset.poisoned = [] ∧ State.reset.suspects = [] ∧ State.reset.remap = [] ∧
  (∀ k, k < 16 → State.reset.spares[k]? = some .free) ∧
  State.reset.correctedTotal = 0 ∧ State.reset.retirementsTotal = 0 ∧
  (∀ p, State.reset.link p = { decoder := .idle, reject := none } ∧
    State.reset.pcu p =
      { state := .init, queue := [], access := none, completions := [], reservations := 0,
        notices := [], noticeLost := false, wipePrepared := none, fetchMark := none,
        accessAwaited := false, jobsAwaited := 0, outstanding := [] } ∧
    State.reset.attention p = false)

/-- Power-on, the assertion and the release of RESET# (R9, R198, R199, R202, R203): every block at
its reset values; power-on empties the map and frees the spares, RESET# keeps both; the array
keeps what it holds; every link has no reject reason, an idle one stays idle, and one whose select is
held waits for its release (R153, R169). That a power-on
leaves the array's bytes and flips as they stood (log 2), that in HELD the blocks already hold
their reset values while the designation and the count stand (log 13), that a power-on samples the
strap and sets the count to 0 with RESET# asserted too (log 14), and that RESET# leaves the phase of
the two tick sources as it runs while a power-on begins a first millisecond (log 21), is the model's
choice; the queue of commands and the draw counter are the model's own fields. -/
def Obligations.ResetsSetEveryBlock : Prop :=
  (∀ r l (s : State), exec (.powerOn r l) s = .next
    { State.reset with
      pending := s.pending
      phase := if r then .held else .sweeping
      layoutPort := portOfStrap l
      links := ⟨s.links.p0.afterReset, s.links.p1.afterReset, s.links.p2.afterReset,
        s.links.p3.afterReset⟩
      mem := s.mem, flips := s.flips, draw := s.draw }) ∧
  (∀ s : State, s.phase ≠ .held → exec .resetAssert s = .next
    { State.reset with
      pending := s.pending
      phase := .held
      layoutPort := s.layoutPort
      msCount := s.msCount
      usCount := s.usCount
      links := ⟨s.links.p0.afterReset, s.links.p1.afterReset, s.links.p2.afterReset,
        s.links.p3.afterReset⟩
      remap := s.remap, spares := s.spares, mem := s.mem, flips := s.flips, draw := s.draw }) ∧
  (∀ l (s : State), s.phase = .held → exec (.resetRelease l) s = .next
    { State.reset with
      pending := s.pending
      phase := .sweeping
      layoutPort := portOfStrap l
      usCount := s.usCount
      links := ⟨s.links.p0.afterReset, s.links.p1.afterReset, s.links.p2.afterReset,
        s.links.p3.afterReset⟩
      remap := s.remap, spares := s.spares, mem := s.mem, flips := s.flips, draw := s.draw }) ∧
  (∀ l : Link,
    (l.decoder = .idle → l.afterReset = { decoder := .idle, reject := none }) ∧
    (l.decoder ≠ .idle → l.afterReset = { decoder := .waitRelease, reject := none })) ∧
  portOfStrap 0#2 = .p0 ∧ portOfStrap 1#2 = .p1 ∧ portOfStrap 2#2 = .p2 ∧ portOfStrap 3#2 = .p3

/-- A sweep write stores 64 zero bytes in the physical line that holds the line at the sweep
pointer, without flips, and nothing else of the array; the pointer moves on, and the write of line
16,383 ends the sweep, with every port READY and the scrub timer at the interval (R200, R201). The
pointer's value after the sweep is the model's choice (log 16) and is not stated. -/
def Obligations.SweepWriteZeroesOneLine : Prop :=
  ∀ s : State, s.phase = .sweeping → Memory.wf s.mem = true →
    ∃ t, exec .sweepLineWrite s = .next t ∧
      (∀ a, Memory.read t.mem a =
        if 64 * s.physOf s.sweepPointer ≤ a ∧ a < 64 * s.physOf s.sweepPointer + 64 then 0#8
        else Memory.read s.mem a) ∧
      t.flips = s.flips.filter (fun f => f.phys != s.physOf s.sweepPointer) ∧
      t.poisoned = s.poisoned.filter (fun l => l != s.sweepPointer) ∧
      t.suspects = s.suspects ∧ t.remap = s.remap ∧ t.spares = s.spares ∧
      t.correctedTotal = s.correctedTotal ∧ t.retirementsTotal = s.retirementsTotal ∧
      (s.sweepPointer ≠ 16383 →
        t.phase = .sweeping ∧ t.sweepPointer = s.sweepPointer + 1 ∧ t.pcus = s.pcus) ∧
      (s.sweepPointer = 16383 →
        t.phase = .running ∧ t.scrubTimer = some s.scrubInterval ∧
          ∀ p, t.pcu p = { s.pcu p with state := .ready })

/-! ### Frames (chapters 8 and 12) -/

/-- FRAME_START samples the status byte of the port as it stands and holds it for the frame, and the
flags of that byte are the ones of R154 at the bits of 12.4. While RESET# is held no frame begins:
the link waits for the release of select, which leaves it idle (R169). ATNn# is asserted exactly
while a completion or a notice is queued or notice-lost is set (R188). That SDOn is high impedance
while a link waits for the release is read from the spec (log 17); that clock pulses and the release
reach a waiting link under the row COMMAND_FRAME, as under every frame row, is the model's choice of
rows (log 5). -/
def Obligations.FrameStartSamplesStatus : Prop :=
  ((∀ (s : State) (p : Port), s.phase ≠ .held → (s.link p).decoder = .idle →
     exec (.frameStart p) s = .next (s.setLink p
       { decoder := .frame
           { start := s.statusFlags p, bitCount := 0, bytes := [], bits := [], snapshot := none }
         reject := (s.link p).reject })) ∧
   (∀ (s : State) (p : Port),
     ((s.statusFlags p).byte.getLsbD 7 = true ↔ (s.pcu p).state = .ready) ∧
     ((s.statusFlags p).byte.getLsbD 6 = true ↔ (s.pcu p).state = .init) ∧
     ((s.statusFlags p).byte.getLsbD 5 = true ↔ (s.pcu p).state = .teardown) ∧
     ((s.statusFlags p).byte.getLsbD 4 = true ↔ (s.pcu p).queue.length = 4) ∧
     ((s.statusFlags p).byte.getLsbD 3 = true ↔ (s.pcu p).completions ≠ []) ∧
     ((s.statusFlags p).byte.getLsbD 2 = true ↔ (s.pcu p).notices ≠ []) ∧
     ((s.statusFlags p).byte.getLsbD 1 = true ↔ (s.pcu p).noticeLost = true) ∧
     ((s.statusFlags p).byte.getLsbD 0 = true ↔ (s.link p).reject ≠ none))) ∧
  (∀ (s : State) (p : Port), (s.phase = .held → (s.link p).decoder = .idle →
       exec (.frameStart p) s = .next (s.setLink p { s.link p with decoder := .waitRelease })) ∧
     ((s.link p).decoder = .waitRelease → s.sdo p = none ∧
       (∀ bits, exec (.commandFrame p (.clock bits)) s = .next s) ∧
       exec (.commandFrame p .release) s =
         .next (s.setLink p { s.link p with decoder := .idle }))) ∧
  (∀ (s : State) (p : Port), s.attention p = true ↔
    (s.pcu p).completions ≠ [] ∨ (s.pcu p).notices ≠ [] ∨ (s.pcu p).noticeLost = true)

/-- The frame of each of the 21 commands, byte by byte: the opcode, the tag and the fields in the order
and at the widths of 12.2, each most significant byte first (R206). A command frame decodes to the tag and the command it was made from: no bit of a field is
dropped (R206, 12.2); and no other bytes decode to them, so a frame of another length decodes to
nothing (R158). Clocking a whole command frame into a frame just begun leaves exactly its bytes
in the link, most significant bit first (R152, R206). -/
def Obligations.CommandFrameIsReceivedAndDecodes : Prop :=
  (∀ (tag index policy selection enable kind wait level selector dest pattern job : Byte)
      (base length lease limit line interval : BitVec 16) (offset destOffset size : BitVec 24)
      (key oldKey : Key) (data : List Byte),
    Command.frame tag (.defineWindow index base length policy lease limit) =
      [0x20#8, tag, index] ++ be2 base.toNat ++ be2 length.toNat ++ [policy] ++ be2 lease.toNat ++
        be2 limit.toNat ∧
    Command.frame tag (.setWindowParams index selection policy lease limit) =
      [0x21#8, tag, index, selection, policy] ++ be2 lease.toNat ++ be2 limit.toNat ∧
    Command.frame tag (.deleteWindow index) = [0x22#8, tag, index] ∧
    Command.frame tag .freeze = [0x23#8, tag] ∧
    Command.frame tag (.setMasterKey oldKey key) = [0x24#8, tag] ++ keyBytes oldKey ++ keyBytes key ∧
    Command.frame tag (.scrubSettings enable interval) =
      [0x25#8, tag, enable] ++ be2 interval.toNat ∧
    Command.frame tag (.inject line kind) = [0x26#8, tag] ++ be2 line.toNat ++ [kind] ∧
    Command.frame tag (.claim index kind wait) = [0x30#8, tag, index, kind, wait] ∧
    Command.frame tag (.release index) = [0x31#8, tag, index] ∧
    Command.frame tag (.renew index) = [0x32#8, tag, index] ∧
    Command.frame tag (.setKey index level key) = [0x40#8, tag, index, level] ++ keyBytes key ∧
    Command.frame tag (.clearKey index) = [0x41#8, tag, index] ∧
    Command.frame tag (.unlock index selector key) = [0x42#8, tag, index, selector] ++ keyBytes key ∧
    Command.frame tag (.lock index) = [0x43#8, tag, index] ∧
    Command.frame tag (.wipePrepare index) = [0x44#8, tag, index] ∧
    Command.frame tag (.wipe index selector key) = [0x45#8, tag, index, selector] ++ keyBytes key ∧
    Command.frame tag (.read index offset length) =
      [0x50#8, tag, index] ++ be3 offset.toNat ++ be2 length.toNat ∧
    Command.frame tag (.write index offset data) =
      [0x51#8, tag, index] ++ be3 offset.toNat ++ be2 data.length ++ data ∧
    Command.frame tag (.copy index offset dest destOffset size) =
      [0x60#8, tag, index] ++ be3 offset.toNat ++ [dest] ++ be3 destOffset.toNat ++ be3 size.toNat ∧
    Command.frame tag (.fill dest destOffset size pattern) =
      [0x61#8, tag, dest] ++ be3 destOffset.toNat ++ be3 size.toNat ++ [pattern] ∧
    Command.frame tag (.cancelJob job) = [0x62#8, tag, job]) ∧
  (∀ (tag : Byte) (c : Command), c.wellFormed = true →
    commandOfFrame (c.frame tag) = some (tag, c)) ∧
  (∀ (bytes : List Byte) (tag : Byte) (c : Command), commandOfFrame bytes = some (tag, c) →
    bytes = c.frame tag ∧ c.wellFormed = true) ∧
  (∀ (s : State) (p : Port) tag c (f : Frame), (s.link p).decoder = .frame f → f.bitCount = 0 →
    f.bytes = [] → f.bits = [] → f.snapshot = none →
    exec (.commandFrame p (.clock (bitsOfBytes (Command.frame tag c)))) s =
      .next (s.setLink p
        { decoder := .frame
            { f with
              bitCount := 8 * (Command.frame tag c).length
              bytes := Command.frame tag c }
          reject := (s.link p).reject }))

/-- The output records, byte by byte: the code values of 12.3 and the opcodes of 12.2, every other
opcode being unknown; the STATUS
record (12.4); the completion and notice records with their empty records (R207, R208); and the
WINDOW INFO and DEVICE INFO records (R209). A number of several bytes stands most significant byte
first (R206). -/
def Obligations.RecordsHaveTheirLayouts : Prop :=
  (∀ x ∈ [(OutcomeCode.ok, 0x00#8), (.wouldWait, 0x01#8), (.timedOut, 0x02#8), (.revoked, 0x03#8),
      (.cancelled, 0x04#8), (.noWindow, 0x10#8), (.exists, 0x11#8), (.outOfRange, 0x12#8),
      (.overlap, 0x13#8), (.badParameter, 0x14#8), (.notLayoutPort, 0x15#8), (.frozen, 0x16#8),
      (.notClaimable, 0x20#8), (.notHeld, 0x21#8), (.alreadyHeld, 0x22#8), (.busyWindow, 0x23#8),
      (.locked, 0x30#8), (.keyed, 0x31#8), (.notKeyed, 0x32#8), (.keyMismatch, 0x33#8),
      (.barred, 0x34#8), (.noMasterKey, 0x35#8), (.notPrepared, 0x36#8), (.noChannel, 0x40#8),
      (.noJob, 0x41#8), (.dataLost, 0x50#8)], x.1.byte = x.2) ∧
  (∀ x ∈ [(CommandKind.defineWindow, 0x20#8), (.setWindowParams, 0x21#8), (.deleteWindow, 0x22#8),
      (.freeze, 0x23#8), (.setMasterKey, 0x24#8), (.scrubSettings, 0x25#8), (.inject, 0x26#8),
      (.claim, 0x30#8), (.release, 0x31#8), (.renew, 0x32#8), (.setKey, 0x40#8),
      (.clearKey, 0x41#8), (.unlock, 0x42#8), (.lock, 0x43#8), (.wipePrepare, 0x44#8),
      (.wipe, 0x45#8), (.read, 0x50#8), (.write, 0x51#8), (.copy, 0x60#8), (.fill, 0x61#8),
      (.cancelJob, 0x62#8)], x.1.opcode = x.2) ∧
  (∀ (b : Byte) (k : CommandKind), commandKindOf b = some k ↔ k.opcode = b) ∧
  (∀ (b : Byte) (k : ImmediateKind), immediateOf b = some k ↔
    (b, k) ∈ [(0x01#8, ImmediateKind.status), (0x02#8, .collect), (0x03#8, .fetchNotice),
      (0x04#8, .windowInfo), (0x05#8, .deviceInfo), (0x0F#8, .portReset)]) ∧
  (∀ x ∈ [(none, 0x00#8), (some RejectReason.notReady, 0x01#8), (some .unknownOpcode, 0x02#8),
      (some .badLength, 0x03#8), (some .partialByte, 0x04#8), (some .queueFull, 0x05#8),
      (some .dupTag, 0x06#8)], rejectByte x.1 = x.2) ∧
  (portByte .p0 = 0x00#8 ∧ portByte .p1 = 0x01#8 ∧ portByte .p2 = 0x02#8 ∧ portByte .p3 = 0x03#8) ∧
  (∀ (s : State) (p : Port), ∃ b,
    (Snapshot.status (s.statusRecord p)).bytes =
      [(s.statusFlags p).byte, rejectByte (s.link p).reject,
        BitVec.ofNat 8 (s.pcu p).queue.length, BitVec.ofNat 8 (s.pcu p).completions.length,
        BitVec.ofNat 8 (s.pcu p).reservations, BitVec.ofNat 8 (s.pcu p).notices.length, b] ∧
      b.getLsbD 0 = (s.pcu p).noticeLost ∧ (b.getLsbD 1 = true ↔ s.layoutPort = p) ∧
      b.getLsbD 2 = s.frozen ∧ ∀ k, 3 ≤ k → b.getLsbD k = false) ∧
  (∀ (tag : Byte) (k : CommandKind) (o : OutcomeCode),
    (Snapshot.collect (some ⟨tag, k, o, .none⟩)).bytes = [tag, k.opcode, o.byte, 0#8] ∧
    (∀ bs : List Byte, (Snapshot.collect (some ⟨tag, k, o, .data bs⟩)).bytes =
      [tag, k.opcode, o.byte, BitVec.ofNat 8 bs.length] ++ bs) ∧
    (∀ n : Nat, (Snapshot.collect (some ⟨tag, k, o, .count n⟩)).bytes =
      [tag, k.opcode, o.byte, 3#8, BitVec.ofNat 8 (n / 65536)] ++ be2 n)) ∧
  (Snapshot.collect none).bytes = [0#8, 0#8, 0#8, 0#8] ∧
  (∀ w line count : Nat,
    (Snapshot.fetchNotice (some (.leaseLow w))).bytes = [0x01#8, BitVec.ofNat 8 w, 0#8, 0#8, 0#8] ∧
    (Snapshot.fetchNotice (some (.leaseExpired w))).bytes =
      [0x02#8, BitVec.ofNat 8 w, 0#8, 0#8, 0#8] ∧
    (Snapshot.fetchNotice (some (.claimRevoked w))).bytes =
      [0x03#8, BitVec.ofNat 8 w, 0#8, 0#8, 0#8] ∧
    (Snapshot.fetchNotice (some (.linePoisoned w line count))).bytes =
      [0x04#8, BitVec.ofNat 8 w] ++ be2 line ++ [BitVec.ofNat 8 count]) ∧
  (Snapshot.fetchNotice (some .sparesExhausted)).bytes = [0x05#8, 0xFF#8, 0#8, 0#8, 0#8] ∧
  (Snapshot.fetchNotice none).bytes = [0#8, 0#8, 0#8, 0#8, 0#8] ∧
  (∀ i : Byte, (Snapshot.windowInfo i none).bytes = [i, 0#8]) ∧
  (∀ (i : Byte) (w : Window) (now : Tick),
    (Snapshot.windowInfo i (some (w.info now))).bytes =
      [i, 1#8] ++ be2 w.base ++ be2 w.length ++
      [match w.policy with
        | .free => 0x00#8
        | .writeClaimed => 0x01#8
        | .claimed => 0x02#8] ++
      be2 w.leasePeriod ++ be2 w.waitLimit ++
      [match w.activity with
        | .idle => 0x00#8
        | .wiping => 0x01#8,
       match w.claimState with
        | .unclaimed => 0x00#8
        | .readHeld => 0x01#8
        | .writeHeld => 0x02#8,
       BitVec.ofNat 8 w.holderCount] ++
      Port.all.flatMap (fun q =>
        match w.holders.get q with
        | none => []
        | some l =>
          [portByte q] ++
            (match l.deadline with
              | none => [0xFF#8, 0xFF#8]
              | some d => be2 (d - now).toNat) ++
            [if l.lowSent then 1#8 else 0#8]) ++
      [BitVec.ofNat 8 w.waiters.length] ++
      w.waiters.flatMap (fun x =>
        [portByte x.port,
          match x.kind with
            | .read => 0x01#8
            | .write => 0x02#8] ++
          (match x.deadline with
            | none => [0xFF#8, 0xFF#8]
            | some d => be2 (d - now).toNat) ++
          [x.tag]) ++
      [if w.guard.key = none then 0#8 else 1#8,
       match w.guard.level with
        | .standard => 0x00#8
        | .strict => 0x01#8,
       BitVec.ofNat 8 ((if w.guard.unlocked.p0 then 1 else 0) + (if w.guard.unlocked.p1 then 2 else 0) +
        (if w.guard.unlocked.p2 then 4 else 0) + (if w.guard.unlocked.p3 then 8 else 0)),
       BitVec.ofNat 8 w.guard.attempts] ++
      be2 w.faults.corrected ++ be2 w.faults.poisonings ++ [BitVec.ofNat 8 w.faults.retirements]) ∧
  (∀ s : State, ∃ b h0 h1,
    (Snapshot.deviceInfo s.deviceInfo).bytes =
      [0x40#8, 0x00#8, 0x40#8, 0x10#8, 0x20#8, b, BitVec.ofNat 8 s.masterAttempts,
        if s.scrubEnabled then 1#8 else 0#8] ++
      be2 s.scrubInterval ++ be2 s.scrubPointer ++
      be2 (s.correctedTotal / 65536) ++ be2 s.correctedTotal ++ be2 s.poisoned.length ++
      [BitVec.ofNat 8 s.retirementsTotal, BitVec.ofNat 8 (s.spares.toList.count .free),
        BitVec.ofNat 8 (s.spares.toList.count .inUse),
        BitVec.ofNat 8 (s.spares.toList.count .spent), BitVec.ofNat 8 s.suspects.length] ++
      h0 ++ h1 ∧
    b.getLsbD 0 = s.frozen ∧ (b.getLsbD 1 = true ↔ s.masterKey ≠ none) ∧
    (∀ k, 2 ≤ k → b.getLsbD k = false) ∧
    ∀ x ∈ [(s.c0, h0), (s.c1, h1)],
      (x.1 = none → x.2 = [0#8, 0#8, 0#8, 0#8, 0#8]) ∧
      ∀ j, x.1 = some j → x.2 =
        [match j.kind with
          | .copy => 0x60#8
          | .fill => 0x61#8
          | .wipe => 0x45#8,
         portByte j.owner, BitVec.ofNat 8 (j.bytesDone / 65536)] ++ be2 j.bytesDone)

/-- The end of a command frame that passes every check admits its command: it joins the tail of
the queue, its tag becomes outstanding and REJ is cleared; and where the PCU does not take its
head in that event, this is all that happens (R157, R159, R173). The admission of a command into
an empty queue takes it in the same event: the frame's end does what the taking does on the state
that the admission leaves (R159, R173). That the taking is part of the frame's own event is read
from R173 (log 6). -/
def Obligations.AdmissionQueuesTheCommandAndMayTakeIt : Prop :=
  (∀ (s : State) (p : Port) tag c (f : Frame), (s.link p).decoder = .frame f → f.start.state = .ready →
     f.start.cqFull = false → f.bytes = Command.frame tag c →
     f.bitCount = 8 * (Command.frame tag c).length → c.wellFormed = true →
     tag ∉ (s.pcu p).outstanding →
     (s.pcu p).queue ≠ [] ∨ (s.pcu p).state ≠ .ready ∨
       8 ≤ (s.pcu p).completions.length + (s.pcu p).reservations →
     exec (.commandFrame p .release) s = .next
       ((s.setPcu p
         { s.pcu p with
           queue := (s.pcu p).queue ++ [⟨tag, c, false⟩]
           outstanding := (s.pcu p).outstanding ++ [tag] }).setLink p
         { decoder := .idle, reject := none })) ∧
  (∀ (s : State) (p : Port) tag c (f : Frame), (s.link p).decoder = .frame f → f.start.state = .ready →
     f.start.cqFull = false → f.bytes = Command.frame tag c →
     f.bitCount = 8 * (Command.frame tag c).length → c.wellFormed = true →
     tag ∉ (s.pcu p).outstanding →
     (s.pcu p).queue = [] → (s.pcu p).state = .ready →
     (s.pcu p).completions.length + (s.pcu p).reservations < 8 →
     exec (.commandFrame p .release) s = exec (CommandKind.taking p c.kind)
       ((s.setPcu p
         { s.pcu p with
           queue := [⟨tag, c, false⟩]
           outstanding := (s.pcu p).outstanding ++ [tag] }).setLink p
         { decoder := .idle, reject := none }))

/-- The first check of R157 that fails gives the reject reason of a command frame, or of a frame of
unknown opcode, and the rejection changes nothing but the link (R157, R160). -/
def Obligations.RejectedFrameLeavesOnlyTheReason : Prop :=
  ∀ (s : State) (p : Port) (f : Frame) r, (s.link p).decoder = .frame f → f.bitCount ≠ 0 →
    f.bytes.head?.bind immediateOf = none →
    RejectVerdict
      [ (f.start.state = .ready, .notReady),
        (f.bitCount % 8 = 0, .partialByte),
        (f.bytes.head?.bind commandKindOf ≠ none, .unknownOpcode),
        (f.start.cqFull = false, .queueFull),
        (commandOfFrame f.bytes ≠ none, .badLength),
        (f.bytes.getD 1 0#8 ∉ (s.pcu p).outstanding, .dupTag) ] (some r) →
    exec (.commandFrame p .release) s =
      .next (s.setLink p { decoder := .idle, reject := some r })

/-- At the completion of the header of an immediate frame its snapshot is taken, of the state as it
stands; FETCH NOTICE marks the oldest notice as under fetch (R162 to R167). After the snapshot the
record is shifted out from it: bits clocked in are only counted, and SDOn shows the record's bits
most significant first, and 0 past its end (R155, R162). While no snapshot is taken, through the
opcode byte and every byte of a command frame and of a frame that is to be rejected, SDOn shows the
frame-start status byte, most significant bit first, once for each byte, and the bits of a frame with
no immediate opcode bring none (R155). An immediate frame other than STATUS whose start did not show
READY takes no snapshot, at its header or after it, and neither does a PORT RESET frame: its bits
change its link alone, so no byte of a record is shown and no notice is marked (R155, R156, R162). That
clock pulses act alike under every frame row is the
model's choice of rows (log 5). -/
def Obligations.HeaderTakesTheSnapshotAndShiftsItOut : Prop :=
  (∀ (s : State) (p : Port) (f : Frame), (s.link p).decoder = .frame f → f.bitCount = 0 → f.bytes = [] →
     f.bits = [] → f.snapshot = none →
     (exec (.status p (.clock (bitsOfByte 0x01#8))) s = .next (s.setLink p
       { decoder := .frame
           { f with bitCount := 8, bytes := [0x01#8], snapshot := some (.status (s.statusRecord p)) }
         reject := (s.link p).reject })) ∧
     (f.start.state = .ready →
       exec (.collect p (.clock (bitsOfByte 0x02#8))) s = .next (s.setLink p
         { decoder := .frame
             { f with
               bitCount := 8, bytes := [0x02#8]
               snapshot := some (.collect (s.pcu p).completions.head?) }
           reject := (s.link p).reject }) ∧
       exec (.fetchNotice p (.clock (bitsOfByte 0x03#8))) s = .next ((s.setLink p
         { decoder := .frame
             { f with
               bitCount := 8, bytes := [0x03#8]
               snapshot := some (.fetchNotice (s.pcu p).notices.head?) }
           reject := (s.link p).reject }).setPcu p
         { s.pcu p with fetchMark := (s.pcu p).notices.head?.map (fun n => ⟨n, 0, none⟩) }) ∧
       (∀ i, exec (.windowInfo p (.clock (bitsOfBytes [0x04#8, i]))) s = .next (s.setLink p
         { decoder := .frame
             { f with
               bitCount := 16, bytes := [0x04#8, i]
               snapshot :=
                 some (.windowInfo i ((s.window? i.toNat).map (fun w => w.info s.msCount))) }
           reject := (s.link p).reject })) ∧
       exec (.deviceInfo p (.clock (bitsOfByte 0x05#8))) s = .next (s.setLink p
         { decoder := .frame
             { f with
               bitCount := 8, bytes := [0x05#8], snapshot := some (.deviceInfo s.deviceInfo) }
           reject := (s.link p).reject }))) ∧
  (∀ (s : State) (p : Port) (f : Frame) sn k, (s.link p).decoder = .frame f → f.snapshot = some sn →
     f.bytes.head?.bind immediateOf = some k →
     (∀ row ∈ [Instr.commandFrame p, Instr.status p, Instr.collect p, Instr.fetchNotice p,
         Instr.windowInfo p, Instr.deviceInfo p, Instr.portReset p],
       ∀ bits, exec (row (.clock bits)) s = .next (s.setLink p
         { decoder := .frame { f with bitCount := f.bitCount + bits.length }
           reject := (s.link p).reject })) ∧
     (∀ n, f.bitCount = (if k = .windowInfo ∨ k = .portReset then 16 else 8) + n →
       s.sdo p = some ((sn.bytes.getD (n / 8) 0#8).getLsbD (7 - n % 8)))) ∧
  (∀ (s : State) (p : Port) (f : Frame), (s.link p).decoder = .frame f → f.snapshot = none →
     s.sdo p = some (f.start.byte.getLsbD (7 - f.bitCount % 8)) ∧
     (f.bytes ≠ [] → f.bytes.head?.bind immediateOf = none →
       ∀ b, ∃ g, exec (.commandFrame p (.clock [b])) s =
           .next (s.setLink p { decoder := .frame g, reject := (s.link p).reject }) ∧
         g.start = f.start ∧ g.snapshot = none ∧ g.bitCount = f.bitCount + 1 ∧
         g.bytes.head? = f.bytes.head?)) ∧
  (∀ (s : State) (p : Port) (f : Frame) op bits, (s.link p).decoder = .frame f → f.bitCount = 0 →
     f.bytes = [] → f.bits = [] → f.snapshot = none →
     (op ∈ [0x02#8, 0x03#8, 0x04#8, 0x05#8] ∧ f.start.state ≠ .ready) ∨ op = 0x0F#8 →
     ∀ row ∈ [Instr.commandFrame p, Instr.status p, Instr.collect p, Instr.fetchNotice p,
         Instr.windowInfo p, Instr.deviceInfo p, Instr.portReset p],
       ∃ g, exec (row (.clock (bitsOfByte op ++ bits))) s =
           .next (s.setLink p { decoder := .frame g, reject := (s.link p).reject }) ∧
         g.start = f.start ∧ g.snapshot = none ∧ g.bitCount = 8 + bits.length ∧
         g.bytes.head? = some op)

/-- The end of a STATUS frame: read whole, it clears REJ, and notice-lost where its snapshot showed
it; not read whole, it clears nothing (R163). -/
def Obligations.StatusFrameEnd : Prop :=
  ∀ (s : State) (p : Port) (f : Frame) r, (s.link p).decoder = .frame f → f.bytes = [0x01#8] →
    f.snapshot = some (.status r) →
    (64 ≤ f.bitCount → exec (.status p .release) s = .next
      ((s.setPcu p
        { s.pcu p with noticeLost := if r.noticeLost then false else (s.pcu p).noticeLost }).setLink p
        { decoder := .idle, reject := none })) ∧
    (8 ≤ f.bitCount → f.bitCount < 64 → exec (.status p .release) s = .next
      (s.setLink p { decoder := .idle, reject := (s.link p).reject }))

/-- The end of a COLLECT frame: read whole, it removes the completion it showed; read in part, or
where it showed the empty marker, it removes nothing (R164). Where the removal lets the PCU take its
head, the frame's end does what the taking does on the state it leaves (R173, R179). -/
def Obligations.CollectFrameEnd : Prop :=
  ∀ (s : State) (p : Port) (f : Frame) c, (s.link p).decoder = .frame f → f.bytes = [0x02#8] →
    f.start.state = .ready → f.snapshot = some (.collect c) → 8 ≤ f.bitCount →
    (c = none ∨ (∃ d, c = some d ∧ f.bitCount < 8 * (1 + d.bytes.length)) →
      exec (.collect p .release) s = .next
        (s.setLink p { decoder := .idle, reject := (s.link p).reject })) ∧
    (∀ d, c = some d → 8 * (1 + d.bytes.length) ≤ f.bitCount →
      ∀ t, t = (s.setPcu p { s.pcu p with completions := (s.pcu p).completions.tail }).setLink p
          { decoder := .idle, reject := (s.link p).reject } →
        ((∀ tag c rest, ¬ t.takes p tag c rest) ∨ (∃ tag c rest, s.takes p tag c rest) →
          exec (.collect p .release) s = .next t) ∧
        (∀ tag c rest, t.takes p tag c rest → (∀ tag c rest, ¬ s.takes p tag c rest) →
          exec (.collect p .release) s = exec (CommandKind.taking p c.kind) t))

/-- The end of a FETCH NOTICE frame read whole: a notice shown and still under fetch is removed
where no repeat came; otherwise it stays, and a LINE_POISONED then names the repeat line with the
repeat count. Not read whole, it removes nothing. The mark ends in every case (R165). -/
def Obligations.FetchNoticeFrameEnd : Prop :=
  ∀ (s : State) (p : Port) (f : Frame) n, (s.link p).decoder = .frame f → f.bytes = [0x03#8] →
    f.start.state = .ready → f.snapshot = some (.fetchNotice n) → 8 ≤ f.bitCount →
    ∃ t, exec (.fetchNotice p .release) s = .next t ∧
      (∃ l, t = (s.setPcu p { s.pcu p with notices := l, fetchMark := none }).setLink p
          { decoder := .idle, reject := (s.link p).reject } ∧
        (f.bitCount < 48 → l = (s.pcu p).notices) ∧
        (48 ≤ f.bitCount →
          ((s.pcu p).fetchMark = none → l = (s.pcu p).notices) ∧
          (∀ m, (s.pcu p).fetchMark = some m → m.repeats = 0 →
            l = (s.pcu p).notices.filter (fun x => !m.notice.sameKey x)) ∧
          (∀ m, (s.pcu p).fetchMark = some m → 1 ≤ m.repeats →
            l = (s.pcu p).notices.map (fun x =>
              if m.notice.sameKey x then
                (match x with
                  | .linePoisoned w line _ =>
                    .linePoisoned w (m.repeatLine.getD line) m.repeats
                  | other => other)
              else x))))

/-- The frames without an effect: a WINDOW INFO or DEVICE INFO frame served, whether or not its
record was read whole, and a frame in which no bit was clocked, leave the link idle and nothing else
changed (R152, R166, R167). An immediate frame other than STATUS whose start showed INIT or TEARDOWN
is rejected NOT_READY at its end; a WINDOW INFO frame released before its index byte is complete is
rejected PARTIAL_BYTE or BAD_LENGTH; a PORT RESET frame is rejected by the first check of R168 that
fails (R156, R162, R168). -/
def Obligations.InformationFramesAndRejections : Prop :=
  (∀ (s : State) (p : Port) (f : Frame) sn, (s.link p).decoder = .frame f →
     (∀ i, f.bytes = [0x04#8, i] → f.start.state = .ready → f.snapshot = some sn → 16 ≤ f.bitCount →
       exec (.windowInfo p .release) s =
         .next (s.setLink p { decoder := .idle, reject := (s.link p).reject })) ∧
     (f.bytes = [0x05#8] → f.start.state = .ready → f.snapshot = some sn → 8 ≤ f.bitCount →
       exec (.deviceInfo p .release) s =
         .next (s.setLink p { decoder := .idle, reject := (s.link p).reject })) ∧
     (f.bitCount = 0 → exec (.emptyFrame p) s =
       .next (s.setLink p { decoder := .idle, reject := (s.link p).reject }))) ∧
  (∀ (s : State) (p : Port) (f : Frame) op, (s.link p).decoder = .frame f → 8 ≤ f.bitCount →
     f.bytes.head? = some op →
     (f.start.state ≠ .ready →
       (op = 0x02#8 → exec (.collect p .release) s =
         .next (s.setLink p { decoder := .idle, reject := some .notReady })) ∧
       (op = 0x03#8 → exec (.fetchNotice p .release) s =
         .next (s.setLink p { decoder := .idle, reject := some .notReady })) ∧
       (op = 0x04#8 → exec (.windowInfo p .release) s =
         .next (s.setLink p { decoder := .idle, reject := some .notReady })) ∧
       (op = 0x05#8 → exec (.deviceInfo p .release) s =
         .next (s.setLink p { decoder := .idle, reject := some .notReady })) ∧
       (op = 0x0F#8 → exec (.portReset p .release) s =
         .next (s.setLink p { decoder := .idle, reject := some .notReady }))) ∧
     (f.start.state = .ready →
       (op = 0x04#8 → f.snapshot = none → f.bitCount % 8 ≠ 0 → exec (.windowInfo p .release) s =
         .next (s.setLink p { decoder := .idle, reject := some .partialByte })) ∧
       (op = 0x04#8 → f.snapshot = none → f.bitCount % 8 = 0 → exec (.windowInfo p .release) s =
         .next (s.setLink p { decoder := .idle, reject := some .badLength })) ∧
       (op = 0x0F#8 → f.bitCount % 8 ≠ 0 → exec (.portReset p .release) s =
         .next (s.setLink p { decoder := .idle, reject := some .partialByte })) ∧
       (op = 0x0F#8 → f.bitCount % 8 = 0 → f.bytes ≠ [0x0F#8, 0x5A#8] →
         exec (.portReset p .release) s =
           .next (s.setLink p { decoder := .idle, reject := some .badLength }))))

/-! ### Teardown (chapter 10) -/

/-- An accepted PORT RESET tears its port down in the one event of the frame's end: its PCU is
emptied, with the access in flight awaited and the tags of its wipes still outstanding; it holds,
waits for and unlocks no window; no job of it is left RUNNING but a WIPE; and what stands for the
other ports at the guard unit, the arbiter and their links is kept (R168, R191 to R193). After all the removals
one grant pass is made on each window from which the port was removed, in ascending order of index,
and what the passes leave of the windows and of the other ports is what the event leaves (R49, R192).
With nothing awaited, the teardown ends and the port is READY, and nothing else changes (R195). -/
def Obligations.TeardownOfAPort : Prop :=
  (∀ (s : State) (p : Port) (f : Frame), (s.link p).decoder = .frame f → f.bytes = [0x0F#8, 0x5A#8] →
     f.start.state = .ready → f.bitCount = 16 →
     ∃ t, exec (.portReset p .release) s = .next t ∧
       t.link p = { decoder := .idle, reject := none } ∧ (∀ q, q ≠ p → t.link q = s.link q) ∧
       t.draw = s.draw ∧
       t.pcu p =
         { state := .teardown, queue := [], access := none, completions := [], reservations := 0,
           notices := [], noticeLost := false, wipePrepared := none, fetchMark := none,
           accessAwaited := s.inFlight.any (fun x => x.requestor == .slot (.port p))
           jobsAwaited := (Channel.all.filter (fun c => (s.job c).any (fun j =>
             j.owner == p && j.kind != .wipe && (j.state != .running || s.stepInFlight c)))).length
           outstanding := Channel.all.filterMap (fun c => (s.job c).bind (fun j =>
             if j.owner = p ∧ j.kind = .wipe then some j.tag else none)) } ∧
       (∀ i w, s.window? i = some w → ∃ v, t.window? i = some v ∧
         v.holds p = false ∧ v.waits p = false ∧ v.guard.unlocked.get p = false ∧
         v.base = w.base ∧ v.length = w.length ∧ v.policy = w.policy ∧
         v.leasePeriod = w.leasePeriod ∧ v.waitLimit = w.waitLimit ∧ v.activity = w.activity ∧
         v.guard.key = w.guard.key ∧ v.guard.level = w.guard.level ∧
         v.guard.attempts = w.guard.attempts ∧ v.faults = w.faults ∧
         ∀ q, q ≠ p → v.guard.unlocked.get q = w.guard.unlocked.get q ∧
           (w.holds q = true → v.holds q = true)) ∧
       (∀ i, s.window? i = none → t.window? i = none) ∧
       (∀ c j, t.job c = some j → j.owner = p →
         j.deliver = false ∧ (j.kind = .wipe ∨ j.state ≠ .running)) ∧
       (∀ c j, s.job c = some j → j.owner ≠ p → t.job c = some j) ∧
       (∃ u v : State,
         (∀ i, u.window? i = (s.window? i).map (fun w =>
           { w with
             holders := w.holders.set p none
             claimState :=
               if ∀ q ∈ Port.all, q ≠ p → w.holds q = false then .unclaimed else w.claimState
             waiters := w.waiters.filter (fun x => x.port != p)
             guard := { w.guard with unlocked := w.guard.unlocked.set p false } })) ∧
         (∀ q, q ≠ p → u.pcu q = s.pcu q) ∧ u.msCount = s.msCount ∧
         v = ((List.range 32).filter (fun i =>
           (s.window? i).any (fun w => w.holds p || w.waits p))).foldl
             (fun x i => x.grantPass i) u ∧
         (∀ i, t.window? i = v.window? i) ∧ (∀ q, q ≠ p → t.pcu q = v.pcu q)) ∧
       SameArray s t ∧ SameDevice s t ∧ SameKeys s t ∧ SameScrub s t ∧ SameArbiter s t) ∧
  (∀ (s : State) (p : Port), (s.pcu p).state = .teardown → (s.pcu p).accessAwaited = false →
     (s.pcu p).jobsAwaited = 0 →
     exec (.teardownEnd p) s = .next (s.setPcu p { s.pcu p with state := .ready }))

/-! ### Windows (chapter 1) -/

/-- DEFINE WINDOW: the first of its seven checks that fails gives the outcome and nothing else
changes; when every check passes the record is present with the values carried, IDLE, UNCLAIMED,
unkeyed and with zero fault counts (R12, R13). -/
def Obligations.DefineWindowChecksAndEffect : Prop :=
  ∀ (s : State) (p : Port) tag i base len pol lease wait rest o, PlacementLawful s →
    s.takes p tag (.defineWindow i base len pol lease wait) rest →
    Verdict
      [ (s.layoutPort = p, .notLayoutPort),
        (s.frozen = false, .frozen),
        (i.toNat < 32, .badParameter),
        (s.window? i.toNat = none, .exists),
        (1 ≤ len.toNat ∧ base.toNat + len.toNat ≤ 16384, .outOfRange),
        (∀ j w, s.window? j = some w → ∀ line, base.toNat ≤ line →
          line < base.toNat + len.toNat → line < w.base ∨ w.base + w.length ≤ line, .overlap),
        ((pol = 0#8 ∨ pol = 1#8 ∨ pol = 2#8) ∧ lease.toNat ≤ 4095 ∧ wait.toNat ≤ 4095,
          .badParameter) ] o →
    exec (.defineWindow p) s = .next (s.answersWith p tag .defineWindow o
      (s.setWindow i.toNat (some
        { base := base.toNat, length := len.toNat
          policy := if pol = 0#8 then .free else if pol = 1#8 then .writeClaimed else .claimed
          leasePeriod := lease.toNat, waitLimit := wait.toNat, activity := .idle
          claimState := .unclaimed, holders := ⟨none, none, none, none⟩, waiters := []
          guard :=
            { key := none, level := .standard, unlocked := ⟨false, false, false, false⟩
              attempts := 4 }
          faults := { corrected := 0, poisonings := 0, retirements := 0 } })))

/-- SET WINDOW PARAMS: the first of its seven checks that fails gives the outcome and nothing else
changes; otherwise exactly the selected fields take the values carried (R16). -/
def Obligations.SetWindowParamsChecksAndEffect : Prop :=
  ∀ (s : State) (p : Port) tag i (sel pol : Byte) lease wait rest o,
    s.takes p tag (.setWindowParams i sel pol lease wait) rest →
    Verdict
      [ (s.layoutPort = p, .notLayoutPort),
        (s.frozen = false, .frozen),
        (i.toNat < 32, .badParameter),
        (s.window? i.toNat ≠ none, .noWindow),
        (sel.toNat < 8 ∧ (sel.getLsbD 0 = true → pol = 0#8 ∨ pol = 1#8 ∨ pol = 2#8) ∧
          (sel.getLsbD 1 = true → lease.toNat ≤ 4095) ∧
          (sel.getLsbD 2 = true → wait.toNat ≤ 4095), .badParameter),
        (∀ w, s.window? i.toNat = some w → sel.getLsbD 0 = true →
          (if pol = 0#8 then .free else if pol = 1#8 then .writeClaimed else .claimed) ≠ w.policy →
          w.activity = .idle ∧ (∀ q, w.holds q = false) ∧ w.waiters = [], .busyWindow),
        (∀ w, s.window? i.toNat = some w → sel.getLsbD 0 = true → pol = 0#8 → w.policy ≠ .free →
          w.guard.key = none, .keyed) ] o →
    exec (.setWindowParams p) s = .next (s.answersWith p tag .setWindowParams o
      (s.setWindow i.toNat ((s.window? i.toNat).map (fun w =>
        { w with
          policy :=
            if sel.getLsbD 0 then
              if pol = 0#8 then .free else if pol = 1#8 then .writeClaimed else .claimed
            else w.policy
          leasePeriod := if sel.getLsbD 1 then lease.toNat else w.leasePeriod
          waitLimit := if sel.getLsbD 2 then wait.toNat else w.waitLimit }))))

/-- DELETE WINDOW: the first of its six checks that fails gives the outcome and nothing else
changes; otherwise every claim and wait on the window is revoked and its record becomes absent (R19,
R20). Revocation (R48): the claim part is emptied; each holder's port gets a CLAIM_REVOKED, each
waiting CLAIM completes REVOKED in its slot, and every other port and everything else stays as it
was. -/
def Obligations.DeleteWindowRevokesAndRemoves : Prop :=
  (∀ (s : State) (p : Port) tag i rest o, s.takes p tag (.deleteWindow i) rest →
     Verdict
       [ (s.layoutPort = p, .notLayoutPort),
         (s.frozen = false, .frozen),
         (i.toNat < 32, .badParameter),
         (s.window? i.toNat ≠ none, .noWindow),
         (∀ w, s.window? i.toNat = some w → w.guard.key = none, .keyed),
         ((∀ w, s.window? i.toNat = some w → w.activity = .idle) ∧
           ∀ c j, s.job c = some j → j.dest.window ≠ i.toNat ∧
             ∀ x, j.source = some x → x.window ≠ i.toNat, .busyWindow) ] o →
     exec (.deleteWindow p) s = .next (s.answersWith p tag .deleteWindow o
       ((s.revoke i.toNat).setWindow i.toNat none))) ∧
  (∀ (s : State) i w, s.window? i = some w → w.ClaimsLawful →
     (s.revoke i).window? i = some
       { w with claimState := .unclaimed, holders := ⟨none, none, none, none⟩, waiters := [] } ∧
     (∀ j, j ≠ i → (s.revoke i).window? j = s.window? j) ∧
     (∀ q, w.holds q = true → (s.revoke i).pcu q = (s.pcu q).post (.claimRevoked i)) ∧
     (∀ x ∈ w.waiters, (s.revoke i).pcu x.port =
       { s.pcu x.port with
         completions := (s.pcu x.port).completions ++ [⟨x.tag, .claim, .revoked, .none⟩]
         reservations := (s.pcu x.port).reservations - 1
         outstanding := (s.pcu x.port).outstanding.erase x.tag }) ∧
     (∀ q, w.holds q = false → w.waits q = false → (s.revoke i).pcu q = s.pcu q) ∧
     (s.revoke i).links = s.links ∧ SameArray s (s.revoke i) ∧ SameDevice s (s.revoke i) ∧
     SameKeys s (s.revoke i) ∧ SameScrub s (s.revoke i) ∧ SameArbiter s (s.revoke i) ∧
     SameJobs s (s.revoke i))

/-! ### Claims, waiters and leases (chapter 2) -/

/-- CLAIM: the first of its six checks that fails gives the outcome and nothing else changes; a
grantable claim is granted with a new term; another completes WOULD_WAIT, or joins the tail of the
waiter queue with its reservation held (R27 to R29, R39). The claim kind is READ for 01h and WRITE for
02h, and the wait choice no for 00h and yes for 01h (12.3). -/
def Obligations.ClaimIsRefusedGrantedOrWaits : Prop :=
  ∀ (s : State) (p : Port) tag (i kind wait : Byte) rest o,
    s.takes p tag (.claim i kind wait) rest →
    Verdict
      [ (s.window? i.toNat ≠ none, .noWindow),
        (∀ w, s.window? i.toNat = some w → w.activity = .idle, .busyWindow),
        (∀ w, s.window? i.toNat = some w → w.policy ≠ .free, .notClaimable),
        (∀ w, s.window? i.toNat = some w →
          w.guard.key = none ∨ w.guard.unlocked.get p = true, .locked),
        (∀ w, s.window? i.toNat = some w → w.holds p = false ∧ ∀ x ∈ w.waiters, x.port ≠ p,
          .alreadyHeld),
        ((kind = 1#8 ∨ kind = 2#8) ∧ (wait = 0#8 ∨ wait = 1#8), .badParameter) ] o →
    (o ≠ .ok → exec (.claim p) s = .next (s.answers p tag .claim o)) ∧
    (o = .ok → ∀ w k, s.window? i.toNat = some w →
      (kind = 1#8 ∧ k = .read) ∨ (kind = 2#8 ∧ k = .write) →
      ∀ grantable : Prop,
        (grantable ↔ w.waiters = [] ∧
          ((k = .read ∧ w.claimState ≠ .writeHeld) ∨ (k = .write ∧ ∀ q, w.holds q = false))) →
        (grantable → exec (.claim p) s = .next ((s.setWindow i.toNat (some
          { w with
            holders := w.holders.set p (some (termLease w.leasePeriod s.msCount))
            claimState := if k = .read then .readHeld else .writeHeld })).answers p tag .claim .ok)) ∧
        (¬ grantable → wait = 0#8 → exec (.claim p) s = .next (s.answers p tag .claim .wouldWait)) ∧
        (¬ grantable → wait = 1#8 → exec (.claim p) s = .next ((s.setWindow i.toNat (some
          { w with
            waiters := w.waiters ++
              [ { port := p, kind := k
                  deadline :=
                    if w.waitLimit = 0 then none
                    else some (s.msCount + BitVec.ofNat 32 w.waitLimit)
                  tag := tag } ] })).handsOver p)))

/-- RELEASE: a holder's claim ends and the RELEASE completes OK; a waiter's CLAIM completes
CANCELLED and then the RELEASE OK; in both cases a grant pass follows; from any other port it
completes NOT_HELD and changes nothing (R36 to R38). A completion written in a reserved slot joins
the tail of the completion queue, frees the slot and its tag, and changes nothing else (R178, R181). -/
def Obligations.ReleaseEndsAClaimOrAWait : Prop :=
  (∀ (s : State) (p : Port) tag i rest, s.takes p tag (.release i) rest →
    (∀ w, s.window? i.toNat = some w → w.holds p = true →
      exec (.release p) s = .next (((s.setWindow i.toNat (some
        { w with
          holders := w.holders.set p none
          claimState :=
            if ∀ q ∈ Port.all, q ≠ p → w.holds q = false then .unclaimed
            else w.claimState })).answers p tag .release .ok).grantPass i.toNat)) ∧
    (∀ w x, s.window? i.toNat = some w → w.holds p = false →
      w.waiters.find? (fun y => y.port == p) = some x →
      exec (.release p) s = .next ((((s.setWindow i.toNat (some
        { w with waiters := w.waiters.filter (fun y => y.port != p) })).complete p
          ⟨x.tag, .claim, .cancelled, .none⟩).answers p tag .release .ok).grantPass i.toNat)) ∧
    ((∀ w, s.window? i.toNat = some w → w.holds p = false ∧ ∀ x ∈ w.waiters, x.port ≠ p) →
      exec (.release p) s = .next (s.answers p tag .release .notHeld))) ∧
  (∀ (s : State) (p : Port) (c : Completion), s.complete p c = s.setPcu p
    { s.pcu p with
      completions := (s.pcu p).completions ++ [c]
      reservations := (s.pcu p).reservations - 1
      outstanding := (s.pcu p).outstanding.erase c.tag })

/-- RENEW: from a holder it begins a new term under the period as it stands and completes OK; from
any other port, a waiter included and an absent record included, it completes NOT_HELD and changes
nothing; no notice, no guard check (R39, R40). -/
def Obligations.RenewBeginsANewTerm : Prop :=
  ∀ (s : State) (p : Port) tag i rest, s.takes p tag (.renew i) rest →
    (∀ w, s.window? i.toNat = some w → w.holds p = true →
      exec (.renew p) s = .next ((s.setWindow i.toNat (some
        { w with holders := w.holders.set p (some (termLease w.leasePeriod s.msCount)) })).answers p
          tag .renew .ok)) ∧
    ((∀ w, s.window? i.toNat = some w → w.holds p = false) →
      exec (.renew p) s = .next (s.answers p tag .renew .notHeld))

/-- The grant pass (R32, R33): who is granted, by the holders and the head of the queue; each waiter
granted becomes a holder of its kind with a new term and its CLAIM completes OK; the others keep
their order; no further grant is possible afterwards; and a pass that grants nobody changes nothing of
the window. Nothing but the window and the PCUs of the ports granted changes. -/
def Obligations.GrantPassHandsTheWindowOn : Prop :=
  ∀ (s : State) i w, s.window? i = some w →
    (w.claimState = .unclaimed ↔ w.holderCount = 0) →
    (w.waiters.map Waiter.port).Nodup → (∀ x ∈ w.waiters, w.holds x.port = false) →
    ∃ g v, g ++ v.waiters = w.waiters ∧ (s.grantPass i).window? i = some v ∧
      (w.claimState = .writeHeld → g = []) ∧ (g = [] → v = w) ∧
      (w.claimState = .unclaimed → ∀ x l, w.waiters = x :: l → x.kind = .write → g = [x]) ∧
      ((w.claimState = .unclaimed ∧ (∀ x l, w.waiters = x :: l → x.kind = .read)) ∨
          w.claimState = .readHeld →
        (∀ x ∈ g, x.kind = .read) ∧ ∀ x l, v.waiters = x :: l → x.kind = .write) ∧
      (∀ x ∈ g, v.holders.get x.port = some (termLease w.leasePeriod s.msCount) ∧
        v.claimState = (if x.kind = .read then .readHeld else .writeHeld) ∧
        (s.grantPass i).pcu x.port =
          { s.pcu x.port with
            completions := (s.pcu x.port).completions ++ [⟨x.tag, .claim, .ok, .none⟩]
            reservations := (s.pcu x.port).reservations - 1
            outstanding := (s.pcu x.port).outstanding.erase x.tag }) ∧
      (∀ q, (∀ x ∈ g, x.port ≠ q) →
        v.holders.get q = w.holders.get q ∧ (s.grantPass i).pcu q = s.pcu q) ∧
      (v.waiters = [] ∨ v.claimState = .writeHeld ∨
        (v.claimState = .readHeld ∧ ∃ x l, v.waiters = x :: l ∧ x.kind = .write)) ∧
      v = { w with claimState := v.claimState, holders := v.holders, waiters := v.waiters } ∧
      (∀ j, j ≠ i → (s.grantPass i).window? j = s.window? j) ∧
      s.grantPass i =
        { s with windows := (s.grantPass i).windows, pcus := (s.grantPass i).pcus }

/-- The timer events of the window manager (R34, R42, R43): a lease-low point posts LEASE_LOW and sets
the mark of the term, and where the mark is set it posts no second one; a lease expiry ends the claim,
posts LEASE_EXPIRED and makes a grant pass; a wait expiry completes the CLAIM TIMED_OUT and makes a
grant pass. None of them happens on another tick than its own, nor without the holder or the waiter, its
deadline and, for the lease-low point, that point (R34, R42 to R44): the row then leaves the state as it
is, which is the model's choice of what such a row answers (log 4). -/
def Obligations.TimerEventsOfAWindow : Prop :=
  (∀ (s : State) (p : Port) i, s.window? i = none →
    exec (.leaseLowPoint i p) s = .next s ∧ exec (.leaseExpiry i p) s = .next s ∧
      exec (.waitExpiry i p) s = .next s) ∧
  ∀ (s : State) (p : Port) i w, s.window? i = some w →
    (w.holders.get p = none →
      exec (.leaseLowPoint i p) s = .next s ∧ exec (.leaseExpiry i p) s = .next s) ∧
    (∀ l, w.holders.get p = some l →
      (∀ d q, l.deadline = some d → l.lowPoint = some q → (d - s.msCount).toNat ≠ q) →
      exec (.leaseLowPoint i p) s = .next s) ∧
    (∀ l, w.holders.get p = some l → l.deadline ≠ some s.msCount →
      exec (.leaseExpiry i p) s = .next s) ∧
    ((∀ x ∈ w.waiters, x.port ≠ p) → exec (.waitExpiry i p) s = .next s) ∧
    (∀ x, w.waiters.find? (fun y => y.port == p) = some x → x.deadline ≠ some s.msCount →
      exec (.waitExpiry i p) s = .next s) ∧
    (∀ l d q, w.holders.get p = some l → l.deadline = some d → l.lowPoint = some q →
      l.lowSent = false → (d - s.msCount).toNat = q →
      exec (.leaseLowPoint i p) s = .next ((s.setWindow i (some
        { w with holders := w.holders.set p (some { l with lowSent := true }) })).setPcu p
          ((s.pcu p).post (.leaseLow i)))) ∧
    (∀ l, w.holders.get p = some l → l.lowSent = true →
      exec (.leaseLowPoint i p) s = .next s) ∧
    (∀ l, w.holders.get p = some l → l.deadline = some s.msCount →
      exec (.leaseExpiry i p) s = .next (((s.setWindow i (some
        { w with
          holders := w.holders.set p none
          claimState :=
            if ∀ q ∈ Port.all, q ≠ p → w.holds q = false then .unclaimed
            else w.claimState })).setPcu p ((s.pcu p).post (.leaseExpired i))).grantPass i)) ∧
    (∀ x, w.waiters.find? (fun y => y.port == p) = some x → x.deadline = some s.msCount →
      exec (.waitExpiry i p) s = .next (((s.setWindow i (some
        { w with waiters := w.waiters.filter (fun y => y.port != p) })).complete p
          ⟨x.tag, .claim, .timedOut, .none⟩).grantPass i))

/-! ### Guards (chapter 3) -/

/-- SET KEY and CLEAR KEY: the first check that fails gives the outcome and nothing else changes;
SET KEY stores the key and level with attempts 4 and the setter alone unlocked; CLEAR KEY leaves no
key, STANDARD, an empty unlocked set and attempts 4 (R54, R55). -/
def Obligations.KeyingAWindow : Prop :=
  (∀ (s : State) (p : Port) tag i (level : Byte) key rest o,
    s.takes p tag (.setKey i level key) rest →
    Verdict
      [ (s.frozen = false, .frozen),
        (s.window? i.toNat ≠ none, .noWindow),
        (∀ w, s.window? i.toNat = some w → w.activity = .idle, .busyWindow),
        (∀ w, s.window? i.toNat = some w → w.claimState = .writeHeld ∧ w.holds p = true, .notHeld),
        (∀ w, s.window? i.toNat = some w → w.guard.key = none, .keyed),
        (level = 0#8 ∨ level = 1#8, .badParameter) ] o →
    exec (.setKey p) s = .next (s.answersWith p tag .setKey o
      (s.setWindow i.toNat ((s.window? i.toNat).map (fun w =>
        { w with
          guard :=
            { key := some key
              level := if level = 0#8 then .standard else .strict
              unlocked := PerPort.set ⟨false, false, false, false⟩ p true
              attempts := 4 } }))))) ∧
  (∀ (s : State) (p : Port) tag i rest o, s.takes p tag (.clearKey i) rest →
    Verdict
      [ (s.frozen = false, .frozen),
        (s.window? i.toNat ≠ none, .noWindow),
        (∀ w, s.window? i.toNat = some w → w.claimState = .writeHeld ∧ w.holds p = true, .notHeld),
        (∀ w, s.window? i.toNat = some w → w.guard.key ≠ none, .notKeyed),
        (∀ w, s.window? i.toNat = some w → w.guard.attempts ≠ 0, .barred),
        (∀ w, s.window? i.toNat = some w → w.guard.unlocked.get p = true, .locked) ] o →
    exec (.clearKey p) s = .next (s.answersWith p tag .clearKey o
      (s.setWindow i.toNat ((s.window? i.toNat).map (fun w =>
        { w with
          guard :=
            { key := none, level := .standard, unlocked := ⟨false, false, false, false⟩
              attempts := 4 } })))))

/-- UNLOCK: the first check that fails gives the outcome, with no comparison and no change; then a
match joins the port to the unlocked set and restores the counter compared against, and a mismatch
lowers that counter by 1 and completes KEY_MISMATCH (R56 to R58). LOCK: NO_WINDOW where the record is
absent; otherwise the port leaves the unlocked set and LOCK completes OK, whether or not it was in the
set and whatever the window's state, with no other change; on a keyed window the port's guard checks
fail from then on (R59). -/
def Obligations.UnlockComparesOnceAndLockLeaves : Prop :=
  (∀ (s : State) (p : Port) tag i (sel : Byte) key rest o,
    s.takes p tag (.unlock i sel key) rest →
    Verdict
      ([ (s.window? i.toNat ≠ none, .noWindow),
         (sel = 1#8 ∨ sel = 2#8, .badParameter),
         (∀ w, s.window? i.toNat = some w → w.activity = .idle, .busyWindow),
         (∀ w, s.window? i.toNat = some w → w.guard.key ≠ none, .notKeyed),
         (∀ w, s.window? i.toNat = some w → w.guard.attempts ≠ 0, .barred) ] ++
       if sel = 2#8 then
         [ (∀ w, s.window? i.toNat = some w → w.guard.level = .standard, .barred),
           (s.masterKey ≠ none, .noMasterKey),
           (s.masterAttempts ≠ 0, .barred) ]
       else []) o →
    (o ≠ .ok → exec (.unlock p) s = .next (s.answers p tag .unlock o)) ∧
    (o = .ok → ∀ w, s.window? i.toNat = some w →
      (sel = 1#8 → w.guard.key = some key → exec (.unlock p) s = .next ((s.setWindow i.toNat (some
        { w with
          guard :=
            { w.guard with unlocked := w.guard.unlocked.set p true, attempts := 4 } })).answers p
          tag .unlock .ok)) ∧
      (sel = 1#8 → w.guard.key ≠ some key → exec (.unlock p) s = .next ((s.setWindow i.toNat (some
        { w with guard := { w.guard with attempts := w.guard.attempts - 1 } })).answers p
          tag .unlock .keyMismatch)) ∧
      (sel = 2#8 → s.masterKey = some key → exec (.unlock p) s = .next
        ((State.setWindow { s with masterAttempts := 4 } i.toNat (some
          { w with
            guard := { w.guard with unlocked := w.guard.unlocked.set p true } })).answers p
          tag .unlock .ok)) ∧
      (sel = 2#8 → s.masterKey ≠ some key → exec (.unlock p) s = .next
        (State.answers { s with masterAttempts := s.masterAttempts - 1 } p tag .unlock .keyMismatch)))) ∧
  (∀ (s : State) (p : Port) tag i rest, s.takes p tag (.lock i) rest →
    (s.window? i.toNat = none → exec (.lock p) s = .next (s.answers p tag .lock .noWindow)) ∧
    (∀ w, s.window? i.toNat = some w → ∃ v, v =
        { w with guard := { w.guard with unlocked := w.guard.unlocked.set p false } } ∧
      exec (.lock p) s =
        .next ((s.setWindow i.toNat (some v)).answers p tag .lock .ok) ∧
      (w.guard.key ≠ none → v.guardPasses p = false)))

/-- SET MASTER KEY: refused NOT_LAYOUT_PORT or FROZEN; with no master key present the new key is
stored unexamined; a barred master key refuses BARRED; otherwise the old key is compared, and a
mismatch lowers the master attempts counter (R10, R61). FREEZE: NOT_LAYOUT_PORT from another port;
OK with no change where the flag is set; BUSY_WINDOW while a window is WIPING; otherwise the flag is
set (R63). -/
def Obligations.MasterKeyAndFreeze : Prop :=
  (∀ (s : State) (p : Port) tag oldKey newKey rest,
    s.takes p tag (.setMasterKey oldKey newKey) rest →
    (s.layoutPort ≠ p →
      exec (.setMasterKey p) s = .next (s.answers p tag .setMasterKey .notLayoutPort)) ∧
    (s.layoutPort = p → s.frozen = true →
      exec (.setMasterKey p) s = .next (s.answers p tag .setMasterKey .frozen)) ∧
    (s.layoutPort = p → s.frozen = false →
      (s.masterKey = none → exec (.setMasterKey p) s = .next (State.answers
        { s with masterKey := some newKey, masterAttempts := 4 } p tag .setMasterKey .ok)) ∧
      (∀ k, s.masterKey = some k → s.masterAttempts = 0 →
        exec (.setMasterKey p) s = .next (s.answers p tag .setMasterKey .barred)) ∧
      (∀ k, s.masterKey = some k → s.masterAttempts ≠ 0 → k = oldKey →
        exec (.setMasterKey p) s = .next (State.answers
          { s with masterKey := some newKey, masterAttempts := 4 } p tag .setMasterKey .ok)) ∧
      (∀ k, s.masterKey = some k → s.masterAttempts ≠ 0 → k ≠ oldKey →
        exec (.setMasterKey p) s = .next (State.answers
          { s with masterAttempts := s.masterAttempts - 1 } p tag .setMasterKey .keyMismatch)))) ∧
  (∀ (s : State) (p : Port) tag rest o, s.takes p tag .freeze rest →
    Verdict
      [ (s.layoutPort = p, .notLayoutPort),
        (s.frozen = true ∨ ∀ i w, s.window? i = some w → w.activity = .idle, .busyWindow) ] o →
    exec (.freeze p) s = .next (s.answersWith p tag .freeze o { s with frozen := true }))

/-- WIPE PREPARE: FROZEN, then NO_WINDOW; otherwise the port's wipe-prepared record names the index
carried and the command completes OK. Where a check fails the port is left with no record, and
nothing outside the PCU changes (R66). -/
def Obligations.WipePrepareRecordsTheIndex : Prop :=
  ∀ (s : State) (p : Port) tag i rest o, s.takes p tag (.wipePrepare i) rest →
    Verdict
      [ (s.frozen = false, .frozen), (s.window? i.toNat ≠ none, .noWindow) ] o →
    exec (.wipePrepare p) s = .next (s.setPcu p
      { s.pcu p with
        queue := (s.pcu p).queue.tail
        completions := (s.pcu p).completions ++ [⟨tag, .wipePrepare, o, .none⟩]
        outstanding := (s.pcu p).outstanding.erase tag
        wipePrepared := if o = .ok then some i.toNat else none })

/-- WIPE refused: checks 1 to 4 in order; then the authority, by R69 on a window without a key and
by a key comparison on one with a key, each match and mismatch counted; then NO_CHANNEL, with the
counter of a match restored all the same (R67 to R70). -/
def Obligations.WipeRefusals : Prop :=
  ∀ (s : State) (p : Port) tag i (sel : Byte) key rest o,
    s.takes p tag (.wipe i sel key) rest →
    Verdict
      [ ((s.pcu p).wipePrepared = some i.toNat, .notPrepared),
        (s.frozen = false, .frozen),
        (s.window? i.toNat ≠ none, .noWindow),
        (∀ w, s.window? i.toNat = some w → w.activity = .idle, .busyWindow) ] o →
    (o ≠ .ok → exec (.wipe p) s = .next (s.answers p tag .wipe o)) ∧
    (o = .ok → ∀ w, s.window? i.toNat = some w →
      (w.guard.key = none → sel ≠ 0#8 →
        exec (.wipe p) s = .next (s.answers p tag .wipe .badParameter)) ∧
      (w.guard.key = none → sel = 0#8 → ¬ (w.claimState = .writeHeld ∧ w.holds p = true) →
        exec (.wipe p) s = .next (s.answers p tag .wipe .notHeld)) ∧
      (w.guard.key = none → sel = 0#8 → w.claimState = .writeHeld ∧ w.holds p = true →
        s.c0 ≠ none → s.c1 ≠ none →
        exec (.wipe p) s = .next (s.answers p tag .wipe .noChannel)) ∧
      (∀ k, w.guard.key = some k →
        (sel ≠ 1#8 → sel ≠ 2#8 →
          exec (.wipe p) s = .next (s.answers p tag .wipe .badParameter)) ∧
        (sel = 1#8 → w.guard.attempts = 0 →
          exec (.wipe p) s = .next (s.answers p tag .wipe .barred)) ∧
        (sel = 1#8 → w.guard.attempts ≠ 0 → k ≠ key →
          exec (.wipe p) s = .next ((s.setWindow i.toNat (some
            { w with guard := { w.guard with attempts := w.guard.attempts - 1 } })).answers p
              tag .wipe .keyMismatch)) ∧
        (sel = 1#8 → w.guard.attempts ≠ 0 → k = key → s.c0 ≠ none → s.c1 ≠ none →
          exec (.wipe p) s = .next ((s.setWindow i.toNat (some
            { w with guard := { w.guard with attempts := 4 } })).answers p tag .wipe .noChannel)) ∧
        (sel = 2#8 → s.masterKey = none →
          exec (.wipe p) s = .next (s.answers p tag .wipe .noMasterKey)) ∧
        (sel = 2#8 → s.masterKey ≠ none → s.masterAttempts = 0 →
          exec (.wipe p) s = .next (s.answers p tag .wipe .barred)) ∧
        (sel = 2#8 → s.masterKey ≠ none → s.masterAttempts ≠ 0 → s.masterKey ≠ some key →
          exec (.wipe p) s = .next (State.answers
            { s with masterAttempts := s.masterAttempts - 1 } p tag .wipe .keyMismatch)) ∧
        (sel = 2#8 → s.masterAttempts ≠ 0 → s.masterKey = some key → s.c0 ≠ none → s.c1 ≠ none →
          exec (.wipe p) s = .next (State.answers
            { s with masterAttempts := 4 } p tag .wipe .noChannel))))

/-- A WIPE that passes every check starts the wipe in its one event: the window is WIPING with its
claim part and its unlocked set emptied; a WIPE job stands on the lowest-numbered channel free once
the revoked jobs have ended (the order is log 15); jobs naming the window have ended REVOKED or are
ENDING with REVOKED; the WIPE keeps the reservation it took and its outstanding tag; and the new
request may be granted at its arrival (R71, R72, R97), where no other request was pending before the
event (log 22). A job names the window as its source or its destination (R133). The PCU of a port that
neither held nor waited for the window nor owned a job so ended, every link, and the other free channel
stay as they were (R48, R71). -/
def Obligations.WipeStarts : Prop :=
  (∀ (j : Job) (i : Nat), j.names i = true ↔
    j.dest.window = i ∨ ∃ x, j.source = some x ∧ x.window = i) ∧
  ∀ (s : State) (p : Port) tag i (sel : Byte) key rest w,
    s.takes p tag (.wipe i sel key) rest → (s.pcu p).wipePrepared = some i.toNat →
    s.frozen = false → s.window? i.toNat = some w → w.activity = .idle → w.ClaimsLawful →
    (w.guard.key = none ∧ sel = 0#8 ∧ w.claimState = .writeHeld ∧ w.holds p = true) ∨
      (sel = 1#8 ∧ w.guard.key = some key ∧ w.guard.attempts ≠ 0) ∨
      (sel = 2#8 ∧ w.guard.key ≠ none ∧ s.masterKey = some key ∧ s.masterAttempts ≠ 0) →
    (s.c0 = none ∨ s.c1 = none) → JobsLawful s →
    ∃ t, exec (.wipe p) s = .next (arrive s t) ∧
      t.window? i.toNat = some
        { w with
          activity := .wiping, claimState := .unclaimed
          holders := ⟨none, none, none, none⟩, waiters := []
          guard :=
            { w.guard with
              unlocked := ⟨false, false, false, false⟩
              attempts := if sel = 1#8 then 4 else w.guard.attempts } } ∧
      (∀ j, j ≠ i.toNat → t.window? j = s.window? j) ∧
      t.masterAttempts = (if sel = 2#8 then 4 else s.masterAttempts) ∧
      t.masterKey = s.masterKey ∧ t.frozen = s.frozen ∧
      (∃ c, (c = .c1 → t.c0 ≠ none) ∧ (∀ d, d ≠ c → s.job d = none → t.job d = none) ∧ t.job c = some
        { owner := p, tag := tag, kind := .wipe, source := none, dest := ⟨i.toNat, 0⟩
          total := 64 * w.length, pattern := some 0#8, direction := .ascending, bytesDone := 0
          state := .running, deliver := true }) ∧
      (∀ c j, s.job c = some j → j.kind = .wipe ∨ j.names i.toNat = false → t.job c = some j) ∧
      (∀ c j, s.job c = some j → j.kind ≠ .wipe → j.names i.toNat = true →
        (s.stepInFlight c = true → t.job c = some
          { j with state := if j.state = .running then .ending .revoked else j.state }) ∧
        (s.stepInFlight c = false → t.job c ≠ some j ∧
          (j.deliver = true →
            ⟨j.tag, j.kind.command, .revoked, .count j.bytesDone⟩ ∈ (t.pcu j.owner).completions))) ∧
      (∀ x ∈ w.waiters, ⟨x.tag, .claim, .revoked, .none⟩ ∈ (t.pcu x.port).completions) ∧
      (∀ q, w.holds q = true → (s.pcu q).state = .ready →
        Notice.claimRevoked i.toNat ∈ (t.pcu q).notices ∨ (t.pcu q).noticeLost = true) ∧
      (t.pcu p).queue = rest ∧ (t.pcu p).wipePrepared = none ∧
      ((∀ x ∈ w.waiters, x.port ≠ p) →
        (∀ c j, s.job c = some j → j.owner = p → j.kind = .wipe ∨ j.names i.toNat = false) →
        (t.pcu p).reservations = (s.pcu p).reservations + 1 ∧
          (t.pcu p).outstanding = (s.pcu p).outstanding ∧
          (t.pcu p).completions = (s.pcu p).completions) ∧
      (tag ∈ (s.pcu p).outstanding → (∀ x ∈ w.waiters, x.port = p → x.tag ≠ tag) →
        (∀ c j, s.job c = some j → j.owner = p → j.tag ≠ tag) → tag ∈ (t.pcu p).outstanding) ∧
      (∀ q, q ≠ p → w.holds q = false → (∀ x ∈ w.waiters, x.port ≠ q) →
        (∀ c j, s.job c = some j → j.owner = q → j.kind = .wipe ∨ j.names i.toNat = false) →
        t.pcu q = s.pcu q) ∧
      t.links = s.links ∧ t.draw = s.draw ∧
      SameArray s t ∧ SameDevice s t ∧ SameScrub s t ∧ SameArbiter s t

/-! ### Data access and scrub settings (chapters 4 and 6) -/

/-- READ, WRITE and INJECT at their taking: refused in the event of the taking, or held at the queue
head with the taken mark as the port's pending access, which the arbiter may grant at its arrival
(R77 to R79, R91, R97, R176). -/
def Obligations.AccessCommandsFormAccesses : Prop :=
  (∀ (s : State) (p : Port) tag i o (n : BitVec 16) rest, s.takes p tag (.read i o n) rest →
    (¬ (1 ≤ n.toNat ∧ n.toNat ≤ 64) →
      exec (.read p) s = .next (s.answers p tag .read .badParameter)) ∧
    (1 ≤ n.toNat ∧ n.toNat ≤ 64 → exec (.read p) s = .next (arrive s
      (s.holdsHead p tag rest (.read i o n) (.read i.toNat o.toNat n.toNat))))) ∧
  (∀ (s : State) (p : Port) tag i o data rest, s.takes p tag (.write i o data) rest →
    exec (.write p) s = .next (arrive s
      (s.holdsHead p tag rest (.write i o data) (.write i.toNat o.toNat data)))) ∧
  (∀ (s : State) (p : Port) tag line (kind : Byte) rest o, s.takes p tag (.inject line kind) rest →
    Verdict
      [ (s.layoutPort = p, .notLayoutPort),
        (s.frozen = false, .frozen),
        (line.toNat ≤ 16383 ∧ (kind = 1#8 ∨ kind = 2#8), .badParameter) ] o →
    (o ≠ .ok → exec (.inject p) s = .next (s.answers p tag .inject o)) ∧
    (o = .ok → exec (.inject p) s = .next (arrive s
      (s.holdsHead p tag rest (.inject line kind)
        (.inject line.toNat (if kind = 1#8 then .one else .two))))))

/-- SCRUB SETTINGS: the first check that fails gives the outcome and nothing else changes; ENABLED
stores the interval and restarts the timer, keeping the scrub-due flag and the count; DISABLED stops
the timer and clears both, keeping the interval (R104, R126). -/
def Obligations.ScrubSettingsTakeEffect : Prop :=
  ∀ (s : State) (p : Port) tag (enable : Byte) interval rest o,
    s.takes p tag (.scrubSettings enable interval) rest →
    Verdict
      [ (s.layoutPort = p, .notLayoutPort),
        (s.frozen = false, .frozen),
        (enable = 0#8 ∨ (enable = 1#8 ∧ 1 ≤ interval.toNat), .badParameter) ] o →
    exec (.scrubSettings p) s = .next (s.answersWith p tag .scrubSettings o
      (if enable = 1#8 then
        { s with
          scrubEnabled := true, scrubInterval := interval.toNat
          scrubTimer := some interval.toNat }
      else
        { s with scrubEnabled := false, scrubTimer := none, scrubDue := false, postponed := 0 }))

/-! ### Jobs (chapter 7) -/

/-- COPY and FILL: the first check that fails gives the outcome and nothing is created; otherwise
the job record stands on the lowest-numbered free channel, with the direction of R138, the command
leaves the queue with its reservation, and the first step may be granted at its arrival (R135 to
R138, R97). -/
def Obligations.TransferCommandsStartJobs : Prop :=
  (∀ (s : State) (p : Port) tag si so di dof (n : BitVec 24) rest o,
    s.takes p tag (.copy si so di dof n) rest →
    Verdict
      [ (1 ≤ n.toNat ∧ n.toNat ≤ 65536, .badParameter),
        (s.window? si.toNat ≠ none, .noWindow),
        (∀ w, s.window? si.toNat = some w → so.toNat + n.toNat ≤ 64 * w.length, .outOfRange),
        (s.window? di.toNat ≠ none, .noWindow),
        (∀ w, s.window? di.toNat = some w → dof.toNat + n.toNat ≤ 64 * w.length, .outOfRange),
        (s.c0 = none ∨ s.c1 = none, .noChannel) ] o →
    (o ≠ .ok → exec (.copy p) s = .next (s.answers p tag .copy o)) ∧
    (o = .ok → exec (.copy p) s = .next (arrive s
      ((s.setJob (if s.c0 = none then .c0 else .c1) (some
        { owner := p, tag := tag, kind := .copy
          source := some ⟨si.toNat, so.toNat⟩, dest := ⟨di.toNat, dof.toNat⟩
          total := n.toNat, pattern := none
          direction :=
            if si.toNat = di.toNat ∧ so.toNat < dof.toNat ∧ dof.toNat - so.toNat < n.toNat
            then .descending else .ascending
          bytesDone := 0, state := .running, deliver := true })).handsOver p)))) ∧
  (∀ (s : State) (p : Port) tag di dof (n : BitVec 24) pat rest o,
    s.takes p tag (.fill di dof n pat) rest →
    Verdict
      [ (1 ≤ n.toNat ∧ n.toNat ≤ 65536, .badParameter),
        (s.window? di.toNat ≠ none, .noWindow),
        (∀ w, s.window? di.toNat = some w → dof.toNat + n.toNat ≤ 64 * w.length, .outOfRange),
        (s.c0 = none ∨ s.c1 = none, .noChannel) ] o →
    (o ≠ .ok → exec (.fill p) s = .next (s.answers p tag .fill o)) ∧
    (o = .ok → exec (.fill p) s = .next (arrive s
      ((s.setJob (if s.c0 = none then .c0 else .c1) (some
        { owner := p, tag := tag, kind := .fill
          source := none, dest := ⟨di.toNat, dof.toNat⟩
          total := n.toNat, pattern := some pat, direction := .ascending
          bytesDone := 0, state := .running, deliver := true })).handsOver p))))

/-- CANCEL JOB: NO_JOB where the port owns no job under the tag; BAD_PARAMETER for a WIPE; OK with
no change for an ENDING job; a RUNNING job with its step in flight becomes ENDING with CANCELLED;
one with no step in flight ends at once, its CANCELLED completion before the command's OK (R146,
R147). -/
def Obligations.CancelJobEndsTheJob : Prop :=
  ∀ (s : State) (p : Port) tag job rest, s.takes p tag (.cancelJob job) rest →
    ((∀ c j, s.job c = some j → ¬ (j.owner = p ∧ j.tag = job)) →
      exec (.cancelJob p) s = .next (s.answers p tag .cancelJob .noJob)) ∧
    (∀ c j, s.job c = some j → j.owner = p → j.tag = job →
      (∀ d k, s.job d = some k → k.owner = p → k.tag = job → d = c) →
      (j.kind = .wipe →
        exec (.cancelJob p) s = .next (s.answers p tag .cancelJob .badParameter)) ∧
      (j.kind ≠ .wipe → j.state ≠ .running →
        exec (.cancelJob p) s = .next (s.answers p tag .cancelJob .ok)) ∧
      (j.kind ≠ .wipe → j.state = .running → s.stepInFlight c = true →
        exec (.cancelJob p) s = .next ((s.setJob c (some
          { j with state := .ending .cancelled })).answers p tag .cancelJob .ok)) ∧
      (j.kind ≠ .wipe → j.state = .running → s.stepInFlight c = false → j.deliver = true →
        exec (.cancelJob p) s = .next (((s.setJob c none).complete p
          ⟨job, j.kind.command, .cancelled, .count j.bytesDone⟩).answers p tag .cancelJob .ok)))

/-! ### Arbitration (chapter 5) -/

/-- The arbiter's choice (R98) and the arrival of a request (R97): S when the flag is set and the
count is 4; otherwise the first requestor found from the pointer onward in the cyclic order P0, P1, P2,
P3, C0, C1 and back to P0; otherwise S where the flag is set. A port's request is pending while its
pending access is not in flight, and a channel's while its job is RUNNING, which has bytes still to move
(R144), with no step in flight (R96). No grant is made while an access is in flight (R94). An arriving
request is granted in its event where the engine was free and nothing was pending; that this is judged by
the state before the event, whatever else the event withdraws, is the model's choice (log 22). A
grant to S clears the flag and the count and starts a scrub read of the line at the scrub pointer,
without moving the pointer (R103). -/
def Obligations.ArbiterChooses : Prop :=
  (Slot.next (.port .p0) = .port .p1 ∧ Slot.next (.port .p1) = .port .p2 ∧
    Slot.next (.port .p2) = .port .p3 ∧ Slot.next (.port .p3) = .channel .c0 ∧
    Slot.next (.channel .c0) = .channel .c1 ∧ Slot.next (.channel .c1) = .port .p0) ∧
  (∀ (s : State) (p : Port), s.requests (.port p) = true ↔
    (s.pcu p).access ≠ none ∧ ∀ work, s.inFlight ≠ some ⟨.slot (.port p), work⟩) ∧
  (∀ (s : State) (c : Channel), s.requests (.channel c) = true ↔
    (∃ j, s.job c = some j ∧ j.state = .running) ∧
      ∀ work, s.inFlight ≠ some ⟨.slot (.channel c), work⟩) ∧
  (∀ (s : State) (c : Channel), s.stepInFlight c = true ↔
    ∃ work, s.inFlight = some ⟨.slot (.channel c), work⟩) ∧
  (∀ s : State, s.inFlight ≠ none → exec .grant s = .next s) ∧
  (∀ s : State, s.scrubDue = true → s.postponed = 4 → s.choose = some .scrub) ∧
  (∀ (s : State) n, ¬ (s.scrubDue = true ∧ s.postponed = 4) → n < 6 →
    s.requests (Slot.next^[n] s.rotation) = true →
    (∀ m, m < n → s.requests (Slot.next^[m] s.rotation) = false) →
    s.choose = some (.slot (Slot.next^[n] s.rotation))) ∧
  (∀ s : State, (∀ x, s.requests x = false) → ¬ (s.scrubDue = true ∧ s.postponed = 4) →
    s.choose = if s.scrubDue then some .scrub else none) ∧
  (∀ s t : State, (s.inFlight ≠ none ∨ s.choose ≠ none → arrive s t = t) ∧
    (s.inFlight = none → s.choose = none → arrive s t =
      match t.choose with
      | none => t
      | some r => t.grantTo r)) ∧
  (∀ s : State, s.phase = .running → s.inFlight = none → s.choose = some .scrub →
    exec .grant s = .next
      { s with
        scrubDue := false, postponed := 0
        inFlight := some ⟨.scrub, .scrub ⟨s.scrubPointer, s.physOf s.scrubPointer⟩
          (s.poisoned.contains s.scrubPointer)⟩ })

/-- A grant to a port (R80, R81, R84, R99, R100, R102): the pointer moves past the port; a READ or
WRITE is checked in the order of R80, an INJECT is not; where the checks pass the access is in
flight on the physical lines of the run, and the count rises while a scrub is due; a refused one
completes with the outcome of the failing check, and its port may take its next command. That the
taking that follows a refusal is made in the same event is read from R173 (log 6). -/
def Obligations.GrantToAPort : Prop :=
  ∀ (s : State) (p : Port) a, s.phase = .running → s.inFlight = none →
    s.choose = some (.slot (.port p)) → (s.pcu p).access = some a →
    (s.pcu p).accessAwaited = false →
    (∀ line k, a.body = .inject line k → exec .grant s = .next (takeIfDue s
      { s with
        rotation := Slot.next (.port p)
        inFlight := some ⟨.slot (.port p), .inject ⟨line, s.physOf line⟩ k⟩
        postponed := if s.scrubDue then s.postponed + 1 else s.postponed } p)) ∧
    (∀ i off n o, a.body = .read i off n → Verdict (GrantChecks s p false ⟨i, off, n⟩) o →
      (o ≠ .ok → exec .grant s = .next (takeIfDue s
        (State.setPcu { s with rotation := Slot.next (.port p) } p
          { s.pcu p with
            queue := (s.pcu p).queue.tail, access := none
            completions := (s.pcu p).completions ++ [⟨a.tag, .read, o, .none⟩]
            reservations := (s.pcu p).reservations - 1
            outstanding := (s.pcu p).outstanding.erase a.tag }) p)) ∧
      (o = .ok → ∀ w, s.window? i = some w → exec .grant s = .next (takeIfDue s
        { s with
          rotation := Slot.next (.port p)
          inFlight := some ⟨.slot (.port p), .read i
            ((List.range' (off / 64) ((off + n - 1) / 64 + 1 - off / 64)).map
              (fun k => ⟨w.base + k, s.physOf (w.base + k)⟩)) (off % 64) n⟩
          postponed := if s.scrubDue then s.postponed + 1 else s.postponed } p))) ∧
    (∀ i off data o, a.body = .write i off data →
      Verdict (GrantChecks s p true ⟨i, off, data.length⟩) o →
      (o ≠ .ok → exec .grant s = .next (takeIfDue s
        (State.setPcu { s with rotation := Slot.next (.port p) } p
          { s.pcu p with
            queue := (s.pcu p).queue.tail, access := none
            completions := (s.pcu p).completions ++ [⟨a.tag, .write, o, .none⟩]
            reservations := (s.pcu p).reservations - 1
            outstanding := (s.pcu p).outstanding.erase a.tag }) p)) ∧
      (o = .ok → ∀ w, s.window? i = some w → exec .grant s = .next (takeIfDue s
        { s with
          rotation := Slot.next (.port p)
          inFlight := some ⟨.slot (.port p), .write i
            ((List.range' (off / 64) ((off + data.length - 1) / 64 + 1 - off / 64)).map
              (fun k => ⟨w.base + k, s.physOf (w.base + k)⟩)) (off % 64) data⟩
          postponed := if s.scrubDue then s.postponed + 1 else s.postponed } p)))

/-- A grant to a channel (R139 to R141, R149): a COPY or FILL step is checked for the job's owner
and a WIPE step only for its window; where the checks pass the step is in flight; a refused step
ends the job with the outcome of the failing check and the bytes done before it. The steps of a job
(R139): a step lies inside what remains of the destination range, at its first bytes ASCENDING and
at its last DESCENDING, within one destination line, and never empty while bytes remain; a COPY's
source run lies as far from the source offset. The end of a job (R146, R195, R196) frees its channel and
writes its completion in its reserved slot; with report DISCARD it writes none, and the jobs its owner's
teardown awaits fall by 1, which ends a teardown that awaits nothing more, or a wipe's tag is free;
nothing else changes. -/
def Obligations.GrantToAChannelStartsOneStep : Prop :=
  (∀ (s : State) (c : Channel) j, s.phase = .running → s.inFlight = none →
     s.choose = some (.slot (.channel c)) → s.job c = some j →
     (∀ src w o, j.kind = .copy → j.sourceRun = some src → s.window? j.destRun.window = some w →
       Verdict (CopyChecks s j.owner src j.destRun) o →
       (o = .ok → ∃ d lines, exec .grant s = .next
         { s with
           rotation := Slot.next (.channel c)
           inFlight := some ⟨.slot (.channel c),
             .copyStep lines (src.offset % 64) d (j.destRun.offset % 64) j.destRun.length⟩
           postponed := if s.scrubDue then s.postponed + 1 else s.postponed } ∧
         d = ⟨w.base + j.destRun.offset / 64, s.physOf (w.base + j.destRun.offset / 64)⟩ ∧
         ∀ v, s.window? src.window = some v → lines =
           (List.range' (src.offset / 64)
             ((src.offset + src.length - 1) / 64 + 1 - src.offset / 64)).map
               (fun k => ⟨v.base + k, s.physOf (v.base + k)⟩)) ∧
       (o ≠ .ok → exec .grant s =
         .next (State.endJob { s with rotation := Slot.next (.channel c) } c o))) ∧
     (∀ w o, j.kind = .fill → s.window? j.destRun.window = some w →
       Verdict (GrantChecks s j.owner true j.destRun) o →
       (o = .ok → exec .grant s = .next
         { s with
           rotation := Slot.next (.channel c)
           inFlight := some ⟨.slot (.channel c),
             .fillStep
               ⟨w.base + j.destRun.offset / 64, s.physOf (w.base + j.destRun.offset / 64)⟩
               (j.destRun.offset % 64) j.destRun.length (j.pattern.getD 0#8)⟩
           postponed := if s.scrubDue then s.postponed + 1 else s.postponed }) ∧
       (o ≠ .ok → exec .grant s =
         .next (State.endJob { s with rotation := Slot.next (.channel c) } c o))) ∧
     (∀ w, j.kind = .wipe → s.window? j.destRun.window = some w → exec .grant s = .next
       { s with
         rotation := Slot.next (.channel c)
         inFlight := some ⟨.slot (.channel c),
           .wipeStep ⟨w.base + j.destRun.offset / 64, s.physOf (w.base + j.destRun.offset / 64)⟩⟩
         postponed := if s.scrubDue then s.postponed + 1 else s.postponed })) ∧
  (∀ j : Job, j.bytesDone < j.total →
     1 ≤ j.destRun.length ∧ j.destRun.length ≤ 64 ∧ j.bytesDone + j.destRun.length ≤ j.total ∧
     (j.destRun.offset + j.destRun.length - 1) / 64 = j.destRun.offset / 64 ∧
     j.destRun.window = j.dest.window ∧
     (j.direction = .ascending → j.destRun.offset = j.dest.offset + j.bytesDone ∧
       (j.destRun.length = j.total - j.bytesDone ∨
         (j.destRun.offset + j.destRun.length) % 64 = 0)) ∧
     (j.direction = .descending →
       j.destRun.offset + j.destRun.length = j.dest.offset + (j.total - j.bytesDone) ∧
       (j.destRun.length = j.total - j.bytesDone ∨ j.destRun.offset % 64 = 0)) ∧
     (∀ x, j.source = some x → j.sourceRun = some
       ⟨x.window, x.offset + (j.destRun.offset - j.dest.offset), j.destRun.length⟩)) ∧
  (∀ (s : State) (c : Channel) j o, s.job c = some j →
     (j.deliver = true → s.endJob c o = (s.setJob c none).setPcu j.owner
       { s.pcu j.owner with
         completions := (s.pcu j.owner).completions ++
           [⟨j.tag, j.kind.command, o, .count j.bytesDone⟩]
         reservations := (s.pcu j.owner).reservations - 1
         outstanding := (s.pcu j.owner).outstanding.erase j.tag }) ∧
     (j.deliver = false → j.kind = .wipe → s.endJob c o = (s.setJob c none).setPcu j.owner
       { s.pcu j.owner with outstanding := (s.pcu j.owner).outstanding.erase j.tag }) ∧
     (j.deliver = false → j.kind ≠ .wipe → s.endJob c o = (s.setJob c none).setPcu j.owner
       { s.pcu j.owner with
         jobsAwaited := (s.pcu j.owner).jobsAwaited - 1
         state :=
           if (s.pcu j.owner).state = .teardown ∧ (s.pcu j.owner).accessAwaited = false ∧
               (s.pcu j.owner).jobsAwaited ≤ 1
           then .ready else (s.pcu j.owner).state }))

/-- What frees a port's head lets its PCU take the next command in the same event (R173): where the
PCU could take one before, or takes none after, nothing more happens; otherwise the event does what
the taking does on the state it leaves, its request arriving at the arbiter (R97). -/
def Obligations.FreedHeadIsTaken : Prop :=
  ∀ (s t : State) (p : Port),
    ((∃ tag c rest, s.takes p tag c rest) ∨ (∀ tag c rest, ¬ t.takes p tag c rest) →
      takeIfDue s t p = t) ∧
    (∀ tag c rest, (∀ tag c rest, ¬ s.takes p tag c rest) → t.takes p tag c rest →
      exec (CommandKind.taking p c.kind) t = .next (arrive t (takeIfDue s t p)))

/-! ### Completions of the engine (chapters 4, 6 and 7) -/

/-- A READ whose lines are clean completes OK with the requested bytes as the array stores them,
frees its head, touches its port's claim on the window and changes nothing in the array (R85, R89,
R95). A READ that finds a line uncorrectable completes DATA_LOST with no data and no touch; each
such line is poisoned; and no byte of the array changes where no other line needs correction (R86,
R120). Whatever the classes of its lines, each is handled, one after another, and a READ that finds
none uncorrectable returns its corrected bytes (R85, R111). A touch of a window by a port that holds a
claim on it begins a new term of that claim, under the lease period as it stands, and changes nothing
else; by any other port, or of an absent record, it changes nothing (R39, R41). -/
def Obligations.ReadReturnsItsBytesOrPoisons : Prop :=
  (∀ (s : State) (p : Port) i lines first n a,
     s.inFlight = some ⟨.slot (.port p), .read i lines first n⟩ →
     (s.pcu p).access = some a → (s.pcu p).accessAwaited = false →
     (∀ r ∈ lines, s.lineClass r.phys = .clean) → first + n ≤ 64 * lines.length →
     exec .readCompletion s = .next (takeIfDue s
       ((State.setPcu { s with inFlight := none, draw := s.draw + 1 } p
         { s.pcu p with
           queue := (s.pcu p).queue.tail, access := none
           completions := (s.pcu p).completions ++
             [⟨a.tag, .read, .ok, .data ((List.range n).map (fun k =>
               Memory.read s.mem (runAddress lines (first + k))))⟩]
           reservations := (s.pcu p).reservations - 1
           outstanding := (s.pcu p).outstanding.erase a.tag }).touch p i) p)) ∧
  (∀ (s : State) (p : Port) i lines first n a,
     s.inFlight = some ⟨.slot (.port p), .read i lines first n⟩ →
     (s.pcu p).access = some a → (s.pcu p).accessAwaited = false →
     (∃ r ∈ lines, s.lineClass r.phys = .uncorrectable) →
     (∀ r ∈ lines, s.lineClass r.phys ≠ .correctable) →
     ∃ t, exec .readCompletion s = .next (takeIfDue s t p) ∧
       (t.pcu p).completions = (s.pcu p).completions ++ [⟨a.tag, .read, .dataLost, .none⟩] ∧
       (t.pcu p).queue = (s.pcu p).queue.tail ∧ (t.pcu p).access = none ∧ t.inFlight = none ∧
       (∀ l, l ∈ t.poisoned ↔ l ∈ s.poisoned ∨
         ∃ r ∈ lines, r.line = l ∧ s.lineClass r.phys = .uncorrectable) ∧
       (∀ j w, s.window? j = some w → ∃ v, t.window? j = some v ∧ v.holders = w.holders) ∧
       (∀ b, Memory.read t.mem b = Memory.read s.mem b) ∧ t.flips = s.flips ∧
       t.suspects = s.suspects ∧ t.remap = s.remap ∧ t.spares = s.spares) ∧
  (∀ (s : State) (p : Port) i lines first n a u,
     s.inFlight = some ⟨.slot (.port p), .read i lines first n⟩ →
     (s.pcu p).access = some a → (s.pcu p).accessAwaited = false →
     u = s.handlesLines lines (fun _ => none) →
     (AllReadable s lines → exec .readCompletion s = .next (takeIfDue s
       ((State.setPcu { u with inFlight := none, draw := s.draw + 1 } p
         ((u.pcu p).accessEnds a .read .ok
           (.data (((s.correctedBytes lines).drop first).take n)))).touch p i) p)) ∧
     (¬ AllReadable s lines → exec .readCompletion s = .next (takeIfDue s
       (State.setPcu { u with inFlight := none, draw := s.draw + 1 } p
         ((u.pcu p).accessEnds a .read .dataLost .none)) p))) ∧
  (∀ (s : State) (p : Port) i,
     (∀ w, s.window? i = some w → w.holds p = true →
       (s.touch p i).window? i = some
         { w with holders := w.holders.set p (some (termLease w.leasePeriod s.msCount)) } ∧
       (∀ k, k ≠ i → (s.touch p i).window? k = s.window? k) ∧
       s.touch p i = { s with windows := (s.touch p i).windows }) ∧
     ((∀ w, s.window? i = some w → w.holds p = false) → s.touch p i = s))

/-- A WRITE that covers a line whole, or whose lines are clean, stores exactly its data bytes,
completes OK, touches its port's claim and leaves correct check codes in its lines; a line covered
whole loses its poison (R87, R89, R110, R122). A WRITE that covers lines in part merges its data into
the corrected bytes of each, which is handled as it was found (R87, R111); where it finds one of them
uncorrectable it stores none of its data, in either line, completes DATA_LOST and makes no touch, and
no byte of the array changes where no other line needs correction (R88). -/
def Obligations.WriteStoresItsBytes : Prop :=
  (∀ (s : State) (p : Port) i lines first data a, Memory.wf s.mem = true →
    s.inFlight = some ⟨.slot (.port p), .write i lines first data⟩ →
    (s.pcu p).access = some a → (s.pcu p).accessAwaited = false →
    RunLies lines first data.length →
    (lines.length = 1 ∧ data.length = 64) ∨ (∀ r ∈ lines, s.lineClass r.phys = .clean) →
    ∃ t, exec .writeCompletion s = .next (takeIfDue s (t.touch p i) p) ∧
      (∀ k, k < data.length →
        Memory.read t.mem (runAddress lines (first + k)) = data.getD k 0#8) ∧
      (∀ b, (∀ k, k < data.length → b ≠ runAddress lines (first + k)) →
        Memory.read t.mem b = Memory.read s.mem b) ∧
      t.flips = s.flips.filter (fun f => !(lines.map LineRef.phys).contains f.phys) ∧
      t.poisoned = (if lines.length = 1 ∧ data.length = 64 then
        s.poisoned.filter (fun l => !(lines.map LineRef.line).contains l) else s.poisoned) ∧
      t = State.setPcu
        { s with
          inFlight := none, draw := s.draw + 1
          mem := t.mem, flips := t.flips, poisoned := t.poisoned } p
        { s.pcu p with
          queue := (s.pcu p).queue.tail, access := none
          completions := (s.pcu p).completions ++ [⟨a.tag, .write, .ok, .none⟩]
          reservations := (s.pcu p).reservations - 1
          outstanding := (s.pcu p).outstanding.erase a.tag }) ∧
  (∀ (s : State) (p : Port) i lines first data a u,
    s.inFlight = some ⟨.slot (.port p), .write i lines first data⟩ →
    (s.pcu p).access = some a → (s.pcu p).accessAwaited = false →
    RunLies lines first data.length → ¬ (lines.length = 1 ∧ data.length = 64) →
    WriteLeaves s lines first data u →
    (AllReadable s lines → exec .writeCompletion s = .next (takeIfDue s
      ((State.setPcu { u with inFlight := none, draw := s.draw + 1 } p
        ((u.pcu p).accessEnds a .write .ok .none)).touch p i) p)) ∧
    (¬ AllReadable s lines → exec .writeCompletion s = .next (takeIfDue s
      (State.setPcu { u with inFlight := none, draw := s.draw + 1 } p
        ((u.pcu p).accessEnds a .write .dataLost .none)) p) ∧
      ((∀ r ∈ lines, s.lineClass r.phys ≠ .correctable) →
        (∀ b, Memory.read u.mem b = Memory.read s.mem b) ∧ u.flips = s.flips ∧
        ∀ l, l ∈ u.poisoned ↔ l ∈ s.poisoned ∨
          ∃ r ∈ lines, r.line = l ∧ s.lineClass r.phys = .uncorrectable)))

/-- An INJECT leaves the data of its line as it was; word 0 of the line then holds exactly one flip
of its code, or two, and every other word its own flips; it completes OK with no touch (R92; the
names of the code bits are the model's, log 11). -/
def Obligations.InjectPlantsItsFlips : Prop :=
  ∀ (s : State) (p : Port) r k a,
    s.inFlight = some ⟨.slot (.port p), .inject r k⟩ →
    (s.pcu p).access = some a → (s.pcu p).accessAwaited = false →
    ∃ t, exec .injectCompletion s = .next (takeIfDue s t p) ∧
      (t.flipsIn r.phys 0).length = (if k = .one then 1 else 2) ∧ (t.flipsIn r.phys 0).Nodup ∧
      (∀ b ∈ t.flipsIn r.phys 0, ∃ n, b = .code n) ∧
      (∀ phys word, phys ≠ r.phys ∨ word ≠ 0 → t.flipsIn phys word = s.flipsIn phys word) ∧
      t = State.setPcu { s with inFlight := none, draw := s.draw + 1, flips := t.flips } p
        { s.pcu p with
          queue := (s.pcu p).queue.tail, access := none
          completions := (s.pcu p).completions ++ [⟨a.tag, .inject, .ok, .none⟩]
          reservations := (s.pcu p).reservations - 1
          outstanding := (s.pcu p).outstanding.erase a.tag }

/-- The end of the work a teardown awaits (R195): the access in flight completes as its grant decided,
its lines read, stored into, planted and handled as in any other access, but writes no completion and
makes no touch; the access awaited is cleared, and the port is READY where nothing else is awaited.
The last step of an awaited COPY or FILL job ends the job, whose report is DISCARD: its channel is
free, no completion is written, and the jobs awaited fall by 1 (R146, R195). -/
def Obligations.AwaitedWorkEnds : Prop :=
  (∀ (s : State) (p : Port) v, (s.pcu p).state = .teardown → (s.pcu p).accessAwaited = true →
     (s.pcu p).queue = [] → (∀ i w, s.window? i = some w → w.holds p = false) →
     v = { s.pcu p with
       accessAwaited := false
       state := if (s.pcu p).jobsAwaited = 0 then .ready else .teardown } →
     (∀ i lines first n, s.inFlight = some ⟨.slot (.port p), .read i lines first n⟩ →
       exec .readCompletion s = .next (State.setPcu
         { s.handlesLines lines (fun _ => none) with inFlight := none, draw := s.draw + 1 } p v)) ∧
     (∀ i lines first data, s.inFlight = some ⟨.slot (.port p), .write i lines first data⟩ →
       RunLies lines first data.length →
       (¬ (lines.length = 1 ∧ data.length = 64) → ∀ u, WriteLeaves s lines first data u →
         exec .writeCompletion s =
           .next (State.setPcu { u with inFlight := none, draw := s.draw + 1 } p v)) ∧
       (Memory.wf s.mem = true →
         (lines.length = 1 ∧ data.length = 64) ∨ (∀ r ∈ lines, s.lineClass r.phys = .clean) →
         ∃ t, exec .writeCompletion s = .next t ∧
           t = State.setPcu
             { s with
               inFlight := none, draw := s.draw + 1
               mem := t.mem, flips := t.flips, poisoned := t.poisoned } p v ∧
           (∀ k, k < data.length →
             Memory.read t.mem (runAddress lines (first + k)) = data.getD k 0#8) ∧
           (∀ b, (∀ k, k < data.length → b ≠ runAddress lines (first + k)) →
             Memory.read t.mem b = Memory.read s.mem b))) ∧
     (∀ r k, s.inFlight = some ⟨.slot (.port p), .inject r k⟩ →
       ∃ t, exec .injectCompletion s = .next t ∧
         t = State.setPcu { s with inFlight := none, draw := s.draw + 1, flips := t.flips } p v ∧
         (t.flipsIn r.phys 0).length = (if k = .one then 1 else 2) ∧
         (∀ b ∈ t.flipsIn r.phys 0, ∃ n, b = .code n) ∧
         (∀ phys word, phys ≠ r.phys ∨ word ≠ 0 → t.flipsIn phys word = s.flipsIn phys word))) ∧
  (∀ (s : State) (c : Channel) work j o (row : Instr),
     s.inFlight = some ⟨.slot (.channel c), work⟩ →
     (∃ dest first n pat, work = .fillStep dest first n pat ∧ row = .fillStepCompletion) ∨
       (∃ source sf dest first n, work = .copyStep source sf dest first n ∧
         row = .copyStepCompletion) →
     s.job c = some j → j.kind ≠ .wipe → j.deliver = false → j.state = .ending o →
     (s.pcu j.owner).state = .teardown →
     ∃ t, exec row s = .next t ∧ t.job c = none ∧ t.inFlight = none ∧
       t.pcu j.owner =
         { s.pcu j.owner with
           jobsAwaited := (s.pcu j.owner).jobsAwaited - 1
           state :=
             if (s.pcu j.owner).accessAwaited = false ∧ (s.pcu j.owner).jobsAwaited ≤ 1
             then .ready else .teardown } ∧
       ∀ q, (t.pcu q).completions = (s.pcu q).completions ∧
         (t.pcu q).reservations = (s.pcu q).reservations ∧
         (t.pcu q).outstanding = (s.pcu q).outstanding)

/-- A FILL step on a line it covers whole, or on a clean line, stores its pattern byte in exactly
the bytes of its run; bytes done rises by its length; and the job goes on, or ends OK with its total
length, its channel free (R143, R144, R146). Whatever the class in which a line covered in part is
found, it is handled, merged with the pattern bytes unless it is uncorrectable (R111, R143); a step
that completes OK, of a RUNNING or of an ENDING job, has stored its bytes and touches the owner's
claim, and one that finds its line uncorrectable stores nothing and makes no touch; and the job goes
on or ends as R144 and R145 say. Beside the line, what its handling makes of the fault counts and the
notices, the touch and the job with its owner's completion, nothing changes. -/
def Obligations.FillStepStoresThePatternOrEndsTheJob : Prop :=
  (∀ (s : State) (c : Channel) dest first n pat j, Memory.wf s.mem = true →
     s.inFlight = some ⟨.slot (.channel c), .fillStep dest first n pat⟩ → s.job c = some j →
     j.state = .running → j.source = none → j.deliver = true → first + n ≤ 64 →
     n = 64 ∨ s.lineClass dest.phys = .clean → j.bytesDone + n ≤ j.total →
     ∃ t, exec .fillStepCompletion s = .next t ∧ t.inFlight = none ∧
       (∀ b, Memory.read t.mem b =
         if 64 * dest.phys + first ≤ b ∧ b < 64 * dest.phys + first + n then pat
         else Memory.read s.mem b) ∧
       t.flips = s.flips.filter (fun f => f.phys != dest.phys) ∧
       t.poisoned = (if n = 64 then s.poisoned.filter (fun l => l != dest.line) else s.poisoned) ∧
       t.windows = (s.touch j.owner j.dest.window).windows ∧
       (j.bytesDone + n < j.total →
         t.job c = some { j with bytesDone := j.bytesDone + n } ∧ t.pcus = s.pcus) ∧
       (j.bytesDone + n = j.total → t.job c = none ∧
         (t.pcu j.owner).completions = (s.pcu j.owner).completions ++
           [⟨j.tag, j.kind.command, .ok, .count j.total⟩])) ∧
  (∀ (s : State) (c : Channel) dest first n pat j, Memory.wf s.mem = true →
     s.inFlight = some ⟨.slot (.channel c), .fillStep dest first n pat⟩ → s.job c = some j →
     j.source = none → first + n ≤ 64 → j.bytesDone + n ≤ j.total →
     ∃ t, exec .fillStepCompletion s = .next t ∧ t.inFlight = none ∧
       (n = 64 →
         (∀ b, Memory.read t.mem b =
           if 64 * dest.phys ≤ b ∧ b < 64 * dest.phys + 64 then pat else Memory.read s.mem b) ∧
         t.flips = s.flips.filter (fun x => x.phys != dest.phys) ∧
         t.poisoned = s.poisoned.filter (fun l => l != dest.line)) ∧
       (n < 64 → s.lineClass dest.phys ≠ .uncorrectable →
         SameIntegrity (s.handleRead ⟨dest, s.lineClass dest.phys, s.lineBytes dest.phys⟩
           (some ((s.lineBytes dest.phys).take first ++ List.replicate n pat ++
             (s.lineBytes dest.phys).drop (first + n)))) t) ∧
       (n < 64 → s.lineClass dest.phys = .uncorrectable →
         SameIntegrity
           (s.handleRead ⟨dest, s.lineClass dest.phys, s.lineBytes dest.phys⟩ none) t ∧
         ∀ b, Memory.read t.mem b = Memory.read s.mem b) ∧
       (n = 64 ∨ s.lineClass dest.phys ≠ .uncorrectable →
         SameHolders (s.touch j.owner j.dest.window) t) ∧
       (n < 64 → s.lineClass dest.phys = .uncorrectable → SameHolders s t) ∧
       (j.deliver = true →
         StepSettles s t c j n (n = 64 ∨ s.lineClass dest.phys ≠ .uncorrectable)) ∧
       SameOutsideStep s t c ∧
       ∀ u, u = (if n = 64 then s
           else s.handleRead ⟨dest, s.lineClass dest.phys, s.lineBytes dest.phys⟩
             (if s.lineClass dest.phys = .uncorrectable then none
              else some ((s.lineBytes dest.phys).take first ++ List.replicate n pat ++
                (s.lineBytes dest.phys).drop (first + n)))) →
         SamePcusBut u t j.owner ∧ SameWindowsButHolders u t)

/-- A COPY step whose lines are clean stores the source bytes, as they were before the step, in
exactly the bytes of its destination run, whether or not the destination line is a source line;
bytes done rises by its length; and the job goes on, or ends OK with its total length (R142, R144,
R146). Whatever the classes of the lines it reads, its source lines and then the destination line
where that is neither a source line nor covered whole, each is handled in that order (R111, R142).
Where none is uncorrectable the step's bytes are merged into the destination line or written over it
whole, which clears its poison, and the owner's claims on both windows are touched; where one is, the
step writes none of its bytes and makes no touch; and the job, RUNNING or ENDING, goes on or ends as
R144 and R145 say. Beside the lines, what their handling makes of the fault counts and the notices, the
touches and the job with its owner's completion, nothing changes. -/
def Obligations.CopyStepMovesItsBytesOrEndsTheJob : Prop :=
  (∀ (s : State) (c : Channel) source sf dest first n j, Memory.wf s.mem = true →
    s.inFlight = some ⟨.slot (.channel c), .copyStep source sf dest first n⟩ → s.job c = some j →
    j.state = .running → j.deliver = true → RunLies source sf n → first + n ≤ 64 →
    (∀ r ∈ source, s.lineClass r.phys = .clean) →
    (n = 64 ∨ s.lineClass dest.phys = .clean) →
    (dest ∈ source ∨ ∀ r ∈ source, r.phys ≠ dest.phys) → j.bytesDone + n ≤ j.total →
    ∃ t, exec .copyStepCompletion s = .next t ∧ t.inFlight = none ∧
      (∀ k, k < n → Memory.read t.mem (64 * dest.phys + first + k) =
        Memory.read s.mem (runAddress source (sf + k))) ∧
      (∀ b, ¬ (64 * dest.phys + first ≤ b ∧ b < 64 * dest.phys + first + n) →
        Memory.read t.mem b = Memory.read s.mem b) ∧
      (j.bytesDone + n < j.total →
        t.job c = some { j with bytesDone := j.bytesDone + n } ∧ t.pcus = s.pcus) ∧
      (j.bytesDone + n = j.total → t.job c = none ∧
        (t.pcu j.owner).completions = (s.pcu j.owner).completions ++
          [⟨j.tag, j.kind.command, .ok, .count j.total⟩])) ∧
  (∀ (s : State) (c : Channel) source sf dest first n j reads bytes u, Memory.wf s.mem = true →
    s.inFlight = some ⟨.slot (.channel c), .copyStep source sf dest first n⟩ → s.job c = some j →
    RunLies source sf n → first + n ≤ 64 → j.bytesDone + n ≤ j.total →
    reads = (if n = 64 ∨ dest ∈ source then source else source ++ [dest]) →
    bytes = ((s.correctedBytes source).drop sf).take n →
    (¬ AllReadable s reads → u = s.handlesLines reads (fun _ => none)) →
    (AllReadable s reads → u = s.handlesLines reads (fun r =>
      if r = dest then
        some ((s.lineBytes dest.phys).take first ++ bytes ++ (s.lineBytes dest.phys).drop (first + n))
      else none)) →
    ∃ t, exec .copyStepCompletion s = .next t ∧ t.inFlight = none ∧
      (¬ AllReadable s reads ∨ n < 64 ∨ dest ∈ source → SameIntegrity u t) ∧
      (AllReadable s reads → n = 64 → dest ∉ source →
        (∀ b, Memory.read t.mem b =
          if 64 * dest.phys ≤ b ∧ b < 64 * dest.phys + 64
          then bytes.getD (b - 64 * dest.phys) 0#8 else Memory.read u.mem b) ∧
        t.flips = u.flips.filter (fun x => x.phys != dest.phys) ∧
        t.poisoned = u.poisoned.filter (fun l => l != dest.line) ∧
        t.suspects = u.suspects ∧ t.remap = u.remap ∧ t.spares = u.spares ∧
        t.correctedTotal = u.correctedTotal ∧ t.retirementsTotal = u.retirementsTotal) ∧
      (¬ AllReadable s reads →
        (∀ l, l ∈ t.poisoned ↔ l ∈ s.poisoned ∨
          ∃ r ∈ reads, r.line = l ∧ s.lineClass r.phys = .uncorrectable) ∧
        SameHolders s t ∧
        ((∀ r ∈ reads, s.lineClass r.phys ≠ .correctable) →
          ∀ b, Memory.read t.mem b = Memory.read s.mem b)) ∧
      (AllReadable s reads → ∀ x, j.source = some x →
        SameHolders ((s.touch j.owner x.window).touch j.owner j.dest.window) t) ∧
      (j.deliver = true → StepSettles s t c j n (AllReadable s reads)) ∧
      SameOutsideStep s t c ∧ SamePcusBut u t j.owner ∧ SameWindowsButHolders u t)

/-- A WIPE step writes its line whole with zeros and clears its poison; bytes done rises by 64; the
last step ends the wipe: no key, STANDARD, attempts 4, IDLE, the channel free, and the WIPE
completes OK in its reserved slot, its tag then free, with bytes done, which is the job's total length
and the window's size, as its byte count; or, with report DISCARD, completes nothing and its tag is
free (R74, R75, R149, R181, R196). Nothing else changes: no other window, port or channel, no link, key
or scrub setting, and nothing of the arbiter but that the engine is free. -/
def Obligations.WipeStepAndWipeEnd : Prop :=
  ∀ (s : State) (c : Channel) dest j, Memory.wf s.mem = true →
    s.inFlight = some ⟨.slot (.channel c), .wipeStep dest⟩ → s.job c = some j → j.kind = .wipe →
    ∃ t, exec .wipeStepCompletion s = .next t ∧ t.inFlight = none ∧
      (∀ b, Memory.read t.mem b =
        if 64 * dest.phys ≤ b ∧ b < 64 * dest.phys + 64 then 0#8 else Memory.read s.mem b) ∧
      t.poisoned = s.poisoned.filter (fun l => l != dest.line) ∧
      t.flips = s.flips.filter (fun f => f.phys != dest.phys) ∧
      t.suspects = s.suspects ∧ t.remap = s.remap ∧ t.spares = s.spares ∧
      t.correctedTotal = s.correctedTotal ∧ t.retirementsTotal = s.retirementsTotal ∧
      SameOutsideStep s t c ∧ (∀ i, i ≠ j.dest.window → t.window? i = s.window? i) ∧
      (∀ q, q ≠ j.owner → t.pcu q = s.pcu q) ∧
      (j.bytesDone + 64 < j.total →
        t.job c = some { j with bytesDone := j.bytesDone + 64 } ∧ t.windows = s.windows ∧
          t.pcus = s.pcus) ∧
      (j.total ≤ j.bytesDone + 64 →
        t.job c = none ∧
        (∀ w, s.window? j.dest.window = some w → t.window? j.dest.window = some
          { w with
            activity := .idle
            guard := { w.guard with key := none, level := .standard, attempts := 4 } }) ∧
        (WipeJobsLawful s → j.bytesDone + 64 = j.total ∧
          ∀ w, s.window? j.dest.window = some w → j.total = 64 * w.length) ∧
        (j.deliver = true → t.pcu j.owner =
          { s.pcu j.owner with
            completions := (s.pcu j.owner).completions ++
              [⟨j.tag, .wipe, .ok, .count (j.bytesDone + 64)⟩]
            reservations := (s.pcu j.owner).reservations - 1
            outstanding := (s.pcu j.owner).outstanding.erase j.tag } ∧
          (j.bytesDone + 64 = j.total → (t.pcu j.owner).completions =
            (s.pcu j.owner).completions ++ [⟨j.tag, .wipe, .ok, .count j.total⟩])) ∧
        (j.deliver = false → t.pcu j.owner =
          { s.pcu j.owner with outstanding := (s.pcu j.owner).outstanding.erase j.tag }))

/-- A scrub read of a clean line, or of one poisoned at the grant, changes nothing but the pointer,
which moves to the next line, from 16,383 back to 0 (R123, R125); one that finds its line
uncorrectable poisons it (R120). Whatever the class of a line not poisoned at the grant, it is handled
as any line read, and its corrected bytes are written back (R111, R125). -/
def Obligations.ScrubReadMovesOn : Prop :=
  ∀ (s : State) r b, s.inFlight = some ⟨.scrub, .scrub r b⟩ →
    (b = true ∨ s.lineClass r.phys = .clean → exec .scrubReadCompletion s = .next
      { s with
        inFlight := none, draw := s.draw + 1
        scrubPointer := if r.line = 16383 then 0 else r.line + 1 }) ∧
    (b = false → s.lineClass r.phys = .uncorrectable →
      ∃ t, exec .scrubReadCompletion s = .next t ∧ r.line ∈ t.poisoned ∧ t.mem = s.mem ∧
        t.flips = s.flips ∧ t.inFlight = none ∧
        t.scrubPointer = if r.line = 16383 then 0 else r.line + 1) ∧
    (b = false → exec .scrubReadCompletion s = .next
      { s.handleRead ⟨r, s.lineClass r.phys, s.lineBytes r.phys⟩ none with
        inFlight := none, draw := s.draw + 1
        scrubPointer := if r.line = 16383 then 0 else r.line + 1 })

/-- A correctable line, found by whatever read, is counted; a first correction joins it to the
suspect list, evicting the head of a full one; a second one retires it onto the lowest-numbered FREE
spare, which is then IN-USE, the spare that held it before becoming SPENT and every other spare
keeping its state (R118), or, with none FREE, leaves it where it is and posts SPARES_EXHAUSTED; what
the access stores, or the corrected line, is written with correct codes where the line then stands
(R113, R115, R116, R119). The window the line counts against has its corrected count raised, up to
65,535, and at a retirement its retirements count (R112, R113, R116); a window counts the faults of
the lines from its base line on, as many as its length (R2). A line with a remap entry is held at that
entry's spare, and every other line at its home place (R117). A line found uncorrectable is marked
poisoned; the window it counts against has its poisonings count raised, up to 65,535, and a
LINE_POISONED with the line's window-relative number and a count of 1 is posted to every port; an
unassigned line raises no window's count and posts nothing; and the stored line, the suspects, the
map and the spares stay (R120, R121). A clean line changes by what the access stores alone (R110,
R111). -/
def Obligations.LinesReadAreHandled : Prop :=
  (∀ (w : Window) (line : Nat), w.covers line = true ↔ w.base ≤ line ∧ line < w.base + w.length) ∧
  (∀ (s : State) (l : Nat), IntegrityLawful s →
    (∀ e ∈ s.remap, e.line = l → s.physOf l = 16384 + e.spare) ∧
    ((∀ e ∈ s.remap, e.line ≠ l) → s.physOf l = l)) ∧
  (∀ (s t : State) (r : LineRead) stored bytes, r.cls = .correctable → bytes = stored.getD r.bytes →
    t = s.handleRead r stored →
    t.correctedTotal = min 4294967295 (s.correctedTotal + 1) ∧
    (r.ref.line ∉ s.suspects →
      t.suspects = (if s.suspects.length < 32 then s.suspects else s.suspects.tail) ++ [r.ref.line] ∧
      t.remap = s.remap ∧ t.spares = s.spares ∧ t.pcus = s.pcus ∧
      t.retirementsTotal = s.retirementsTotal ∧
      t.mem = Memory.writeBytes s.mem (64 * r.ref.phys) bytes ∧
      t.flips = s.flips.filter (fun f => f.phys != r.ref.phys) ∧
      (PlacementLawful s → FaultsCounted s t r.ref.line (fun c =>
        { c with corrected := min 65535 (c.corrected + 1) }))) ∧
    (r.ref.line ∈ s.suspects → IntegrityLawful s → ∀ k : Nat, s.spares[k]? = some SpareState.free →
      (∀ m : Nat, m < k → s.spares[m]? ≠ some SpareState.free) →
      t.suspects = s.suspects.erase r.ref.line ∧
      t.physOf r.ref.line = 16384 + k ∧ t.spares[k]? = some SpareState.inUse ∧
      (∀ e ∈ s.remap, e.line = r.ref.line → t.spares[e.spare]? = some SpareState.spent) ∧
      (∀ m : Nat, m ≠ k → (∀ e ∈ s.remap, e.line = r.ref.line → e.spare ≠ m) →
        t.spares[m]? = s.spares[m]?) ∧
      (∀ l, l ≠ r.ref.line → t.physOf l = s.physOf l) ∧
      t.retirementsTotal = s.retirementsTotal + 1 ∧ t.pcus = s.pcus ∧
      t.mem = Memory.writeBytes s.mem (64 * (16384 + k)) bytes ∧
      t.flips = s.flips.filter (fun f => f.phys != 16384 + k) ∧
      (PlacementLawful s → FaultsCounted s t r.ref.line (fun c =>
        { c with
          corrected := min 65535 (c.corrected + 1)
          retirements := c.retirements + 1 }))) ∧
    (r.ref.line ∈ s.suspects → (∀ k : Nat, s.spares[k]? ≠ some SpareState.free) →
      t.suspects = s.suspects ∧ t.remap = s.remap ∧ t.spares = s.spares ∧
      t.retirementsTotal = s.retirementsTotal ∧
      (∀ q, t.pcu q = (s.pcu q).post .sparesExhausted) ∧
      t.mem = Memory.writeBytes s.mem (64 * r.ref.phys) bytes ∧
      t.flips = s.flips.filter (fun f => f.phys != r.ref.phys) ∧
      (PlacementLawful s → FaultsCounted s t r.ref.line (fun c =>
        { c with corrected := min 65535 (c.corrected + 1) })))) ∧
  (∀ (s t : State) (r : LineRead) stored, r.cls = .uncorrectable → t = s.handleRead r stored →
    t = { s with poisoned := t.poisoned, windows := t.windows, pcus := t.pcus } ∧
    (∀ l, l ∈ t.poisoned ↔ l ∈ s.poisoned ∨ l = r.ref.line) ∧
    (PlacementLawful s → FaultsCounted s t r.ref.line (fun c =>
      { c with poisonings := min 65535 (c.poisonings + 1) })) ∧
    (∀ i w, PlacementLawful s → s.window? i = some w → w.covers r.ref.line = true →
      ∀ q, t.pcu q = (s.pcu q).post (.linePoisoned i (r.ref.line - w.base) 1)) ∧
    ((∀ i w, s.window? i = some w → w.covers r.ref.line = false) → t.pcus = s.pcus)) ∧
  (∀ (s : State) (r : LineRead), r.cls = .clean →
    s.handleRead r none = s ∧
    ∀ b, s.handleRead r (some b) =
      { s with
        mem := Memory.writeBytes s.mem (64 * r.ref.phys) b
        flips := s.flips.filter (fun f => f.phys != r.ref.phys) })

/-- The class of a line by its flips (R108, R109): no flip, clean and as stored; at least one word with
one flip and every other word with none or one, correctable, each word giving its bytes as stored, a
flipped data bit corrected; two flips in a word, uncorrectable. And a stored bit that flips disagrees
from then on, or agrees again, a data bit changing the stored byte. -/
def Obligations.FlipsDecideTheClass : Prop :=
  (∀ (s : State) phys, (∀ word, word < 8 → s.flipsIn phys word = []) →
    s.lineClass phys = .clean ∧ s.lineBytes phys = Memory.readBytes s.mem (64 * phys) 64) ∧
  (∀ (s : State) phys, (∀ word, word < 8 → (s.flipsIn phys word).length ≤ 1) →
    (∃ word, word < 8 ∧ (s.flipsIn phys word).length = 1) →
    s.lineClass phys = .correctable ∧ (s.lineBytes phys).length = 64 ∧
      ∀ word k, word < 8 → k < 8 →
        (∀ byte bit, s.flipsIn phys word = [.data byte bit] → byte.val = k →
          (s.lineBytes phys)[8 * word + k]? =
            some (Memory.read s.mem (64 * phys + 8 * word + k) ^^^ (1#8 <<< bit.val))) ∧
        ((∀ byte bit, s.flipsIn phys word = [.data byte bit] → byte.val ≠ k) →
          (s.lineBytes phys)[8 * word + k]? =
            some (Memory.read s.mem (64 * phys + 8 * word + k)))) ∧
  (∀ (s : State) phys word, word < 8 → (s.flipsIn phys word).length = 2 →
    s.lineClass phys = .uncorrectable) ∧
  (∀ (s : State) phys word bit, Memory.wf s.mem = true → phys < 16400 → word < 8 →
    ∃ t, exec (.storedBitFlip phys word bit) s = .next t ∧
      t = { s with mem := t.mem, flips := t.flips } ∧
      (∀ a, Memory.read t.mem a =
        match bit with
        | .data byte k =>
          if a = 64 * phys + 8 * word + byte.val then Memory.read s.mem a ^^^ (1#8 <<< k.val)
          else Memory.read s.mem a
        | .code _ => Memory.read s.mem a) ∧
      (⟨phys, word, bit⟩ ∉ s.flips → t.flips = s.flips ++ [⟨phys, word, bit⟩]) ∧
      (⟨phys, word, bit⟩ ∈ s.flips → t.flips = s.flips.erase ⟨phys, word, bit⟩))

/-! ### Time (R124, R204) -/

/-- A millisecond tick falls on every 1,000th microsecond tick (R204): MICROSECOND_TICK counts towards
it, in every phase, and changes no tick count; MILLISECOND_TICK, where the 1,000th has come and nothing
of the tick before is still due, raises the tick count by 1 modulo 2^32, or, in HELD, leaves it; and a
microsecond tick lowers the running scrub timer by 1, and the timer's expiry restarts it and sets the
scrub-due flag, or, with the flag set, the count to 4, and S is granted at once where the engine was
free with nothing pending (R97, R101, R124). That the tick is a row of its own, which nothing answers
before it is due and which is taken before a 1,001st microsecond tick, is the model's choice (log
21). So is the order in which what fell on a tick and is still due is taken (R205, log 8): the timer
rows, window by window and port by port, before the next millisecond tick, and an expiry of the scrub
timer before the next microsecond tick. -/
def Obligations.TicksAndScrubTimer : Prop :=
  (∀ s : State, s.usCount < 1000 → exec .millisecondTick s = .next s) ∧
  (∀ s : State, s.usCount = 1000 → s.phase = .held →
    exec .millisecondTick s = .next { s with usCount := 0 }) ∧
  (∀ s : State, s.usCount = 1000 → s.phase ≠ .held →
    (∀ i w, s.window? i = some w →
      (∀ q l, w.holders.get q = some l → l.deadline ≠ some s.msCount ∧
        ∀ d k, l.deadline = some d → l.lowPoint = some k → (d - s.msCount).toNat = k →
          l.lowSent = true) ∧
      ∀ x ∈ w.waiters, x.deadline ≠ some s.msCount) →
    exec .millisecondTick s = .next { s with msCount := s.msCount + 1#32, usCount := 0 }) ∧
  (∀ s : State, s.usCount = 1000 → s.phase ≠ .held →
    exec .millisecondTick s =
      .next { s.afterRows timerRows with msCount := s.msCount + 1#32, usCount := 0 }) ∧
  (∀ s t : State, s.usCount < 1000 → s.scrubTimer = some 0 → exec .scrubTimerExpiry s = .next t →
    exec .microsecondTick s = .next
      { t with usCount := s.usCount + 1, scrubTimer := some (s.scrubInterval - 1) }) ∧
  (∀ s : State, s.usCount < 1000 →
    ∃ t, exec .microsecondTick s = .next t ∧ t.usCount = s.usCount + 1 ∧ t.msCount = s.msCount) ∧
  (∀ s t : State, s.usCount = 1000 → exec .millisecondTick s = .next t →
    exec .microsecondTick s = exec .microsecondTick t) ∧
  (∀ s : State, s.usCount < 1000 → s.scrubTimer = none →
    exec .microsecondTick s = .next { s with usCount := s.usCount + 1 }) ∧
  (∀ (s : State) n, s.usCount < 1000 → s.scrubTimer = some (n + 1) →
    exec .microsecondTick s = .next { s with usCount := s.usCount + 1, scrubTimer := some n }) ∧
  (∀ s : State, s.scrubTimer = some 0 →
    (s.scrubDue = true → s.choose ≠ none → exec .scrubTimerExpiry s = .next
      { s with scrubTimer := some s.scrubInterval, postponed := 4 }) ∧
    (s.scrubDue = false → s.inFlight ≠ none ∨ s.choose ≠ none → exec .scrubTimerExpiry s = .next
      { s with scrubTimer := some s.scrubInterval, scrubDue := true }) ∧
    (s.scrubDue = false → s.inFlight = none → s.choose = none → exec .scrubTimerExpiry s = .next
      { s with
        scrubTimer := some s.scrubInterval, postponed := 0
        inFlight := some ⟨.scrub, .scrub ⟨s.scrubPointer, s.physOf s.scrubPointer⟩
          (s.poisoned.contains s.scrubPointer)⟩ }))

/-! ### Notices (R183 to R187) -/

/-- A notice that reaches a port: not kept where the port is not READY; at a READY port it coalesces
with a queued one of its kind and window, the count of a LINE_POISONED rising to at most 255; joins
the tail where there is room; and is lost otherwise. One that coalesces with the notice under fetch
raises the repeat count of the mark, to at most 255, and a LINE_POISONED then gives the repeat line
where there is none yet (R165). A LEASE_EXPIRED first removes the LEASE_LOW of its window, which is
then no longer under fetch, and is never lost; with no such LEASE_LOW it is handled as any other (R183,
R185 to R187). Notices are of one kind and window where they are LEASE_LOW, LEASE_EXPIRED, CLAIM_REVOKED
or LINE_POISONED of one window, or both SPARES_EXHAUSTED (R185). -/
def Obligations.NoticesCoalesceOrAreLost : Prop :=
  (∀ m n : Notice, m.sameKey n = true ↔
    (∃ w, m = .leaseLow w ∧ n = .leaseLow w) ∨ (∃ w, m = .leaseExpired w ∧ n = .leaseExpired w) ∨
    (∃ w, m = .claimRevoked w ∧ n = .claimRevoked w) ∨
    (∃ w k c l d, m = .linePoisoned w k c ∧ n = .linePoisoned w l d) ∨
    (m = .sparesExhausted ∧ n = .sparesExhausted)) ∧
  ∀ (u : Pcu) (n : Notice),
    (u.state ≠ .ready → u.post n = u) ∧
    (u.state = .ready →
      (∀ w, n = .leaseExpired w → .leaseLow w ∉ u.notices ∧
        ∀ m, u.fetchMark = some m → m.notice ≠ .leaseLow w) →
      ((∃ m ∈ u.notices, n.sameKey m = true) →
        u.post n =
          { u with
            notices := u.notices.map (fun m =>
              if n.sameKey m then
                (match m with
                  | .linePoisoned w l k => .linePoisoned w l (min 255 (k + 1))
                  | other => other)
              else m)
            fetchMark := u.fetchMark.map (fun m =>
              if n.sameKey m.notice then
                { m with
                  repeats := min 255 (m.repeats + 1)
                  repeatLine :=
                    match m.repeatLine, n with
                    | none, .linePoisoned _ l _ => some l
                    | x, _ => x }
              else m) }) ∧
      ((∀ m ∈ u.notices, n.sameKey m = false) → u.notices.length < 8 →
        u.post n = { u with notices := u.notices ++ [n] }) ∧
      ((∀ m ∈ u.notices, n.sameKey m = false) → 8 ≤ u.notices.length →
        u.post n = { u with noticeLost := true })) ∧
    (u.state = .ready → ∀ w, n = .leaseExpired w → .leaseLow w ∈ u.notices →
      u.notices.length ≤ 8 →
      (u.post n).noticeLost = u.noticeLost ∧
      (n ∉ u.notices →
        (u.post n).notices = u.notices.filter (fun m => m != .leaseLow w) ++ [n]) ∧
      (n ∈ u.notices →
        (u.post n).notices = u.notices.filter (fun m => m != .leaseLow w)) ∧
      (∀ m, u.fetchMark = some m → m.notice = .leaseLow w → (u.post n).fetchMark = none) ∧
      (∀ m, u.fetchMark = some m → m.notice ≠ .leaseLow w → m.notice ≠ n →
        (u.post n).fetchMark = some m) ∧
      (∀ m, u.fetchMark = some m → m.notice = n → n ∈ u.notices →
        (u.post n).fetchMark = some { m with repeats := min 255 (m.repeats + 1) }))

/-! ### Frames: what commands leave unchanged -/

/-- The takings that need no array (every command but READ, WRITE, INJECT, COPY, FILL and WIPE)
leave every byte of the array, the flips, the integrity unit's records, the links, the phase, the
timebase and the layout port as they were; only CANCEL JOB changes a channel, only SCRUB SETTINGS
the scrub settings and the schedule, and only UNLOCK, SET MASTER KEY and FREEZE the master key, its
counter or the freeze flag. The takings of READ, WRITE, INJECT, COPY, FILL and WIPE store nothing:
the array changes at the completions of accesses alone (R95); the first three leave the channels,
COPY and FILL the jobs that stand; all but WIPE leave the other ports, and WIPE the ports that hold and
wait for nothing and own no job (R71); and none changes the scrub schedule, nor the arbiter where the
engine was busy or a request pending (R97, log 22). -/
def Obligations.TakingsLeaveTheRest : Prop :=
  (∀ (s t : State) (p : Port) k,
     k ∉ [CommandKind.read, .write, .inject, .copy, .fill, .wipe] →
     exec (CommandKind.taking p k) s = .next t →
     SameArray s t ∧ SameDevice s t ∧ t.links = s.links ∧ t.draw = s.draw ∧
     (k ≠ .cancelJob → SameJobs s t) ∧
     (k ≠ .scrubSettings → SameScrub s t ∧ SameArbiter s t) ∧
     (k ∉ [CommandKind.unlock, .setMasterKey, .freeze] → SameKeys s t) ∧
     (k ∉ [CommandKind.claim, .release, .renew, .deleteWindow, .defineWindow, .setWindowParams,
       .setKey, .clearKey, .unlock, .lock] → t.windows = s.windows) ∧
     (k ∉ [CommandKind.release, .deleteWindow] → ∀ q, q ≠ p → t.pcu q = s.pcu q)) ∧
  (∀ (s t : State) (p : Port) k, k ∈ [CommandKind.read, .write, .inject, .copy, .fill, .wipe] →
     exec (CommandKind.taking p k) s = .next t →
     SameArray s t ∧ SameDevice s t ∧ t.links = s.links ∧ t.draw = s.draw ∧
     t.masterKey = s.masterKey ∧ t.frozen = s.frozen ∧
     (k ≠ .wipe → t.windows = s.windows ∧ t.masterAttempts = s.masterAttempts ∧
       ∀ q, q ≠ p → t.pcu q = s.pcu q) ∧
     (∀ q, q ≠ p → (∀ i w, s.window? i = some w → w.holds q = false ∧ w.waits q = false) →
       (∀ c j, s.job c = some j → j.owner ≠ q) → t.pcu q = s.pcu q) ∧
     (k ∈ [.read, .write, .inject] → SameJobs s t) ∧
     (k ∈ [.copy, .fill] → ∀ c j, s.job c = some j → t.job c = some j) ∧
     t.scrubDue = s.scrubDue ∧ t.postponed = s.postponed ∧
     (s.inFlight ≠ none ∨ s.choose ≠ none → SameArbiter s t) ∧
     SameScrub s t)

/-! ### Invariants -/

/-- The invariants hold right after reset. What stands in State.reset by the model's choice is logs 1, 2
and 21. -/
def Obligations.InvariantsHoldAtReset : Prop :=
  MemoryCanonical State.reset ∧ ScheduleLawful State.reset ∧ GuardsLawful State.reset ∧
  JobsLawful State.reset ∧ WipeJobsLawful State.reset ∧ PlacementLawful State.reset ∧ ClaimsLawful State.reset ∧
  QueuesLawful State.reset ∧ CompletionsLawful State.reset ∧ NoticesLawful State.reset ∧
  IntegrityLawful State.reset ∧ State.reset.usCount ≤ 1000

/-- Every step keeps the canonical form of the array's bytes. The form is the model's own representation
of the array (log 2), no rule of the spec: it makes equal arrays equal data. -/
def Obligations.StepsKeepMemoryCanonical : Prop :=
  ∀ s t : State, MemoryCanonical s → step s = .next t → MemoryCanonical t

/-- Every step keeps the postponement count within 4, and 0 while no scrub is due (R101, R102); and
no more than 1,000 microsecond ticks ever pass without their millisecond tick (R204), counted in the
model's own field (log 21). -/
def Obligations.StepsKeepTheScrubScheduleAndTheTicks : Prop :=
  (∀ s t : State, ScheduleLawful s → step s = .next t → ScheduleLawful t) ∧
  (∀ s t : State, s.usCount ≤ 1000 → step s = .next t → t.usCount ≤ 1000)

/-- Every step keeps the channels lawful: a window is WIPING exactly while the WIPE job for it
exists, and a job is ENDING only while a step of it is in flight (R6, R145); and every step keeps each
WIPE job's total length the size of its window, its bytes done whole lines short of it (R71, R149). -/
def Obligations.StepsKeepJobsAndWipes : Prop :=
  (∀ s t : State, JobsLawful s → step s = .next t → JobsLawful t) ∧
  (∀ s t : State, JobsLawful s → PlacementLawful s → WipeJobsLawful s → step s = .next t →
    WipeJobsLawful t)

/-- Every step keeps the guard records lawful: attempts within 0 to 4, no unlocked set without a
key, and no key on a FREE window (R4, R51). -/
def Obligations.StepsKeepGuardsLawful : Prop :=
  ∀ s t : State, JobsLawful s → GuardsLawful s → step s = .next t → GuardsLawful t

/-- Every step keeps the law of placement: every window within the array, and no line in two windows
(R2). -/
def Obligations.StepsKeepThePlacementLaw : Prop :=
  ∀ s t : State, PlacementLawful s → step s = .next t → PlacementLawful t

/-- Every step keeps the claim part of every window lawful: no holders, one write holder alone, or
read holders; a waiter never holds and never waits twice; and a queue stands only while somebody
holds (R23, R24). -/
def Obligations.StepsKeepClaimsLawful : Prop :=
  ∀ s t : State, ClaimsLawful s → step s = .next t → ClaimsLawful t

/-- Every step keeps the command queues within four commands and the notice queues within eight
records, one for each kind and window (R159, R171, R184); and every step keeps each port's queued
completions and reservations within eight, the reservations being exactly the commands taken whose
completions are still to be written (R171, R178). -/
def Obligations.StepsKeepQueuesBounded : Prop :=
  (∀ s t : State, QueuesLawful s → NoticesLawful s → step s = .next t →
    QueuesLawful t ∧ NoticesLawful t) ∧
  (∀ s t : State, ClaimsLawful s → CompletionsLawful s → step s = .next t → CompletionsLawful t)

/-- Every step keeps the suspect list within 32 lines, none twice, and the remap table without a
line or a spare twice, its spares being exactly the ones IN-USE (R114, R117). -/
def Obligations.StepsKeepTheIntegrityLists : Prop :=
  ∀ s t : State, IntegrityLawful s → step s = .next t → IntegrityLawful t

/-- While the part is frozen and no window is being wiped, no step but a power-on or the assertion
or release of RESET# changes the set of windows, a base, a length, a policy, a key, the master key
or the freeze flag, or starts a wipe (R64). -/
def Obligations.FreezeFixesLayoutAndKeys : Prop :=
  ∀ (s t : State) (c : Instr), JobsLawful s → s.frozen = true →
    EveryWindow s (fun w => w.activity = .idle) →
    (∀ r l, c ≠ .powerOn r l) → c ≠ .resetAssert → (∀ l, c ≠ .resetRelease l) →
    exec c s = .next t →
    t.frozen = true ∧ t.masterKey = s.masterKey ∧
      (∀ i, (t.window? i).map (fun w => (w.base, w.length, w.policy, w.guard.key, w.activity)) =
        (s.window? i).map (fun w => (w.base, w.length, w.policy, w.guard.key, w.activity)))

end Statements
end

