-- ==== Sys2Proof/Laws/State.lean ====
section
/-! SUPPORT. The fields of State under its updates: one lemma per field and update, and the values the
updates give. -/

namespace Sys2Proof.Machine

/-! ### One value per port -/

theorem PerPort.get_set {α : Type} (x : PerPort α) (p q : Port) (a : α) :
    (x.set p a).get q = if q = p then a else x.get q := by
  cases p <;> cases q <;> rfl

@[simp] theorem PerPort.get_set_same {α : Type} (x : PerPort α) (p : Port) (a : α) :
    (x.set p a).get p = a := by cases p <;> rfl

theorem PerPort.get_set_ne {α : Type} (x : PerPort α) {p q : Port} (a : α) (h : q ≠ p) :
    (x.set p a).get q = x.get q := by rw [PerPort.get_set, if_neg h]

@[simp] theorem PerPort.get_const {α : Type} (a : α) (p : Port) : (PerPort.const a).get p = a := by
  cases p <;> rfl

@[simp] theorem PerPort.set_set {α : Type} (x : PerPort α) (p : Port) (a b : α) :
    (x.set p a).set p b = x.set p b := by cases p <;> rfl

@[simp] theorem PerPort.set_get {α : Type} (x : PerPort α) (p : Port) : x.set p (x.get p) = x := by
  cases p <;> rfl

theorem PerPort.ext_get {α : Type} {x y : PerPort α} (h : ∀ p, x.get p = y.get p) : x = y := by
  cases x; cases y
  have h0 := h .p0
  have h1 := h .p1
  have h2 := h .p2
  have h3 := h .p3
  simp only [PerPort.get] at h0 h1 h2 h3
  subst h0 h1 h2 h3
  rfl

theorem Port.mem_all (p : Port) : p ∈ Port.all := by cases p <;> decide

/-! ### The fields that an update leaves -/

@[simp] theorem State.pending_setPcu (s : State) (p : Port) (u : Pcu) : (s.setPcu p u).pending = s.pending := rfl
@[simp] theorem State.phase_setPcu (s : State) (p : Port) (u : Pcu) : (s.setPcu p u).phase = s.phase := rfl
@[simp] theorem State.layoutPort_setPcu (s : State) (p : Port) (u : Pcu) : (s.setPcu p u).layoutPort = s.layoutPort := rfl
@[simp] theorem State.msCount_setPcu (s : State) (p : Port) (u : Pcu) : (s.setPcu p u).msCount = s.msCount := rfl
@[simp] theorem State.usCount_setPcu (s : State) (p : Port) (u : Pcu) : (s.setPcu p u).usCount = s.usCount := rfl
@[simp] theorem State.sweepPointer_setPcu (s : State) (p : Port) (u : Pcu) : (s.setPcu p u).sweepPointer = s.sweepPointer := rfl
@[simp] theorem State.links_setPcu (s : State) (p : Port) (u : Pcu) : (s.setPcu p u).links = s.links := rfl
@[simp] theorem State.windows_setPcu (s : State) (p : Port) (u : Pcu) : (s.setPcu p u).windows = s.windows := rfl
@[simp] theorem State.masterKey_setPcu (s : State) (p : Port) (u : Pcu) : (s.setPcu p u).masterKey = s.masterKey := rfl
@[simp] theorem State.masterAttempts_setPcu (s : State) (p : Port) (u : Pcu) : (s.setPcu p u).masterAttempts = s.masterAttempts := rfl
@[simp] theorem State.frozen_setPcu (s : State) (p : Port) (u : Pcu) : (s.setPcu p u).frozen = s.frozen := rfl
@[simp] theorem State.rotation_setPcu (s : State) (p : Port) (u : Pcu) : (s.setPcu p u).rotation = s.rotation := rfl
@[simp] theorem State.scrubDue_setPcu (s : State) (p : Port) (u : Pcu) : (s.setPcu p u).scrubDue = s.scrubDue := rfl
@[simp] theorem State.postponed_setPcu (s : State) (p : Port) (u : Pcu) : (s.setPcu p u).postponed = s.postponed := rfl
@[simp] theorem State.inFlight_setPcu (s : State) (p : Port) (u : Pcu) : (s.setPcu p u).inFlight = s.inFlight := rfl
@[simp] theorem State.c0_setPcu (s : State) (p : Port) (u : Pcu) : (s.setPcu p u).c0 = s.c0 := rfl
@[simp] theorem State.c1_setPcu (s : State) (p : Port) (u : Pcu) : (s.setPcu p u).c1 = s.c1 := rfl
@[simp] theorem State.scrubEnabled_setPcu (s : State) (p : Port) (u : Pcu) : (s.setPcu p u).scrubEnabled = s.scrubEnabled := rfl
@[simp] theorem State.scrubInterval_setPcu (s : State) (p : Port) (u : Pcu) : (s.setPcu p u).scrubInterval = s.scrubInterval := rfl
@[simp] theorem State.scrubTimer_setPcu (s : State) (p : Port) (u : Pcu) : (s.setPcu p u).scrubTimer = s.scrubTimer := rfl
@[simp] theorem State.scrubPointer_setPcu (s : State) (p : Port) (u : Pcu) : (s.setPcu p u).scrubPointer = s.scrubPointer := rfl
@[simp] theorem State.poisoned_setPcu (s : State) (p : Port) (u : Pcu) : (s.setPcu p u).poisoned = s.poisoned := rfl
@[simp] theorem State.suspects_setPcu (s : State) (p : Port) (u : Pcu) : (s.setPcu p u).suspects = s.suspects := rfl
@[simp] theorem State.remap_setPcu (s : State) (p : Port) (u : Pcu) : (s.setPcu p u).remap = s.remap := rfl
@[simp] theorem State.spares_setPcu (s : State) (p : Port) (u : Pcu) : (s.setPcu p u).spares = s.spares := rfl
@[simp] theorem State.correctedTotal_setPcu (s : State) (p : Port) (u : Pcu) : (s.setPcu p u).correctedTotal = s.correctedTotal := rfl
@[simp] theorem State.retirementsTotal_setPcu (s : State) (p : Port) (u : Pcu) : (s.setPcu p u).retirementsTotal = s.retirementsTotal := rfl
@[simp] theorem State.mem_setPcu (s : State) (p : Port) (u : Pcu) : (s.setPcu p u).mem = s.mem := rfl
@[simp] theorem State.flips_setPcu (s : State) (p : Port) (u : Pcu) : (s.setPcu p u).flips = s.flips := rfl
@[simp] theorem State.draw_setPcu (s : State) (p : Port) (u : Pcu) : (s.setPcu p u).draw = s.draw := rfl

@[simp] theorem State.pending_setLink (s : State) (p : Port) (l : Link) : (s.setLink p l).pending = s.pending := rfl
@[simp] theorem State.phase_setLink (s : State) (p : Port) (l : Link) : (s.setLink p l).phase = s.phase := rfl
@[simp] theorem State.layoutPort_setLink (s : State) (p : Port) (l : Link) : (s.setLink p l).layoutPort = s.layoutPort := rfl
@[simp] theorem State.msCount_setLink (s : State) (p : Port) (l : Link) : (s.setLink p l).msCount = s.msCount := rfl
@[simp] theorem State.usCount_setLink (s : State) (p : Port) (l : Link) : (s.setLink p l).usCount = s.usCount := rfl
@[simp] theorem State.sweepPointer_setLink (s : State) (p : Port) (l : Link) : (s.setLink p l).sweepPointer = s.sweepPointer := rfl
@[simp] theorem State.pcus_setLink (s : State) (p : Port) (l : Link) : (s.setLink p l).pcus = s.pcus := rfl
@[simp] theorem State.windows_setLink (s : State) (p : Port) (l : Link) : (s.setLink p l).windows = s.windows := rfl
@[simp] theorem State.masterKey_setLink (s : State) (p : Port) (l : Link) : (s.setLink p l).masterKey = s.masterKey := rfl
@[simp] theorem State.masterAttempts_setLink (s : State) (p : Port) (l : Link) : (s.setLink p l).masterAttempts = s.masterAttempts := rfl
@[simp] theorem State.frozen_setLink (s : State) (p : Port) (l : Link) : (s.setLink p l).frozen = s.frozen := rfl
@[simp] theorem State.rotation_setLink (s : State) (p : Port) (l : Link) : (s.setLink p l).rotation = s.rotation := rfl
@[simp] theorem State.scrubDue_setLink (s : State) (p : Port) (l : Link) : (s.setLink p l).scrubDue = s.scrubDue := rfl
@[simp] theorem State.postponed_setLink (s : State) (p : Port) (l : Link) : (s.setLink p l).postponed = s.postponed := rfl
@[simp] theorem State.inFlight_setLink (s : State) (p : Port) (l : Link) : (s.setLink p l).inFlight = s.inFlight := rfl
@[simp] theorem State.c0_setLink (s : State) (p : Port) (l : Link) : (s.setLink p l).c0 = s.c0 := rfl
@[simp] theorem State.c1_setLink (s : State) (p : Port) (l : Link) : (s.setLink p l).c1 = s.c1 := rfl
@[simp] theorem State.scrubEnabled_setLink (s : State) (p : Port) (l : Link) : (s.setLink p l).scrubEnabled = s.scrubEnabled := rfl
@[simp] theorem State.scrubInterval_setLink (s : State) (p : Port) (l : Link) : (s.setLink p l).scrubInterval = s.scrubInterval := rfl
@[simp] theorem State.scrubTimer_setLink (s : State) (p : Port) (l : Link) : (s.setLink p l).scrubTimer = s.scrubTimer := rfl
@[simp] theorem State.scrubPointer_setLink (s : State) (p : Port) (l : Link) : (s.setLink p l).scrubPointer = s.scrubPointer := rfl
@[simp] theorem State.poisoned_setLink (s : State) (p : Port) (l : Link) : (s.setLink p l).poisoned = s.poisoned := rfl
@[simp] theorem State.suspects_setLink (s : State) (p : Port) (l : Link) : (s.setLink p l).suspects = s.suspects := rfl
@[simp] theorem State.remap_setLink (s : State) (p : Port) (l : Link) : (s.setLink p l).remap = s.remap := rfl
@[simp] theorem State.spares_setLink (s : State) (p : Port) (l : Link) : (s.setLink p l).spares = s.spares := rfl
@[simp] theorem State.correctedTotal_setLink (s : State) (p : Port) (l : Link) : (s.setLink p l).correctedTotal = s.correctedTotal := rfl
@[simp] theorem State.retirementsTotal_setLink (s : State) (p : Port) (l : Link) : (s.setLink p l).retirementsTotal = s.retirementsTotal := rfl
@[simp] theorem State.mem_setLink (s : State) (p : Port) (l : Link) : (s.setLink p l).mem = s.mem := rfl
@[simp] theorem State.flips_setLink (s : State) (p : Port) (l : Link) : (s.setLink p l).flips = s.flips := rfl
@[simp] theorem State.draw_setLink (s : State) (p : Port) (l : Link) : (s.setLink p l).draw = s.draw := rfl

@[simp] theorem State.pending_setWindow (s : State) (i : Nat) (w : Option Window) : (s.setWindow i w).pending = s.pending := rfl
@[simp] theorem State.phase_setWindow (s : State) (i : Nat) (w : Option Window) : (s.setWindow i w).phase = s.phase := rfl
@[simp] theorem State.layoutPort_setWindow (s : State) (i : Nat) (w : Option Window) : (s.setWindow i w).layoutPort = s.layoutPort := rfl
@[simp] theorem State.msCount_setWindow (s : State) (i : Nat) (w : Option Window) : (s.setWindow i w).msCount = s.msCount := rfl
@[simp] theorem State.usCount_setWindow (s : State) (i : Nat) (w : Option Window) : (s.setWindow i w).usCount = s.usCount := rfl
@[simp] theorem State.sweepPointer_setWindow (s : State) (i : Nat) (w : Option Window) : (s.setWindow i w).sweepPointer = s.sweepPointer := rfl
@[simp] theorem State.links_setWindow (s : State) (i : Nat) (w : Option Window) : (s.setWindow i w).links = s.links := rfl
@[simp] theorem State.pcus_setWindow (s : State) (i : Nat) (w : Option Window) : (s.setWindow i w).pcus = s.pcus := rfl
@[simp] theorem State.masterKey_setWindow (s : State) (i : Nat) (w : Option Window) : (s.setWindow i w).masterKey = s.masterKey := rfl
@[simp] theorem State.masterAttempts_setWindow (s : State) (i : Nat) (w : Option Window) : (s.setWindow i w).masterAttempts = s.masterAttempts := rfl
@[simp] theorem State.frozen_setWindow (s : State) (i : Nat) (w : Option Window) : (s.setWindow i w).frozen = s.frozen := rfl
@[simp] theorem State.rotation_setWindow (s : State) (i : Nat) (w : Option Window) : (s.setWindow i w).rotation = s.rotation := rfl
@[simp] theorem State.scrubDue_setWindow (s : State) (i : Nat) (w : Option Window) : (s.setWindow i w).scrubDue = s.scrubDue := rfl
@[simp] theorem State.postponed_setWindow (s : State) (i : Nat) (w : Option Window) : (s.setWindow i w).postponed = s.postponed := rfl
@[simp] theorem State.inFlight_setWindow (s : State) (i : Nat) (w : Option Window) : (s.setWindow i w).inFlight = s.inFlight := rfl
@[simp] theorem State.c0_setWindow (s : State) (i : Nat) (w : Option Window) : (s.setWindow i w).c0 = s.c0 := rfl
@[simp] theorem State.c1_setWindow (s : State) (i : Nat) (w : Option Window) : (s.setWindow i w).c1 = s.c1 := rfl
@[simp] theorem State.scrubEnabled_setWindow (s : State) (i : Nat) (w : Option Window) : (s.setWindow i w).scrubEnabled = s.scrubEnabled := rfl
@[simp] theorem State.scrubInterval_setWindow (s : State) (i : Nat) (w : Option Window) : (s.setWindow i w).scrubInterval = s.scrubInterval := rfl
@[simp] theorem State.scrubTimer_setWindow (s : State) (i : Nat) (w : Option Window) : (s.setWindow i w).scrubTimer = s.scrubTimer := rfl
@[simp] theorem State.scrubPointer_setWindow (s : State) (i : Nat) (w : Option Window) : (s.setWindow i w).scrubPointer = s.scrubPointer := rfl
@[simp] theorem State.poisoned_setWindow (s : State) (i : Nat) (w : Option Window) : (s.setWindow i w).poisoned = s.poisoned := rfl
@[simp] theorem State.suspects_setWindow (s : State) (i : Nat) (w : Option Window) : (s.setWindow i w).suspects = s.suspects := rfl
@[simp] theorem State.remap_setWindow (s : State) (i : Nat) (w : Option Window) : (s.setWindow i w).remap = s.remap := rfl
@[simp] theorem State.spares_setWindow (s : State) (i : Nat) (w : Option Window) : (s.setWindow i w).spares = s.spares := rfl
@[simp] theorem State.correctedTotal_setWindow (s : State) (i : Nat) (w : Option Window) : (s.setWindow i w).correctedTotal = s.correctedTotal := rfl
@[simp] theorem State.retirementsTotal_setWindow (s : State) (i : Nat) (w : Option Window) : (s.setWindow i w).retirementsTotal = s.retirementsTotal := rfl
@[simp] theorem State.mem_setWindow (s : State) (i : Nat) (w : Option Window) : (s.setWindow i w).mem = s.mem := rfl
@[simp] theorem State.flips_setWindow (s : State) (i : Nat) (w : Option Window) : (s.setWindow i w).flips = s.flips := rfl
@[simp] theorem State.draw_setWindow (s : State) (i : Nat) (w : Option Window) : (s.setWindow i w).draw = s.draw := rfl

@[simp] theorem State.pending_setJob (s : State) (c : Channel) (j : Option Job) : (s.setJob c j).pending = s.pending := by cases c <;> rfl
@[simp] theorem State.phase_setJob (s : State) (c : Channel) (j : Option Job) : (s.setJob c j).phase = s.phase := by cases c <;> rfl
@[simp] theorem State.layoutPort_setJob (s : State) (c : Channel) (j : Option Job) : (s.setJob c j).layoutPort = s.layoutPort := by cases c <;> rfl
@[simp] theorem State.msCount_setJob (s : State) (c : Channel) (j : Option Job) : (s.setJob c j).msCount = s.msCount := by cases c <;> rfl
@[simp] theorem State.usCount_setJob (s : State) (c : Channel) (j : Option Job) : (s.setJob c j).usCount = s.usCount := by cases c <;> rfl
@[simp] theorem State.sweepPointer_setJob (s : State) (c : Channel) (j : Option Job) : (s.setJob c j).sweepPointer = s.sweepPointer := by cases c <;> rfl
@[simp] theorem State.links_setJob (s : State) (c : Channel) (j : Option Job) : (s.setJob c j).links = s.links := by cases c <;> rfl
@[simp] theorem State.pcus_setJob (s : State) (c : Channel) (j : Option Job) : (s.setJob c j).pcus = s.pcus := by cases c <;> rfl
@[simp] theorem State.windows_setJob (s : State) (c : Channel) (j : Option Job) : (s.setJob c j).windows = s.windows := by cases c <;> rfl
@[simp] theorem State.masterKey_setJob (s : State) (c : Channel) (j : Option Job) : (s.setJob c j).masterKey = s.masterKey := by cases c <;> rfl
@[simp] theorem State.masterAttempts_setJob (s : State) (c : Channel) (j : Option Job) : (s.setJob c j).masterAttempts = s.masterAttempts := by cases c <;> rfl
@[simp] theorem State.frozen_setJob (s : State) (c : Channel) (j : Option Job) : (s.setJob c j).frozen = s.frozen := by cases c <;> rfl
@[simp] theorem State.rotation_setJob (s : State) (c : Channel) (j : Option Job) : (s.setJob c j).rotation = s.rotation := by cases c <;> rfl
@[simp] theorem State.scrubDue_setJob (s : State) (c : Channel) (j : Option Job) : (s.setJob c j).scrubDue = s.scrubDue := by cases c <;> rfl
@[simp] theorem State.postponed_setJob (s : State) (c : Channel) (j : Option Job) : (s.setJob c j).postponed = s.postponed := by cases c <;> rfl
@[simp] theorem State.inFlight_setJob (s : State) (c : Channel) (j : Option Job) : (s.setJob c j).inFlight = s.inFlight := by cases c <;> rfl
@[simp] theorem State.scrubEnabled_setJob (s : State) (c : Channel) (j : Option Job) : (s.setJob c j).scrubEnabled = s.scrubEnabled := by cases c <;> rfl
@[simp] theorem State.scrubInterval_setJob (s : State) (c : Channel) (j : Option Job) : (s.setJob c j).scrubInterval = s.scrubInterval := by cases c <;> rfl
@[simp] theorem State.scrubTimer_setJob (s : State) (c : Channel) (j : Option Job) : (s.setJob c j).scrubTimer = s.scrubTimer := by cases c <;> rfl
@[simp] theorem State.scrubPointer_setJob (s : State) (c : Channel) (j : Option Job) : (s.setJob c j).scrubPointer = s.scrubPointer := by cases c <;> rfl
@[simp] theorem State.poisoned_setJob (s : State) (c : Channel) (j : Option Job) : (s.setJob c j).poisoned = s.poisoned := by cases c <;> rfl
@[simp] theorem State.suspects_setJob (s : State) (c : Channel) (j : Option Job) : (s.setJob c j).suspects = s.suspects := by cases c <;> rfl
@[simp] theorem State.remap_setJob (s : State) (c : Channel) (j : Option Job) : (s.setJob c j).remap = s.remap := by cases c <;> rfl
@[simp] theorem State.spares_setJob (s : State) (c : Channel) (j : Option Job) : (s.setJob c j).spares = s.spares := by cases c <;> rfl
@[simp] theorem State.correctedTotal_setJob (s : State) (c : Channel) (j : Option Job) : (s.setJob c j).correctedTotal = s.correctedTotal := by cases c <;> rfl
@[simp] theorem State.retirementsTotal_setJob (s : State) (c : Channel) (j : Option Job) : (s.setJob c j).retirementsTotal = s.retirementsTotal := by cases c <;> rfl
@[simp] theorem State.mem_setJob (s : State) (c : Channel) (j : Option Job) : (s.setJob c j).mem = s.mem := by cases c <;> rfl
@[simp] theorem State.flips_setJob (s : State) (c : Channel) (j : Option Job) : (s.setJob c j).flips = s.flips := by cases c <;> rfl
@[simp] theorem State.draw_setJob (s : State) (c : Channel) (j : Option Job) : (s.setJob c j).draw = s.draw := by cases c <;> rfl

@[simp] theorem State.pending_writeLine (s : State) (phys : Nat) (bytes : List Byte) : (s.writeLine phys bytes).pending = s.pending := rfl
@[simp] theorem State.phase_writeLine (s : State) (phys : Nat) (bytes : List Byte) : (s.writeLine phys bytes).phase = s.phase := rfl
@[simp] theorem State.layoutPort_writeLine (s : State) (phys : Nat) (bytes : List Byte) : (s.writeLine phys bytes).layoutPort = s.layoutPort := rfl
@[simp] theorem State.msCount_writeLine (s : State) (phys : Nat) (bytes : List Byte) : (s.writeLine phys bytes).msCount = s.msCount := rfl
@[simp] theorem State.usCount_writeLine (s : State) (phys : Nat) (bytes : List Byte) : (s.writeLine phys bytes).usCount = s.usCount := rfl
@[simp] theorem State.sweepPointer_writeLine (s : State) (phys : Nat) (bytes : List Byte) : (s.writeLine phys bytes).sweepPointer = s.sweepPointer := rfl
@[simp] theorem State.links_writeLine (s : State) (phys : Nat) (bytes : List Byte) : (s.writeLine phys bytes).links = s.links := rfl
@[simp] theorem State.pcus_writeLine (s : State) (phys : Nat) (bytes : List Byte) : (s.writeLine phys bytes).pcus = s.pcus := rfl
@[simp] theorem State.windows_writeLine (s : State) (phys : Nat) (bytes : List Byte) : (s.writeLine phys bytes).windows = s.windows := rfl
@[simp] theorem State.masterKey_writeLine (s : State) (phys : Nat) (bytes : List Byte) : (s.writeLine phys bytes).masterKey = s.masterKey := rfl
@[simp] theorem State.masterAttempts_writeLine (s : State) (phys : Nat) (bytes : List Byte) : (s.writeLine phys bytes).masterAttempts = s.masterAttempts := rfl
@[simp] theorem State.frozen_writeLine (s : State) (phys : Nat) (bytes : List Byte) : (s.writeLine phys bytes).frozen = s.frozen := rfl
@[simp] theorem State.rotation_writeLine (s : State) (phys : Nat) (bytes : List Byte) : (s.writeLine phys bytes).rotation = s.rotation := rfl
@[simp] theorem State.scrubDue_writeLine (s : State) (phys : Nat) (bytes : List Byte) : (s.writeLine phys bytes).scrubDue = s.scrubDue := rfl
@[simp] theorem State.postponed_writeLine (s : State) (phys : Nat) (bytes : List Byte) : (s.writeLine phys bytes).postponed = s.postponed := rfl
@[simp] theorem State.inFlight_writeLine (s : State) (phys : Nat) (bytes : List Byte) : (s.writeLine phys bytes).inFlight = s.inFlight := rfl
@[simp] theorem State.c0_writeLine (s : State) (phys : Nat) (bytes : List Byte) : (s.writeLine phys bytes).c0 = s.c0 := rfl
@[simp] theorem State.c1_writeLine (s : State) (phys : Nat) (bytes : List Byte) : (s.writeLine phys bytes).c1 = s.c1 := rfl
@[simp] theorem State.scrubEnabled_writeLine (s : State) (phys : Nat) (bytes : List Byte) : (s.writeLine phys bytes).scrubEnabled = s.scrubEnabled := rfl
@[simp] theorem State.scrubInterval_writeLine (s : State) (phys : Nat) (bytes : List Byte) : (s.writeLine phys bytes).scrubInterval = s.scrubInterval := rfl
@[simp] theorem State.scrubTimer_writeLine (s : State) (phys : Nat) (bytes : List Byte) : (s.writeLine phys bytes).scrubTimer = s.scrubTimer := rfl
@[simp] theorem State.scrubPointer_writeLine (s : State) (phys : Nat) (bytes : List Byte) : (s.writeLine phys bytes).scrubPointer = s.scrubPointer := rfl
@[simp] theorem State.poisoned_writeLine (s : State) (phys : Nat) (bytes : List Byte) : (s.writeLine phys bytes).poisoned = s.poisoned := rfl
@[simp] theorem State.suspects_writeLine (s : State) (phys : Nat) (bytes : List Byte) : (s.writeLine phys bytes).suspects = s.suspects := rfl
@[simp] theorem State.remap_writeLine (s : State) (phys : Nat) (bytes : List Byte) : (s.writeLine phys bytes).remap = s.remap := rfl
@[simp] theorem State.spares_writeLine (s : State) (phys : Nat) (bytes : List Byte) : (s.writeLine phys bytes).spares = s.spares := rfl
@[simp] theorem State.correctedTotal_writeLine (s : State) (phys : Nat) (bytes : List Byte) : (s.writeLine phys bytes).correctedTotal = s.correctedTotal := rfl
@[simp] theorem State.retirementsTotal_writeLine (s : State) (phys : Nat) (bytes : List Byte) : (s.writeLine phys bytes).retirementsTotal = s.retirementsTotal := rfl
@[simp] theorem State.draw_writeLine (s : State) (phys : Nat) (bytes : List Byte) : (s.writeLine phys bytes).draw = s.draw := rfl

/-! ### The records that an update leaves and gives -/

@[simp] theorem State.pcu_setPcu_same (s : State) (p : Port) (u : Pcu) : (s.setPcu p u).pcu p = u := by
  simp [State.pcu, State.setPcu]

theorem State.pcu_setPcu (s : State) (p q : Port) (u : Pcu) :
    (s.setPcu p u).pcu q = if q = p then u else s.pcu q := by
  simp [State.pcu, State.setPcu, PerPort.get_set]

theorem State.pcu_setPcu_ne (s : State) {p q : Port} (u : Pcu) (h : q ≠ p) :
    (s.setPcu p u).pcu q = s.pcu q := by rw [State.pcu_setPcu, if_neg h]

@[simp] theorem State.setPcu_setPcu (s : State) (p : Port) (u v : Pcu) :
    (s.setPcu p u).setPcu p v = s.setPcu p v := by simp [State.setPcu]

@[simp] theorem State.setPcu_pcu (s : State) (p : Port) : s.setPcu p (s.pcu p) = s := by
  simp [State.setPcu, State.pcu]

@[simp] theorem State.pcu_setLink (s : State) (p q : Port) (l : Link) :
    (s.setLink p l).pcu q = s.pcu q := rfl

@[simp] theorem State.pcu_setWindow (s : State) (i : Nat) (w : Option Window) (q : Port) :
    (s.setWindow i w).pcu q = s.pcu q := rfl

@[simp] theorem State.pcu_setJob (s : State) (c : Channel) (j : Option Job) (q : Port) :
    (s.setJob c j).pcu q = s.pcu q := by cases c <;> rfl

@[simp] theorem State.pcu_writeLine (s : State) (phys : Nat) (bytes : List Byte) (q : Port) :
    (s.writeLine phys bytes).pcu q = s.pcu q := rfl

@[simp] theorem State.link_setLink_same (s : State) (p : Port) (l : Link) :
    (s.setLink p l).link p = l := by simp [State.link, State.setLink]

theorem State.link_setLink (s : State) (p q : Port) (l : Link) :
    (s.setLink p l).link q = if q = p then l else s.link q := by
  simp [State.link, State.setLink, PerPort.get_set]

theorem State.link_setLink_ne (s : State) {p q : Port} (l : Link) (h : q ≠ p) :
    (s.setLink p l).link q = s.link q := by rw [State.link_setLink, if_neg h]

@[simp] theorem State.setLink_setLink (s : State) (p : Port) (k l : Link) :
    (s.setLink p k).setLink p l = s.setLink p l := by simp [State.setLink]

@[simp] theorem State.link_setPcu (s : State) (p q : Port) (u : Pcu) :
    (s.setPcu p u).link q = s.link q := rfl

@[simp] theorem State.link_setWindow (s : State) (i : Nat) (w : Option Window) (q : Port) :
    (s.setWindow i w).link q = s.link q := rfl

@[simp] theorem State.link_setJob (s : State) (c : Channel) (j : Option Job) (q : Port) :
    (s.setJob c j).link q = s.link q := by cases c <;> rfl

@[simp] theorem State.link_writeLine (s : State) (phys : Nat) (bytes : List Byte) (q : Port) :
    (s.writeLine phys bytes).link q = s.link q := rfl

theorem State.window?_eq_some_lt {s : State} {i : Nat} {w : Window} (h : s.window? i = some w) :
    i < 32 := by
  unfold State.window? at h
  by_contra hlt
  rw [Vector.getElem?_eq_none (by omega)] at h
  simp at h

theorem State.window?_setWindow (s : State) (i j : Nat) (w : Option Window) :
    (s.setWindow i w).window? j = if j = i ∧ i < 32 then w else s.window? j := by
  unfold State.window? State.setWindow
  by_cases hi : i < 32
  · by_cases hj : j = i
    · subst hj
      simp [hi]
    · rw [Vector.getElem?_setIfInBounds]
      simp [hj, Ne.symm hj]
  · rw [Vector.getElem?_setIfInBounds]
    by_cases hj : i = j
    · subst hj
      simp [hi]
    · simp [hi, hj]

theorem State.window?_setWindow_same {s : State} {i : Nat} (w : Option Window) (h : i < 32) :
    (s.setWindow i w).window? i = w := by rw [State.window?_setWindow, if_pos ⟨rfl, h⟩]

theorem State.window?_setWindow_ne (s : State) {i j : Nat} (w : Option Window) (h : j ≠ i) :
    (s.setWindow i w).window? j = s.window? j := by
  rw [State.window?_setWindow, if_neg (fun e => h e.1)]

theorem State.setWindow_setWindow (s : State) (i : Nat) (v w : Option Window) :
    (s.setWindow i v).setWindow i w = s.setWindow i w := by
  unfold State.setWindow
  congr 1
  ext j hj
  simp only [Vector.getElem_setIfInBounds]
  split <;> rfl

theorem State.setWindow_out {s : State} {i : Nat} (w : Option Window) (h : 32 ≤ i) :
    s.setWindow i w = s := by
  unfold State.setWindow
  rw [Vector.setIfInBounds_eq_of_size_le h]

@[simp] theorem State.window?_setPcu (s : State) (p : Port) (u : Pcu) (i : Nat) :
    (s.setPcu p u).window? i = s.window? i := rfl

@[simp] theorem State.window?_setLink (s : State) (p : Port) (l : Link) (i : Nat) :
    (s.setLink p l).window? i = s.window? i := rfl

@[simp] theorem State.window?_setJob (s : State) (c : Channel) (j : Option Job) (i : Nat) :
    (s.setJob c j).window? i = s.window? i := by cases c <;> rfl

@[simp] theorem State.window?_writeLine (s : State) (phys : Nat) (bytes : List Byte) (i : Nat) :
    (s.writeLine phys bytes).window? i = s.window? i := rfl

@[simp] theorem State.job_setJob_same (s : State) (c : Channel) (j : Option Job) :
    (s.setJob c j).job c = j := by cases c <;> rfl

theorem State.job_setJob (s : State) (c d : Channel) (j : Option Job) :
    (s.setJob c j).job d = if d = c then j else s.job d := by cases c <;> cases d <;> rfl

@[simp] theorem State.job_setPcu (s : State) (p : Port) (u : Pcu) (c : Channel) :
    (s.setPcu p u).job c = s.job c := by cases c <;> rfl

@[simp] theorem State.job_setLink (s : State) (p : Port) (l : Link) (c : Channel) :
    (s.setLink p l).job c = s.job c := by cases c <;> rfl

@[simp] theorem State.job_setWindow (s : State) (i : Nat) (w : Option Window) (c : Channel) :
    (s.setWindow i w).job c = s.job c := by cases c <;> rfl

@[simp] theorem State.job_writeLine (s : State) (phys : Nat) (bytes : List Byte) (c : Channel) :
    (s.writeLine phys bytes).job c = s.job c := by cases c <;> rfl

/-! ### Updates of different records commute -/

theorem State.setPcu_setWindow (s : State) (p : Port) (u : Pcu) (i : Nat) (w : Option Window) :
    (s.setPcu p u).setWindow i w = (s.setWindow i w).setPcu p u := rfl

theorem State.setPcu_setLink (s : State) (p : Port) (u : Pcu) (q : Port) (l : Link) :
    (s.setPcu p u).setLink q l = (s.setLink q l).setPcu p u := rfl

theorem State.setPcu_setJob (s : State) (p : Port) (u : Pcu) (c : Channel) (j : Option Job) :
    (s.setPcu p u).setJob c j = (s.setJob c j).setPcu p u := by cases c <;> rfl

end Sys2Proof.Machine
end

