-- ==== Sys2Proof/Laws/Memory.lean ====
section
/-! SUPPORT. The array's bytes: a write keeps the canonical form, and a read gives what was written. -/

namespace Sys2Proof.Machine

/-- The canonical form of a listed byte followed by others. -/
theorem Memory.wf_cons {a : Nat} {b : Byte} {m : List Host.Cell} :
    Memory.wf ((a, b) :: m) = true ↔
      b ≠ Memory.unlisted ∧ (∀ c ∈ m, a < c.1) ∧ Memory.wf m = true := by
  simp [Memory.wf, and_assoc]

/-- Every address that a write lists is a listed one or the written one. -/
theorem Memory.mem_write {m : List Host.Cell} {x : Nat} {v : Byte} {c : Host.Cell}
    (h : c ∈ Memory.write m x v) : c ∈ m ∨ c = (x, v) := by
  induction m with
  | nil =>
    simp only [Memory.write] at h
    split at h <;> simp_all
  | cons ab m ih =>
    obtain ⟨a, b⟩ := ab
    simp only [Memory.write] at h
    split at h
    · split at h
      · exact .inl h
      · rcases List.mem_cons.1 h with h | h
        · exact .inr h
        · exact .inl h
    · split at h
      · split at h
        · exact .inl (List.mem_cons_of_mem _ h)
        · rcases List.mem_cons.1 h with h | h
          · exact .inr h
          · exact .inl (List.mem_cons_of_mem _ h)
      · rcases List.mem_cons.1 h with h | h
        · exact .inl (h ▸ List.mem_cons_self)
        · rcases ih h with h | h
          · exact .inl (List.mem_cons_of_mem _ h)
          · exact .inr h

/-- A write of one byte keeps the canonical form. -/
theorem Memory.wf_write {m : List Host.Cell} (hm : Memory.wf m = true) (x : Nat) (v : Byte) :
    Memory.wf (Memory.write m x v) = true := by
  induction m with
  | nil =>
    simp only [Memory.write]
    split
    · rfl
    · rename_i hv
      exact Memory.wf_cons.2 ⟨hv, by simp, rfl⟩
  | cons ab m ih =>
    obtain ⟨a, b⟩ := ab
    obtain ⟨hb, hall, hw⟩ := Memory.wf_cons.1 hm
    simp only [Memory.write]
    split
    · rename_i hlt
      split
      · exact hm
      · rename_i hv
        refine Memory.wf_cons.2 ⟨hv, ?_, hm⟩
        intro c hc
        rcases List.mem_cons.1 hc with rfl | hc
        · exact hlt
        · exact lt_trans hlt (hall c hc)
    · split
      · rename_i hge heq
        split
        · exact hw
        · rename_i hv
          exact Memory.wf_cons.2 ⟨hv, fun c hc => heq ▸ hall c hc, hw⟩
      · rename_i hge hne
        refine Memory.wf_cons.2 ⟨hb, ?_, ih hw⟩
        intro c hc
        rcases Memory.mem_write hc with hc | rfl
        · exact hall c hc
        · change a < x
          omega

/-- An address below every listed one reads as an unlisted byte. -/
theorem Memory.read_below {m : List Host.Cell} {x : Nat} (h : ∀ c ∈ m, x < c.1) :
    Memory.read m x = Memory.unlisted := by
  induction m with
  | nil => rfl
  | cons ab m ih =>
    obtain ⟨a, b⟩ := ab
    have ha : x < a := h (a, b) List.mem_cons_self
    simp only [Memory.read]
    rw [if_neg (by omega)]
    exact ih (fun c hc => h c (List.mem_cons_of_mem _ hc))

/-- A read after a write of one byte. -/
theorem Memory.read_write {m : List Host.Cell} (hm : Memory.wf m = true) (x y : Nat) (v : Byte) :
    Memory.read (Memory.write m x v) y = if y = x then v else Memory.read m y := by
  induction m with
  | nil =>
    simp only [Memory.write]
    split
    · rename_i hv
      simp [Memory.read, hv]
    · simp only [Memory.read]
      by_cases h : y = x
      · simp [h]
      · simp [h, Ne.symm h]
  | cons ab m ih =>
    obtain ⟨a, b⟩ := ab
    obtain ⟨hb, hall, hw⟩ := Memory.wf_cons.1 hm
    simp only [Memory.write]
    split
    · rename_i hlt
      split
      · rename_i hv
        by_cases h : y = x
        · subst h
          rw [if_pos rfl, hv]
          refine Memory.read_below (fun c hc => ?_)
          rcases List.mem_cons.1 hc with rfl | hc
          · exact hlt
          · exact lt_trans hlt (hall c hc)
        · rw [if_neg h]
      · by_cases h : y = x
        · simp [Memory.read, h]
        · simp [Memory.read, h, Ne.symm h]
    · split
      · rename_i hge heq
        subst heq
        split
        · rename_i hv
          by_cases h : y = x
          · subst h
            rw [if_pos rfl, hv]
            exact Memory.read_below hall
          · simp [Memory.read, h, Ne.symm h]
        · by_cases h : y = x
          · simp [Memory.read, h]
          · simp [Memory.read, h, Ne.symm h]
      · rename_i hge hne
        simp only [Memory.read]
        by_cases h : a = y
        · have hyx : y ≠ x := by omega
          simp [h, hyx]
        · simp [h, ih hw]

/-- A write of consecutive bytes keeps the canonical form. -/
theorem Memory.wf_writeBytes {m : List Host.Cell} (hm : Memory.wf m = true) (a : Nat)
    (bs : List Byte) : Memory.wf (Memory.writeBytes m a bs) = true := by
  induction bs generalizing m a with
  | nil => exact hm
  | cons b bs ih => exact ih (Memory.wf_write hm a b) (a + 1)

/-- A read after a write of consecutive bytes. -/
theorem Memory.read_writeBytes {m : List Host.Cell} (hm : Memory.wf m = true) (a y : Nat)
    (bs : List Byte) :
    Memory.read (Memory.writeBytes m a bs) y =
      if a ≤ y ∧ y < a + bs.length then bs.getD (y - a) 0#8 else Memory.read m y := by
  induction bs generalizing m a with
  | nil =>
    simp only [Memory.writeBytes, List.length_nil]
    rw [if_neg (by omega)]
  | cons b bs ih =>
    simp only [Memory.writeBytes, List.length_cons]
    rw [ih (Memory.wf_write hm a b), Memory.read_write hm]
    by_cases h : y = a
    · subst h
      rw [if_neg (by omega), if_pos rfl, if_pos (by omega)]
      simp
    · rw [if_neg h]
      by_cases h' : a + 1 ≤ y ∧ y < a + 1 + bs.length
      · rw [if_pos h', if_pos (by omega)]
        have : y - a = (y - (a + 1)) + 1 := by omega
        rw [this]
        simp
      · rw [if_neg h', if_neg (by omega)]

/-- A canonical memory is determined by what its addresses read as: equal memories are equal data. -/
theorem Memory.ext {m n : List Host.Cell} (hm : Memory.wf m = true) (hn : Memory.wf n = true)
    (h : ∀ a, Memory.read m a = Memory.read n a) : m = n := by
  induction m generalizing n with
  | nil =>
    cases n with
    | nil => rfl
    | cons c n =>
      obtain ⟨a, b⟩ := c
      obtain ⟨hb, -, -⟩ := Memory.wf_cons.1 hn
      have := h a
      simp only [Memory.read, if_true] at this
      exact absurd this.symm hb
  | cons c m ih =>
    obtain ⟨a, b⟩ := c
    obtain ⟨hb, hall, hw⟩ := Memory.wf_cons.1 hm
    cases n with
    | nil =>
      have := h a
      simp only [Memory.read, if_true] at this
      exact absurd this hb
    | cons d n =>
      obtain ⟨a', b'⟩ := d
      obtain ⟨hb', hall', hw'⟩ := Memory.wf_cons.1 hn
      have haa : a = a' := by
        rcases lt_trichotomy a a' with hlt | heq | hgt
        · have := h a
          have hr : Memory.read ((a', b') :: n) a = Memory.unlisted :=
            Memory.read_below (fun c hc => by
              rcases List.mem_cons.1 hc with rfl | hc
              · exact hlt
              · exact lt_trans hlt (hall' c hc))
          rw [hr] at this
          simp only [Memory.read, if_true] at this
          exact absurd this hb
        · exact heq
        · have := h a'
          have hr : Memory.read ((a, b) :: m) a' = Memory.unlisted :=
            Memory.read_below (fun c hc => by
              rcases List.mem_cons.1 hc with rfl | hc
              · exact hgt
              · exact lt_trans hgt (hall c hc))
          rw [hr] at this
          simp only [Memory.read, if_true] at this
          exact absurd this.symm hb'
      subst haa
      have hbb : b = b' := by simpa [Memory.read] using h a
      subst hbb
      congr 1
      refine ih hw hw' (fun x => ?_)
      by_cases hx : a = x
      · subst hx
        rw [Memory.read_below hall, Memory.read_below hall']
      · have := h x
        simpa [Memory.read, hx] using this

/-- A write of a whole physical line keeps the canonical form. -/
theorem State.wf_writeLine {s : State} (h : Memory.wf s.mem = true) (phys : Nat) (bytes : List Byte) :
    Memory.wf (s.writeLine phys bytes).mem = true := Memory.wf_writeBytes h _ _

/-- What a byte reads as after a write of a whole physical line. -/
theorem State.read_writeLine {s : State} (h : Memory.wf s.mem = true) (phys a : Nat)
    (bytes : List Byte) :
    Memory.read (s.writeLine phys bytes).mem a =
      if 64 * phys ≤ a ∧ a < 64 * phys + bytes.length then bytes.getD (a - 64 * phys) 0#8
      else Memory.read s.mem a := Memory.read_writeBytes h _ _ _

end Sys2Proof.Machine
end

