-- ==== Sys2Proof/Laws/Array.lean ====
section
/-! SUPPORT. The array under the writes of the engine: what a write of a whole line leaves in every
byte, and which fields it leaves alone. -/

namespace Sys2Proof.Machine

/-- Zeros read as zero at every position. -/
theorem getD_replicate_zero (n k : Nat) : (List.replicate n 0#8).getD k 0#8 = 0#8 := by
  rw [List.getD_eq_getElem?_getD, List.getElem?_replicate]
  split <;> rfl

/-- A write of a line that was not read, as an update of three fields. -/
theorem State.overwriteLine_eq (s : State) (r : LineRef) (bytes : List Byte) :
    s.overwriteLine r bytes =
      { s with
        mem := Memory.writeBytes s.mem (64 * r.phys) bytes
        flips := s.flips.filter (fun f => f.phys != r.phys)
        poisoned := s.poisoned.filter (fun l => l != r.line) } := rfl

/-- What a byte reads as after a write of a whole line. -/
theorem State.read_overwriteLine {s : State} (h : Memory.wf s.mem = true) (r : LineRef)
    (bytes : List Byte) (a : Nat) :
    Memory.read (s.overwriteLine r bytes).mem a =
      if 64 * r.phys ≤ a ∧ a < 64 * r.phys + bytes.length then bytes.getD (a - 64 * r.phys) 0#8
      else Memory.read s.mem a := Memory.read_writeBytes h _ _ _

/-- What a byte reads as after a line was written with zeros. -/
theorem State.read_overwriteLine_zeros {s : State} (h : Memory.wf s.mem = true) (r : LineRef)
    (a : Nat) :
    Memory.read (s.overwriteLine r (List.replicate 64 0#8)).mem a =
      if 64 * r.phys ≤ a ∧ a < 64 * r.phys + 64 then 0#8 else Memory.read s.mem a := by
  rw [State.read_overwriteLine h, List.length_replicate]
  split
  · exact getD_replicate_zero _ _
  · rfl

end Sys2Proof.Machine
end

