-- ==== Sys2Proof/Laws/Taking.lean ====
section
/-! SUPPORT. Takings: what a PCU that takes a command does before and after the command's own effect,
and the ordered checks as verdicts. -/

namespace Sys2Proof.Machine

/-! ### When a command is taken -/

/-- The PCU that takes a command is one whose head is takeable. -/
theorem State.takes_takeable {s : State} {p : Port} {tag : Byte} {c : Command} {rest : List Entry}
    (h : s.takes p tag c rest) : (s.pcu p).takeable = true := by
  obtain ⟨h1, h2, h3⟩ := h
  simp [Pcu.takeable, h1, h2, h3]

/-- The command that is taken is the one at the head. -/
theorem State.dueHead_of_takes {s : State} {p : Port} {tag : Byte} {c : Command} {rest : List Entry}
    (h : s.takes p tag c rest) : s.dueHead p = some ⟨tag, c, false⟩ := by
  simp [State.dueHead, State.takes_takeable h, h.2.1]

/-- A takeable head is a command that the PCU takes. -/
theorem State.takes_of_takeable {s : State} {p : Port} (h : (s.pcu p).takeable = true) :
    ∃ tag c rest, s.takes p tag c rest := by
  unfold Pcu.takeable at h
  cases hq : (s.pcu p).queue with
  | nil => simp [hq] at h
  | cons e rest =>
    obtain ⟨tag, c, k⟩ := e
    simp [hq] at h
    obtain ⟨⟨h1, h2⟩, h3⟩ := h
    exact ⟨tag, c, rest, h1, by simp [hq, h2], h3⟩

/-- A PCU takes a command exactly when its head is takeable. -/
theorem State.takeable_iff {s : State} {p : Port} :
    (s.pcu p).takeable = true ↔ ∃ tag c rest, s.takes p tag c rest :=
  ⟨State.takes_of_takeable, fun ⟨_, _, _, h⟩ => State.takes_takeable h⟩

/-! ### What a taking leaves in the PCU -/

/-- The completion of a command in the event of its taking fills the reservation that the taking
made. -/
theorem State.finish_beginTake (s : State) (p : Port) (tag : Byte) (k : CommandKind)
    (o : OutcomeCode) : (s.beginTake p).finish p tag k o = s.answers p tag k o := by
  simp [State.finish, State.beginTake, State.answers, Pcu.popHead, Pcu.complete, State.setPcu,
    State.pcu]

/-- The same where the effect between taking and completion leaves the PCU alone. -/
theorem State.finish_of_pcus {s t : State} {p : Port} (h : t.pcus = (s.beginTake p).pcus)
    (tag : Byte) (k : CommandKind) (o : OutcomeCode) :
    t.finish p tag k o = State.answers { t with pcus := s.pcus } p tag k o := by
  obtain ⟨⟩ := t
  simp only at h
  subst h
  simp [State.finish, State.beginTake, State.answers, Pcu.popHead, Pcu.complete, State.setPcu,
    State.pcu]

/-- A command that leaves the queue at its taking, its completion still to come. -/
theorem State.leaveQueue_of_pcus {s t : State} {p : Port} (h : t.pcus = (s.beginTake p).pcus) :
    t.leaveQueue p = State.handsOver { t with pcus := s.pcus } p := by
  obtain ⟨⟩ := t
  simp only at h
  subst h
  simp [State.leaveQueue, State.beginTake, State.handsOver, Pcu.popHead, State.setPcu, State.pcu]

/-- A command that changes one window record and finishes at its taking. -/
theorem State.finish_beginTake_setWindow (s : State) (p : Port) (i : Nat) (w : Option Window)
    (tag : Byte) (k : CommandKind) (o : OutcomeCode) :
    ((s.beginTake p).setWindow i w).finish p tag k o = (s.setWindow i w).answers p tag k o :=
  State.finish_of_pcus (t := (s.beginTake p).setWindow i w) rfl tag k o

/-- A command that changes one window record and leaves the queue at its taking. -/
theorem State.leaveQueue_beginTake_setWindow (s : State) (p : Port) (i : Nat) (w : Option Window) :
    ((s.beginTake p).setWindow i w).leaveQueue p = (s.setWindow i w).handsOver p :=
  State.leaveQueue_of_pcus (t := (s.beginTake p).setWindow i w) rfl

/-! ### Ordered checks -/

/-- The verdict of checks given as truth values is the outcome computed. -/
theorem verdict_iff_firstFail {l : List (Bool × OutcomeCode)} {o : OutcomeCode} :
    Verdict (l.map (fun x => (x.1 = true, x.2))) o ↔ o = firstFail l := by
  induction l with
  | nil => exact Iff.rfl
  | cons x l ih =>
    obtain ⟨c, e⟩ := x
    cases c
    · simp only [List.map_cons, Verdict, firstFail]; simp
    · simp only [List.map_cons, Verdict, firstFail, ih]; simp

/-- The same check by check, each equivalence under the checks before it. -/
theorem Verdict.firstFail_cons {c : Prop} {e o : OutcomeCode} {rest : List (Prop × OutcomeCode)}
    {b : Bool} {brest : List (Bool × OutcomeCode)} (h : Verdict ((c, e) :: rest) o)
    (hb : c ↔ b = true) (hr : c → Verdict rest o → o = firstFail brest) :
    o = firstFail ((b, e) :: brest) := by
  rcases h with ⟨h1, h2⟩ | ⟨h1, h2⟩
  · have : b = false := by cases b <;> simp_all
    subst this
    exact h2
  · rw [hb.1 h1]
    exact hr h1 h2

/-- A command with ordered checks at its taking, where its effect leaves the PCUs alone. -/
theorem State.finishWith_beginTake {s e : State} {p : Port} {tag : Byte} {k : CommandKind}
    {o b : OutcomeCode} {effect : State} (ho : o = b) (he : e.pcus = (s.beginTake p).pcus)
    (hf : o = .ok → effect = { e with pcus := s.pcus }) :
    (s.beginTake p).finishWith p tag k b e = s.answersWith p tag k o effect := by
  subst ho
  unfold State.finishWith State.answersWith
  by_cases h : o = .ok
  · rw [if_pos h, if_pos h, State.finish_of_pcus he, hf h, h]
  · rw [if_neg h, if_neg h, State.finish_beginTake]

/-- Ordered checks always have an outcome. -/
theorem Verdict.total (l : List (Prop × OutcomeCode)) : ∃ o, Verdict l o := by
  induction l with
  | nil => exact ⟨.ok, rfl⟩
  | cons x l ih =>
    obtain ⟨o, ho⟩ := ih
    by_cases h : x.1
    · exact ⟨o, Or.inr ⟨h, ho⟩⟩
    · exact ⟨x.2, Or.inl ⟨h, rfl⟩⟩

theorem Verdict.pass {c : Prop} {e o : OutcomeCode} {l : List (Prop × OutcomeCode)} (h : c)
    (k : Verdict l o) : Verdict ((c, e) :: l) o := Or.inr ⟨h, k⟩

theorem Verdict.fail {c : Prop} {e : OutcomeCode} {l : List (Prop × OutcomeCode)} (h : ¬ c) :
    Verdict ((c, e) :: l) e := Or.inl ⟨h, rfl⟩

end Sys2Proof.Machine
end

