-- ==== Sys2Proof/Laws/Calm.lean ====
section
/-! SUPPORT. Calm changes: what the operations on claims, guards, completions and notices leave alone.
A calm change touches the windows and the PCUs only, makes no access, and keeps the notice queues
lawful. -/

namespace Sys2Proof.Machine

/-! ### Notices -/

/-- The law of one notice queue (R184). -/
def Pcu.NoticesOk (u : Pcu) : Prop :=
  u.notices.length ≤ 8 ∧ u.notices.Pairwise (fun m n => m.sameKey n = false)

theorem Notice.sameKey_comm (m n : Notice) : m.sameKey n = n.sameKey m := by
  cases m <;> cases n <;> simp [Notice.sameKey, Bool.beq_comm]

theorem Notice.sameKey_coalesced_left (m n : Notice) : m.coalesced.sameKey n = m.sameKey n := by
  cases m <;> cases n <;> rfl

theorem Notice.sameKey_coalesced_right (m n : Notice) : m.sameKey n.coalesced = m.sameKey n := by
  rw [Notice.sameKey_comm, Notice.sameKey_coalesced_left, Notice.sameKey_comm]

theorem Pcu.NoticesOk.removeNotice {u : Pcu} (h : u.NoticesOk) (n : Notice) :
    (u.removeNotice n).NoticesOk :=
  ⟨(List.length_filter_le _ _).trans h.1, h.2.filter _⟩

theorem Pcu.NoticesOk.store {u : Pcu} (h : u.NoticesOk) (n : Notice) : (u.store n).NoticesOk := by
  unfold Pcu.store
  split
  · refine ⟨by simpa using h.1, ?_⟩
    simp only
    rw [List.pairwise_map]
    refine h.2.imp ?_
    intro a b hab
    split <;> split <;> simpa [Notice.sameKey_coalesced_left, Notice.sameKey_coalesced_right] using hab
  · rename_i hn
    split
    · rename_i hl
      refine ⟨by simp only [List.length_append, List.length_singleton]; omega, ?_⟩
      simp only [List.any_eq_true, not_exists, not_and, Bool.not_eq_true] at hn
      rw [List.pairwise_append]
      refine ⟨h.2, List.pairwise_singleton _ _, ?_⟩
      intro a ha b hb
      rw [List.mem_singleton] at hb
      rw [hb, Notice.sameKey_comm]
      exact hn a ha
    · exact h

theorem Pcu.NoticesOk.post {u : Pcu} (h : u.NoticesOk) (n : Notice) : (u.post n).NoticesOk := by
  unfold Pcu.post
  split
  · refine Pcu.NoticesOk.store ?_ n
    cases n <;> first | exact h | exact h.removeNotice _
  · exact h

/-! ### Quiet changes of a PCU -/

/-- A change of a PCU that makes no access, lengthens no command queue and keeps the port state and the
teardown record. -/
structure Pcu.Quiet (u v : Pcu) : Prop where
  state : v.state = u.state
  access : v.access = u.access
  queue : v.queue.length ≤ u.queue.length
  accessAwaited : v.accessAwaited = u.accessAwaited
  jobsAwaited : v.jobsAwaited = u.jobsAwaited
  notices : u.NoticesOk → v.NoticesOk

theorem Pcu.Quiet.refl (u : Pcu) : u.Quiet u := ⟨rfl, rfl, le_refl _, rfl, rfl, id⟩

theorem Pcu.Quiet.trans {u v w : Pcu} (h : u.Quiet v) (k : v.Quiet w) : u.Quiet w :=
  ⟨k.state.trans h.state, k.access.trans h.access, k.queue.trans h.queue,
    k.accessAwaited.trans h.accessAwaited, k.jobsAwaited.trans h.jobsAwaited, k.notices ∘ h.notices⟩

theorem Pcu.Quiet.complete (u : Pcu) (c : Completion) : u.Quiet (u.complete c) :=
  ⟨rfl, rfl, le_refl _, rfl, rfl, id⟩

theorem Pcu.Quiet.popHead (u : Pcu) : u.Quiet u.popHead :=
  ⟨rfl, rfl, by simp [Pcu.popHead], rfl, rfl, id⟩

theorem Pcu.post_fields (u : Pcu) (n : Notice) :
    u.post n = { u with
      notices := (u.post n).notices, noticeLost := (u.post n).noticeLost
      fetchMark := (u.post n).fetchMark } := by
  unfold Pcu.post
  split
  · unfold Pcu.store Pcu.supersede Pcu.removeNotice
    cases n <;> simp only <;> split <;> (try split) <;> rfl
  · rfl

theorem Pcu.Quiet.post (u : Pcu) (n : Notice) : u.Quiet (u.post n) := by
  have h := Pcu.post_fields u n
  exact ⟨(congrArg Pcu.state h).trans rfl, (congrArg Pcu.access h).trans rfl,
    le_of_eq ((congrArg (fun x => x.queue.length) h).trans rfl),
    (congrArg Pcu.accessAwaited h).trans rfl, (congrArg Pcu.jobsAwaited h).trans rfl,
    fun k => k.post n⟩

/-! ### Calm changes of the state -/

/-- A change of the windows and of the PCUs alone, each PCU changed quietly. -/
structure State.Calm (s t : State) : Prop where
  frame : t = { s with windows := t.windows, pcus := t.pcus }
  pcu : ∀ q, (s.pcu q).Quiet (t.pcu q)

theorem State.Calm.refl (s : State) : s.Calm s := ⟨rfl, fun _ => Pcu.Quiet.refl _⟩

theorem State.Calm.trans {s t u : State} (h : s.Calm t) (k : t.Calm u) : s.Calm u := by
  refine ⟨k.frame.trans ?_, fun q => (h.pcu q).trans (k.pcu q)⟩
  conv_lhs => rw [h.frame]

theorem State.Calm.setPcu {s : State} {p : Port} {u : Pcu} (h : (s.pcu p).Quiet u) :
    s.Calm (s.setPcu p u) := by
  refine ⟨rfl, fun q => ?_⟩
  rw [State.pcu_setPcu]
  split
  · rename_i e; rw [e]; exact h
  · exact Pcu.Quiet.refl _

theorem State.Calm.setWindow (s : State) (i : Nat) (w : Option Window) : s.Calm (s.setWindow i w) :=
  ⟨rfl, fun _ => Pcu.Quiet.refl _⟩

theorem State.Calm.setGuard (s : State) (i : Nat) (f : Guard → Guard) : s.Calm (s.setGuard i f) := by
  unfold State.setGuard
  split
  · exact State.Calm.refl s
  · exact State.Calm.setWindow s _ _

theorem State.Calm.complete (s : State) (p : Port) (c : Completion) : s.Calm (s.complete p c) :=
  State.Calm.setPcu (Pcu.Quiet.complete _ c)

theorem State.Calm.completeWait (s : State) (x : Waiter) (o : OutcomeCode) :
    s.Calm (s.completeWait x o) := State.Calm.complete s _ _

theorem State.Calm.finish (s : State) (p : Port) (tag : Byte) (k : CommandKind) (o : OutcomeCode) :
    s.Calm (s.finish p tag k o) :=
  State.Calm.setPcu ((Pcu.Quiet.popHead _).trans (Pcu.Quiet.complete _ _))

theorem State.Calm.leaveQueue (s : State) (p : Port) : s.Calm (s.leaveQueue p) :=
  State.Calm.setPcu (Pcu.Quiet.popHead _)

theorem State.Calm.beginTake (s : State) (p : Port) : s.Calm (s.beginTake p) :=
  State.Calm.setPcu ⟨rfl, rfl, le_refl _, rfl, rfl, id⟩

theorem State.Calm.setPrepared (s : State) (p : Port) (i : Nat) : s.Calm (s.setPrepared p i) :=
  State.Calm.setPcu ⟨rfl, rfl, le_refl _, rfl, rfl, id⟩

theorem State.Calm.post (s : State) (p : Port) (n : Notice) : s.Calm (s.post p n) :=
  State.Calm.setPcu (Pcu.Quiet.post _ n)

theorem State.Calm.foldl {α : Type} {f : State → α → State} (h : ∀ (s : State) x, s.Calm (f s x))
    (l : List α) (s : State) : s.Calm (l.foldl f s) := by
  induction l generalizing s with
  | nil => exact State.Calm.refl s
  | cons x l ih => exact (h s x).trans (ih (f s x))

theorem State.Calm.postAll (s : State) (n : Notice) : s.Calm (s.postAll n) :=
  State.Calm.foldl (fun t p => State.Calm.post t p n) _ s

theorem State.Calm.finishWith {s e : State} (h : s.Calm e) (p : Port) (tag : Byte) (k : CommandKind)
    (o : OutcomeCode) : s.Calm (s.finishWith p tag k o e) := by
  unfold State.finishWith
  split
  · exact h.trans (State.Calm.finish e p tag k _)
  · exact State.Calm.finish s p tag k o

theorem State.Calm.touch (s : State) (p : Port) (i : Nat) : s.Calm (s.touch p i) := by
  unfold State.touch
  split
  · exact State.Calm.refl s
  · split
    · exact State.Calm.setWindow s _ _
    · exact State.Calm.refl s

theorem State.Calm.grantPass (s : State) (i : Nat) : s.Calm (s.grantPass i) := by
  unfold State.grantPass
  split
  · exact State.Calm.refl s
  · exact (State.Calm.setWindow s _ _).trans
      (State.Calm.foldl (fun t x => State.Calm.completeWait t x _) _ _)

theorem State.Calm.revoke (s : State) (i : Nat) : s.Calm (s.revoke i) := by
  unfold State.revoke
  split
  · exact State.Calm.refl s
  · rename_i w _
    refine State.Calm.trans ?_ (State.Calm.setWindow _ _ _)
    refine State.Calm.trans ?_ (State.Calm.foldl (fun t x => State.Calm.completeWait t x _) _ _)
    refine State.Calm.foldl (f := fun t p => if w.holds p then t.post p (.claimRevoked i) else t)
      (fun t p => ?_) _ s
    split
    · exact State.Calm.post t p _
    · exact State.Calm.refl t

theorem State.Calm.countFault (s : State) (line : Nat) (f : FaultCounts → FaultCounts) :
    s.Calm (s.countFault line f) := by
  unfold State.countFault
  split
  · exact State.Calm.refl s
  · split
    · exact State.Calm.refl s
    · exact State.Calm.setWindow s _ _

theorem State.Calm.leaseLow (s : State) (i : Nat) (p : Port) : s.Calm (s.leaseLow i p) := by
  unfold State.leaseLow
  split
  · exact State.Calm.refl s
  · split
    · exact State.Calm.refl s
    · split
      · exact (State.Calm.setWindow s _ _).trans (State.Calm.post _ _ _)
      · exact State.Calm.refl s

theorem State.Calm.leaseExpire (s : State) (i : Nat) (p : Port) : s.Calm (s.leaseExpire i p) := by
  unfold State.leaseExpire
  split
  · exact State.Calm.refl s
  · split
    · exact State.Calm.refl s
    · split
      · exact ((State.Calm.setWindow s _ _).trans (State.Calm.post _ _ _)).trans
          (State.Calm.grantPass _ _)
      · exact State.Calm.refl s

theorem State.Calm.waitExpire (s : State) (i : Nat) (p : Port) : s.Calm (s.waitExpire i p) := by
  unfold State.waitExpire
  split
  · exact State.Calm.refl s
  · split
    · exact State.Calm.refl s
    · split
      · exact ((State.Calm.setWindow s _ _).trans (State.Calm.completeWait _ _ _)).trans
          (State.Calm.grantPass _ _)
      · exact State.Calm.refl s

/-! ### What a calm change keeps -/

section Kept

variable {s t : State}

theorem State.Calm.pending (h : s.Calm t) : t.pending = s.pending := (congrArg State.pending h.frame).trans rfl
theorem State.Calm.phase (h : s.Calm t) : t.phase = s.phase := (congrArg State.phase h.frame).trans rfl
theorem State.Calm.layoutPort (h : s.Calm t) : t.layoutPort = s.layoutPort := (congrArg State.layoutPort h.frame).trans rfl
theorem State.Calm.msCount (h : s.Calm t) : t.msCount = s.msCount := (congrArg State.msCount h.frame).trans rfl
theorem State.Calm.usCount (h : s.Calm t) : t.usCount = s.usCount := (congrArg State.usCount h.frame).trans rfl
theorem State.Calm.sweepPointer (h : s.Calm t) : t.sweepPointer = s.sweepPointer := (congrArg State.sweepPointer h.frame).trans rfl
theorem State.Calm.links (h : s.Calm t) : t.links = s.links := (congrArg State.links h.frame).trans rfl
theorem State.Calm.masterKey (h : s.Calm t) : t.masterKey = s.masterKey := (congrArg State.masterKey h.frame).trans rfl
theorem State.Calm.masterAttempts (h : s.Calm t) : t.masterAttempts = s.masterAttempts := (congrArg State.masterAttempts h.frame).trans rfl
theorem State.Calm.frozen (h : s.Calm t) : t.frozen = s.frozen := (congrArg State.frozen h.frame).trans rfl
theorem State.Calm.rotation (h : s.Calm t) : t.rotation = s.rotation := (congrArg State.rotation h.frame).trans rfl
theorem State.Calm.scrubDue (h : s.Calm t) : t.scrubDue = s.scrubDue := (congrArg State.scrubDue h.frame).trans rfl
theorem State.Calm.postponed (h : s.Calm t) : t.postponed = s.postponed := (congrArg State.postponed h.frame).trans rfl
theorem State.Calm.inFlight (h : s.Calm t) : t.inFlight = s.inFlight := (congrArg State.inFlight h.frame).trans rfl
theorem State.Calm.c0 (h : s.Calm t) : t.c0 = s.c0 := (congrArg State.c0 h.frame).trans rfl
theorem State.Calm.c1 (h : s.Calm t) : t.c1 = s.c1 := (congrArg State.c1 h.frame).trans rfl
theorem State.Calm.scrubEnabled (h : s.Calm t) : t.scrubEnabled = s.scrubEnabled := (congrArg State.scrubEnabled h.frame).trans rfl
theorem State.Calm.scrubInterval (h : s.Calm t) : t.scrubInterval = s.scrubInterval := (congrArg State.scrubInterval h.frame).trans rfl
theorem State.Calm.scrubTimer (h : s.Calm t) : t.scrubTimer = s.scrubTimer := (congrArg State.scrubTimer h.frame).trans rfl
theorem State.Calm.scrubPointer (h : s.Calm t) : t.scrubPointer = s.scrubPointer := (congrArg State.scrubPointer h.frame).trans rfl
theorem State.Calm.poisoned (h : s.Calm t) : t.poisoned = s.poisoned := (congrArg State.poisoned h.frame).trans rfl
theorem State.Calm.suspects (h : s.Calm t) : t.suspects = s.suspects := (congrArg State.suspects h.frame).trans rfl
theorem State.Calm.remap (h : s.Calm t) : t.remap = s.remap := (congrArg State.remap h.frame).trans rfl
theorem State.Calm.spares (h : s.Calm t) : t.spares = s.spares := (congrArg State.spares h.frame).trans rfl
theorem State.Calm.correctedTotal (h : s.Calm t) : t.correctedTotal = s.correctedTotal := (congrArg State.correctedTotal h.frame).trans rfl
theorem State.Calm.retirementsTotal (h : s.Calm t) : t.retirementsTotal = s.retirementsTotal := (congrArg State.retirementsTotal h.frame).trans rfl
theorem State.Calm.mem (h : s.Calm t) : t.mem = s.mem := (congrArg State.mem h.frame).trans rfl
theorem State.Calm.flips (h : s.Calm t) : t.flips = s.flips := (congrArg State.flips h.frame).trans rfl
theorem State.Calm.draw (h : s.Calm t) : t.draw = s.draw := (congrArg State.draw h.frame).trans rfl

theorem State.Calm.job (h : s.Calm t) (c : Channel) : t.job c = s.job c := by
  cases c
  · exact h.c0
  · exact h.c1

theorem State.Calm.link (h : s.Calm t) (p : Port) : t.link p = s.link p := by
  unfold State.link
  rw [h.links]

theorem State.Calm.stepInFlight (h : s.Calm t) (c : Channel) : t.stepInFlight c = s.stepInFlight c := by
  unfold State.stepInFlight
  rw [h.inFlight]

theorem State.Calm.physOf (h : s.Calm t) (l : Nat) : t.physOf l = s.physOf l := by
  unfold State.physOf
  rw [h.remap]

end Kept

end Sys2Proof.Machine
end

