-- ==== Sys2Proof/Laws/Claims.lean ====
section
/-! SUPPORT. Claims: which windows the grant pass, the revocation and the touch change and how, and the
lawfulness of the claim part that they keep. -/

namespace Sys2Proof.Machine

/-! ### Windows after an operation -/

theorem State.window?_of_windows {s t : State} (h : t.windows = s.windows) (i : Nat) :
    t.window? i = s.window? i := by
  unfold State.window?
  rw [h]

theorem State.window?_complete (s : State) (p : Port) (c : Completion) (i : Nat) :
    (s.complete p c).window? i = s.window? i := rfl

theorem State.windows_foldl {α : Type} {f : State → α → State}
    (h : ∀ (s : State) x, (f s x).windows = s.windows) (l : List α) (s : State) :
    (l.foldl f s).windows = s.windows := by
  induction l generalizing s with
  | nil => rfl
  | cons x l ih => rw [List.foldl_cons, ih, h]

/-- A grant pass changes its own window alone. -/
theorem State.windows_grantPass (s : State) (i : Nat) :
    (s.grantPass i).windows =
      (s.setWindow i ((s.window? i).map (fun w => w.afterPass s.msCount))).windows := by
  unfold State.grantPass
  cases h : s.window? i with
  | none =>
    simp only [Option.map_none]
    unfold State.setWindow State.window? at *
    apply Vector.ext
    intro j hj
    simp only [Vector.getElem_setIfInBounds]
    split
    · rename_i e; subst e
      simpa [hj] using h
    · rfl
  | some w =>
    exact State.windows_foldl (f := fun t x => t.completeWait x .ok) (fun t x => rfl) _ _

theorem State.window?_grantPass (s : State) (i j : Nat) :
    (s.grantPass i).window? j =
      if j = i then (s.window? i).map (fun w => w.afterPass s.msCount) else s.window? j := by
  rw [State.window?_of_windows (State.windows_grantPass s i), State.window?_setWindow]
  by_cases h : j = i
  · subst h
    by_cases h32 : j < 32
    · simp [h32]
    · have : s.window? j = none := by
        cases hw : s.window? j with
        | none => rfl
        | some w => exact absurd (State.window?_eq_some_lt hw) h32
      simp [h32, this]
  · simp [h]

theorem State.window?_revoke (s : State) (i j : Nat) :
    (s.revoke i).window? j =
      if j = i then (s.window? i).map Window.clearClaims else s.window? j := by
  cases h : s.window? i with
  | none =>
    have e : s.revoke i = s := by unfold State.revoke; rw [h]
    rw [e]
    split
    · rename_i e; rw [e, h]; rfl
    · rfl
  | some w =>
    unfold State.revoke
    simp only [h]
    have e : ∀ k, (w.waiters.foldl (fun t x => t.completeWait x .revoked)
        (Port.all.foldl (fun t p => if w.holds p then t.post p (.claimRevoked i) else t) s)).window? k
        = s.window? k := by
      intro k
      apply State.window?_of_windows
      rw [State.windows_foldl (f := fun t x => t.completeWait x .revoked) (fun t x => rfl)]
      apply State.windows_foldl
      intro t p
      split <;> rfl
    rw [State.window?_setWindow, e]
    have := State.window?_eq_some_lt h
    simp [this]

theorem State.window?_touch (s : State) (p : Port) (i j : Nat) :
    (s.touch p i).window? j =
      if j = i then (s.window? i).map (fun w => if w.holds p then w.beginTerm p s.msCount else w)
      else s.window? j := by
  cases h : s.window? i with
  | none =>
    have e : s.touch p i = s := by unfold State.touch; rw [h]
    rw [e]
    split
    · rename_i e; rw [e, h]; rfl
    · rfl
  | some w =>
    have hi := State.window?_eq_some_lt h
    unfold State.touch
    simp only [h]
    split
    · rw [State.window?_setWindow]; simp [hi]; split <;> simp_all
    · split
      · rename_i e; rw [e, h]; simp_all
      · rfl

/-! ### The claim part of one window -/

/-- Nobody holds a window. -/
theorem Window.holderCount_eq_zero {w : Window} : w.holderCount = 0 ↔ ∀ q, w.holds q = false := by
  unfold Window.holderCount
  rw [List.length_eq_zero_iff, List.filter_eq_nil_iff]
  constructor
  · intro h q; simpa using h q (Port.mem_all q)
  · intro h q _; simp [h q]

theorem Window.holderCount_pos {w : Window} {q : Port} (h : w.holds q = true) : 1 ≤ w.holderCount := by
  by_contra hn
  have := Window.holderCount_eq_zero.1 (show w.holderCount = 0 by omega) q
  simp [h] at this

theorem Window.noHolders_iff {w : Window} : w.noHolders = true ↔ ∀ q, w.holds q = false := by
  unfold Window.noHolders
  simp only [List.all_eq_true, Bool.not_eq_true']
  exact ⟨fun h q => h q (Port.mem_all q), fun h q _ => h q⟩

/-- One holder alone. -/
theorem Window.holderCount_eq_one {w : Window} {p : Port} (h : ∀ q, w.holds q = decide (q = p)) :
    w.holderCount = 1 := by
  unfold Window.holderCount
  have : w.holds = fun q => decide (q = p) := funext h
  rw [this]
  cases p <;> rfl

/-- A single holder is the only one. -/
theorem Window.holds_unique {w : Window} (h : w.holderCount = 1) {p q : Port}
    (hp : w.holds p = true) (hq : w.holds q = true) : p = q := by
  unfold Window.holderCount Port.all at h
  revert h
  cases hp0 : w.holds .p0 <;> cases hp1 : w.holds .p1 <;> cases hp2 : w.holds .p2 <;>
    cases hp3 : w.holds .p3 <;> simp [List.filter, hp0, hp1, hp2, hp3] <;>
    (cases p <;> cases q <;> simp_all)

/-- The claim part of a window, but for the rule that a queue stands only while somebody holds: what
holds between the end of a claim or wait and the grant pass that follows it. -/
structure Window.ClaimsOpen (w : Window) : Prop where
  unclaimed : w.claimState = .unclaimed ↔ w.holderCount = 0
  write : w.claimState = .writeHeld → w.holderCount = 1
  nodup : (w.waiters.map Waiter.port).Nodup
  apart : ∀ x ∈ w.waiters, w.holds x.port = false

theorem Window.ClaimsLawful.open {w : Window} (h : w.ClaimsLawful) : w.ClaimsOpen :=
  ⟨h.1, h.2.1, h.2.2.1, h.2.2.2.1⟩

theorem Window.ClaimsOpen.lawful {w : Window} (h : w.ClaimsOpen)
    (k : w.waiters ≠ [] → 1 ≤ w.holderCount) : w.ClaimsLawful :=
  ⟨h.unclaimed, h.write, h.nodup, h.apart, k⟩

/-! ### The grant pass on one window -/

theorem Window.passGrants_prefix (w : Window) : w.passGrants <+: w.waiters := by
  unfold Window.passGrants
  simp only
  split
  · exact List.nil_prefix
  · exact List.takeWhile_prefix _
  · split
    · rename_i h; rw [h]
    · rename_i x l h
      split
      · rw [h]; exact ⟨l, rfl⟩
      · exact List.takeWhile_prefix _

theorem Window.passGrants_append (w : Window) :
    w.passGrants ++ w.waiters.drop w.passGrants.length = w.waiters := by
  obtain ⟨r, h⟩ := w.passGrants_prefix
  conv_rhs => rw [← h]
  rw [← h]
  simp

/-- The grants of a list of waiters of one kind. -/
theorem Window.foldl_grantClaim (l : List Waiter) (k : ClaimKind) (hk : ∀ x ∈ l, x.kind = k)
    (v : Window) (now : Tick) :
    l.foldl (fun v x => v.grantClaim x.port x.kind now) v =
      { v with
        holders := (l.foldl (fun v x => v.grantClaim x.port x.kind now) v).holders
        claimState := if l = [] then v.claimState else k.held } ∧
    ∀ q, (l.foldl (fun v x => v.grantClaim x.port x.kind now) v).holders.get q =
      if ∃ x ∈ l, x.port = q then some (newLease v.leasePeriod now) else v.holders.get q := by
  induction l generalizing v with
  | nil => simp
  | cons x l ih =>
    have hx := hk x (by simp)
    obtain ⟨h1, h2⟩ := ih (fun y hy => hk y (by simp [hy])) (v.grantClaim x.port x.kind now)
    refine ⟨?_, fun q => ?_⟩
    · rw [List.foldl_cons, h1]
      simp only [Window.grantClaim, Window.beginTerm, hx]
      split <;> simp
    · rw [List.foldl_cons, h2]
      simp only [Window.grantClaim, Window.beginTerm, List.exists_mem_cons_iff, PerPort.get_set]
      by_cases e : ∃ y ∈ l, y.port = q
      · simp [e]
      · by_cases ex : x.port = q
        · simp [e, ex]
        · simp [e, ex, Ne.symm ex]

/-- The waiters granted are of one kind, and which kind. -/
theorem Window.passGrants_kind (w : Window) :
    ∃ k, (∀ x ∈ w.passGrants, x.kind = k) ∧
      (w.claimState = .writeHeld → w.passGrants = []) ∧
      (w.claimState = .readHeld → k = .read) ∧
      (w.claimState = .unclaimed → ∀ x l, w.waiters = x :: l → x.kind = k ∧
        w.passGrants ≠ [] ∧ (k = .write → w.passGrants = [x])) := by
  unfold Window.passGrants
  have hr : ∀ x ∈ w.waiters.takeWhile (fun x => x.kind == .read), x.kind = .read := by
    intro x hx
    simpa using List.mem_takeWhile_imp hx
  cases hs : w.claimState with
  | writeHeld => exact ⟨.read, by simp, by simp, by simp, by simp⟩
  | readHeld => exact ⟨.read, hr, by simp, by simp, by simp⟩
  | unclaimed =>
    simp only
    cases hw : w.waiters with
    | nil => exact ⟨.read, by simp, by simp, by simp, by simp⟩
    | cons x l =>
      rw [hw] at hr
      by_cases hx : x.kind = .write
      · refine ⟨.write, by simp [hx], by simp, by simp, ?_⟩
        intro _ y m e
        cases e
        simp [hx]
      · have hx' : x.kind = .read := by cases h : x.kind <;> simp_all
        refine ⟨.read, by simpa [hx] using hr, by simp, by simp, ?_⟩
        intro _ y m e
        cases e
        simp [hx']

/-- A window after a grant pass: a change of its claim part alone (R33). -/
theorem Window.afterPass_eq (w : Window) (now : Tick) :
    w.afterPass now =
      { w with
        claimState := (w.afterPass now).claimState
        holders := (w.afterPass now).holders
        waiters := w.waiters.drop w.passGrants.length } := by
  obtain ⟨k, hk, _⟩ := w.passGrants_kind
  conv_lhs => unfold Window.afterPass
  rw [(Window.foldl_grantClaim _ k hk _ now).1]
  conv_rhs => unfold Window.afterPass
  rw [(Window.foldl_grantClaim _ k hk _ now).1]

/-- The holders after a grant pass (R33). -/
theorem Window.afterPass_holders (w : Window) (now : Tick) (q : Port) :
    (w.afterPass now).holders.get q =
      if ∃ x ∈ w.passGrants, x.port = q then some (newLease w.leasePeriod now)
      else w.holders.get q := by
  obtain ⟨k, hk, _⟩ := w.passGrants_kind
  unfold Window.afterPass
  rw [(Window.foldl_grantClaim _ k hk _ now).2]

/-- The claim state after a grant pass (R33). -/
theorem Window.afterPass_claimState (w : Window) (now : Tick) (k : ClaimKind)
    (hk : ∀ x ∈ w.passGrants, x.kind = k) :
    (w.afterPass now).claimState = if w.passGrants = [] then w.claimState else k.held := by
  unfold Window.afterPass
  rw [(Window.foldl_grantClaim _ k hk _ now).1]

theorem Window.afterPass_holds (w : Window) (now : Tick) (q : Port) :
    (w.afterPass now).holds q = (decide (∃ x ∈ w.passGrants, x.port = q) || w.holds q) := by
  unfold Window.holds
  rw [Window.afterPass_holders]
  split
  · rename_i h; simp [h]
  · rename_i h; simp [h]

/-- A grant pass leaves nothing to grant: the claim part is lawful afterwards (R32, R33). -/
theorem Window.ClaimsOpen.afterPass {w : Window} (h : w.ClaimsOpen) (now : Tick) :
    (w.afterPass now).ClaimsLawful := by
  obtain ⟨k, hk, hwr, hrd, hun⟩ := w.passGrants_kind
  have hcs := w.afterPass_claimState now k hk
  have hwt : (w.afterPass now).waiters = w.waiters.drop w.passGrants.length :=
    congrArg Window.waiters (w.afterPass_eq now)
  have happ := w.passGrants_append
  have hnd : ((w.passGrants ++ w.waiters.drop w.passGrants.length).map Waiter.port).Nodup := by
    rw [happ]; exact h.nodup
  rw [List.map_append, List.nodup_append] at hnd
  have hsub : ∀ x ∈ w.waiters.drop w.passGrants.length, x ∈ w.waiters := fun x hx =>
    List.mem_of_mem_drop hx
  refine Window.ClaimsOpen.lawful ⟨?_, ?_, ?_, ?_⟩ ?_
  · rw [hcs, Window.holderCount_eq_zero]
    simp only [Window.afterPass_holds]
    by_cases hg : w.passGrants = []
    · simp only [hg, if_true]
      rw [h.unclaimed, Window.holderCount_eq_zero]
      simp
    · rw [if_neg hg]
      constructor
      · intro hh; cases k <;> simp [ClaimKind.held] at hh
      · intro hh
        obtain ⟨x, hx⟩ := List.exists_mem_of_ne_nil _ hg
        have := hh x.port
        simp only [Bool.or_eq_false_iff, decide_eq_false_iff_not] at this
        exact absurd ⟨x, hx, rfl⟩ this.1
  · rw [hcs]
    by_cases hg : w.passGrants = []
    · rw [if_pos hg]
      intro hh
      have := h.write hh
      have e : (w.afterPass now).holderCount = w.holderCount := by
        unfold Window.holderCount
        congr 1
        congr 1
        funext q
        simp [Window.afterPass_holds, hg]
      rw [e]; exact this
    · rw [if_neg hg]
      intro hh
      have hkw : k = .write := by cases k <;> simp_all [ClaimKind.held]
      have hu : w.claimState = .unclaimed := by
        cases hc : w.claimState with
        | unclaimed => rfl
        | readHeld => exact absurd (hrd hc) (by simp [hkw])
        | writeHeld => exact absurd (hwr hc) hg
      cases hw : w.waiters with
      | nil => exact absurd (by simpa [hw] using w.passGrants_prefix) hg
      | cons x l =>
        have hgx := (hun hu x l hw).2.2 hkw
        have hnone := Window.holderCount_eq_zero.1 (h.unclaimed.1 hu)
        refine Window.holderCount_eq_one (p := x.port) (fun q => ?_)
        rw [Window.afterPass_holds, hgx, hnone q]
        simp [eq_comm]
  · rw [hwt]; exact hnd.2.1
  · intro x hx
    rw [hwt] at hx
    rw [Window.afterPass_holds, h.apart x (hsub x hx)]
    simp only [Bool.or_false, decide_eq_false_iff_not]
    rintro ⟨y, hy, e⟩
    exact hnd.2.2 _ (List.mem_map_of_mem hy) _ (List.mem_map_of_mem hx) e
  · intro hne
    rw [hwt] at hne
    cases hc : w.claimState with
    | unclaimed =>
      cases hw : w.waiters with
      | nil => simp [hw] at hne
      | cons x l =>
        obtain ⟨y, hy⟩ := List.exists_mem_of_ne_nil _ (hun hc x l hw).2.1
        exact Window.holderCount_pos (q := y.port) (by
          rw [Window.afterPass_holds]
          simp only [Bool.or_eq_true, decide_eq_true_eq]
          exact Or.inl ⟨y, hy, rfl⟩)
    | readHeld | writeHeld =>
      have hc0 : w.holderCount ≠ 0 := fun e =>
        absurd (h.unclaimed.2 e) (by simp [hc])
      obtain ⟨q, hq⟩ : ∃ q, w.holds q = true := by
        by_contra hn
        exact hc0 (Window.holderCount_eq_zero.2 fun q => by
          cases hq : w.holds q
          · rfl
          · exact absurd ⟨q, hq⟩ hn)
      exact Window.holderCount_pos (q := q) (by simp [Window.afterPass_holds, hq])

/-- A window without holders and waiters keeps them so through a grant pass. -/
theorem Window.afterPass_empty {w : Window} (hw : w.waiters = []) (now : Tick) :
    w.afterPass now = w := by
  have hg : w.passGrants = [] := by
    have := w.passGrants_prefix
    rw [hw] at this
    exact List.prefix_nil.1 this
  unfold Window.afterPass
  rw [hg, hw]
  cases w
  simp_all

end Sys2Proof.Machine
end

