-- ==== Sys2Proof/Laws/Codec.lean ====
section
/-! SUPPORT. Bytes, multi-byte fields and bits: each reading of what was written gives it back. -/

namespace Sys2Proof

/-- The bits of a byte spell it (R152). -/
theorem byteOfBits_bitsOfByte (b : Byte) : byteOfBits (bitsOfByte b) = b := by
  revert b; decide +kernel

/-- A 2-byte field from its bytes. -/
theorem be16_bytes16 (x : BitVec 16) : be16 (x.extractLsb' 8 8) (x.extractLsb' 0 8) = x := by
  unfold be16
  ext i hi
  simp only [BitVec.getElem_append, BitVec.getElem_extractLsb']
  split
  · rw [Nat.zero_add, BitVec.getLsbD_eq_getElem]
  · rw [show 8 + (i - 8) = i by omega, BitVec.getLsbD_eq_getElem]

/-- A 3-byte field from its bytes. -/
theorem be24_bytes24 (x : BitVec 24) :
    be24 (x.extractLsb' 16 8) (x.extractLsb' 8 8) (x.extractLsb' 0 8) = x := by
  unfold be24
  ext i hi
  simp only [BitVec.getElem_append, BitVec.getElem_extractLsb']
  split
  · rw [Nat.zero_add, BitVec.getLsbD_eq_getElem]
  · split
    · rw [show 8 + (i - 8) = i by omega, BitVec.getLsbD_eq_getElem]
    · rw [show 16 + (i - 8 - 8) = i by omega, BitVec.getLsbD_eq_getElem]

/-- The bytes of a 2-byte field are the bytes it was read from. -/
theorem bytes16_be16 (hi lo : Byte) : bytes16 (be16 hi lo) = [hi, lo] := by
  unfold bytes16 be16
  congr 1
  · ext i hi
    simp only [BitVec.getElem_extractLsb', BitVec.getLsbD_append]
    rw [if_neg (by omega), show 8 + i - 8 = i by omega, BitVec.getLsbD_eq_getElem]
  · congr 1
    ext i hi
    simp only [BitVec.getElem_extractLsb', BitVec.getLsbD_append]
    rw [if_pos (by omega), Nat.zero_add, BitVec.getLsbD_eq_getElem]

/-- The bytes of a 3-byte field are the bytes it was read from. -/
theorem bytes24_be24 (hi mid lo : Byte) : bytes24 (be24 hi mid lo) = [hi, mid, lo] := by
  unfold bytes24 be24
  congr 1
  · ext i hi
    simp only [BitVec.getElem_extractLsb', BitVec.getLsbD_append]
    rw [if_neg (by omega), if_neg (by omega), show 16 + i - 8 - 8 = i by omega,
      BitVec.getLsbD_eq_getElem]
  · congr 1
    · ext i hi
      simp only [BitVec.getElem_extractLsb', BitVec.getLsbD_append]
      rw [if_neg (by omega), if_pos (by omega), show 8 + i - 8 = i by omega,
        BitVec.getLsbD_eq_getElem]
    · congr 1
      ext i hi
      simp only [BitVec.getElem_extractLsb', BitVec.getLsbD_append]
      rw [if_pos (by omega), Nat.zero_add, BitVec.getLsbD_eq_getElem]

/-- How many bytes a number is written in. -/
@[simp] theorem beBytes_length (k n : Nat) : (beBytes k n).length = k := by
  induction k with
  | zero => rfl
  | succ k ih => simp [beBytes, ih]

/-- Reading bytes after a number already read. -/
theorem beNat_fold (bs : List Byte) (m : Nat) :
    bs.foldl (fun n b => 256 * n + b.toNat) m = 256 ^ bs.length * m + beNat bs := by
  induction bs generalizing m with
  | nil => simp [beNat]
  | cons b bs ih =>
    simp only [List.foldl_cons, beNat, List.length_cons]
    rw [ih, ih (256 * 0 + b.toNat)]
    ring

/-- The number that the bytes of a number spell. -/
theorem beNat_beBytes (k n : Nat) : beNat (beBytes k n) = n % 256 ^ k := by
  induction k with
  | zero => simp [beBytes, beNat, Nat.mod_one]
  | succ k ih =>
    simp only [beBytes, beNat, List.foldl_cons]
    rw [beNat_fold, ih, beBytes_length]
    rw [BitVec.toNat_ofNat, Nat.mul_zero, Nat.zero_add, pow_succ 256 k, Nat.mod_mul, Nat.add_comm]

/-- A number of `k` bytes is below 256 to the `k`. -/
theorem beNat_lt (bs : List Byte) : beNat bs < 256 ^ bs.length := by
  induction bs with
  | nil => simp [beNat]
  | cons b bs ih =>
    simp only [beNat, List.foldl_cons, List.length_cons]
    rw [beNat_fold, pow_succ]
    have := b.isLt
    nlinarith [ih, Nat.pos_of_ne_zero (pow_ne_zero bs.length (show (256 : Nat) ≠ 0 by decide))]

/-- Only the last `k` bytes of a number stand in its `k` bytes. -/
theorem beBytes_add (k m n : Nat) : beBytes k (256 ^ k * m + n) = beBytes k n := by
  induction k generalizing m with
  | zero => rfl
  | succ k ih =>
    unfold beBytes
    have e : 256 ^ (k + 1) * m + n = 256 ^ k * (256 * m) + n := by ring
    rw [e, ih (256 * m)]
    congr 1
    apply BitVec.eq_of_toNat_eq
    rw [BitVec.toNat_ofNat, BitVec.toNat_ofNat,
      Nat.mul_add_div (Nat.pos_of_ne_zero (pow_ne_zero k (by decide)))]
    omega

/-- The bytes of the number that bytes spell are those bytes. -/
theorem beBytes_beNat (bs : List Byte) : beBytes bs.length (beNat bs) = bs := by
  induction bs with
  | nil => rfl
  | cons b bs ih =>
    have e : beNat (b :: bs) = 256 ^ bs.length * b.toNat + beNat bs := by
      unfold beNat
      rw [List.foldl_cons, beNat_fold, Nat.mul_zero, Nat.zero_add]
      rfl
    rw [e, List.length_cons]
    unfold beBytes
    rw [beBytes_add, ih]
    congr 1
    have hp : 0 < 256 ^ bs.length := Nat.pos_of_ne_zero (pow_ne_zero _ (by decide))
    rw [Nat.mul_add_div hp, Nat.div_eq_of_lt (beNat_lt bs)]
    simp

/-- The length of a key's bytes. -/
@[simp] theorem bytesOfKey_length (k : Key) : (bytesOfKey k).length = 16 := beBytes_length 16 _

/-- A key from its bytes. -/
@[simp] theorem keyOfBytes_bytesOfKey (k : Key) : keyOfBytes (bytesOfKey k) = k := by
  unfold keyOfBytes bytesOfKey
  rw [beNat_beBytes, Nat.mod_eq_of_lt (by have := k.isLt; norm_num; omega)]
  simp

/-- The bytes of a key are the 16 bytes it was read from. -/
theorem bytesOfKey_keyOfBytes {bs : List Byte} (h : bs.length = 16) :
    bytesOfKey (keyOfBytes bs) = bs := by
  unfold bytesOfKey keyOfBytes
  have hl := beNat_lt bs
  rw [h] at hl
  rw [BitVec.toNat_ofNat, Nat.mod_eq_of_lt (by norm_num at hl ⊢; omega), ← h, beBytes_beNat]

/-- Every opcode names its command. -/
@[simp] theorem commandKindOf_opcode (k : CommandKind) : commandKindOf k.opcode = some k := by
  cases k <;> rfl

/-- No command's opcode names an immediate frame. -/
theorem immediateOf_opcode (k : CommandKind) : immediateOf k.opcode = none := by
  cases k <;> rfl

/-- A command from its argument bytes. -/
theorem Command.ofArgs_args (tag : Byte) (c : Command) (h : c.wellFormed = true) :
    Command.ofArgs c.kind (tag :: c.args) = some (tag, c) := by
  cases c with
  | write i o data =>
    simp only [Command.wellFormed, decide_eq_true_eq] at h
    have hn : (BitVec.ofNat 16 data.length).toNat = data.length := by
      rw [BitVec.toNat_ofNat, Nat.mod_eq_of_lt (by omega)]
    simp [Command.kind, Command.args, Command.ofArgs, bytes16, bytes24, be16_bytes16, be24_bytes24,
      Nat.mod_eq_of_lt (show data.length < 65536 by omega), h.1, h.2]
  | setMasterKey old new =>
    simp [Command.kind, Command.args, Command.ofArgs]
  | _ => simp [Command.kind, Command.args, Command.ofArgs, bytes16, bytes24, be16_bytes16, be24_bytes24]

/-- A command frame carries its command (R158, R206). -/
theorem commandOfFrame_frame (tag : Byte) (c : Command) (h : c.wellFormed = true) :
    commandOfFrame (c.frame tag) = some (tag, c) := by
  simp [commandOfFrame, Command.frame, Command.ofArgs_args tag c h]

/-- Arguments that spell a command are the arguments of that command (R158). -/
theorem Command.args_of_ofArgs {k : CommandKind} {bs : List Byte} {tag : Byte} {c : Command}
    (h : Command.ofArgs k bs = some (tag, c)) :
    c.kind = k ∧ bs = tag :: c.args ∧ c.wellFormed = true := by
  unfold Command.ofArgs at h
  split at h
  case h_18 =>
    simp only at h
    split at h
    · rename_i hn
      cases h
      obtain ⟨h1, h2, h3⟩ := hn
      simp only [Command.kind, Command.args, Command.wellFormed, bytes24_be24]
      rw [h3, BitVec.ofNat_toNat, BitVec.setWidth_eq, bytes16_be16]
      simp [h1, h2]
    · cases h
  case h_5 =>
    split at h
    · cases h
      simp only [Command.kind, Command.args, Command.wellFormed]
      rw [bytesOfKey_keyOfBytes (by simp; omega), bytesOfKey_keyOfBytes (by simp; omega),
        List.take_append_drop]
      simp
    · cases h
  all_goals first
    | cases h; done
    | (cases h; simp [Command.kind, Command.args, Command.wellFormed, bytes16_be16, bytes24_be24])
    | (split at h
       · rename_i hn
         cases h
         simp [Command.kind, Command.args, Command.wellFormed, bytesOfKey_keyOfBytes hn]
       · cases h)

end Sys2Proof
end

