-- ==== Sys2Proof/Laws/Handling.lean ====
section
/-! SUPPORT. The integrity unit's handling of a line: it changes the array, its own lists and counts,
the fault records of windows and, by notices alone, the PCUs; everything else stays. -/

namespace Sys2Proof.Machine

/-- A count stopped at its top. -/
theorem countUp_eq (top n : Nat) : countUp top n = min top (n + 1) := by
  unfold countUp
  rfl

/-- Two windows that differ in their fault records at most. -/
def Window.SameButFaults (w v : Window) : Prop := v = { w with faults := v.faults }

theorem Window.SameButFaults.refl (w : Window) : w.SameButFaults w := rfl

theorem Window.SameButFaults.trans {u v w : Window} (h : u.SameButFaults v) (k : v.SameButFaults w) :
    u.SameButFaults w := by
  unfold Window.SameButFaults at *
  rw [k, h]

/-- A change that the integrity unit makes. -/
structure State.Mends (s t : State) : Prop where
  frame : t = { s with
    windows := t.windows
    pcus := t.pcus
    poisoned := t.poisoned
    suspects := t.suspects
    remap := t.remap
    spares := t.spares
    correctedTotal := t.correctedTotal
    retirementsTotal := t.retirementsTotal
    mem := t.mem
    flips := t.flips }
  pcu : ∀ q, (s.pcu q).Quiet (t.pcu q)
  absent : ∀ i, t.window? i = none ↔ s.window? i = none
  present : ∀ i w v, s.window? i = some w → t.window? i = some v → w.SameButFaults v

theorem State.Mends.refl (s : State) : s.Mends s :=
  ⟨rfl, fun _ => Pcu.Quiet.refl _, fun _ => Iff.rfl, fun i w v h k => by
    rw [h] at k; cases k; exact Window.SameButFaults.refl w⟩

theorem State.Mends.trans {s t u : State} (h : s.Mends t) (k : t.Mends u) : s.Mends u := by
  refine ⟨k.frame.trans ?_, fun q => (h.pcu q).trans (k.pcu q),
    fun i => (k.absent i).trans (h.absent i), fun i w v hw hv => ?_⟩
  · conv_lhs => rw [h.frame]
  · cases hx : t.window? i with
    | none => rw [(h.absent i).1 hx] at hw; cases hw
    | some x => exact (h.present i w x hw hx).trans (k.present i x v hx hv)

section Kept

variable {s t : State}

theorem State.Mends.pending (h : s.Mends t) : t.pending = s.pending := (congrArg State.pending h.frame).trans rfl
theorem State.Mends.phase (h : s.Mends t) : t.phase = s.phase := (congrArg State.phase h.frame).trans rfl
theorem State.Mends.layoutPort (h : s.Mends t) : t.layoutPort = s.layoutPort := (congrArg State.layoutPort h.frame).trans rfl
theorem State.Mends.msCount (h : s.Mends t) : t.msCount = s.msCount := (congrArg State.msCount h.frame).trans rfl
theorem State.Mends.usCount (h : s.Mends t) : t.usCount = s.usCount := (congrArg State.usCount h.frame).trans rfl
theorem State.Mends.sweepPointer (h : s.Mends t) : t.sweepPointer = s.sweepPointer := (congrArg State.sweepPointer h.frame).trans rfl
theorem State.Mends.links (h : s.Mends t) : t.links = s.links := (congrArg State.links h.frame).trans rfl
theorem State.Mends.masterKey (h : s.Mends t) : t.masterKey = s.masterKey := (congrArg State.masterKey h.frame).trans rfl
theorem State.Mends.masterAttempts (h : s.Mends t) : t.masterAttempts = s.masterAttempts := (congrArg State.masterAttempts h.frame).trans rfl
theorem State.Mends.frozen (h : s.Mends t) : t.frozen = s.frozen := (congrArg State.frozen h.frame).trans rfl
theorem State.Mends.rotation (h : s.Mends t) : t.rotation = s.rotation := (congrArg State.rotation h.frame).trans rfl
theorem State.Mends.scrubDue (h : s.Mends t) : t.scrubDue = s.scrubDue := (congrArg State.scrubDue h.frame).trans rfl
theorem State.Mends.postponed (h : s.Mends t) : t.postponed = s.postponed := (congrArg State.postponed h.frame).trans rfl
theorem State.Mends.inFlight (h : s.Mends t) : t.inFlight = s.inFlight := (congrArg State.inFlight h.frame).trans rfl
theorem State.Mends.c0 (h : s.Mends t) : t.c0 = s.c0 := (congrArg State.c0 h.frame).trans rfl
theorem State.Mends.c1 (h : s.Mends t) : t.c1 = s.c1 := (congrArg State.c1 h.frame).trans rfl
theorem State.Mends.scrubEnabled (h : s.Mends t) : t.scrubEnabled = s.scrubEnabled := (congrArg State.scrubEnabled h.frame).trans rfl
theorem State.Mends.scrubInterval (h : s.Mends t) : t.scrubInterval = s.scrubInterval := (congrArg State.scrubInterval h.frame).trans rfl
theorem State.Mends.scrubTimer (h : s.Mends t) : t.scrubTimer = s.scrubTimer := (congrArg State.scrubTimer h.frame).trans rfl
theorem State.Mends.scrubPointer (h : s.Mends t) : t.scrubPointer = s.scrubPointer := (congrArg State.scrubPointer h.frame).trans rfl
theorem State.Mends.draw (h : s.Mends t) : t.draw = s.draw := (congrArg State.draw h.frame).trans rfl

theorem State.Mends.job (h : s.Mends t) (c : Channel) : t.job c = s.job c := by
  cases c
  · exact h.c0
  · exact h.c1

end Kept

/-- A change of the array and the integrity unit's own records alone. -/
theorem State.Mends.own {s t : State} (hw : t.windows = s.windows) (hp : t.pcus = s.pcus)
    (h : t = { s with
      poisoned := t.poisoned, suspects := t.suspects, remap := t.remap, spares := t.spares
      correctedTotal := t.correctedTotal, retirementsTotal := t.retirementsTotal
      mem := t.mem, flips := t.flips }) : s.Mends t := by
  refine ⟨?_, fun q => ?_, fun i => ?_, fun i w v h1 h2 => ?_⟩
  · rw [hw, hp]; exact h
  · unfold State.pcu; rw [hp]; exact Pcu.Quiet.refl _
  · rw [State.window?_of_windows hw]
  · rw [State.window?_of_windows hw, h1] at h2
    cases h2; exact Window.SameButFaults.refl w

theorem State.Mends.post (s : State) (p : Port) (n : Notice) : s.Mends (s.post p n) := by
  refine ⟨(State.Calm.post s p n).frame.trans rfl, (State.Calm.post s p n).pcu, fun i => Iff.rfl, ?_⟩
  intro i w v h1 h2
  rw [show (s.post p n).window? i = s.window? i from rfl, h1] at h2
  cases h2; exact Window.SameButFaults.refl w

theorem State.Mends.postAll (s : State) (n : Notice) : s.Mends (s.postAll n) :=
  (((State.Mends.post s .p0 n).trans (State.Mends.post _ .p1 n)).trans
    (State.Mends.post _ .p2 n)).trans (State.Mends.post _ .p3 n)

theorem State.Mends.countFault (s : State) (line : Nat) (f : FaultCounts → FaultCounts) :
    s.Mends (s.countFault line f) := by
  unfold State.countFault
  split
  · exact State.Mends.refl s
  · rename_i i _
    split
    · exact State.Mends.refl s
    · rename_i w hw
      have hi := State.window?_eq_some_lt hw
      refine ⟨rfl, fun q => Pcu.Quiet.refl _, fun j => ?_, fun j x v h1 h2 => ?_⟩
      · rw [State.window?_setWindow]
        split
        · rename_i e; rw [e.1, hw]; simp
        · exact Iff.rfl
      · rw [State.window?_setWindow] at h2
        split at h2
        · rename_i e
          rw [e.1, hw] at h1
          cases h1; cases h2; rfl
        · rw [h1] at h2; cases h2; exact Window.SameButFaults.refl x

theorem State.Mends.countCorrection (s : State) (line : Nat) : s.Mends (s.countCorrection line) := by
  unfold State.countCorrection
  generalize countUp 4294967295 s.correctedTotal = n
  exact State.Mends.trans (t := { s with correctedTotal := n }) (State.Mends.own rfl rfl rfl)
    (State.Mends.countFault _ _ _)

theorem State.Mends.writeLine (s : State) (phys : Nat) (b : List Byte) : s.Mends (s.writeLine phys b) :=
  State.Mends.own rfl rfl rfl

theorem State.Mends.retire (s : State) (line k : Nat) (b : List Byte) : s.Mends (s.retire line k b) := by
  unfold State.retire
  refine State.Mends.trans ?_ (State.Mends.writeLine _ _ _)
  refine State.Mends.trans (t := { s with
      suspects := s.suspects.erase line
      spares := s.sparesAfter line k
      remap := remapAfter s.remap line k
      retirementsTotal := s.retirementsTotal + 1 }) (State.Mends.own rfl rfl rfl)
    (State.Mends.countFault _ _ _)

theorem State.Mends.rewriteSuspect (s : State) (r : LineRef) (b : List Byte) :
    s.Mends (s.rewriteSuspect r b) := by
  unfold State.rewriteSuspect
  split
  · split
    · exact State.Mends.retire s _ _ _
    · exact (State.Mends.postAll s _).trans (State.Mends.writeLine _ _ _)
  · exact State.Mends.own rfl rfl rfl

theorem State.Mends.poisonLine (s : State) (line : Nat) : s.Mends (s.poisonLine line) := by
  have h : s.Mends { s with poisoned := insertRising s.poisoned line } :=
    State.Mends.own rfl rfl rfl
  unfold State.poisonLine
  simp only
  split
  · exact h
  · split
    · exact h
    · exact (h.trans (State.Mends.countFault _ _ _)).trans (State.Mends.postAll _ _)

/-- The handling of a line is a change of the integrity unit's (R110 to R122). -/
theorem State.Mends.handleRead (s : State) (r : LineRead) (b : Option (List Byte)) :
    s.Mends (s.handleRead r b) := by
  unfold State.handleRead
  split
  · split
    · exact State.Mends.writeLine s _ _
    · exact State.Mends.refl s
  · exact (State.Mends.countCorrection s _).trans (State.Mends.rewriteSuspect _ _ _)
  · exact State.Mends.poisonLine s _

theorem State.Mends.handleReads (s : State) (rs : List LineRead) (m : LineRef → Option (List Byte)) :
    s.Mends (s.handleReads rs m) := by
  unfold State.handleReads
  induction rs generalizing s with
  | nil => exact State.Mends.refl s
  | cons r rs ih => exact (State.Mends.handleRead s r _).trans (ih _)

theorem State.Mends.overwriteLine (s : State) (r : LineRef) (b : List Byte) :
    s.Mends (s.overwriteLine r b) := State.Mends.own rfl rfl rfl

end Sys2Proof.Machine
end

