-- ==== Sys2Proof/Laws/Links.lean ====
section
/-! SUPPORT. Clocking a port link: what a whole byte does to a frame in progress, and what the bits of
a command frame leave. -/

namespace Sys2Proof.Machine

/-- What the completion of a byte does: the frame holds it, and where it completes the header of a
served immediate frame the snapshot is taken (R152, R162). -/
def State.afterByte (s : State) (p : Port) (g : Frame) : State :=
  match g.snapshotDue with
  | some k =>
    let s₁ := s.setDecoder p (.frame { g with snapshot := some (s.snapshotOf p g k) })
    if k = .fetchNotice then s₁.setPcu p (s₁.pcu p).markFetch else s₁
  | none => s.setDecoder p (.frame g)

/-- One bit, as a case distinction on the link. -/
theorem State.clockBit_frame {s : State} {p : Port} {f : Frame} (h : (s.link p).decoder = .frame f)
    (b : Bool) : s.clockBit p b = s.afterByte p (f.clock b) := by
  unfold State.clockBit State.afterByte
  rw [h] <;> rfl

/-- A bit that does not complete its byte only joins the byte in progress. -/
theorem State.clockBit_inside {s : State} {p : Port} {f : Frame}
    (h : (s.link p).decoder = .frame f) (hs : f.snapshot = none) (hb : f.bits.length < 7) (b : Bool) :
    s.clockBit p b =
      s.setDecoder p (.frame { f with bitCount := f.bitCount + 1, bits := f.bits ++ [b] }) := by
  rw [State.clockBit_frame h]
  have h7 : ¬ f.bits.length = 7 := by omega
  simp [State.afterByte, Frame.clock, hs, h7, Frame.snapshotDue]

theorem State.setLink_link (s : State) (p : Port) : s.setLink p (s.link p) = s := by
  simp [State.setLink, State.link]

@[simp] theorem State.decoder_setDecoder (s : State) (p : Port) (d : Decoder) :
    ((s.setDecoder p d).link p).decoder = d := by simp [State.setDecoder]

@[simp] theorem State.setDecoder_setDecoder (s : State) (p : Port) (d e : Decoder) :
    (s.setDecoder p d).setDecoder p e = s.setDecoder p e := by simp [State.setDecoder]

theorem State.setDecoder_of_decoder {s : State} {p : Port} {d : Decoder}
    (h : (s.link p).decoder = d) : s.setDecoder p d = s := by
  subst h
  exact State.setLink_link s p

/-- What a link reports of the state does not depend on its own decoder. -/
theorem State.snapshotOf_setDecoder (s : State) (p : Port) (d : Decoder) (f : Frame)
    (k : ImmediateKind) : (s.setDecoder p d).snapshotOf p f k = s.snapshotOf p f k := by
  cases k <;>
    simp [State.snapshotOf, State.setDecoder, State.statusRecord, State.statusFlags,
      State.deviceInfo, State.channelInfo, State.spareCount]

theorem State.afterByte_setDecoder (s : State) (p : Port) (d : Decoder) (g : Frame) :
    (s.setDecoder p d).afterByte p g = s.afterByte p g := by
  simp only [State.afterByte, State.snapshotOf_setDecoder, State.setDecoder_setDecoder]

/-- A bit inside a byte, on a link just updated. -/
theorem State.setDecoder_clockBit (s : State) (p : Port) {f : Frame} (hs : f.snapshot = none)
    (hb : f.bits.length < 7) (b : Bool) :
    (s.setDecoder p (.frame f)).clockBit p b =
      s.setDecoder p (.frame { f with bitCount := f.bitCount + 1, bits := f.bits ++ [b] }) := by
  rw [State.clockBit_inside (State.decoder_setDecoder s p (.frame f)) hs hb,
    State.setDecoder_setDecoder]

/-- Eight bits complete one byte (R152). -/
theorem State.clockBits_byte {s : State} {p : Port} {f : Frame}
    (h : (s.link p).decoder = .frame f) (hs : f.snapshot = none) (hb : f.bits = []) (b : Byte) :
    s.clockBits p (bitsOfByte b) =
      s.afterByte p { f with bitCount := f.bitCount + 8, bytes := f.bytes ++ [b], bits := [] } := by
  simp only [State.clockBits, bitsOfByte, List.foldl_cons, List.foldl_nil]
  rw [State.clockBit_inside h hs (by simp [hb])]
  iterate 6 rw [State.setDecoder_clockBit s p (by exact hs) (by simp [hb])]
  rw [State.clockBit_frame (State.decoder_setDecoder _ _ _), State.afterByte_setDecoder]
  have e : (f.bits ++ [b.getLsbD 7] ++ [b.getLsbD 6] ++ [b.getLsbD 5] ++ [b.getLsbD 4]
      ++ [b.getLsbD 3] ++ [b.getLsbD 2] ++ [b.getLsbD 1]) ++ [b.getLsbD 0] = bitsOfByte b := by
    rw [hb]; rfl
  have h7 : (f.bits ++ [b.getLsbD 7] ++ [b.getLsbD 6] ++ [b.getLsbD 5] ++ [b.getLsbD 4]
      ++ [b.getLsbD 3] ++ [b.getLsbD 2] ++ [b.getLsbD 1]).length = 7 := by rw [hb]; rfl
  simp only [Frame.clock, hs, Option.isSome_none, Bool.false_eq_true, if_false, h7, if_true]
  rw [e, byteOfBits_bitsOfByte]

/-- Bytes of a frame that is no immediate frame are only received (R152). -/
theorem State.clockBits_received {s : State} {p : Port} {f : Frame}
    (h : (s.link p).decoder = .frame f) (hs : f.snapshot = none) (hb : f.bits = [])
    (bs : List Byte) (hi : ∀ c, (f.bytes ++ bs).head? = some c → immediateOf c = none) :
    s.clockBits p (bitsOfBytes bs) =
      s.setDecoder p (.frame
        { f with bitCount := f.bitCount + 8 * bs.length, bytes := f.bytes ++ bs }) := by
  induction bs generalizing s f with
  | nil =>
    simp [bitsOfBytes, State.clockBits, State.setDecoder_of_decoder h]
  | cons b bs ih =>
    have e : s.clockBits p (bitsOfByte b) = s.setDecoder p (.frame
        { f with bitCount := f.bitCount + 8, bytes := f.bytes ++ [b], bits := [] }) := by
      rw [State.clockBits_byte h hs hb]
      have hn : (f.bytes ++ [b]).head?.bind immediateOf = none := by
        cases hf : f.bytes with
        | nil => simpa [hf] using hi b (by simp [hf])
        | cons c l => simpa [hf] using hi c (by simp [hf])
      have hd : Frame.snapshotDue
          { f with bitCount := f.bitCount + 8, bytes := f.bytes ++ [b], bits := [] } = none := by
        unfold Frame.snapshotDue
        split
        · rfl
        · rw [hn]
      unfold State.afterByte
      rw [hd]
    have e2 : s.clockBits p (bitsOfBytes (b :: bs)) =
        (s.clockBits p (bitsOfByte b)).clockBits p (bitsOfBytes bs) := by
      simp [State.clockBits, bitsOfBytes, List.foldl_append]
    have hg : ∀ c, ((f.bytes ++ [b]) ++ bs).head? = some c → immediateOf c = none := by
      intro c hc
      exact hi c (by rw [← hc, List.append_assoc]; rfl)
    rw [e2, e, ih (f := { f with
        bitCount := f.bitCount + 8, bytes := f.bytes ++ [b], bits := [] })
      (State.decoder_setDecoder _ _ _) hs rfl hg, State.setDecoder_setDecoder]
    simp [hb, Nat.mul_add, Nat.add_assoc, Nat.add_comm]

/-- No snapshot is due in an immediate frame other than STATUS whose start did not show READY, nor in a
PORT RESET frame (R156, R162). -/
theorem Frame.snapshotDue_none {f : Frame} {k : ImmediateKind}
    (hk : f.bytes.head?.bind immediateOf = some k)
    (h : (f.ready = false ∧ k ≠ .status) ∨ k = .portReset) : f.snapshotDue = none := by
  unfold Frame.snapshotDue
  split
  · rfl
  · rw [hk]
    rcases h with ⟨h1, h2⟩ | rfl
    · cases k <;> simp_all
    · rfl

/-- The bits of such a frame are only counted and received (R155, R162). -/
theorem State.clockBits_without_snapshot (bits : List Bool) {s : State} {p : Port} {f : Frame}
    {op : Byte} {k : ImmediateKind} (hf : (s.link p).decoder = .frame f) (hs : f.snapshot = none)
    (ho : f.bytes.head? = some op) (hk : immediateOf op = some k)
    (h : (f.ready = false ∧ k ≠ .status) ∨ k = .portReset) :
    ∃ g, s.clockBits p bits = s.setDecoder p (.frame g) ∧ g.start = f.start ∧ g.snapshot = none ∧
      g.bitCount = f.bitCount + bits.length ∧ g.bytes.head? = some op := by
  induction bits generalizing s f with
  | nil => exact ⟨f, (State.setDecoder_of_decoder hf).symm, rfl, hs, rfl, ho⟩
  | cons b bits ih =>
    have hc : (f.clock b).start = f.start ∧ (f.clock b).snapshot = none ∧
        (f.clock b).bitCount = f.bitCount + 1 ∧ (f.clock b).bytes.head? = some op := by
      unfold Frame.clock
      rw [hs]
      simp only [Option.isSome_none, Bool.false_eq_true, if_false]
      split
      · refine ⟨rfl, rfl, rfl, ?_⟩
        rw [List.head?_append, ho]
        rfl
      · exact ⟨rfl, rfl, rfl, ho⟩
    have hr : ((f.clock b).ready = false ∧ k ≠ .status) ∨ k = .portReset := by
      unfold Frame.ready at h ⊢
      rw [hc.1]
      exact h
    have e : s.clockBit p b = s.setDecoder p (.frame (f.clock b)) := by
      rw [State.clockBit_frame hf]
      unfold State.afterByte
      rw [Frame.snapshotDue_none (k := k) (by rw [hc.2.2.2]; exact hk) hr]
    obtain ⟨g, h1, h2, h3, h4, h5⟩ :=
      ih (State.decoder_setDecoder s p (.frame (f.clock b))) hc.2.1 hc.2.2.2 hr
    refine ⟨g, ?_, h2.trans hc.1, h3, ?_, h5⟩
    · show (s.clockBit p b).clockBits p bits = _
      rw [e, h1, State.setDecoder_setDecoder]
    · rw [h4, hc.2.2.1, List.length_cons]
      omega

end Sys2Proof.Machine
end

