-- ==== Sys2Proof/Laws/Keeps.lean ====
section
/-! SUPPORT. What a command can do, said once: `Keeps Inv` lists the changes out of which every command
but a reset is made, each with what is known where it is made; a property that each of them keeps is
kept by every command. -/

namespace Sys2Proof.Machine

/-! ### Mild changes of a PCU -/

/-- A change of a PCU that lengthens no command queue and keeps the notice queue lawful. -/
structure Pcu.Mild (u v : Pcu) : Prop where
  queue : v.queue.length ≤ u.queue.length
  notices : u.NoticesOk → v.NoticesOk

theorem Pcu.Quiet.mild {u v : Pcu} (h : u.Quiet v) : u.Mild v := ⟨h.queue, h.notices⟩

theorem Pcu.Mild.refl (u : Pcu) : u.Mild u := ⟨le_refl _, id⟩

theorem Pcu.Mild.trans {u v w : Pcu} (h : u.Mild v) (k : v.Mild w) : u.Mild w :=
  ⟨k.queue.trans h.queue, k.notices ∘ h.notices⟩

theorem Pcu.Mild.endTeardown (u : Pcu) : u.Mild u.endTeardown := by
  unfold Pcu.endTeardown
  split
  · exact ⟨le_refl _, id⟩
  · exact Pcu.Mild.refl u

theorem Notice.sameKey_keptFor (m : FetchMark) (a b : Notice) :
    (a.keptFor m).sameKey b = a.sameKey b := by
  cases a <;> cases b <;> rfl

theorem Notice.sameKey_keptFor_right (m : FetchMark) (a b : Notice) :
    a.sameKey (b.keptFor m) = a.sameKey b := by
  rw [Notice.sameKey_comm, Notice.sameKey_keptFor, Notice.sameKey_comm]

theorem Pcu.Mild.fetched (u : Pcu) : u.Mild u.fetched := by
  unfold Pcu.fetched
  split
  · exact Pcu.Mild.refl u
  · split
    · exact ⟨le_refl _, fun h => ⟨(List.length_filter_le _ _).trans h.1, h.2.filter _⟩⟩
    · refine ⟨le_refl _, fun h => ⟨by simpa using h.1, ?_⟩⟩
      simp only
      rw [List.pairwise_map]
      refine h.2.imp ?_
      intro a b hab
      split <;> split <;>
        simpa only [Notice.sameKey_keptFor, Notice.sameKey_keptFor_right] using hab

/-! ### The changes commands are made of -/

/-- A property of the state that every change a command makes keeps, resets apart. -/
structure Keeps (Inv : State → Prop) : Prop where
  pending : ∀ (s : State) l, Inv s → Inv { s with pending := l }
  pcu : ∀ (s : State) p u, (s.pcu p).Mild u → Inv s → Inv (s.setPcu p u)
  link : ∀ (s : State) p l, (∀ f, l.decoder = .frame f → f.start = s.statusFlags p ∨
    ∃ g, (s.link p).decoder = .frame g ∧ f.start = g.start) → Inv s → Inv (s.setLink p l)
  admitCommand : ∀ (s : State) p f tag c, (s.link p).decoder = .frame f → f.start.cqFull = false → Inv s →
    Inv (s.admitCommand p tag c)
  define : ∀ (s : State) p i base len pol lease wait,
    defineOutcome s p i base len pol lease wait = .ok → Inv s → Inv (s.setWindow i.toNat
      ((policyOf pol).map (fun x => Window.fresh base.toNat len.toNat x lease.toNat wait.toNat)))
  params : ∀ (s : State) p i sel pol lease wait, paramsOutcome s p i sel pol lease wait = .ok →
    Inv s → Inv (s.setWindow i.toNat
      ((s.window? i.toNat).map (fun w => w.withParams sel pol lease wait)))
  delete : ∀ (s : State) p i, deleteOutcome s p i = .ok → Inv s →
    Inv ((s.revoke i.toNat).setWindow i.toNat none)
  granted : ∀ (s : State) i w p k, s.window? i = some w → w.activity = .idle → w.policy ≠ .free →
    w.holds p = false → w.waits p = false → w.grantable k = true → Inv s →
    Inv (s.setWindow i (some (w.grantClaim p k s.msCount)))
  waiting : ∀ (s : State) i w p k tag, s.window? i = some w → w.activity = .idle →
    w.policy ≠ .free → w.holds p = false → w.waits p = false → w.grantable k = false → Inv s →
    Inv (s.setWindow i (some { w with waiters := w.waiters ++ [w.newWaiter p k tag s.msCount] }))
  claimEnds : ∀ (s t : State) i w p, s.window? i = some w → w.holds p = true → s.Calm t →
    t.windows = (s.setWindow i (some (w.removeHolder p))).windows → Inv s → Inv (t.grantPass i)
  waitEnds : ∀ (s t : State) i w p, s.window? i = some w → s.Calm t →
    t.windows = (s.setWindow i (some (w.removeWaiter p))).windows → Inv s → Inv (t.grantPass i)
  lease : ∀ (s : State) i w p l, s.window? i = some w → w.holds p = true → Inv s →
    Inv (s.setWindow i (some { w with holders := w.holders.set p (some l) }))
  keyed : ∀ (s : State) p i level key, setKeyOutcome s p i level = .ok → Inv s →
    Inv (s.setGuard i.toNat (fun _ => Guard.keyedBy p key ((levelOf level).getD .standard)))
  cleared : ∀ (s : State) p i, clearKeyOutcome s p i = .ok → Inv s →
    Inv (s.setGuard i.toNat (fun _ => Guard.fresh))
  compared : ∀ (s : State) i b, (∀ w, s.window? i = some w → w.guard.key ≠ none) → Inv s →
    Inv (s.compareWindow i b)
  unlocked : ∀ (s : State) i p,
    (∀ w, s.window? i = some w → w.guard.key ≠ none ∧ w.activity = .idle) → Inv s →
    Inv (s.joinUnlocked i p)
  locked : ∀ (s : State) i p, Inv s →
    Inv (s.setGuard i (fun g => { g with unlocked := g.unlocked.set p false }))
  torn : ∀ (s : State) p, Inv s → Inv (s.teardownClaims p)
  wipeStart : ∀ (s : State) p tag i w, s.window? i = some w → w.activity = .idle →
    s.frozen = false → (s.c0 = none ∨ s.c1 = none) → Inv s → Inv (s.wipeStart p tag i w)
  newMaster : ∀ (s : State) key, s.frozen = false → Inv s →
    Inv { s with masterKey := some key, masterAttempts := 4 }
  comparedMaster : ∀ (s : State) b, Inv s → Inv (s.compareMaster b)
  freeze : ∀ (s : State) p, freezeOutcome s p = .ok → Inv s → Inv { s with frozen := true }
  scrub : ∀ (s : State) e n, Inv s → Inv (s.applyScrub e n)
  startJob : ∀ (s : State) j, j.kind ≠ .wipe → j.state = .running → Inv s → Inv (s.startJob j)
  ending : ∀ (s : State) c j o, s.job c = some j → j.kind ≠ .wipe → s.stepInFlight c = true →
    Inv s → Inv (s.setJob c (some { j with state := .ending o }))
  endJob : ∀ (s : State) c j o, s.job c = some j → s.stepInFlight c = false →
    (j.kind = .wipe → s.window? j.dest.window = none) → Inv s → Inv (s.endJob c o)
  tornJob : ∀ (s : State) p c, Inv s → Inv (s.teardownJob p c)
  rotation : ∀ (s : State) x, Inv s → Inv { s with rotation := x }
  startPort : ∀ (s : State) p work, s.inFlight = none → (s.scrubDue = true → s.postponed ≠ 4) →
    Inv s → Inv (s.startAccess (.port p) work)
  startStep : ∀ (s : State) c j work, s.inFlight = none → (s.scrubDue = true → s.postponed ≠ 4) →
    s.job c = some j → work.ofJob j.kind → Inv s → Inv (s.startAccess (.channel c) work)
  grantScrub : ∀ s : State, s.inFlight = none → Inv s → Inv s.grantScrub
  handled : ∀ (s : State) r b, Inv s → Inv (s.handleRead r b)
  overwritten : ∀ (s : State) r b, Inv s → Inv (s.overwriteLine r b)
  planted : ∀ (s : State) n k, Inv s → Inv (s.plant n k)
  flipped : ∀ (s : State) f, Inv s → Inv (s.flipBit f)
  endPort : ∀ (s : State) p work, s.inFlight = some ⟨.slot (.port p), work⟩ → Inv s → Inv s.endFlight
  endScrub : ∀ (s : State) work n, s.inFlight = some ⟨.scrub, work⟩ → Inv s →
    Inv { s.endFlight with scrubPointer := n }
  stepEnds : ∀ (s : State) c work n good, s.inFlight = some ⟨.slot (.channel c), work⟩ →
    (∀ k, work.ofJob k → k ≠ .wipe) → Inv s → Inv (s.endFlight.stepDone c n good)
  wipeStepEnds : ∀ (s : State) c d, s.inFlight = some ⟨.slot (.channel c), .wipeStep d⟩ → Inv s →
    Inv (s.endFlight.wipeStepDone c)
  signal : ∀ (s : State) x, Inv s → Inv (State.scrubSignal { s with scrubTimer := x })
  timer : ∀ (s : State) x, Inv s → Inv { s with scrubTimer := x }
  tick : ∀ (s : State) x, Inv s → Inv { s with msCount := x, usCount := 0 }
  microtick : ∀ s : State, s.millisecondDue = false → Inv s → Inv { s with usCount := s.usCount + 1 }
  sweep : ∀ (s : State) n, Inv s → Inv { s with sweepPointer := n }
  sweepEnd : ∀ s : State, Inv s → Inv s.sweepEnd

/-! ### What leaves the timebase -/

theorem State.millisecondDue_eq_false {s : State} : s.millisecondDue = false ↔ s.usCount < 1000 := by
  unfold State.millisecondDue Config.microsecondsPerTick
  rw [decide_eq_false_iff_not, Nat.not_le]

/-- Nothing is due right after a millisecond tick. -/
theorem State.millisecondDue_millisecond (s : State) : s.millisecond.millisecondDue = false := by
  rw [State.millisecondDue_eq_false]
  unfold State.millisecond
  split <;> exact Nat.zero_lt_succ 999

theorem State.usCount_endJob (s : State) (c : Channel) (o : OutcomeCode) :
    (s.endJob c o).usCount = s.usCount ∧ (s.endJob c o).msCount = s.msCount := by
  unfold State.endJob
  split
  · exact ⟨rfl, rfl⟩
  · simp only
    split
    · simp [State.complete]
    · split <;> simp

theorem State.usCount_endAccess (s : State) (p : Port) (k : CommandKind) (o : OutcomeCode) (e : Extra) :
    (s.endAccess p k o e).usCount = s.usCount ∧ (s.endAccess p k o e).msCount = s.msCount := by
  unfold State.endAccess
  simp only
  split
  · exact ⟨rfl, rfl⟩
  · split <;> exact ⟨rfl, rfl⟩

/-- A grant leaves both counts of the timebase. -/
theorem State.usCount_grantTo (s : State) (r : Requestor) :
    (s.grantTo r).usCount = s.usCount ∧ (s.grantTo r).msCount = s.msCount := by
  match r with
  | .scrub => exact ⟨rfl, rfl⟩
  | .slot (.port p) =>
    unfold State.grantTo State.grantPort
    simp only
    split
    · exact ⟨rfl, rfl⟩
    · split
      · split
        · exact ⟨rfl, rfl⟩
        · exact State.usCount_endAccess _ _ _ _ _
      · split
        · exact ⟨rfl, rfl⟩
        · exact State.usCount_endAccess _ _ _ _ _
      · exact ⟨rfl, rfl⟩
  | .slot (.channel c) =>
    unfold State.grantTo State.grantChannel
    simp only
    split
    · exact ⟨rfl, rfl⟩
    · split
      · split
        · exact ⟨rfl, rfl⟩
        · exact State.usCount_endJob _ _ _
      · split
        · exact ⟨rfl, rfl⟩
        · exact State.usCount_endJob _ _ _
      · exact ⟨rfl, rfl⟩
      · exact State.usCount_endJob _ _ _

/-- An expiry of the scrub timer leaves both counts of the timebase. -/
theorem State.usCount_settleScrub (s : State) :
    s.settleScrub.usCount = s.usCount ∧ s.settleScrub.msCount = s.msCount := by
  unfold State.settleScrub
  split
  · have hs : ∀ t : State, t.scrubSignal.usCount = t.usCount ∧ t.scrubSignal.msCount = t.msCount := by
      intro t
      unfold State.scrubSignal
      split <;> exact ⟨rfl, rfl⟩
    unfold State.scrubExpire Machine.arrive
    split
    · unfold State.grantNow
      split
      · have := State.usCount_grantTo (State.scrubSignal { s with scrubTimer := some s.scrubInterval })
          (by assumption)
        exact ⟨this.1.trans (hs _).1, this.2.trans (hs _).2⟩
      · exact hs _
    · exact hs _
  · exact ⟨rfl, rfl⟩

/-! ### What does not start an access -/

theorem State.inFlight_setGuard (s : State) (i : Nat) (f : Guard → Guard) :
    (s.setGuard i f).inFlight = s.inFlight := (State.Calm.setGuard s i f).inFlight

theorem State.inFlight_startJob (s : State) (j : Job) : (s.startJob j).inFlight = s.inFlight := by
  unfold State.startJob
  split <;> simp

theorem State.inFlight_endJob (s : State) (c : Channel) (o : OutcomeCode) :
    (s.endJob c o).inFlight = s.inFlight := by
  unfold State.endJob
  split
  · rfl
  · simp only
    split
    · simp [State.complete]
    · split <;> simp

theorem State.inFlight_revokeJob (s : State) (i : Nat) (c : Channel) :
    (s.revokeJob i c).inFlight = s.inFlight := by
  unfold State.revokeJob
  split
  · rfl
  · split
    · split
      · split <;> simp
      · exact State.inFlight_endJob s c _
    · rfl

theorem State.inFlight_wipeStart (s : State) (p : Port) (tag : Byte) (i : Nat) (w : Window) :
    (s.wipeStart p tag i w).inFlight = s.inFlight := by
  unfold State.wipeStart
  simp only
  rw [(State.Calm.leaveQueue _ p).inFlight, State.inFlight_startJob, State.inFlight_revokeJob,
    State.inFlight_revokeJob, (State.Calm.revoke _ i).inFlight]
  rfl

theorem State.inFlight_finishWith (s e : State) (h : e.inFlight = s.inFlight) (p : Port) (tag : Byte)
    (k : CommandKind) (o : OutcomeCode) : (s.finishWith p tag k o e).inFlight = s.inFlight := by
  unfold State.finishWith
  split
  · exact h
  · rfl

theorem wipeAuthority_inFlight (s : State) (p : Port) (i sel : Byte) (key : Key) (w : Window) :
    (wipeAuthority s p i sel key w).2.inFlight = s.inFlight := by
  unfold wipeAuthority
  split
  · split <;> rfl
  · split
    · split
      · rfl
      · split <;> exact State.inFlight_setGuard _ _ _
    · split
      · rfl
      · split
        · rfl
        · split <;> rfl
    · rfl

theorem doWipe_inFlight (s : State) (p : Port) (tag i sel : Byte) (key : Key) (b : Bool) :
    (doWipe s p tag i sel key b).inFlight = s.inFlight := by
  unfold doWipe
  split
  · split
    · rfl
    · rename_i w _
      have h := wipeAuthority_inFlight s p i sel key w
      simp only
      split
      · split
        · split
          · rw [State.inFlight_wipeStart, h]
          · exact h
        · exact h
      · exact h
  · rfl

/-- No taking starts an access by itself. -/
theorem carryOut_inFlight (s : State) (p : Port) (tag : Byte) (prep : Byte → Bool) (c : Command) :
    (carryOut s p tag prep c).inFlight = s.inFlight := by
  cases c <;> simp only [carryOut]
  case defineWindow =>
    refine State.inFlight_finishWith _ _ ?_ _ _ _ _
    exact rfl
  case setWindowParams =>
    refine State.inFlight_finishWith _ _ ?_ _ _ _ _
    exact rfl
  case deleteWindow =>
    refine State.inFlight_finishWith _ _ ?_ _ _ _ _
    exact (State.Calm.revoke _ _).inFlight
  case freeze =>
    refine State.inFlight_finishWith _ _ ?_ _ _ _ _
    exact rfl
  case setMasterKey =>
    unfold doSetMasterKey
    simp only
    split
    · split
      · rfl
      · split
        · rfl
        · split <;> rfl
    · rfl
  case scrubSettings =>
    refine State.inFlight_finishWith _ _ ?_ _ _ _ _
    unfold State.applyScrub
    split <;> rfl
  case inject =>
    unfold doInject
    split
    · split <;> rfl
    · rfl
  case claim =>
    unfold doClaim
    split
    · split
      · unfold claimDecide
        split
        · rfl
        · split <;> rfl
      · rfl
    · rfl
  case release =>
    unfold doRelease
    simp only
    split
    · rfl
    · split
      · exact (State.Calm.grantPass _ _).inFlight
      · split
        · exact (State.Calm.grantPass _ _).inFlight
        · rfl
  case renew =>
    unfold doRenew
    split
    · rfl
    · split <;> rfl
  case setKey => exact State.inFlight_finishWith _ _ (State.inFlight_setGuard _ _ _) _ _ _ _
  case clearKey => exact State.inFlight_finishWith _ _ (State.inFlight_setGuard _ _ _) _ _ _ _
  case unlock =>
    unfold doUnlock
    split
    · split
      · unfold unlockCompare
        simp only
        split
        · split
          · exact State.inFlight_setGuard _ _ _
          · rfl
        · split
          · exact (State.inFlight_setGuard _ _ _).trans (State.inFlight_setGuard _ _ _)
          · exact State.inFlight_setGuard _ _ _
      · rfl
    · rfl
  case lock =>
    unfold doLock
    split
    · rfl
    · exact State.inFlight_setGuard _ _ _
  case wipePrepare =>
    refine State.inFlight_finishWith _ _ ?_ _ _ _ _
    exact rfl
  case wipe => exact doWipe_inFlight _ _ _ _ _ _ _
  case read =>
    unfold doRead
    split <;> rfl
  case write => rfl
  case copy =>
    unfold doCopy
    simp only
    split
    · exact State.inFlight_startJob _ _
    · rfl
  case fill =>
    unfold doFill
    simp only
    split
    · exact State.inFlight_startJob _ _
    · rfl
  case cancelJob =>
    unfold doCancelJob
    split
    · rfl
    · split
      · rfl
      · split
        · rfl
        · split
          · rfl
          · split
            · simp [State.finish]
            · exact State.inFlight_endJob _ _ _

theorem State.inFlight_takeHead (s : State) (p : Port) : (s.takeHead p).inFlight = s.inFlight := by
  unfold State.takeHead
  split
  · rfl
  · rw [carryOut_inFlight]; rfl

theorem takeIfDue_inFlight (s t : State) (p : Port) : (takeIfDue s t p).inFlight = t.inFlight := by
  unfold takeIfDue
  split
  · rfl
  · exact State.inFlight_takeHead t p

end Sys2Proof.Machine
end

