-- ==== Sys2Proof/Laws/Exec.lean ====
section
/-! SUPPORT. Every command keeps what the changes it is made of keep: `Keeps.exec` for every command
but a reset, and `Keeps.step`. -/

namespace Sys2Proof.Machine

/-- Ordered checks answer OK exactly when every one passes. -/
theorem firstFail_eq_ok {l : List (Bool × OutcomeCode)} (h : ∀ x ∈ l, x.2 ≠ .ok) :
    firstFail l = .ok ↔ ∀ x ∈ l, x.1 = true := by
  induction l with
  | nil => simp [firstFail]
  | cons x l ih =>
    obtain ⟨c, e⟩ := x
    have he : e ≠ .ok := h (c, e) (by simp)
    have := ih (fun y hy => h y (by simp [hy]))
    cases c
    · simp [firstFail, he]
    · simp [firstFail, this]

/-- What a CLAIM that passes its checks finds (R27). -/
theorem claimOutcome_ok {s : State} {p : Port} {i kind wait : Byte}
    (h : claimOutcome s p i kind wait = .ok) :
    ∃ w k c, s.window? i.toNat = some w ∧ claimKindOf kind = some k ∧ waitChoiceOf wait = some c ∧
      w.activity = .idle ∧ w.policy ≠ .free ∧ w.guardPasses p = true ∧ w.holds p = false ∧
      w.waits p = false := by
  unfold claimOutcome at h
  rw [firstFail_eq_ok (by simp)] at h
  simp only [List.forall_mem_cons, List.not_mem_nil, false_imp_iff, implies_true, and_true] at h
  obtain ⟨h1, h2, h3, h4, h5, h6⟩ := h
  obtain ⟨w, hw⟩ := Option.isSome_iff_exists.1 h1
  rw [Bool.and_eq_true] at h6
  obtain ⟨k, hk⟩ := Option.isSome_iff_exists.1 h6.1
  obtain ⟨c, hc⟩ := Option.isSome_iff_exists.1 h6.2
  simp only [hw, Option.any_some, beq_iff_eq, bne_iff_ne, Bool.and_eq_true, Bool.not_eq_true'] at h2 h3 h4 h5
  exact ⟨w, k, c, hw, hk, hc, h2, h3, h4, h5.1, h5.2⟩

/-- What an UNLOCK that passes its checks finds (R56). -/
theorem unlockOutcome_ok {s : State} {i sel : Byte} (h : unlockOutcome s i sel = .ok) :
    ∃ w x, s.window? i.toNat = some w ∧ unlockSelectorOf sel = some x ∧ w.activity = .idle ∧
      w.guard.key ≠ none := by
  unfold unlockOutcome at h
  simp only at h
  have h' : (s.window? i.toNat).isSome = true ∧ (unlockSelectorOf sel).isSome = true ∧
      ((s.window? i.toNat).any (fun w => w.activity == .idle)) = true ∧
      ((s.window? i.toNat).any (fun w => w.guard.key.isSome)) = true := by
    split at h <;> rw [firstFail_eq_ok (by simp)] at h <;> simp_all
  obtain ⟨h1, h2, h3, h4⟩ := h'
  obtain ⟨w, hw⟩ := Option.isSome_iff_exists.1 h1
  obtain ⟨x, hx⟩ := Option.isSome_iff_exists.1 h2
  rw [hw] at h3 h4
  exact ⟨w, x, hw, hx, by simpa using h3, by simpa [Option.isSome_iff_ne_none] using h4⟩

/-- What a WIPE that passes checks 1 to 4 finds (R68). -/
theorem wipeOutcome_ok {s : State} {i : Byte} {b : Bool} (h : wipeOutcome s i b = .ok) :
    b = true ∧ s.frozen = false ∧ ∃ w, s.window? i.toNat = some w ∧ w.activity = .idle := by
  unfold wipeOutcome at h
  rw [firstFail_eq_ok (by simp)] at h
  simp only [List.forall_mem_cons, List.not_mem_nil, false_imp_iff, implies_true, and_true] at h
  obtain ⟨h1, h2, h3, h4⟩ := h
  obtain ⟨w, hw⟩ := Option.isSome_iff_exists.1 h3
  rw [hw] at h4
  exact ⟨h1, by simpa using h2, w, hw, by simpa using h4⟩

/-! ### The arbiter's choice -/

/-- Where the arbiter grants a slot, the scrub is not due with the count at 4, and the slot has a
request (R98). -/
theorem State.choose_slot {s : State} {x : Slot} (h : s.choose = some (.slot x)) :
    (s.scrubDue = true → s.postponed ≠ 4) ∧ s.requests x = true := by
  unfold State.choose at h
  split at h
  · simp at h
  · rename_i hn
    split at h
    · rename_i y hy
      cases h
      refine ⟨fun hd hp => hn (by simp [hd, hp]), List.find?_some hy⟩
    · split at h <;> simp at h

/-- With nothing to choose, no scrub is due and nobody requests. -/
theorem State.choose_eq_none {s : State} :
    s.choose = none ↔ s.scrubDue = false ∧ ∀ x, s.requests x = false := by
  have hall : ∀ (r x : Slot), x ∈ r.around := by
    intro r x
    rcases r with p | c <;> rcases x with q | d
    · cases p <;> cases q <;> decide
    · cases p <;> cases d <;> decide
    · cases c <;> cases q <;> decide
    · cases c <;> cases d <;> decide
  unfold State.choose
  constructor
  · intro h
    split at h
    · simp at h
    · split at h
      · simp at h
      · rename_i hf
        split at h
        · simp at h
        · rename_i hd
          refine ⟨by simpa using hd, fun x => ?_⟩
          rw [List.find?_eq_none] at hf
          simpa using hf x (hall _ x)
  · rintro ⟨h1, h2⟩
    have : s.rotation.around.find? s.requests = none := by
      rw [List.find?_eq_none]
      intro x _
      simp [h2 x]
    simp [h1, this]

namespace Keeps

variable {Inv : State → Prop} (k : Keeps Inv)

include k

/-! ### Shared operations -/

theorem quiet {s : State} {p : Port} {u : Pcu} (h : (s.pcu p).Quiet u) (hs : Inv s) :
    Inv (s.setPcu p u) := k.pcu s p u h.mild hs

theorem finish {s : State} (hs : Inv s) (p : Port) (tag : Byte) (c : CommandKind) (o : OutcomeCode) :
    Inv (s.finish p tag c o) :=
  k.quiet ((Pcu.Quiet.popHead _).trans (Pcu.Quiet.complete _ _)) hs

theorem finishWith {s e : State} (hs : Inv s) (p : Port) (tag : Byte) (c : CommandKind)
    (o : OutcomeCode) (he : o = .ok → Inv e) : Inv (s.finishWith p tag c o e) := by
  unfold State.finishWith
  split
  · rename_i h; exact k.finish (he h) p tag c _
  · exact k.finish hs p tag c o

theorem leaveQueue {s : State} (hs : Inv s) (p : Port) : Inv (s.leaveQueue p) :=
  k.quiet (Pcu.Quiet.popHead _) hs

theorem beginTake {s : State} (hs : Inv s) (p : Port) : Inv (s.beginTake p) :=
  k.quiet ⟨rfl, rfl, le_refl _, rfl, rfl, id⟩ hs

theorem formAccess {s : State} (hs : Inv s) (p : Port) (tag : Byte) (b : AccessBody) :
    Inv (s.formAccess p tag b) :=
  k.pcu s p _ ⟨by simp, id⟩ hs

theorem endAccess {s : State} (hs : Inv s) (p : Port) (c : CommandKind) (o : OutcomeCode) (e : Extra) :
    Inv (s.endAccess p c o e) := by
  unfold State.endAccess
  simp only
  split
  · exact k.pcu s p _
      (Pcu.Mild.trans (v := { s.pcu p with accessAwaited := false }) ⟨le_refl _, id⟩
        (Pcu.Mild.endTeardown _)) hs
  · split
    · exact hs
    · exact k.pcu s p _ ⟨by simp [Pcu.complete, Pcu.popHead], id⟩ hs

theorem setDecoder {s : State} (hs : Inv s) (p : Port) (d : Decoder)
    (h : ∀ f, d = .frame f → f.start = s.statusFlags p ∨
      ∃ g, (s.link p).decoder = .frame g ∧ f.start = g.start) : Inv (s.setDecoder p d) :=
  k.link s p _ h hs

theorem touch {s : State} (hs : Inv s) (p : Port) (i : Nat) : Inv (s.touch p i) := by
  unfold State.touch
  split
  · exact hs
  · split
    · rename_i hw hp; exact k.lease s i _ p _ hw hp hs
    · exact hs

theorem touchIf {s : State} (hs : Inv s) (b : Bool) (p : Port) (i : Nat) : Inv (s.touchIf b p i) := by
  unfold State.touchIf
  split
  · exact k.touch hs p i
  · exact hs

/-! ### What each taking does -/

theorem doClaim {s : State} (hs : Inv s) (p : Port) (tag i kind wait : Byte) :
    Inv (doClaim s p tag i kind wait) := by
  unfold Machine.doClaim
  split
  · rename_i h
    obtain ⟨w, c, b, hw, hc, hb, h1, h2, -, h4, h5⟩ := claimOutcome_ok h
    simp only [hw, hc, hb]
    unfold claimDecide
    split
    · rename_i hg
      exact k.finish (k.granted s _ w p c hw h1 h2 h4 h5 hg hs) p tag _ _
    · rename_i hg
      split
      · exact k.leaveQueue (k.waiting s _ w p c tag hw h1 h2 h4 h5 (by simpa using hg) hs) p
      · exact k.finish hs p tag _ _
  · exact k.finish hs p tag _ _

theorem doRelease {s : State} (hs : Inv s) (p : Port) (tag i : Byte) : Inv (doRelease s p tag i) := by
  unfold Machine.doRelease
  simp only
  split
  · exact k.finish hs p tag _ _
  · rename_i w hw
    split
    · rename_i hp
      exact k.claimEnds s _ _ w p hw hp
        ((State.Calm.setWindow s _ _).trans (State.Calm.finish _ _ _ _ _)) rfl hs
    · split
      · exact k.waitEnds s _ _ w p hw
          (((State.Calm.setWindow s _ _).trans (State.Calm.completeWait _ _ _)).trans
            (State.Calm.finish _ _ _ _ _)) rfl hs
      · exact k.finish hs p tag _ _

theorem doRenew {s : State} (hs : Inv s) (p : Port) (tag i : Byte) : Inv (doRenew s p tag i) := by
  unfold Machine.doRenew
  split
  · exact k.finish hs p tag _ _
  · rename_i w hw
    split
    · rename_i hp
      exact k.finish (k.lease s _ w p _ hw hp hs) p tag _ _
    · exact k.finish hs p tag _ _

theorem doUnlock {s : State} (hs : Inv s) (p : Port) (tag i sel : Byte) (key : Key) :
    Inv (doUnlock s p tag i sel key) := by
  unfold Machine.doUnlock
  split
  · rename_i h
    obtain ⟨w, x, hw, hx, ha, hk⟩ := unlockOutcome_ok h
    simp only [hw, hx]
    have hu : ∀ v, s.window? i.toNat = some v → v.guard.key ≠ none ∧ v.activity = .idle := by
      intro v hv; rw [hw] at hv; cases hv; exact ⟨hk, ha⟩
    have hj := k.unlocked s i.toNat p hu hs
    unfold unlockCompare
    simp only
    split
    · split
      · exact k.finish (k.comparedMaster _ _ hj) p tag _ _
      · exact k.finish (k.comparedMaster _ _ hs) p tag _ _
    · split
      · refine k.finish (k.compared _ _ _ ?_ hj) p tag _ _
        intro v hv
        have hi := State.window?_eq_some_lt hw
        rw [State.joinUnlocked, State.setGuard, hw] at hv
        simp only [State.window?_setWindow_same _ hi, Option.some.injEq] at hv
        rw [← hv]; exact hk
      · exact k.finish (k.compared _ _ _ (fun v hv => (hu v hv).1) hs) p tag _ _
  · exact k.finish hs p tag _ _

theorem doLock {s : State} (hs : Inv s) (p : Port) (tag i : Byte) : Inv (doLock s p tag i) := by
  unfold Machine.doLock
  split
  · exact k.finish hs p tag _ _
  · exact k.finish (k.locked s _ p hs) p tag _ _

theorem doSetMasterKey {s : State} (hs : Inv s) (p : Port) (tag : Byte) (a b : Key) :
    Inv (doSetMasterKey s p tag a b) := by
  unfold Machine.doSetMasterKey
  simp only
  split
  · rename_i h
    have hf : s.frozen = false := by
      rw [firstFail_eq_ok (by simp [State.layoutChecks])] at h
      simpa [State.layoutChecks] using (h (!s.frozen, .frozen) (by simp [State.layoutChecks]))
    have hn := k.newMaster s b hf hs
    split
    · exact k.finish hn p tag _ _
    · split
      · exact k.finish hs p tag _ _
      · split
        · exact k.finish hn p tag _ _
        · exact k.finish (k.comparedMaster s _ hs) p tag _ _
  · exact k.finish hs p tag _ _

theorem setPrepared {s : State} (hs : Inv s) (p : Port) (i : Nat) : Inv (s.setPrepared p i) :=
  k.quiet ⟨rfl, rfl, le_refl _, rfl, rfl, id⟩ hs

theorem wipeAuthority {s : State} (hs : Inv s) (p : Port) (i sel : Byte) (key : Key) {w : Window}
    (hw : s.window? i.toNat = some w) : Inv (wipeAuthority s p i sel key w).2 := by
  unfold Machine.wipeAuthority
  split
  · split <;> exact hs
  · rename_i x hx
    have hc : ∀ v, s.window? i.toNat = some v → v.guard.key ≠ none := by
      intro v hv; rw [hw] at hv; cases hv; simp [hx]
    split
    · split
      · exact hs
      · split <;> exact k.compared s _ _ hc hs
    · split
      · exact hs
      · split
        · exact hs
        · split <;> exact k.comparedMaster s _ hs
    · exact hs

end Keeps

/-- What the authority to wipe leaves alone: everything but the counter compared against (R69, R70). -/
theorem wipeAuthority_kept (s : State) (p : Port) (i sel : Byte) (key : Key) (w : Window) :
    (wipeAuthority s p i sel key w).2.frozen = s.frozen ∧
    (wipeAuthority s p i sel key w).2.c0 = s.c0 ∧ (wipeAuthority s p i sel key w).2.c1 = s.c1 ∧
    ∀ v, (wipeAuthority s p i sel key w).2.window? i.toNat = some v →
      ∃ u, s.window? i.toNat = some u ∧ v.activity = u.activity := by
  have hg : ∀ b, (s.compareWindow i.toNat b).frozen = s.frozen ∧
      (s.compareWindow i.toNat b).c0 = s.c0 ∧ (s.compareWindow i.toNat b).c1 = s.c1 ∧
      ∀ v, (s.compareWindow i.toNat b).window? i.toNat = some v →
        ∃ u, s.window? i.toNat = some u ∧ v.activity = u.activity := by
    intro b
    have hcalm := State.Calm.setGuard s i.toNat
      (fun g => { g with attempts := if b then 4 else g.attempts - 1 })
    refine ⟨hcalm.frozen, hcalm.c0, hcalm.c1, fun v hv => ?_⟩
    unfold State.compareWindow State.setGuard at hv
    cases hw : s.window? i.toNat with
    | none => simp [hw] at hv
    | some u =>
      simp only [hw, State.window?_setWindow_same _ (State.window?_eq_some_lt hw),
        Option.some.injEq] at hv
      exact ⟨u, rfl, by rw [← hv]⟩
  have hs : s.frozen = s.frozen ∧ s.c0 = s.c0 ∧ s.c1 = s.c1 ∧
      ∀ v, s.window? i.toNat = some v → ∃ u, s.window? i.toNat = some u ∧ v.activity = u.activity :=
    ⟨rfl, rfl, rfl, fun v hv => ⟨v, hv, rfl⟩⟩
  unfold wipeAuthority
  split
  · split <;> exact hs
  · split
    · split
      · exact hs
      · split <;> exact hg _
    · split
      · exact hs
      · split
        · exact hs
        · split <;> exact hs
    · exact hs

theorem State.freeChannel?_isSome {s : State} :
    s.freeChannel?.isSome = true ↔ s.c0 = none ∨ s.c1 = none := by
  unfold State.freeChannel?
  cases s.c0 <;> cases s.c1 <;> simp

namespace Keeps

variable {Inv : State → Prop} (k : Keeps Inv)

include k

theorem doWipe {s : State} (hs : Inv s) (p : Port) (tag i sel : Byte) (key : Key) (b : Bool) :
    Inv (doWipe s p tag i sel key b) := by
  unfold Machine.doWipe
  split
  · rename_i h
    obtain ⟨-, hf, w, hw, ha⟩ := wipeOutcome_ok h
    have hi := k.wipeAuthority hs p i sel key hw
    obtain ⟨h1, h2, h3, h4⟩ := wipeAuthority_kept s p i sel key w
    simp only [hw]
    split
    · split
      · rename_i hc
        split
        · rename_i v hv
          obtain ⟨u, hu, e⟩ := h4 v hv
          rw [hw] at hu; cases hu
          exact k.wipeStart _ p tag _ v hv (e.trans ha) (h1.trans hf)
            (by rw [h2, h3]; exact State.freeChannel?_isSome.1 hc) hi
        · exact hi
      · exact k.finish hi p tag _ _
    · exact k.finish hi p tag _ _
  · exact k.finish hs p tag _ _

theorem doCancelJob {s : State} (hs : Inv s) (p : Port) (tag j : Byte) :
    Inv (doCancelJob s p tag j) := by
  unfold Machine.doCancelJob
  split
  · exact k.finish hs p tag _ _
  · split
    · exact hs
    · rename_i c _ _ x hx
      split
      · exact k.finish hs p tag _ _
      · rename_i hk
        split
        · exact k.finish hs p tag _ _
        · split
          · rename_i hf
            exact k.finish (k.ending s c x _ hx hk hf hs) p tag _ _
          · rename_i hf
            exact k.finish (k.endJob s c x _ hx (by simpa using hf) (fun e => absurd e hk) hs) p tag _ _

/-- Every taking keeps it. -/
theorem carryOut {s : State} (hs : Inv s) (p : Port) (tag : Byte) (prep : Byte → Bool) (c : Command) :
    Inv (carryOut s p tag prep c) := by
  cases c <;> simp only [Machine.carryOut]
  case defineWindow => exact k.finishWith hs _ _ _ _ (fun h => k.define s _ _ _ _ _ _ _ h hs)
  case setWindowParams => exact k.finishWith hs _ _ _ _ (fun h => k.params s _ _ _ _ _ _ h hs)
  case deleteWindow => exact k.finishWith hs _ _ _ _ (fun h => k.delete s _ _ h hs)
  case freeze => exact k.finishWith hs _ _ _ _ (fun h => k.freeze s _ h hs)
  case setMasterKey => exact k.doSetMasterKey hs _ _ _ _
  case scrubSettings => exact k.finishWith hs _ _ _ _ (fun _ => k.scrub s _ _ hs)
  case inject =>
    unfold doInject
    split
    · split
      · exact k.formAccess hs _ _ _
      · exact hs
    · exact k.finish hs _ _ _ _
  case claim => exact k.doClaim hs _ _ _ _ _
  case release => exact k.doRelease hs _ _ _
  case renew => exact k.doRenew hs _ _ _
  case setKey => exact k.finishWith hs _ _ _ _ (fun h => k.keyed s _ _ _ _ h hs)
  case clearKey => exact k.finishWith hs _ _ _ _ (fun h => k.cleared s _ _ h hs)
  case unlock => exact k.doUnlock hs _ _ _ _ _
  case lock => exact k.doLock hs _ _ _
  case wipePrepare => exact k.finishWith hs _ _ _ _ (fun _ => k.setPrepared hs _ _)
  case wipe => exact k.doWipe hs _ _ _ _ _ _
  case read =>
    unfold doRead
    split
    · exact k.formAccess hs _ _ _
    · exact k.finish hs _ _ _ _
  case write => exact k.formAccess hs _ _ _
  case copy =>
    unfold doCopy
    simp only
    split
    · exact k.leaveQueue (k.startJob s _ (by simp [copyJob]) rfl hs) _
    · exact k.finish hs _ _ _ _
  case fill =>
    unfold doFill
    simp only
    split
    · exact k.leaveQueue (k.startJob s _ (by simp [fillJob]) rfl hs) _
    · exact k.finish hs _ _ _ _
  case cancelJob => exact k.doCancelJob hs _ _ _

theorem takeHead {s : State} (hs : Inv s) (p : Port) : Inv (s.takeHead p) := by
  unfold State.takeHead
  split
  · exact hs
  · exact k.carryOut (k.beginTake hs p) p _ _ _

theorem takeIfDue {t : State} (ht : Inv t) (s : State) (p : Port) : Inv (takeIfDue s t p) := by
  unfold Machine.takeIfDue
  split
  · exact ht
  · exact k.takeHead ht p

/-! ### The arbiter -/

theorem grantPort {s : State} (hs : Inv s) (h0 : s.inFlight = none)
    (hd : s.scrubDue = true → s.postponed ≠ 4) (p : Port) : Inv (s.grantPort p) := by
  unfold State.grantPort
  split
  · exact hs
  · split
    · simp only
      split
      · exact k.startPort s p _ h0 hd hs
      · exact k.endAccess hs _ _ _ _
    · simp only
      split
      · exact k.startPort s p _ h0 hd hs
      · exact k.endAccess hs _ _ _ _
    · exact k.startPort s p _ h0 hd hs

theorem grantChannel {s : State} (hs : Inv s) (h0 : s.inFlight = none)
    (hd : s.scrubDue = true → s.postponed ≠ 4) (c : Channel) : Inv (s.grantChannel c) := by
  unfold State.grantChannel
  split
  · exact hs
  · rename_i j hj
    have hf : s.stepInFlight c = false := by simp [State.stepInFlight, h0]
    simp only
    split
    · rename_i hk _ _
      split
      · exact k.startStep s c j _ h0 hd hj hk hs
      · exact k.endJob s c j _ hj hf (fun e => by simp [hk] at e) hs
    · rename_i hk _
      split
      · exact k.startStep s c j _ h0 hd hj hk hs
      · exact k.endJob s c j _ hj hf (fun e => by simp [hk] at e) hs
    · rename_i hk _
      exact k.startStep s c j _ h0 hd hj hk hs
    · rename_i hx1 hx2 hx3
      refine k.endJob s c j _ hj hf (fun e => ?_) hs
      cases hw : s.window? j.dest.window with
      | none => rfl
      | some w =>
        exfalso
        have hwin : j.destRun.window = j.dest.window := by
          unfold Job.destRun; cases j.direction <;> rfl
        have hr : s.window? j.destRun.window = some w := by rw [hwin, hw]
        first | exact hx1 w e hr | exact hx2 w e hr

theorem grantNow {s : State} (hs : Inv s) (h0 : s.inFlight = none) : Inv s.grantNow := by
  unfold State.grantNow
  split
  · rename_i r hr
    unfold State.grantTo
    split
    · exact k.grantScrub s h0 hs
    · exact k.grantPort (k.rotation s (Slot.port _).next hs) h0 (State.choose_slot hr).1 _
    · exact k.grantChannel (k.rotation s (Slot.channel _).next hs) h0 (State.choose_slot hr).1 _
  · exact hs

theorem arrive {t : State} (ht : Inv t) (s : State) (h : t.inFlight = s.inFlight) :
    Inv (arrive s t) := by
  unfold Machine.arrive
  split
  · rename_i hc
    refine k.grantNow ht ?_
    rw [h]
    rw [Bool.and_eq_true, Option.isNone_iff_eq_none] at hc
    exact hc.1
  · exact ht

/-! ### Completions -/

theorem handleReads {s : State} (hs : Inv s) (rs : List LineRead)
    (m : LineRef → Option (List Byte)) : Inv (s.handleReads rs m) := by
  unfold State.handleReads
  induction rs generalizing s with
  | nil => exact hs
  | cons r rs ih => exact ih (k.handled s r _ hs)

theorem writeLines {s : State} (hs : Inv s) (lines : List LineRef) (n : Nat) (data : List Byte) :
    Inv (s.writeLines lines n data).1 := by
  unfold State.writeLines
  split
  · split
    · exact k.overwritten s _ _ hs
    · exact k.handleReads hs _ _
  · exact k.handleReads hs _ _

theorem copyLines {s : State} (hs : Inv s) (src : List LineRef) (a : Nat) (d : LineRef) (b n : Nat) :
    Inv (s.copyLines src a d b n).1 := by
  unfold State.copyLines
  simp only
  repeat' split
  all_goals
    dsimp only
    first | exact k.overwritten _ _ _ (k.handleReads hs _ _) | exact k.handleReads hs _ _

theorem fillLines {s : State} (hs : Inv s) (d : LineRef) (b n : Nat) (pat : Byte) :
    Inv (s.fillLines d b n pat).1 := by
  unfold State.fillLines
  simp only
  split
  · exact k.overwritten _ _ _ hs
  · exact k.handleReads hs _ (fun _ => _)

end Keeps

theorem State.inFlight_overwriteLine (s : State) (r : LineRef) (b : List Byte) :
    (s.overwriteLine r b).inFlight = s.inFlight := rfl

theorem State.inFlight_handleReads (s : State) (rs : List LineRead)
    (m : LineRef → Option (List Byte)) : (s.handleReads rs m).inFlight = s.inFlight :=
  (State.Mends.handleReads s rs m).inFlight

theorem State.inFlight_writeLines (s : State) (lines : List LineRef) (n : Nat) (data : List Byte) :
    (s.writeLines lines n data).1.inFlight = s.inFlight := by
  unfold State.writeLines
  split
  · split
    · rfl
    · exact State.inFlight_handleReads s _ _
  · exact State.inFlight_handleReads s _ _

theorem State.inFlight_copyLines (s : State) (src : List LineRef) (a : Nat) (d : LineRef) (b n : Nat) :
    (s.copyLines src a d b n).1.inFlight = s.inFlight := by
  unfold State.copyLines
  simp only
  repeat' split
  all_goals exact State.inFlight_handleReads s _ _

theorem State.inFlight_fillLines (s : State) (d : LineRef) (b n : Nat) (pat : Byte) :
    (s.fillLines d b n pat).1.inFlight = s.inFlight := by
  unfold State.fillLines
  simp only
  split
  · rfl
  · exact State.inFlight_handleReads s _ (fun _ => _)

namespace Keeps

variable {Inv : State → Prop} (k : Keeps Inv)

include k

/-! ### Frames -/

theorem clockBit {s : State} (hs : Inv s) (p : Port) (b : Bool) : Inv (s.clockBit p b) := by
  unfold State.clockBit
  split
  · rename_i f hf
    simp only
    have hst : (f.clock b).start = f.start := by
      unfold Frame.clock
      split
      · rfl
      · split <;> rfl
    split
    · rename_i x _
      have h1 : Inv (s.setDecoder p (.frame
          { f.clock b with snapshot := some (s.snapshotOf p (f.clock b) x) })) :=
        k.setDecoder hs p _ (fun g hg => by cases hg; exact Or.inr ⟨f, hf, hst⟩)
      split
      · exact k.pcu _ p _ ⟨le_refl _, id⟩ h1
      · exact h1
    · exact k.setDecoder hs p _ (fun g hg => by cases hg; exact Or.inr ⟨f, hf, hst⟩)
  · exact hs

theorem clockBits {s : State} (hs : Inv s) (p : Port) (bs : List Bool) : Inv (s.clockBits p bs) := by
  unfold State.clockBits
  induction bs generalizing s with
  | nil => exact hs
  | cons b bs ih => exact ih (k.clockBit hs p b)

theorem idle {s : State} (hs : Inv s) (p : Port) (r : Option RejectReason) :
    Inv (s.setLink p { decoder := .idle, reject := r }) :=
  k.link s p _ (fun f hf => by simp at hf) hs

theorem toIdle {s : State} (hs : Inv s) (p : Port) : Inv (s.setDecoder p .idle) :=
  k.setDecoder hs p _ (fun f hf => by simp at hf)

theorem onRelease {s : State} (hs : Inv s) (p : Port) (x : FrameSort) (ends : Frame → State)
    (he : ∀ f, (s.link p).decoder = .frame f → Inv (ends f)) : Inv (s.onRelease p x ends) := by
  unfold State.onRelease
  split
  · exact hs
  · exact k.toIdle hs p
  · rename_i f hf
    split
    · exact he f hf
    · exact hs

theorem endCommandFrame {s : State} (hs : Inv s) (p : Port) (f : Frame)
    (hf : (s.link p).decoder = .frame f) : Inv (s.endCommandFrame p f) := by
  unfold State.endCommandFrame
  split
  · exact k.idle hs p _
  · rename_i tag c h1 h2
    refine k.arrive (k.takeIfDue (k.admitCommand s p f tag c hf ?_ hs) s p) s ?_
    · unfold State.rejectReason at h1
      split at h1
      · simp at h1
      · split at h1
        · simp at h1
        · split at h1
          · simp at h1
          · split at h1
            · simp at h1
            · rename_i hq; simpa using hq
    · rw [takeIfDue_inFlight]; rfl
  · exact k.idle hs p _

theorem endStatus {s : State} (hs : Inv s) (p : Port) (f : Frame) : Inv (s.endStatus p f) := by
  unfold State.endStatus
  split
  · simp only
    split
    · exact k.pcu _ p _ ⟨le_refl _, id⟩ (k.idle hs p _)
    · exact k.idle hs p _
  · exact k.toIdle hs p

theorem endCollect {s : State} (hs : Inv s) (p : Port) (f : Frame) : Inv (s.endCollect p f) := by
  unfold State.endCollect
  split
  · exact k.idle hs p _
  · split
    · refine k.arrive (k.takeIfDue (k.pcu _ p
        { (s.setDecoder p .idle).pcu p with
          completions := ((s.setDecoder p .idle).pcu p).completions.tail }
        ⟨le_refl _, id⟩ (k.toIdle hs p)) s p) s ?_
      rw [takeIfDue_inFlight]; rfl
    · exact k.toIdle hs p

theorem endFetchNotice {s : State} (hs : Inv s) (p : Port) (f : Frame) : Inv (s.endFetchNotice p f) := by
  unfold State.endFetchNotice
  split
  · exact k.idle hs p _
  · simp only
    split
    · exact k.pcu _ p _ (Pcu.Mild.fetched _) (k.toIdle hs p)
    · exact k.pcu _ p _ ⟨le_refl _, id⟩ (k.toIdle hs p)

theorem endWindowInfo {s : State} (hs : Inv s) (p : Port) (f : Frame) : Inv (s.endWindowInfo p f) := by
  unfold State.endWindowInfo
  split
  · exact k.idle hs p _
  · split
    · exact k.toIdle hs p
    · split <;> exact k.idle hs p _

theorem endDeviceInfo {s : State} (hs : Inv s) (p : Port) (f : Frame) : Inv (s.endDeviceInfo p f) := by
  unfold State.endDeviceInfo
  split
  · exact k.idle hs p _
  · exact k.toIdle hs p

theorem teardownStart {s : State} (hs : Inv s) (p : Port) : Inv (s.teardownStart p) := by
  unfold State.teardownStart
  refine k.tornJob _ p _ (k.tornJob _ p _ (k.torn _ p (k.idle (k.pcu s p _ ⟨?_, ?_⟩ hs) p _)))
  · simp
  · intro _; exact ⟨by simp, by simp⟩

theorem endPortReset {s : State} (hs : Inv s) (p : Port) (f : Frame) : Inv (s.endPortReset p f) := by
  unfold State.endPortReset
  split
  · exact k.idle hs p _
  · exact k.teardownStart hs p

theorem frameStart {s : State} (hs : Inv s) (p : Port) : ∀ t, execFrameStart p s = .next t → Inv t := by
  intro t ht
  unfold execFrameStart at ht
  split at ht
  · split at ht <;> cases ht
    · exact k.setDecoder hs p _ (fun f hf => by simp at hf)
    · exact k.setDecoder hs p _ (fun f hf => by cases hf; exact Or.inl rfl)
  · cases ht; exact hs

/-! ### Timer events -/

theorem leaseLow {s : State} (hs : Inv s) (i : Nat) (p : Port) : Inv (s.leaseLow i p) := by
  unfold State.leaseLow
  split
  · exact hs
  · rename_i w hw
    split
    · exact hs
    · rename_i l hl
      split
      · exact k.quiet (Pcu.Quiet.post _ _)
          (k.lease s i w p _ hw (by simp [Window.holds, hl]) hs)
      · exact hs

theorem leaseExpire {s : State} (hs : Inv s) (i : Nat) (p : Port) : Inv (s.leaseExpire i p) := by
  unfold State.leaseExpire
  split
  · exact hs
  · rename_i w hw
    split
    · exact hs
    · rename_i l hl
      split
      · exact k.claimEnds s _ i w p hw (by simp [Window.holds, hl])
          ((State.Calm.setWindow s _ _).trans (State.Calm.post _ _ _)) rfl hs
      · exact hs

theorem waitExpire {s : State} (hs : Inv s) (i : Nat) (p : Port) : Inv (s.waitExpire i p) := by
  unfold State.waitExpire
  split
  · exact hs
  · rename_i w hw
    split
    · exact hs
    · split
      · exact k.waitEnds s _ i w p hw
          ((State.Calm.setWindow s _ _).trans (State.Calm.completeWait _ _ _)) rfl hs
      · exact hs

omit k in
theorem foldl {α : Type} {f : State → α → State} (h : ∀ s x, Inv s → Inv (f s x)) (l : List α)
    {s : State} (hs : Inv s) : Inv (l.foldl f s) := by
  induction l generalizing s with
  | nil => exact hs
  | cons x l ih => exact ih (h s x hs)

theorem settleTick {s : State} (hs : Inv s) : Inv s.settleTick := by
  unfold State.settleTick
  refine Keeps.foldl (fun t i ht => Keeps.foldl (fun u p hu => ?_) _ ht) _ hs
  exact k.waitExpire (k.leaseExpire (k.leaseLow hu _ _) _ _) _ _

theorem scrubExpire {s : State} (hs : Inv s) : Inv s.scrubExpire := by
  unfold State.scrubExpire
  refine k.arrive (k.signal s _ hs) s ?_
  unfold State.scrubSignal
  simp only
  split <;> rfl

theorem settleScrub {s : State} (hs : Inv s) : Inv s.settleScrub := by
  unfold State.settleScrub
  split
  · exact k.scrubExpire hs
  · exact hs

theorem millisecond {s : State} (hs : Inv s) : Inv s.millisecond := by
  unfold State.millisecond
  split
  · exact k.tick s s.msCount hs
  · exact k.tick _ _ (k.settleTick hs)

theorem microsecond {s : State} (hd : s.millisecondDue = false) (hs : Inv s) : Inv s.microsecond :=
  k.timer _ _ (k.microtick s hd hs)

/-! ### Every command -/

/-- Every command but a reset keeps what the changes keep. -/
theorem exec {s t : State} {c : Instr} (hs : Inv s) (h1 : ∀ r l, c ≠ .powerOn r l)
    (h2 : c ≠ .resetAssert) (h3 : ∀ l, c ≠ .resetRelease l) (ht : exec c s = .next t) : Inv t := by
  cases c <;> simp only [Machine.exec] at ht
  case powerOn r l => exact absurd rfl (h1 r l)
  case resetAssert => exact absurd rfl h2
  case resetRelease l => exact absurd rfl (h3 l)
  case sweepLineWrite =>
    unfold execSweepLineWrite at ht
    split at ht
    · cases ht
      split
      · exact k.sweepEnd _ (k.overwritten s _ _ hs)
      · exact k.sweep _ _ (k.overwritten s _ _ hs)
    · cases ht; exact hs
  case frameStart p => exact k.frameStart hs p t ht
  case commandFrame p e =>
    cases e <;> cases ht
    · exact k.clockBits hs p _
    · exact k.onRelease hs p _ _ (fun f hf => k.endCommandFrame hs p f hf)
  case status p e =>
    cases e <;> cases ht
    · exact k.clockBits hs p _
    · exact k.onRelease hs p _ _ (fun f _ => k.endStatus hs p f)
  case collect p e =>
    cases e <;> cases ht
    · exact k.clockBits hs p _
    · exact k.onRelease hs p _ _ (fun f _ => k.endCollect hs p f)
  case fetchNotice p e =>
    cases e <;> cases ht
    · exact k.clockBits hs p _
    · exact k.onRelease hs p _ _ (fun f _ => k.endFetchNotice hs p f)
  case windowInfo p e =>
    cases e <;> cases ht
    · exact k.clockBits hs p _
    · exact k.onRelease hs p _ _ (fun f _ => k.endWindowInfo hs p f)
  case deviceInfo p e =>
    cases e <;> cases ht
    · exact k.clockBits hs p _
    · exact k.onRelease hs p _ _ (fun f _ => k.endDeviceInfo hs p f)
  case portReset p e =>
    cases e <;> cases ht
    · exact k.clockBits hs p _
    · exact k.onRelease hs p _ _ (fun f _ => k.endPortReset hs p f)
  case teardownEnd p => cases ht; exact k.pcu s p _ (Pcu.Mild.endTeardown _) hs
  case defineWindow p =>
    unfold execDefineWindow at ht
    split at ht <;> cases ht
    · exact k.carryOut (k.beginTake hs p) p _ (fun _ => false) (.defineWindow _ _ _ _ _ _)
    · exact hs
  case setWindowParams p =>
    unfold execSetWindowParams at ht
    split at ht <;> cases ht
    · exact k.carryOut (k.beginTake hs p) p _ (fun _ => false) (.setWindowParams _ _ _ _ _)
    · exact hs
  case deleteWindow p =>
    unfold execDeleteWindow at ht
    split at ht <;> cases ht
    · exact k.carryOut (k.beginTake hs p) p _ (fun _ => false) (.deleteWindow _)
    · exact hs
  case claim p =>
    unfold execClaim at ht
    split at ht <;> cases ht
    · exact k.carryOut (k.beginTake hs p) p _ (fun _ => false) (.claim _ _ _)
    · exact hs
  case release p =>
    unfold execRelease at ht
    split at ht <;> cases ht
    · exact k.carryOut (k.beginTake hs p) p _ (fun _ => false) (.release _)
    · exact hs
  case renew p =>
    unfold execRenew at ht
    split at ht <;> cases ht
    · exact k.carryOut (k.beginTake hs p) p _ (fun _ => false) (.renew _)
    · exact hs
  case setKey p =>
    unfold execSetKey at ht
    split at ht <;> cases ht
    · exact k.carryOut (k.beginTake hs p) p _ (fun _ => false) (.setKey _ _ _)
    · exact hs
  case clearKey p =>
    unfold execClearKey at ht
    split at ht <;> cases ht
    · exact k.carryOut (k.beginTake hs p) p _ (fun _ => false) (.clearKey _)
    · exact hs
  case unlock p =>
    unfold execUnlock at ht
    split at ht <;> cases ht
    · exact k.carryOut (k.beginTake hs p) p _ (fun _ => false) (.unlock _ _ _)
    · exact hs
  case lock p =>
    unfold execLock at ht
    split at ht <;> cases ht
    · exact k.carryOut (k.beginTake hs p) p _ (fun _ => false) (.lock _)
    · exact hs
  case setMasterKey p =>
    unfold execSetMasterKey at ht
    split at ht <;> cases ht
    · exact k.carryOut (k.beginTake hs p) p _ (fun _ => false) (.setMasterKey _ _)
    · exact hs
  case freeze p =>
    unfold execFreeze at ht
    split at ht <;> cases ht
    · exact k.carryOut (k.beginTake hs p) p _ (fun _ => false) .freeze
    · exact hs
  case wipePrepare p =>
    unfold execWipePrepare at ht
    split at ht <;> cases ht
    · exact k.carryOut (k.beginTake hs p) p _ (fun _ => false) (.wipePrepare _)
    · exact hs
  case wipe p =>
    unfold execWipe at ht
    split at ht <;> cases ht
    · exact k.arrive (k.doWipe (k.beginTake hs p) p _ _ _ _ _) s (doWipe_inFlight _ _ _ _ _ _ _)
    · exact hs
  case read p =>
    unfold execRead at ht
    split at ht <;> cases ht
    · exact k.arrive (k.carryOut (k.beginTake hs p) p _ (fun _ => false) (.read _ _ _)) s
        (carryOut_inFlight _ _ _ _ _)
    · exact hs
  case write p =>
    unfold execWrite at ht
    split at ht <;> cases ht
    · exact k.arrive (k.carryOut (k.beginTake hs p) p _ (fun _ => false) (.write _ _ _)) s
        (carryOut_inFlight _ _ _ _ _)
    · exact hs
  case inject p =>
    unfold execInject at ht
    split at ht <;> cases ht
    · exact k.arrive (k.carryOut (k.beginTake hs p) p _ (fun _ => false) (.inject _ _)) s
        (carryOut_inFlight _ _ _ _ _)
    · exact hs
  case scrubSettings p =>
    unfold execScrubSettings at ht
    split at ht <;> cases ht
    · exact k.carryOut (k.beginTake hs p) p _ (fun _ => false) (.scrubSettings _ _)
    · exact hs
  case copy p =>
    unfold execCopy at ht
    split at ht <;> cases ht
    · exact k.arrive (k.carryOut (k.beginTake hs p) p _ (fun _ => false) (.copy _ _ _ _ _)) s
        (carryOut_inFlight _ _ _ _ _)
    · exact hs
  case fill p =>
    unfold execFill at ht
    split at ht <;> cases ht
    · exact k.arrive (k.carryOut (k.beginTake hs p) p _ (fun _ => false) (.fill _ _ _ _)) s
        (carryOut_inFlight _ _ _ _ _)
    · exact hs
  case cancelJob p =>
    unfold execCancelJob at ht
    split at ht <;> cases ht
    · exact k.carryOut (k.beginTake hs p) p _ (fun _ => false) (.cancelJob _)
    · exact hs
  case grant =>
    unfold execGrant at ht
    split at ht
    · rename_i hg
      split at ht <;> cases ht
      · exact k.takeIfDue (k.grantNow hs hg.2) s _
      · exact k.grantNow hs hg.2
    · cases ht; exact hs
  case readCompletion =>
    unfold execReadCompletion at ht
    split at ht <;> cases ht
    · rename_i p w lines n m hf
      refine k.takeIfDue (k.touchIf (k.endAccess (k.endPort _ p (.read w lines n m) ?_
        (k.handleReads hs _ _)) _ _ _ _) _ _ _) s p
      rw [State.inFlight_handleReads]; exact hf
    · exact hs
  case writeCompletion =>
    unfold execWriteCompletion at ht
    split at ht <;> cases ht
    · rename_i p w lines n data hf
      refine k.takeIfDue (k.touchIf (k.endAccess (k.endPort _ p (.write w lines n data) ?_
        (k.writeLines hs _ _ _)) _ _ _ _) _ _ _) s p
      rw [State.inFlight_writeLines]; exact hf
    · exact hs
  case injectCompletion =>
    unfold execInjectCompletion at ht
    split at ht <;> cases ht
    · rename_i p r x hf
      exact k.takeIfDue (k.endAccess (k.endPort (s.plant r.phys x) p (.inject r x) hf
        (k.planted s _ _ hs)) _ _ _ _) s p
    · exact hs
  case copyStepCompletion =>
    unfold execCopyStepCompletion at ht
    split at ht <;> cases ht
    · rename_i c src a d b n hf
      refine k.stepEnds _ c (.copyStep src a d b n) n _ ?_ ?_ (k.copyLines hs _ _ _ _ _)
      · rw [State.inFlight_copyLines]; exact hf
      · intro x hx e; simp [Work.ofJob, e] at hx
    · exact hs
  case fillStepCompletion =>
    unfold execFillStepCompletion at ht
    split at ht <;> cases ht
    · rename_i c d b n pat hf
      refine k.stepEnds _ c (.fillStep d b n pat) n _ ?_ ?_ (k.fillLines hs _ _ _ _)
      · rw [State.inFlight_fillLines]; exact hf
      · intro x hx e; simp [Work.ofJob, e] at hx
    · exact hs
  case wipeStepCompletion =>
    unfold execWipeStepCompletion at ht
    split at ht <;> cases ht
    · rename_i c d hf
      exact k.wipeStepEnds _ c d ((State.inFlight_overwriteLine s d _).trans hf)
        (k.overwritten s _ _ hs)
    · exact hs
  case scrubReadCompletion =>
    unfold execScrubReadCompletion at ht
    split at ht <;> cases ht
    · rename_i r b hf
      unfold State.scrubDone
      simp only
      refine k.endScrub _ (.scrub r b) _ ?_ ?_
      · split
        · exact hf
        · rw [State.inFlight_handleReads]; exact hf
      · split
        · exact hs
        · exact k.handleReads hs _ _
    · exact hs
  case leaseLowPoint i p => cases ht; exact k.leaseLow hs i p
  case leaseExpiry i p => cases ht; exact k.leaseExpire hs i p
  case waitExpiry i p => cases ht; exact k.waitExpire hs i p
  case scrubTimerExpiry =>
    unfold execScrubTimerExpiry at ht
    split at ht <;> cases ht
    · exact k.scrubExpire hs
    · exact hs
  case storedBitFlip a b x =>
    unfold execStoredBitFlip at ht
    split at ht <;> cases ht
    · exact k.flipped s _ hs
    · exact hs
  case millisecondTick =>
    unfold execMillisecondTick at ht
    rw [← Host.Outcome.next.inj ht]
    split
    · exact k.millisecond hs
    · exact hs
  case microsecondTick =>
    unfold execMicrosecondTick at ht
    rw [← Host.Outcome.next.inj ht]
    refine k.microsecond ?_ (k.settleScrub ?_)
    · rw [State.millisecondDue_eq_false, (State.usCount_settleScrub _).1,
        ← State.millisecondDue_eq_false]
      split
      · exact State.millisecondDue_millisecond s
      · rename_i h
        exact Bool.eq_false_iff.2 h
    · split
      · exact k.millisecond hs
      · exact hs
  case emptyFrame p =>
    cases ht
    exact k.onRelease hs p _ _ (fun _ _ => k.toIdle hs p)

/-- Every step keeps what the changes and the three resets keep. -/
theorem step {s t : State} (hs : Inv s)
    (hr : ∀ u v : State, Inv u → (∃ r l, execPowerOn r l u = .next v) ∨ execResetAssert u = .next v ∨
      (∃ l, execResetRelease l u = .next v) → Inv v)
    (ht : step s = .next t) : Inv t := by
  unfold Machine.step at ht
  split at ht
  · cases ht; exact hs
  · rename_i c rest _
    have hp := k.pending s rest hs
    by_cases h1 : ∃ r l, c = .powerOn r l
    · obtain ⟨r, l, rfl⟩ := h1
      exact hr _ _ hp (Or.inl ⟨r, l, ht⟩)
    by_cases h2 : c = .resetAssert
    · subst h2; exact hr _ _ hp (Or.inr (Or.inl ht))
    by_cases h3 : ∃ l, c = .resetRelease l
    · obtain ⟨l, rfl⟩ := h3
      exact hr _ _ hp (Or.inr (Or.inr ⟨l, ht⟩))
    · exact k.exec hp (fun r l e => h1 ⟨r, l, e⟩) h2 (fun l e => h3 ⟨l, e⟩) ht

end Keeps

end Sys2Proof.Machine
end

