-- ==== Sys2Proof/Laws/Operands.lean ====
section
/-! SUPPORT. The operand forms against their code tables, and the model's helpers against the words the
statements use. -/

namespace Sys2Proof.Machine

/-- The policies that a field can name (12.3). -/
theorem policyOf_isSome (b : Byte) :
    (policyOf b).isSome = true ↔ b = 0#8 ∨ b = 1#8 ∨ b = 2#8 := by
  unfold policyOf
  constructor
  · intro h
    by_contra hc
    simp only [not_or] at hc
    simp [hc] at h
  · rintro (h | h | h) <;> rw [h] <;> rfl

/-- The one code of FREE (12.3). -/
theorem policyOf_eq_free (b : Byte) : policyOf b = some .free ↔ b = 0#8 := by
  unfold policyOf
  split
  · simp_all
  · split
    · simp_all
    · split <;> simp_all

/-- The selections without an undefined bit (R206). -/
theorem selectionDefined_iff (b : Byte) : selectionDefined b = true ↔ b.toNat < 8 := by
  unfold selectionDefined
  rw [beq_iff_eq]
  revert b
  decide +kernel

/-- The lease of a new term, in the words of the statements (R39). -/
theorem newLease_eq (period : Nat) (now : Tick) : newLease period now = termLease period now := by
  unfold newLease termLease
  split
  · rfl
  · congr 1
    by_cases h : 4 ≤ period
    · rw [if_pos h, if_pos (by omega)]
    · rw [if_neg h, if_neg (by omega)]

/-- A window after the end of a port's claim, written out (R36). -/
theorem Window.removeHolder_eq (w : Window) (p : Port) :
    w.removeHolder p =
      { w with
        holders := w.holders.set p none
        claimState :=
          if ∀ q ∈ Port.all, q ≠ p → w.holds q = false then .unclaimed else w.claimState } := by
  unfold Window.removeHolder
  have h : Window.noHolders { w with holders := w.holders.set p none } = true ↔
      ∀ q ∈ Port.all, q ≠ p → w.holds q = false := by
    unfold Window.noHolders
    simp only [List.all_eq_true, Bool.not_eq_true']
    refine forall₂_congr (fun q _ => ?_)
    unfold Window.holds
    rw [PerPort.get_set]
    by_cases hq : q = p
    · simp [hq]
    · simp [hq]
  simp only [h]

/-- The new window of a granted claim, written out (R28, R39). -/
theorem Window.grantClaim_eq (w : Window) (p : Port) (k : ClaimKind) (now : Tick) :
    w.grantClaim p k now =
      { w with
        holders := w.holders.set p (some (termLease w.leasePeriod now))
        claimState := if k = .read then .readHeld else .writeHeld } := by
  unfold Window.grantClaim Window.beginTerm
  rw [newLease_eq]
  cases k <;> rfl

/-- A change of the guard record of a defined window. -/
theorem State.setGuard_some {s : State} {i : Nat} {w : Window} (h : s.window? i = some w)
    (f : Guard → Guard) : s.setGuard i f = s.setWindow i (some { w with guard := f w.guard }) := by
  unfold State.setGuard
  rw [h]

end Sys2Proof.Machine
end

