-- ==== Sys2Proof/Laws/Requests.lean ====
section
/-! SUPPORT. Which commands present nothing new to the arbiter: a restful change leaves no request that
was not pending before it, so nothing is granted at its end (R97). -/

namespace Sys2Proof.Machine

/-- A change after which no requestor requests that did not request before. -/
structure State.Restful (s t : State) : Prop where
  inFlight : t.inFlight = s.inFlight
  access : ∀ q, (t.pcu q).access = (s.pcu q).access
  running : ∀ c j, t.job c = some j → j.state = .running →
    ∃ k, s.job c = some k ∧ k.state = .running
  scrubDue : t.scrubDue = true → s.scrubDue = true

theorem State.Restful.refl (s : State) : s.Restful s :=
  ⟨rfl, fun _ => rfl, fun _ j h r => ⟨j, h, r⟩, id⟩

theorem State.Restful.trans {s t u : State} (h : s.Restful t) (k : t.Restful u) : s.Restful u :=
  ⟨k.inFlight.trans h.inFlight, fun q => (k.access q).trans (h.access q),
    fun c j hj r => by
      obtain ⟨i, hi, ri⟩ := k.running c j hj r
      exact h.running c i hi ri,
    fun e => h.scrubDue (k.scrubDue e)⟩

theorem State.Calm.restful {s t : State} (h : s.Calm t) : s.Restful t :=
  ⟨h.inFlight, fun q => (h.pcu q).access, fun c j hj r => ⟨j, by rw [← h.job c]; exact hj, r⟩,
    fun e => by rw [← h.scrubDue]; exact e⟩

/-- Where nothing was pending before a restful change, nothing is pending after it. -/
theorem State.Restful.choose_none {s t : State} (h : s.Restful t) (hc : s.choose = none) :
    t.choose = none := by
  rw [State.choose_eq_none] at hc ⊢
  obtain ⟨h1, h2⟩ := hc
  refine ⟨?_, fun x => ?_⟩
  · cases hd : t.scrubDue with
    | false => rfl
    | true => rw [h.scrubDue hd] at h1; cases h1
  · have hx := h2 x
    cases x with
    | port q =>
      unfold State.requests State.accessInFlight at hx ⊢
      simp only [h.access q, h.inFlight] at hx ⊢
      exact hx
    | channel c =>
      unfold State.requests at hx ⊢
      have hs : t.stepInFlight c = s.stepInFlight c := by
        unfold State.stepInFlight; rw [h.inFlight]
      simp only [hs] at hx ⊢
      cases hj : t.job c with
      | none => rfl
      | some j =>
        by_cases r : j.state = .running
        · obtain ⟨k, hk, rk⟩ := h.running c j hj r
          rw [hk] at hx
          simpa [r, rk] using hx
        · simp [r]

/-- A restful change ends without a grant (R97). -/
theorem State.Restful.arrive {s t : State} (h : s.Restful t) : arrive s t = t := by
  unfold Machine.arrive
  split
  · rename_i hc
    rw [Bool.and_eq_true, Option.isNone_iff_eq_none, Option.isNone_iff_eq_none] at hc
    unfold State.grantNow
    rw [h.choose_none hc.2]
  · rfl

/-- Two states with the same requests pending: an arrival after one is an arrival after the other. -/
theorem State.Restful.arrive_congr {s t : State} (h : s.Restful t) (k : t.Restful s) (u : State) :
    Machine.arrive s u = Machine.arrive t u := by
  have hc : s.choose.isNone = t.choose.isNone := by
    rw [Bool.eq_iff_iff, Option.isNone_iff_eq_none, Option.isNone_iff_eq_none]
    exact ⟨h.choose_none, k.choose_none⟩
  unfold Machine.arrive
  rw [hc, h.inFlight]

/-- A command that finishes at its taking ends without a grant. -/
theorem State.arrive_answers (s : State) (p : Port) (tag : Byte) (k : CommandKind)
    (o : OutcomeCode) : Machine.arrive s (s.answers p tag k o) = s.answers p tag k o := by
  rw [State.Restful.arrive]
  rw [← State.finish_beginTake]
  exact ((State.Calm.beginTake _ _).trans (State.Calm.finish _ _ _ _ _)).restful

/-- A taking that forms a pending access holds its command at the queue head (R176). -/
theorem State.formAccess_beginTake {s : State} {p : Port} {tag : Byte} {c : Command}
    {rest : List Entry} (h : s.takes p tag c rest) (b : AccessBody) :
    (s.beginTake p).formAccess p tag b = s.holdsHead p tag rest c b := by
  have hq := h.2.1
  unfold State.pcu at hq
  simp [State.formAccess, State.holdsHead, State.beginTake, State.setPcu, State.pcu, hq]

/-- A run within its window, in the words of the statements (R3). -/
theorem State.runFits_iff {s : State} {i : Nat} (a n : Nat) (h : s.window? i ≠ none) :
    s.runFits ⟨i, a, n⟩ = true ↔ ∀ w, s.window? i = some w → a + n ≤ 64 * w.length := by
  obtain ⟨w, hw⟩ := Option.ne_none_iff_exists'.1 h
  unfold State.runFits
  rw [hw]
  simp only [Option.any_some, Option.some.injEq, forall_eq']
  exact decide_eq_true_iff (p := a + n ≤ 64 * w.length)

/-- The channel that a job starts on (R133). -/
theorem State.startJob_eq {s : State} (h : s.c0 = none ∨ s.c1 = none) (j : Job) :
    s.startJob j = s.setJob (if s.c0 = none then .c0 else .c1) (some j) := by
  unfold State.startJob State.freeChannel?
  by_cases h0 : s.c0 = none
  · simp [h0]
  · have h1 : s.c1 = none := h.resolve_left h0
    simp [h0, h1, Option.isNone_iff_eq_none]

/-! ### The restful changes -/

theorem State.Restful.setJob {s : State} {c : Channel} {j : Option Job}
    (h : ∀ k, j = some k → k.state = .running → ∃ i, s.job c = some i ∧ i.state = .running) :
    s.Restful (s.setJob c j) := by
  refine ⟨by simp, fun q => by simp [State.pcu], fun d k hk r => ?_, fun e => by simpa using e⟩
  rw [State.job_setJob] at hk
  split at hk
  · rename_i e
    rw [e]
    exact h k hk r
  · exact ⟨k, hk, r⟩

theorem State.Restful.endJob (s : State) (c : Channel) (o : OutcomeCode) :
    s.Restful (s.endJob c o) := by
  unfold State.endJob
  split
  · exact State.Restful.refl s
  · have h0 : s.Restful (s.setJob c none) := State.Restful.setJob (fun k hk => by cases hk)
    simp only
    split
    · exact h0.trans (State.Calm.complete _ _ _).restful
    · split
      · refine h0.trans (State.Calm.setPcu ?_).restful
        exact ⟨rfl, rfl, le_refl _, rfl, rfl, id⟩
      · refine h0.trans ⟨rfl, fun q => ?_, fun d k hk r => ⟨k, hk, r⟩, id⟩
        rw [State.pcu_setPcu]
        split
        · rename_i e
          unfold Pcu.endTeardown
          rw [e]
          split <;> rfl
        · rfl

/-- A change of a PCU that keeps its pending access. -/
theorem State.Restful.setPcu {s : State} {p : Port} {u : Pcu} (h : u.access = (s.pcu p).access) :
    s.Restful (s.setPcu p u) := by
  refine ⟨rfl, fun q => ?_, fun d k hk r => ⟨k, hk, r⟩, id⟩
  rw [State.pcu_setPcu]
  split
  · rename_i e; rw [e, h]
  · rfl

/-- A change of a link. -/
theorem State.Restful.setLink (s : State) (p : Port) (l : Link) : s.Restful (s.setLink p l) :=
  ⟨rfl, fun _ => rfl, fun _ j h r => ⟨j, h, r⟩, id⟩

/-- The inverse of a change of one port's PCU and link that keeps its pending access. -/
theorem State.Restful.back {s : State} {p : Port} {u : Pcu} {l : Link}
    (h : u.access = (s.pcu p).access) : ((s.setPcu p u).setLink p l).Restful s := by
  refine ⟨rfl, fun q => ?_, fun d k hk r => ⟨k, hk, r⟩, id⟩
  rw [show ((s.setPcu p u).setLink p l).pcu q = (s.setPcu p u).pcu q from rfl, State.pcu_setPcu]
  split
  · rename_i e; rw [e, h]
  · rfl

/-- Whether a command's taking can present a request: it forms an access or starts a job. -/
def CommandKind.usesArray : CommandKind → Bool
  | .read | .write | .inject | .copy | .fill | .wipe => true
  | _ => false

theorem State.Restful.finishWith {s e : State} (h : s.Restful e) (p : Port) (tag : Byte)
    (k : CommandKind) (o : OutcomeCode) : s.Restful (s.finishWith p tag k o e) := by
  unfold State.finishWith
  split
  · exact h.trans (State.Calm.finish _ _ _ _ _).restful
  · exact (State.Calm.finish _ _ _ _ _).restful

/-- A change of fields that no request depends on. -/
theorem State.Restful.of_eq {s t : State} (h1 : t.inFlight = s.inFlight) (h2 : t.pcus = s.pcus)
    (h3 : t.c0 = s.c0) (h4 : t.c1 = s.c1) (h5 : t.scrubDue = true → s.scrubDue = true) :
    s.Restful t := by
  refine ⟨h1, fun q => by unfold State.pcu; rw [h2], fun c j hj r => ⟨j, ?_, r⟩, h5⟩
  cases c
  · exact h3.symm.trans hj
  · exact h4.symm.trans hj

/-- The taking of a command that needs no array presents nothing. -/
theorem carryOut_restful (s : State) (p : Port) (tag : Byte) (prep : Byte → Bool) (c : Command)
    (h : CommandKind.usesArray c.kind = false) : s.Restful (carryOut s p tag prep c) := by
  have fin : ∀ (t : State) k o, s.Restful t → s.Restful (t.finish p tag k o) := fun t k o ht =>
    ht.trans (State.Calm.finish _ _ _ _ _).restful
  cases c
  case inject | wipe | read | write | copy | fill => simp [Command.kind, CommandKind.usesArray] at h
  all_goals simp only [carryOut]
  case defineWindow => exact (State.Calm.setWindow _ _ _).restful.finishWith _ _ _ _
  case setWindowParams => exact (State.Calm.setWindow _ _ _).restful.finishWith _ _ _ _
  case deleteWindow =>
    exact ((State.Calm.revoke _ _).trans (State.Calm.setWindow _ _ _)).restful.finishWith _ _ _ _
  case freeze =>
    have h1 : s.Restful { s with frozen := true } := State.Restful.of_eq rfl rfl rfl rfl id
    exact State.Restful.finishWith h1 _ _ _ _
  case setMasterKey =>
    have h1 : ∀ k n, s.Restful { s with masterKey := k, masterAttempts := n } := fun k n =>
      State.Restful.of_eq rfl rfl rfl rfl id
    unfold doSetMasterKey
    simp only
    split
    · split
      · exact fin _ _ _ (h1 _ _)
      · split
        · exact fin _ _ _ (State.Restful.refl s)
        · split
          · exact fin _ _ _ (h1 _ _)
          · exact fin _ _ _ (State.Restful.of_eq rfl rfl rfl rfl id)
    · exact fin _ _ _ (State.Restful.refl s)
  case scrubSettings =>
    refine State.Restful.finishWith (State.Restful.of_eq ?_ ?_ ?_ ?_ ?_) _ _ _ _ <;>
      unfold State.applyScrub <;> split <;> simp
  case claim =>
    unfold doClaim
    split
    · split
      · unfold claimDecide
        split
        · exact ((State.Calm.setWindow _ _ _).trans (State.Calm.finish _ _ _ _ _)).restful
        · split
          · exact ((State.Calm.setWindow _ _ _).trans (State.Calm.leaveQueue _ _)).restful
          · exact (State.Calm.finish _ _ _ _ _).restful
      · exact State.Restful.refl s
    · exact (State.Calm.finish _ _ _ _ _).restful
  case release =>
    unfold doRelease
    simp only
    split
    · exact (State.Calm.finish _ _ _ _ _).restful
    · split
      · exact (((State.Calm.setWindow _ _ _).trans (State.Calm.finish _ _ _ _ _)).trans
          (State.Calm.grantPass _ _)).restful
      · split
        · exact ((((State.Calm.setWindow _ _ _).trans (State.Calm.completeWait _ _ _)).trans
            (State.Calm.finish _ _ _ _ _)).trans (State.Calm.grantPass _ _)).restful
        · exact (State.Calm.finish _ _ _ _ _).restful
  case renew =>
    unfold doRenew
    split
    · exact (State.Calm.finish _ _ _ _ _).restful
    · split
      · exact ((State.Calm.setWindow _ _ _).trans (State.Calm.finish _ _ _ _ _)).restful
      · exact (State.Calm.finish _ _ _ _ _).restful
  case setKey => exact (State.Calm.setGuard _ _ _).restful.finishWith _ _ _ _
  case clearKey => exact (State.Calm.setGuard _ _ _).restful.finishWith _ _ _ _
  case unlock index selector key =>
    unfold doUnlock
    split
    · split
      · unfold unlockCompare
        simp only
        split
        · split
          · refine fin _ _ _ ((State.Calm.setGuard s _ _).restful.trans
              (t := s.joinUnlocked index.toNat p) ?_)
            exact State.Restful.of_eq rfl rfl rfl rfl id
          · exact fin _ _ _ (State.Restful.of_eq rfl rfl rfl rfl id)
        · split
          · exact fin _ _ _ ((State.Calm.setGuard _ _ _).trans (State.Calm.setGuard _ _ _)).restful
          · exact fin _ _ _ (State.Calm.setGuard _ _ _).restful
      · exact State.Restful.refl s
    · exact (State.Calm.finish _ _ _ _ _).restful
  case lock =>
    unfold doLock
    split
    · exact (State.Calm.finish _ _ _ _ _).restful
    · exact ((State.Calm.setGuard _ _ _).trans (State.Calm.finish _ _ _ _ _)).restful
  case wipePrepare => exact (State.Calm.setPrepared _ _ _).restful.finishWith _ _ _ _
  case cancelJob =>
    unfold doCancelJob
    split
    · exact (State.Calm.finish _ _ _ _ _).restful
    · split
      · exact State.Restful.refl s
      · rename_i j hj
        split
        · exact (State.Calm.finish _ _ _ _ _).restful
        · split
          · exact (State.Calm.finish _ _ _ _ _).restful
          · split
            · exact fin _ _ _ (State.Restful.setJob (fun k hk r => by cases hk; cases r))
            · exact fin _ _ _ (State.Restful.endJob _ _ _)

/-- What a taking does, by the command it takes: the command's effect after the taking's first steps,
and, where the command uses the array, the arrival of its request. -/
theorem exec_taking {s : State} {p : Port} {tag : Byte} {c : Command} {rest : List Entry}
    (h : s.takes p tag c rest) :
    exec (CommandKind.taking p c.kind) s =
      .next (arrive s (carryOut (s.beginTake p) p tag (s.preparedFor p) c)) := by
  have hd := State.dueHead_of_takes h
  have hr : ∀ c : Command, CommandKind.usesArray c.kind = false →
      arrive s (carryOut (s.beginTake p) p tag (s.preparedFor p) c) =
        carryOut (s.beginTake p) p tag (s.preparedFor p) c := fun c hc =>
    ((State.Calm.beginTake s p).restful.trans (carryOut_restful _ _ _ _ _ hc)).arrive
  cases c
  case inject | wipe | read | write | copy | fill =>
    simp only [Command.kind, CommandKind.taking, exec, execInject, execWipe, execRead, execWrite,
      execCopy, execFill, hd, carryOut]
  all_goals
    rw [hr _ rfl]
    simp only [Command.kind, CommandKind.taking, exec, execDefineWindow, execSetWindowParams,
      execDeleteWindow, execFreeze, execSetMasterKey, execScrubSettings, execClaim, execRelease,
      execRenew, execSetKey, execClearKey, execUnlock, execLock, execWipePrepare, execCancelJob, hd,
      carryOut]

/-- A taking of a kind that the head is not does nothing; otherwise it does what its command does. -/
theorem exec_taking_cases {s t : State} {p : Port} {k : CommandKind}
    (h : exec (CommandKind.taking p k) s = .next t) :
    t = s ∨ ∃ tag c rest, s.takes p tag c rest ∧ c.kind = k ∧
      t = arrive s (carryOut (s.beginTake p) p tag (s.preparedFor p) c) := by
  cases hd : s.dueHead p with
  | none =>
    left
    cases k <;> simp only [CommandKind.taking, exec, execDefineWindow, execSetWindowParams,
      execDeleteWindow, execFreeze, execSetMasterKey, execScrubSettings, execClaim, execRelease,
      execRenew, execSetKey, execClearKey, execUnlock, execLock, execWipePrepare, execCancelJob,
      execInject, execWipe, execRead, execWrite, execCopy, execFill, hd] at h <;>
      exact (Host.Outcome.next.inj h).symm
  | some e =>
    obtain ⟨tag, c, rest, ht⟩ : ∃ tag c rest, s.takes p tag c rest := by
      apply State.takes_of_takeable
      unfold State.dueHead at hd
      split at hd
      · assumption
      · cases hd
    by_cases hk : c.kind = k
    · subst hk
      rw [exec_taking ht] at h
      exact Or.inr ⟨tag, c, rest, ht, rfl, (Host.Outcome.next.inj h).symm⟩
    · left
      have hd := State.dueHead_of_takes ht
      cases k <;> cases c <;> first
        | exact absurd rfl hk
        | (simp only [CommandKind.taking, exec, execDefineWindow, execSetWindowParams,
            execDeleteWindow, execFreeze, execSetMasterKey, execScrubSettings, execClaim,
            execRelease, execRenew, execSetKey, execClearKey, execUnlock, execLock,
            execWipePrepare, execCancelJob, execInject, execWipe, execRead, execWrite, execCopy,
            execFill, hd] at h
           exact (Host.Outcome.next.inj h).symm)

/-- A PCU that takes a command in another event takes what stands at its head (R173). -/
theorem takeIfDue_takes {s t : State} {p : Port} {tag : Byte} {c : Command} {rest : List Entry}
    (hs : ∀ tag c rest, ¬ s.takes p tag c rest) (h : t.takes p tag c rest) :
    takeIfDue s t p = carryOut (t.beginTake p) p tag (t.preparedFor p) c := by
  unfold takeIfDue
  rw [if_neg (fun hk => by
    obtain ⟨a, b, d, k⟩ := State.takes_of_takeable hk
    exact hs a b d k)]
  unfold State.takeHead
  rw [State.dueHead_of_takes h]

/-- A PCU that could take a command before, or takes none after, takes none in another event. -/
theorem takeIfDue_none {s t : State} {p : Port}
    (h : (∃ tag c rest, s.takes p tag c rest) ∨ ∀ tag c rest, ¬ t.takes p tag c rest) :
    takeIfDue s t p = t := by
  unfold takeIfDue
  rcases h with h | h
  · rw [if_pos (State.takeable_iff.2 h)]
  · split
    · rfl
    · unfold State.takeHead State.dueHead
      rw [if_neg (fun hk => by
        obtain ⟨a, b, d, k⟩ := State.takes_of_takeable hk
        exact h a b d k)]

end Sys2Proof.Machine
end

