-- ==== Sys2Proof/Laws/Grants.lean ====
section
/-! SUPPORT. Grants: the grant checks as verdicts, and what a refused or completed access leaves in its
PCU. -/

namespace Sys2Proof.Machine

/-- The claim check in the words of the statements (R82). -/
theorem Window.claimPasses_iff (w : Window) (p : Port) (write : Bool) :
    (match w.policy with
      | .free => True
      | .writeClaimed => write = true → w.claimState = .writeHeld ∧ (w.holders.get p).isSome = true
      | .claimed =>
        (w.holders.get p).isSome = true ∧ (write = true → w.claimState = .writeHeld)) ↔
      w.claimPasses p write = true := by
  unfold Window.claimPasses Window.holdsWrite Window.holds
  cases w.policy <;> cases write <;> simp
  exact and_comm

/-- The lines a run touches (R3). -/
theorem mem_lineSpan (offset n k : Nat) : k ∈ lineSpan offset n ↔ touches offset n k := by
  unfold lineSpan touches
  rw [List.mem_range'_1]
  omega

/-- The poison check in the words of the statements (R83). -/
theorem State.poisonPasses_iff (s : State) (w : Window) (write : Bool) (r : Run) :
    (∀ k, touches r.offset r.length k → w.base + k ∈ s.poisoned →
      write = true ∧ r.offset ≤ 64 * k ∧ 64 * k + 64 ≤ r.offset + r.length) ↔
      s.poisonPasses w write r = true := by
  unfold State.poisonPasses
  rw [List.all_eq_true]
  simp only [mem_lineSpan]
  refine forall₂_congr (fun k _ => ?_)
  unfold Run.coversWhole
  by_cases h : w.base + k ∈ s.poisoned <;> simp [h]

/-- The verdict of the grant checks is the outcome computed (R80). -/
theorem State.runOutcome_of_verdict {s : State} {p : Port} {write : Bool} {r : Run} {o : OutcomeCode}
    (hv : Verdict (GrantChecks s p write r) o) : o = s.runOutcome p write r := by
  unfold State.runOutcome State.runChecks runOutcomes
  simp only [List.zip_cons_cons, List.zip_nil_left, GrantChecks] at hv ⊢
  refine hv.firstFail_cons (by simp [Option.isSome_iff_ne_none]) (fun hsome hv => ?_)
  obtain ⟨w, hw⟩ := Option.ne_none_iff_exists'.1 hsome
  rw [hw] at hv ⊢
  simp only [Option.some.injEq, forall_eq', Option.any_some] at hv ⊢
  refine hv.firstFail_cons (by simp) (fun _ hv => ?_)
  refine hv.firstFail_cons
    (decide_eq_true_iff (p := r.offset + r.length ≤ 64 * w.length)).symm (fun _ hv => ?_)
  refine hv.firstFail_cons (by simp [Window.guardPasses]) (fun _ hv => ?_)
  refine hv.firstFail_cons (w.claimPasses_iff p write) (fun _ hv => ?_)
  exact hv.firstFail_cons (s.poisonPasses_iff w write r) (fun _ hv => hv)

/-- The verdict of the checks of a COPY step is the outcome computed (R140). -/
theorem State.copyOutcome_of_verdict {s : State} {p : Port} {a b : Run} {o : OutcomeCode}
    (hv : Verdict (CopyChecks s p a b) o) : o = s.copyOutcome p a b := by
  unfold State.copyOutcome State.runChecks runOutcomes
  simp only [CopyChecks, GrantChecks, List.zipWith_cons_cons, List.zipWith_nil_left,
    List.zip_cons_cons, List.zip_nil_left] at hv ⊢
  refine hv.firstFail_cons (by simp [Option.isSome_iff_ne_none]) (fun hsome hv => ?_)
  obtain ⟨w, hw⟩ := Option.ne_none_iff_exists'.1 hsome.1
  obtain ⟨v, hx⟩ := Option.ne_none_iff_exists'.1 hsome.2
  rw [hw, hx] at hv ⊢
  simp only [Option.some.injEq, forall_eq', Option.any_some] at hv ⊢
  refine hv.firstFail_cons (by simp) (fun _ hv => ?_)
  refine hv.firstFail_cons ?_ (fun _ hv => ?_)
  · rw [Bool.and_eq_true]
    exact and_congr (decide_eq_true_iff (p := a.offset + a.length ≤ 64 * w.length)).symm
      (decide_eq_true_iff (p := b.offset + b.length ≤ 64 * v.length)).symm
  refine hv.firstFail_cons (by simp [Window.guardPasses]) (fun _ hv => ?_)
  refine hv.firstFail_cons ?_ (fun _ hv => ?_)
  · rw [Bool.and_eq_true]
    refine and_congr (w.claimPasses_iff _ _) ?_
    have h := v.claimPasses_iff p true
    simp only [true_imp_iff] at h
    rw [← h]
    cases v.policy <;> simp only [true_imp_iff]
  refine hv.firstFail_cons ?_ (fun _ hv => hv)
  rw [Bool.and_eq_true]
  refine and_congr (s.poisonPasses_iff _ _ _) ?_
  rw [← s.poisonPasses_iff v true b]
  simp only [true_and]

/-- The end of an access that no teardown awaits (R81, R89, R176). -/
theorem State.endAccess_eq {s : State} {p : Port} {a : Access} (h : (s.pcu p).access = some a)
    (h' : (s.pcu p).accessAwaited = false) (k : CommandKind) (o : OutcomeCode) (e : Extra) :
    s.endAccess p k o e = s.setPcu p
      { s.pcu p with
        queue := (s.pcu p).queue.tail, access := none
        completions := (s.pcu p).completions ++ [⟨a.tag, k, o, e⟩]
        reservations := (s.pcu p).reservations - 1
        outstanding := (s.pcu p).outstanding.erase a.tag } := by
  unfold State.endAccess
  simp only
  rw [if_neg (by simp [h']), h]
  rfl

/-- The lines of a run with their physical lines, written out (R84). -/
theorem State.runRefs_eq {s : State} {r : Run} {w : Window} (h : s.window? r.window = some w) :
    s.runRefs r =
      (List.range' (r.offset / 64) ((r.offset + r.length - 1) / 64 + 1 - r.offset / 64)).map
        (fun k => ⟨w.base + k, s.physOf (w.base + k)⟩) := by
  unfold State.runRefs
  rw [h]
  simp only [Window.lines, lineSpan, List.map_map]
  rfl

end Sys2Proof.Machine
end

