-- ==== Sys2Proof/Laws/Soft.lean ====
section
/-! SUPPORT. Soft changes: most of what commands do leaves the array, the integrity unit's lists, the
scrub schedule and the links alone, and changes every PCU mildly. -/

set_option linter.unusedVariables false

namespace Sys2Proof.Machine

/-- A change that leaves the array, the integrity unit's lists, the scrub schedule and the links alone
and changes every PCU mildly. -/
structure State.Soft (s t : State) : Prop where
  mem : t.mem = s.mem
  flips : t.flips = s.flips
  poisoned : t.poisoned = s.poisoned
  suspects : t.suspects = s.suspects
  remap : t.remap = s.remap
  spares : t.spares = s.spares
  scrubDue : t.scrubDue = s.scrubDue
  postponed : t.postponed = s.postponed
  links : t.links = s.links
  pcu : ∀ q, (s.pcu q).Mild (t.pcu q)

theorem State.Soft.refl (s : State) : s.Soft s :=
  ⟨rfl, rfl, rfl, rfl, rfl, rfl, rfl, rfl, rfl, fun _ => Pcu.Mild.refl _⟩

theorem State.Soft.trans {s t u : State} (h : s.Soft t) (k : t.Soft u) : s.Soft u :=
  ⟨k.mem.trans h.mem, k.flips.trans h.flips, k.poisoned.trans h.poisoned,
    k.suspects.trans h.suspects, k.remap.trans h.remap, k.spares.trans h.spares,
    k.scrubDue.trans h.scrubDue, k.postponed.trans h.postponed, k.links.trans h.links,
    fun q => (h.pcu q).trans (k.pcu q)⟩

theorem State.Calm.soft {s t : State} (h : s.Calm t) : s.Soft t :=
  ⟨h.mem, h.flips, h.poisoned, h.suspects, h.remap, h.spares, h.scrubDue, h.postponed, h.links,
    fun q => (h.pcu q).mild⟩

theorem State.Soft.setPcu {s : State} {p : Port} {u : Pcu} (h : (s.pcu p).Mild u) :
    s.Soft (s.setPcu p u) := by
  refine ⟨rfl, rfl, rfl, rfl, rfl, rfl, rfl, rfl, rfl, fun q => ?_⟩
  rw [State.pcu_setPcu]
  split
  · rename_i e; rw [e]; exact h
  · exact Pcu.Mild.refl _

theorem State.Soft.setJob (s : State) (c : Channel) (j : Option Job) : s.Soft (s.setJob c j) := by
  cases c <;>
    exact ⟨rfl, rfl, rfl, rfl, rfl, rfl, rfl, rfl, rfl, fun _ => Pcu.Mild.refl _⟩

theorem State.Soft.startJob (s : State) (j : Job) : s.Soft (s.startJob j) := by
  unfold State.startJob
  split
  · exact State.Soft.setJob s _ _
  · exact State.Soft.refl s

theorem State.Soft.endJob (s : State) (c : Channel) (o : OutcomeCode) : s.Soft (s.endJob c o) := by
  unfold State.endJob
  split
  · exact State.Soft.refl s
  · refine (State.Soft.setJob s c none).trans ?_
    simp only
    split
    · exact (State.Calm.complete _ _ _).soft
    · split
      · exact State.Soft.setPcu ⟨le_refl _, id⟩
      · exact State.Soft.setPcu
          (Pcu.Mild.trans (v := { (s.setJob c none).pcu _ with
            jobsAwaited := ((s.setJob c none).pcu _).jobsAwaited - 1 })
            ⟨le_refl _, id⟩ (Pcu.Mild.endTeardown _))

theorem State.Soft.foldl {α : Type} {f : State → α → State} (h : ∀ (s : State) x, s.Soft (f s x))
    (l : List α) (s : State) : s.Soft (l.foldl f s) := by
  induction l generalizing s with
  | nil => exact State.Soft.refl s
  | cons x l ih => exact (h s x).trans (ih (f s x))

theorem State.Soft.revokeJob (s : State) (i : Nat) (c : Channel) : s.Soft (s.revokeJob i c) := by
  unfold State.revokeJob
  split
  · exact State.Soft.refl s
  · split
    · split
      · split
        · exact State.Soft.setJob s _ _
        · exact State.Soft.refl s
      · exact State.Soft.endJob s _ _
    · exact State.Soft.refl s

theorem State.Soft.wipeStart (s : State) (p : Port) (tag : Byte) (i : Nat) (w : Window) :
    s.Soft (s.wipeStart p tag i w) := by
  unfold State.wipeStart
  exact (((((State.Calm.setWindow s _ _).trans (State.Calm.revoke _ _)).soft.trans
    (State.Soft.revokeJob _ _ _)).trans (State.Soft.revokeJob _ _ _)).trans
    (State.Soft.startJob _ _)).trans (State.Calm.leaveQueue _ _).soft

theorem State.Soft.teardownJob (s : State) (p : Port) (c : Channel) : s.Soft (s.teardownJob p c) := by
  unfold State.teardownJob
  split
  · exact State.Soft.refl s
  · split
    · split
      · exact State.Soft.setJob s _ _
      · split
        · split
          · exact (State.Soft.setJob s _ _).trans (State.Soft.setPcu ⟨le_refl _, id⟩)
          · exact State.Soft.setJob s _ _
        · exact (State.Soft.setJob s _ _).trans (State.Soft.setPcu ⟨le_refl _, id⟩)
    · exact State.Soft.refl s

theorem State.Calm.teardownClaims (s : State) (p : Port) : s.Calm (s.teardownClaims p) := by
  unfold State.teardownClaims
  exact State.Calm.trans
    (t := { s with windows := s.windows.map (fun w => w.map (fun v => v.removePort p)) })
    ⟨rfl, fun _ => Pcu.Quiet.refl _⟩
    (State.Calm.foldl (f := fun t i => t.grantPass i) (fun t i => State.Calm.grantPass t i) _ _)

theorem State.Soft.endFlight (s : State) : s.Soft s.endFlight :=
  ⟨rfl, rfl, rfl, rfl, rfl, rfl, rfl, rfl, rfl, fun _ => Pcu.Mild.refl _⟩

theorem State.Calm.touchStep (s : State) (j : Job) : s.Calm (s.touchStep j) := by
  unfold State.touchStep
  simp only
  split
  · exact (State.Calm.touch s _ _).trans (State.Calm.touch _ _ _)
  · exact State.Calm.touch s _ _

theorem State.Soft.stepDone (s : State) (c : Channel) (n : Nat) (good : Bool) :
    s.Soft (s.stepDone c n good) := by
  unfold State.stepDone
  split
  · exact State.Soft.refl s
  · have h1 : ∀ j', s.Soft (s.setJob c (some j')) := fun j' => State.Soft.setJob s c _
    have h2 : ∀ j', s.Soft ((s.setJob c (some j')).touchStep j') := fun j' =>
      (h1 j').trans (State.Calm.touchStep _ _).soft
    have h3 : ∀ (t : State) (o : OutcomeCode), s.Soft t → s.Soft (t.endJob c o) := fun t o h =>
      h.trans (State.Soft.endJob t c o)
    cases good
    · simp only [Bool.false_eq_true, if_false, Bool.not_false, if_true]
      split
      · exact h3 _ _ (h1 _)
      · exact h3 _ _ (h1 _)
    · simp only [if_true, Bool.not_true, Bool.false_eq_true, if_false]
      split
      · split
        · exact h3 _ _ (h2 _)
        · exact h2 _
      · exact h3 _ _ (h2 _)

theorem State.Soft.wipeStepDone (s : State) (c : Channel) : s.Soft (s.wipeStepDone c) := by
  unfold State.wipeStepDone
  split
  · exact State.Soft.refl s
  · simp only
    split
    · exact ((State.Soft.setJob s _ _).trans (State.Calm.setWindow _ _ _).soft).trans
        (State.Soft.endJob _ _ _)
    · exact State.Soft.setJob s _ _

/-- A property that soft changes keep is kept by every command once the changes that are not soft
keep it. -/
theorem Keeps.ofSoft {Inv : State → Prop} (soft : ∀ s t : State, s.Soft t → Inv s → Inv t)
    (link : ∀ (s : State) p l, (∀ f, l.decoder = .frame f → f.start = s.statusFlags p ∨
      ∃ g, (s.link p).decoder = .frame g ∧ f.start = g.start) → Inv s → Inv (s.setLink p l))
    (admitCommand : ∀ (s : State) p f tag c, (s.link p).decoder = .frame f → f.start.cqFull = false →
      Inv s → Inv (s.admitCommand p tag c))
    (scrub : ∀ (s : State) e n, Inv s → Inv (s.applyScrub e n))
    (start : ∀ (s : State) x work, s.inFlight = none → (s.scrubDue = true → s.postponed ≠ 4) →
      Inv s → Inv (s.startAccess x work))
    (grantScrub : ∀ s : State, Inv s → Inv s.grantScrub)
    (handled : ∀ (s : State) r b, Inv s → Inv (s.handleRead r b))
    (overwritten : ∀ (s : State) r b, Inv s → Inv (s.overwriteLine r b))
    (planted : ∀ (s : State) n k, Inv s → Inv (s.plant n k))
    (flipped : ∀ (s : State) f, Inv s → Inv (s.flipBit f))
    (signal : ∀ (s : State) x, Inv s → Inv (State.scrubSignal { s with scrubTimer := x }))
    (sweepEnd : ∀ s : State, Inv s → Inv s.sweepEnd) : Keeps Inv where
  pending s l := soft _ _ ⟨rfl, rfl, rfl, rfl, rfl, rfl, rfl, rfl, rfl, fun _ => Pcu.Mild.refl _⟩
  pcu s p u h := soft _ _ (State.Soft.setPcu h)
  link := link
  admitCommand := admitCommand
  define s p i a b c d e _ := soft _ _ (State.Calm.setWindow s _ _).soft
  params s p i a b c d _ := soft _ _ (State.Calm.setWindow s _ _).soft
  delete s p i _ := soft _ _ ((State.Calm.revoke s _).trans (State.Calm.setWindow _ _ _)).soft
  granted s i w p k _ _ _ _ _ _ := soft _ _ (State.Calm.setWindow s _ _).soft
  waiting s i w p k tag _ _ _ _ _ _ := soft _ _ (State.Calm.setWindow s _ _).soft
  claimEnds s t i w p _ _ h _ := soft _ _ (h.trans (State.Calm.grantPass _ _)).soft
  waitEnds s t i w p _ h _ := soft _ _ (h.trans (State.Calm.grantPass _ _)).soft
  lease s i w p l _ _ := soft _ _ (State.Calm.setWindow s _ _).soft
  keyed s p i a b _ := soft _ _ (State.Calm.setGuard s _ _).soft
  cleared s p i _ := soft _ _ (State.Calm.setGuard s _ _).soft
  compared s i b _ := soft _ _ (State.Calm.setGuard s _ _).soft
  unlocked s i p _ := soft _ _ (State.Calm.setGuard s _ _).soft
  locked s i p := soft _ _ (State.Calm.setGuard s _ _).soft
  torn s p := soft _ _ (State.Calm.teardownClaims s p).soft
  wipeStart s p tag i w _ _ _ _ := soft _ _ (State.Soft.wipeStart s p tag i w)
  newMaster s key _ := soft _ _
    ⟨rfl, rfl, rfl, rfl, rfl, rfl, rfl, rfl, rfl, fun _ => Pcu.Mild.refl _⟩
  comparedMaster s b := soft _ _
    ⟨rfl, rfl, rfl, rfl, rfl, rfl, rfl, rfl, rfl, fun _ => Pcu.Mild.refl _⟩
  freeze s p _ := soft _ _
    ⟨rfl, rfl, rfl, rfl, rfl, rfl, rfl, rfl, rfl, fun _ => Pcu.Mild.refl _⟩
  scrub := scrub
  startJob s j _ _ := soft _ _ (State.Soft.startJob s j)
  ending s c j o _ _ _ := soft _ _ (State.Soft.setJob s c _)
  endJob s c j o _ _ _ := soft _ _ (State.Soft.endJob s c o)
  tornJob s p c := soft _ _ (State.Soft.teardownJob s p c)
  rotation s x := soft _ _
    ⟨rfl, rfl, rfl, rfl, rfl, rfl, rfl, rfl, rfl, fun _ => Pcu.Mild.refl _⟩
  startPort s p work h1 h2 := start s _ work h1 h2
  startStep s c j work h1 h2 _ _ := start s _ work h1 h2
  grantScrub s _ := grantScrub s
  handled := handled
  overwritten := overwritten
  planted := planted
  flipped := flipped
  endPort s p work _ := soft _ _ (State.Soft.endFlight s)
  endScrub s work n _ := soft _ _
    ⟨rfl, rfl, rfl, rfl, rfl, rfl, rfl, rfl, rfl, fun _ => Pcu.Mild.refl _⟩
  stepEnds s c work n good _ _ := soft _ _
    ((State.Soft.endFlight s).trans (State.Soft.stepDone _ c n good))
  wipeStepEnds s c d _ := soft _ _ ((State.Soft.endFlight s).trans (State.Soft.wipeStepDone _ c))
  signal := signal
  timer s x := soft _ _ ⟨rfl, rfl, rfl, rfl, rfl, rfl, rfl, rfl, rfl, fun _ => Pcu.Mild.refl _⟩
  microtick s _ := soft _ _ ⟨rfl, rfl, rfl, rfl, rfl, rfl, rfl, rfl, rfl, fun _ => Pcu.Mild.refl _⟩
  tick s x := soft _ _ ⟨rfl, rfl, rfl, rfl, rfl, rfl, rfl, rfl, rfl, fun _ => Pcu.Mild.refl _⟩
  sweep s n := soft _ _ ⟨rfl, rfl, rfl, rfl, rfl, rfl, rfl, rfl, rfl, fun _ => Pcu.Mild.refl _⟩
  sweepEnd := sweepEnd

end Sys2Proof.Machine
end

