-- ==== Sys2Proof/Laws/Invariants.lean ====
section
/-! SUPPORT. Changes keep the invariants: the array's canonical form, the scrub schedule, the queues and
the integrity unit's lists. -/

set_option linter.unusedVariables false

namespace Sys2Proof.Machine

/-! ### Memory -/

theorem State.wf_handleRead {s : State} (h : MemoryCanonical s) (r : LineRead)
    (b : Option (List Byte)) : MemoryCanonical (s.handleRead r b) := by
  have hp : ∀ (t : State) n, t.mem = s.mem → Memory.wf (t.postAll n).mem = true := fun t n e => by
    rw [(State.Calm.postAll t n).mem, e]; exact h
  have hf : ∀ (t : State) l f, t.mem = s.mem → (t.countFault l f).mem = s.mem := fun t l f e => by
    rw [(State.Calm.countFault t l f).mem, e]
  unfold MemoryCanonical State.handleRead
  split
  · split
    · exact State.wf_writeLine h _ _
    · exact h
  · have hc : (s.countCorrection r.ref.line).mem = s.mem := hf _ _ _ rfl
    generalize s.countCorrection r.ref.line = t at hc
    unfold State.rewriteSuspect
    split
    · split
      · refine State.wf_writeLine ?_ _ _
        rw [hf]
        · exact h
        · exact hc
      · exact State.wf_writeLine (hp t _ hc) _ _
    · exact State.wf_writeLine (by rw [hc]; exact h) _ _
  · unfold State.poisonLine
    simp only
    split
    · exact h
    · split
      · exact h
      · exact hp _ _ (hf _ _ _ rfl)

theorem memoryCanonical_keeps : Keeps MemoryCanonical :=
  Keeps.ofSoft
    (fun s t h hs => by unfold MemoryCanonical; rw [h.mem]; exact hs)
    (fun s p l _ hs => hs)
    (fun s p f tag c _ _ hs => hs)
    (fun s e n hs => by unfold State.applyScrub; split <;> exact hs)
    (fun s x work _ _ hs => hs)
    (fun s hs => hs)
    (fun s r b hs => State.wf_handleRead hs r b)
    (fun s r b hs => Memory.wf_writeBytes hs _ _)
    (fun s n k hs => hs)
    (fun s f hs => by
      unfold State.flipBit
      simp only
      split
      · exact Memory.wf_write hs _ _
      · exact hs)
    (fun s x hs => by unfold State.scrubSignal; simp only; split <;> exact hs)
    (fun s hs => hs)

/-! ### The scrub schedule -/

theorem scheduleLawful_keeps : Keeps ScheduleLawful :=
  Keeps.ofSoft
    (fun s t h hs => by unfold ScheduleLawful; rw [h.scrubDue, h.postponed]; exact hs)
    (fun s p l _ hs => hs)
    (fun s p f tag c _ _ hs => hs)
    (fun s e n hs => by
      unfold State.applyScrub
      split
      · exact hs
      · exact ⟨Nat.zero_le _, fun _ => rfl⟩)
    (fun s x work _ h hs => by
      obtain ⟨h1, h2⟩ := hs
      unfold State.startAccess ScheduleLawful
      simp only
      cases hd : s.scrubDue
      · simp [h2 hd]
      · have := h hd
        simp only [if_true]
        exact ⟨by omega, fun e => by simp at e⟩)
    (fun s _ => ⟨Nat.zero_le _, fun _ => rfl⟩)
    (fun s r b hs => by
      unfold ScheduleLawful
      rw [(State.Mends.handleRead s r b).scrubDue, (State.Mends.handleRead s r b).postponed]
      exact hs)
    (fun s r b hs => hs)
    (fun s n k hs => hs)
    (fun s f hs => by unfold State.flipBit; simp only; split <;> exact hs)
    (fun s x hs => by
      unfold State.scrubSignal
      simp only
      split
      · rename_i hd; exact ⟨le_refl _, fun e => by simp [hd] at e⟩
      · exact ⟨hs.1, fun e => by simp at e⟩)
    (fun s hs => hs)

/-! ### The queues -/

theorem queuesLawful_of_mild {s t : State} (hl : t.links = s.links)
    (hp : ∀ q, (s.pcu q).Mild (t.pcu q)) (h : QueuesLawful s ∧ NoticesLawful s) :
    QueuesLawful t ∧ NoticesLawful t := by
  refine ⟨fun p => ⟨(hp p).queue.trans (h.1 p).1, fun f hf hq => ?_⟩, fun p => ?_⟩
  · refine (hp p).queue.trans ((h.1 p).2 f ?_ hq)
    rw [← hf]; unfold State.link; rw [hl]
  · exact (hp p).notices (h.2 p)

theorem queuesLawful_keeps : Keeps (fun s => QueuesLawful s ∧ NoticesLawful s) :=
  Keeps.ofSoft
    (fun s t h hs => queuesLawful_of_mild h.links h.pcu hs)
    (fun s p l hl hs => by
      refine ⟨fun q => ⟨(hs.1 q).1, fun f hf hq => ?_⟩, hs.2⟩
      rw [State.pcu_setLink]
      by_cases e : q = p
      · subst e
        rw [State.link_setLink_same] at hf
        rcases hl f hf with h | ⟨g, hg, h⟩
        · rw [h] at hq
          have : (s.pcu q).queue.length ≠ 4 := by simpa [State.statusFlags] using hq
          have := (hs.1 q).1
          omega
        · exact (hs.1 q).2 g hg (by rw [← h]; exact hq)
      · rw [State.link_setLink_ne _ _ e] at hf
        exact (hs.1 q).2 f hf hq)
    (fun s p f tag c hf hq hs => by
      unfold State.admitCommand
      simp only
      refine ⟨fun q => ?_, fun q => ?_⟩
      · rw [State.pcu_setLink, State.pcu_setPcu]
        by_cases e : q = p
        · subst e
          have h3 := (hs.1 q).2 f hf hq
          simp only [if_true, List.length_append, List.length_singleton, State.link_setLink_same]
          exact ⟨by omega, fun g hg => by simp [Link.reset] at hg⟩
        · rw [if_neg e, State.link_setLink_ne _ _ e, State.link_setPcu]
          exact hs.1 q
      · rw [State.pcu_setLink, State.pcu_setPcu]
        split
        · exact hs.2 p
        · exact hs.2 q)
    (fun s e n hs => by unfold State.applyScrub; split <;> exact hs)
    (fun s x work _ _ hs => hs)
    (fun s hs => hs)
    (fun s r b hs => queuesLawful_of_mild (State.Mends.handleRead s r b).links
      (fun q => ((State.Mends.handleRead s r b).pcu q).mild) hs)
    (fun s r b hs => hs)
    (fun s n k hs => hs)
    (fun s f hs => by unfold State.flipBit; simp only; split <;> exact hs)
    (fun s x hs => by unfold State.scrubSignal; simp only; split <;> exact hs)
    (fun s hs => queuesLawful_of_mild (s := s) rfl
      (fun q => by cases q <;> exact ⟨le_refl _, id⟩) hs)

/-! ### The integrity unit's lists -/

theorem insertRising_rising {l : List Nat} (h : l.Pairwise (· < ·)) (x : Nat) :
    (insertRising l x).Pairwise (· < ·) ∧ ∀ y ∈ insertRising l x, y = x ∨ y ∈ l := by
  induction l with
  | nil => simp [insertRising]
  | cons a l ih =>
    rw [List.pairwise_cons] at h
    unfold insertRising
    split
    · rename_i hlt
      refine ⟨?_, fun y hy => by simpa using hy⟩
      rw [List.pairwise_cons, List.pairwise_cons]
      refine ⟨fun y hy => ?_, h.1, h.2⟩
      rcases List.mem_cons.1 hy with e | hy
      · omega
      · have := h.1 y hy; omega
    · split
      · exact ⟨List.pairwise_cons.2 h, fun y hy => Or.inr hy⟩
      · obtain ⟨h1, h2⟩ := ih h.2
        refine ⟨List.pairwise_cons.2 ⟨fun y hy => ?_, h1⟩, fun y hy => ?_⟩
        · rcases h2 y hy with e | hy
          · omega
          · exact h.1 y hy
        · rcases List.mem_cons.1 hy with e | hy
          · exact Or.inr (by simp [e])
          · rcases h2 y hy with e | hy
            · exact Or.inl e
            · exact Or.inr (List.mem_cons_of_mem _ hy)

theorem joinSuspects_lawful {l : List Nat} (h : l.length ≤ 32) (hn : l.Nodup) {x : Nat} (hx : x ∉ l) :
    (joinSuspects l x).length ≤ 32 ∧ (joinSuspects l x).Nodup := by
  unfold joinSuspects
  split
  · refine ⟨by simp only [List.length_append, List.length_singleton]; omega, ?_⟩
    rw [List.nodup_append]
    exact ⟨hn, List.nodup_singleton _, fun a ha b hb => by
      rw [List.mem_singleton] at hb; subst hb; rintro rfl; exact hx ha⟩
  · refine ⟨by simp only [List.length_append, List.length_singleton, List.length_tail]; omega, ?_⟩
    rw [List.nodup_append]
    exact ⟨hn.sublist (List.tail_sublist l), List.nodup_singleton _, fun a ha b hb => by
      rw [List.mem_singleton] at hb; subst hb; rintro rfl; exact hx (List.mem_of_mem_tail ha)⟩

theorem State.freeSpare?_some {s : State} {k : Nat} (h : s.freeSpare? = some k) :
    s.spares[k]? = some .free := by
  unfold State.freeSpare? at h
  simpa using List.find?_some h

/-- A retirement keeps the remap table and the spares in step (R116 to R118). -/
theorem State.retire_lists {s : State} (h : IntegrityLawful s) {line k : Nat}
    (hk : s.spares[k]? = some .free) :
    ((remapAfter s.remap line k).map RemapEntry.line).Nodup ∧
    ((remapAfter s.remap line k).map RemapEntry.spare).Nodup ∧
    ∀ j, (s.sparesAfter line k)[j]? = some SpareState.inUse ↔
      ∃ e ∈ remapAfter s.remap line k, e.spare = j := by
  obtain ⟨-, -, -, hl, hs, hu⟩ := h
  have hfree : ∀ e ∈ s.remap, e.spare ≠ k := by
    intro e he hek
    have := (hu k).2 ⟨e, he, hek⟩
    rw [hk] at this
    simp at this
  have hk16 : k < 16 := by
    by_contra hn
    rw [Vector.getElem?_eq_none (by omega)] at hk
    simp at hk
  unfold remapAfter State.sparesAfter
  simp only
  by_cases ha : ∃ e ∈ s.remap, e.line = line
  · obtain ⟨e0, he0, hline⟩ := ha
    have hany : s.remap.any (fun e => e.line == line) = true :=
      List.any_eq_true.2 ⟨e0, he0, by simp [hline]⟩
    have huniq : ∀ e ∈ s.remap, e.line = line → e = e0 := by
      intro e he hel
      exact List.inj_on_of_nodup_map hl he he0 (hel.trans hline.symm)
    have hfind : s.remap.find? (fun e => e.line == line) = some e0 := by
      cases hf : s.remap.find? (fun e => e.line == line) with
      | none => rw [List.find?_eq_none] at hf; exact absurd (by simp [hline]) (hf e0 he0)
      | some e => rw [huniq e (List.mem_of_find?_eq_some hf) (by simpa using List.find?_some hf)]
    have h0 : e0.spare < 16 := by
      by_contra hn
      have := (hu e0.spare).2 ⟨e0, he0, rfl⟩
      rw [Vector.getElem?_eq_none (by omega)] at this
      simp at this
    rw [if_pos hany, hfind]
    refine ⟨?_, ?_, fun j => ?_⟩
    · rw [List.map_map]
      have : (RemapEntry.line ∘ fun e => if (e.line == line) = true then { e with spare := k } else e)
          = RemapEntry.line := by
        funext e; simp only [Function.comp]; split <;> rfl
      rw [this]; exact hl
    · rw [List.map_map]
      refine List.Nodup.map_on ?_ (List.Nodup.of_map _ hs)
      intro a ha b hb hab
      simp only [Function.comp] at hab
      split at hab <;> split at hab <;> rename_i h1 h2
      · rw [huniq a ha (by simpa using h1), huniq b hb (by simpa using h2)]
      · exact absurd hab.symm (hfree b hb)
      · exact absurd hab (hfree a ha)
      · exact List.inj_on_of_nodup_map hs ha hb hab
    · rw [Vector.getElem?_setIfInBounds, Vector.getElem?_setIfInBounds]
      by_cases e1 : e0.spare = j
      · subst e1
        simp only [if_true, h0]
        constructor
        · intro hh; simp at hh
        · rintro ⟨e, he, hej⟩
          obtain ⟨a, ha, rfl⟩ := List.mem_map.1 he
          split at hej
          · exact absurd hej.symm (hfree e0 he0)
          · rename_i h1
            have := List.inj_on_of_nodup_map hs ha he0 hej
            rw [this] at h1; simp [hline] at h1
      · rw [if_neg e1]
        by_cases e2 : k = j
        · subst e2
          simp only [if_true, hk16, true_iff]
          exact ⟨{ e0 with spare := k }, List.mem_map.2 ⟨e0, he0, by simp [hline]⟩, rfl⟩
        · rw [if_neg e2, hu j]
          constructor
          · rintro ⟨e, he, hej⟩
            refine ⟨e, List.mem_map.2 ⟨e, he, if_neg ?_⟩, hej⟩
            intro hel
            rw [huniq e he (by simpa using hel)] at hej
            exact e1 hej
          · rintro ⟨e, he, hej⟩
            obtain ⟨a, ha, rfl⟩ := List.mem_map.1 he
            split at hej
            · exact absurd hej e2
            · exact ⟨a, ha, hej⟩
  · have hany : ¬ s.remap.any (fun e => e.line == line) = true := by
      rw [List.any_eq_true]
      rintro ⟨e, he, hel⟩
      exact ha ⟨e, he, by simpa using hel⟩
    have hfind : s.remap.find? (fun e => e.line == line) = none := by
      rw [List.find?_eq_none]
      intro e he hel
      exact ha ⟨e, he, by simpa using hel⟩
    rw [if_neg hany, hfind]
    refine ⟨?_, ?_, fun j => ?_⟩
    · rw [List.map_append, List.nodup_append]
      refine ⟨hl, List.nodup_singleton _, fun a h1 b h2 => ?_⟩
      obtain ⟨e, he, rfl⟩ := List.mem_map.1 h1
      simp only [List.map_cons, List.map_nil, List.mem_singleton] at h2
      rintro rfl
      exact ha ⟨e, he, h2⟩
    · rw [List.map_append, List.nodup_append]
      refine ⟨hs, List.nodup_singleton _, fun a h1 b h2 => ?_⟩
      obtain ⟨e, he, rfl⟩ := List.mem_map.1 h1
      simp only [List.map_cons, List.map_nil, List.mem_singleton] at h2
      rintro rfl
      exact hfree e he h2
    · rw [Vector.getElem?_setIfInBounds]
      by_cases e2 : k = j
      · subst e2
        simp only [if_true, hk16, true_iff]
        exact ⟨⟨line, k⟩, by simp, rfl⟩
      · rw [if_neg e2, hu j]
        constructor
        · rintro ⟨e, he, hej⟩
          exact ⟨e, List.mem_append_left _ he, hej⟩
        · rintro ⟨e, he, hej⟩
          rcases List.mem_append.1 he with he | he
          · exact ⟨e, he, hej⟩
          · rw [List.mem_singleton] at he
            subst he
            exact absurd hej e2

/-- The spares after a retirement: the new one IN-USE, the one the line's entry named before SPENT, and
every other as it was (R116, R118). -/
theorem State.getElem?_sparesAfter {s : State} (h : IntegrityLawful s) {line k : Nat}
    (hk : s.spares[k]? = some .free) :
    (s.sparesAfter line k)[k]? = some .inUse ∧
    (∀ e ∈ s.remap, e.line = line → (s.sparesAfter line k)[e.spare]? = some .spent) ∧
    ∀ m : Nat, m ≠ k → (∀ e ∈ s.remap, e.line = line → e.spare ≠ m) →
      (s.sparesAfter line k)[m]? = s.spares[m]? := by
  obtain ⟨-, -, -, hl, -, hu⟩ := h
  have bound : ∀ {m : Nat} {x}, s.spares[m]? = some x → m < 16 := by
    intro m x hm
    by_contra hn
    rw [Vector.getElem?_eq_none (by omega)] at hm
    cases hm
  have hk16 := bound hk
  unfold State.sparesAfter
  simp only
  cases hf : s.remap.find? (fun e => e.line == line) with
  | none =>
    rw [List.find?_eq_none] at hf
    refine ⟨?_, fun e he hel => absurd (by simpa using hel) (hf e he), fun m hm _ => ?_⟩
    · rw [Vector.getElem?_setIfInBounds, if_pos rfl, if_pos hk16]
    · rw [Vector.getElem?_setIfInBounds, if_neg (Ne.symm hm)]
  | some e0 =>
    have he0 := List.mem_of_find?_eq_some hf
    have hl0 : e0.line = line := by simpa using List.find?_some hf
    have hu0 := (hu e0.spare).2 ⟨e0, he0, rfl⟩
    have hne : e0.spare ≠ k := by
      intro hek
      rw [hek, hk] at hu0
      cases hu0
    refine ⟨?_, fun e he hel => ?_, fun m hm hn => ?_⟩
    · rw [Vector.getElem?_setIfInBounds, if_neg hne, Vector.getElem?_setIfInBounds, if_pos rfl,
        if_pos hk16]
    · rw [List.inj_on_of_nodup_map hl he he0 (hel.trans hl0.symm), Vector.getElem?_setIfInBounds,
        if_pos rfl, if_pos (bound hu0)]
    · rw [Vector.getElem?_setIfInBounds, if_neg (hn e0 he0 hl0), Vector.getElem?_setIfInBounds,
        if_neg (Ne.symm hm)]

/-- Where a line is held: at the spare of its remap entry, or at its home place (R117). -/
theorem State.physOf_eq {s : State} (h : IntegrityLawful s) (l : Nat) :
    (∀ e ∈ s.remap, e.line = l → s.physOf l = 16384 + e.spare) ∧
    ((∀ e ∈ s.remap, e.line ≠ l) → s.physOf l = l) := by
  unfold State.physOf
  constructor
  · intro e he hl
    cases hf : s.remap.find? (fun e => e.line == l) with
    | none =>
      have := List.find?_eq_none.1 hf e he
      simp [hl] at this
    | some x =>
      have hxl : x.line = l := by simpa using List.find?_some hf
      rw [List.inj_on_of_nodup_map h.2.2.2.1 (List.mem_of_find?_eq_some hf) he (hxl.trans hl.symm)]
  · intro hn
    rw [List.find?_eq_none.2 (fun e he => by simpa using hn e he)]

theorem integrityLawful_of_eq {s t : State} (h1 : t.suspects = s.suspects)
    (h2 : t.poisoned = s.poisoned) (h3 : t.remap = s.remap) (h4 : t.spares = s.spares)
    (h : IntegrityLawful s) : IntegrityLawful t := by
  unfold IntegrityLawful
  rw [h1, h2, h3, h4]
  exact h

theorem State.Calm.integrityLawful {s t : State} (c : s.Calm t) (h : IntegrityLawful s) :
    IntegrityLawful t := integrityLawful_of_eq c.suspects c.poisoned c.remap c.spares h

theorem State.integrityLawful_handleRead {s : State} (h : IntegrityLawful s) (r : LineRead)
    (b : Option (List Byte)) : IntegrityLawful (s.handleRead r b) := by
  have hp : ∀ l, IntegrityLawful { s with poisoned := insertRising s.poisoned l } := fun l =>
    ⟨h.1, h.2.1, (insertRising_rising h.2.2.1 l).1, h.2.2.2⟩
  unfold State.handleRead
  split
  · split <;> exact h
  · have hc : IntegrityLawful (s.countCorrection r.ref.line) := by
      unfold State.countCorrection
      refine (State.Calm.countFault _ _ _).integrityLawful ?_
      exact h
    generalize s.countCorrection r.ref.line = t at hc
    unfold State.rewriteSuspect
    split
    · rename_i hm
      split
      · rename_i k hk
        obtain ⟨h1, h2, h3⟩ := State.retire_lists hc (line := r.ref.line) (State.freeSpare?_some hk)
        unfold State.retire
        have hr : IntegrityLawful { t with
            suspects := t.suspects.erase r.ref.line
            spares := t.sparesAfter r.ref.line k
            remap := remapAfter t.remap r.ref.line k
            retirementsTotal := t.retirementsTotal + 1 } :=
          ⟨(List.length_erase_le).trans hc.1, hc.2.1.erase _, hc.2.2.1, h1, h2, h3⟩
        exact integrityLawful_of_eq rfl rfl rfl rfl
          ((State.Calm.countFault _ r.ref.line
            (fun c => { c with retirements := c.retirements + 1 })).integrityLawful hr)
      · exact integrityLawful_of_eq rfl rfl rfl rfl
          ((State.Calm.postAll t .sparesExhausted).integrityLawful hc)
    · rename_i hm
      have hm' : r.ref.line ∉ t.suspects := by simpa using hm
      obtain ⟨h1, h2⟩ := joinSuspects_lawful hc.1 hc.2.1 hm'
      exact ⟨h1, h2, hc.2.2⟩
  · unfold State.poisonLine
    simp only
    split
    · exact hp _
    · split
      · exact hp _
      · exact ((State.Calm.countFault _ _ _).trans (State.Calm.postAll _ _)).integrityLawful (hp _)

theorem integrityLawful_keeps : Keeps IntegrityLawful :=
  Keeps.ofSoft
    (fun s t h hs => integrityLawful_of_eq h.suspects h.poisoned h.remap h.spares hs)
    (fun s p l _ hs => hs)
    (fun s p f tag c _ _ hs => hs)
    (fun s e n hs => by unfold State.applyScrub; split <;> exact hs)
    (fun s x work _ _ hs => hs)
    (fun s hs => hs)
    (fun s r b hs => State.integrityLawful_handleRead hs r b)
    (fun s r b hs => ⟨hs.1, hs.2.1, hs.2.2.1.filter _, hs.2.2.2⟩)
    (fun s n k hs => hs)
    (fun s f hs => by unfold State.flipBit; simp only; split <;> exact hs)
    (fun s x hs => by unfold State.scrubSignal; simp only; split <;> exact hs)
    (fun s hs => hs)

end Sys2Proof.Machine
end

