-- ==== Sys2Proof/Laws/Lines.lean ====
section
/-! SUPPORT. What the engine finds when it reads a physical line: the class and the bytes of a line by
its flips (R108, R109). -/

namespace Sys2Proof.Machine

/-! ### Bytes of words laid end to end -/

theorem length_flatMap_words (g : Nat → List Byte) (hg : ∀ k, (g k).length = 8) (n : Nat) :
    ((List.range n).flatMap g).length = 8 * n := by
  induction n with
  | zero => rfl
  | succ n ih =>
    rw [List.range_succ, List.flatMap_append, List.length_append, ih]
    simp [hg]
    omega

theorem getElem?_flatMap_words (g : Nat → List Byte) (hg : ∀ k, (g k).length = 8) (n i : Nat) :
    ((List.range n).flatMap g)[i]? = if i < 8 * n then (g (i / 8))[i % 8]? else none := by
  induction n with
  | zero => simp
  | succ n ih =>
    rw [List.range_succ, List.flatMap_append, List.getElem?_append, length_flatMap_words g hg]
    by_cases h : i < 8 * n
    · rw [if_pos h, ih, if_pos h, if_pos (by omega)]
    · rw [if_neg h]
      have e : List.flatMap g [n] = g n := by simp
      rw [e]
      by_cases h2 : i < 8 * (n + 1)
      · rw [if_pos h2, show i / 8 = n by omega, show i % 8 = i - 8 * n by omega]
      · rw [if_neg h2, List.getElem?_eq_none]
        rw [hg]
        omega

/-! ### Words -/

theorem State.length_storedWord (s : State) (phys word : Nat) :
    (s.storedWord phys word).length = 8 := by
  simp [State.storedWord, Memory.readBytes]

theorem length_toggleBit (bytes : List Byte) (x : Option (Fin 8 × Fin 8)) :
    (toggleBit bytes x).length = bytes.length := by
  unfold toggleBit
  split <;> simp

theorem State.length_wordBytes (s : State) (phys word : Nat) : (s.wordBytes phys word).length = 8 := by
  unfold State.wordBytes
  split
  · rw [length_toggleBit, State.length_storedWord]
  · exact State.length_storedWord s phys word

theorem State.length_flipsIn (s : State) (phys word : Nat) :
    (s.flipsIn phys word).length = (s.wordFlips phys word).length := by
  show ((s.wordFlips phys word).map Flip.bit).length = _
  simp

/-- A word without flips is clean. -/
theorem State.wordClass_clean {s : State} {phys word : Nat} (h : s.flipsIn phys word = []) :
    s.wordClass phys word = .clean := by
  unfold State.wordClass
  rw [← State.length_flipsIn, h]
  rfl

/-- A word with one flip is single. -/
theorem State.wordClass_single {s : State} {phys word : Nat} {b : StoredBit}
    (h : s.flipsIn phys word = [b]) : s.wordClass phys word = .single := by
  unfold State.wordClass
  rw [← State.length_flipsIn, h]
  rfl

/-- A word with two flips is double. -/
theorem State.wordClass_double {s : State} {phys word : Nat}
    (h : (s.flipsIn phys word).length = 2) : s.wordClass phys word = .double := by
  unfold State.wordClass
  rw [← State.length_flipsIn, h]
  rfl

theorem State.wordBytes_clean {s : State} {phys word : Nat} (h : s.wordClass phys word = .clean) :
    s.wordBytes phys word = s.storedWord phys word := by
  unfold State.wordBytes
  rw [h]

/-- A single flip of a data bit is given corrected. -/
theorem State.wordBytes_data {s : State} {phys word : Nat} {byte bit : Fin 8}
    (h : s.flipsIn phys word = [.data byte bit]) :
    s.wordBytes phys word = toggleBit (s.storedWord phys word) (some (byte, bit)) := by
  unfold State.wordBytes
  rw [State.wordClass_single h]
  simp only
  unfold State.wordFix
  obtain ⟨f, hf, hb⟩ := List.map_eq_singleton_iff.1
    (show (s.wordFlips phys word).map Flip.bit = _ from h)
  rw [hf]
  simp only [hb]

/-- A single flip of a code bit leaves the data as stored. -/
theorem State.wordBytes_code {s : State} {phys word n : Nat} (h : s.flipsIn phys word = [.code n]) :
    s.wordBytes phys word = s.storedWord phys word := by
  unfold State.wordBytes
  rw [State.wordClass_single h]
  simp only
  unfold State.wordFix
  obtain ⟨f, hf, hb⟩ := List.map_eq_singleton_iff.1
    (show (s.wordFlips phys word).map Flip.bit = _ from h)
  rw [hf]
  simp only [hb]
  rfl

/-! ### Lines -/

theorem State.length_lineBytes (s : State) (phys : Nat) : (s.lineBytes phys).length = 64 :=
  length_flatMap_words _ (s.length_wordBytes phys) 8

theorem State.getElem?_lineBytes (s : State) (phys i : Nat) :
    (s.lineBytes phys)[i]? = if i < 64 then (s.wordBytes phys (i / 8))[i % 8]? else none :=
  getElem?_flatMap_words _ (s.length_wordBytes phys) 8 i

theorem State.getElem?_storedWord (s : State) (phys word i : Nat) (h : i < 8) :
    (s.storedWord phys word)[i]? = some (Memory.read s.mem (64 * phys + 8 * word + i)) := by
  simp [State.storedWord, Memory.readBytes, h]

/-- The bytes of a line as stored, word by word. -/
theorem State.getElem?_stored (s : State) (phys i : Nat) :
    (Memory.readBytes s.mem (64 * phys) 64)[i]? =
      if i < 64 then (s.storedWord phys (i / 8))[i % 8]? else none := by
  by_cases h : i < 64
  · rw [if_pos h, State.getElem?_storedWord _ _ _ _ (by omega)]
    simp only [Memory.readBytes, List.getElem?_map, List.getElem?_range h, Option.map_some]
    congr 2
    omega
  · rw [if_neg h, List.getElem?_eq_none]
    simp [Memory.readBytes]
    omega

theorem State.lineClass_uncorrectable {s : State} {phys word : Nat} (hw : word < 8)
    (h : s.wordClass phys word = .double) : s.lineClass phys = .uncorrectable := by
  unfold State.lineClass
  have hd : ((List.range 8).map (s.wordClass phys)).any (· == .double) = true := by
    rw [List.any_eq_true]
    exact ⟨_, List.mem_map.2 ⟨word, List.mem_range.2 hw, rfl⟩, by rw [h]; decide⟩
  simp only [hd, if_true]

/-- A line is correctable where some word is single and every other word clean or single. -/
theorem State.lineClass_correctable {s : State} {phys : Nat}
    (h : ∃ v, v < 8 ∧ s.wordClass phys v = .single)
    (ho : ∀ v, v < 8 → s.wordClass phys v ≠ .double) : s.lineClass phys = .correctable := by
  unfold State.lineClass
  have hd : ((List.range 8).map (s.wordClass phys)).any (· == .double) = false := by
    rw [List.any_eq_false]
    intro x hx
    obtain ⟨v, hv, rfl⟩ := List.mem_map.1 hx
    simpa using ho v (List.mem_range.1 hv)
  have hs : ((List.range 8).map (s.wordClass phys)).any (· == .single) = true := by
    obtain ⟨v, hv, hc⟩ := h
    rw [List.any_eq_true]
    exact ⟨_, List.mem_map.2 ⟨v, List.mem_range.2 hv, rfl⟩, by rw [hc]; decide⟩
  simp only [hd, hs]
  rfl

/-- A clean line has eight clean words. -/
theorem State.lineClass_eq_clean {s : State} {phys : Nat} :
    s.lineClass phys = .clean ↔ ∀ v, v < 8 → s.wordClass phys v = .clean := by
  unfold State.lineClass
  constructor
  · intro h
    simp only at h
    split at h
    · cases h
    · split at h
      · cases h
      · rename_i h1 h2
        intro v hv
        rw [Bool.not_eq_true, List.any_eq_false] at h1 h2
        have a := h1 _ (List.mem_map.2 ⟨v, List.mem_range.2 hv, rfl⟩)
        have b := h2 _ (List.mem_map.2 ⟨v, List.mem_range.2 hv, rfl⟩)
        cases hc : s.wordClass phys v
        · rfl
        · rw [hc] at b; exact absurd rfl b
        · rw [hc] at a; exact absurd rfl a
  · intro h
    have e : (List.range 8).map (s.wordClass phys) = List.replicate 8 .clean := by
      rw [List.eq_replicate_iff]
      refine ⟨by simp, fun b hb => ?_⟩
      obtain ⟨k, hk, rfl⟩ := List.mem_map.1 hb
      exact h k (List.mem_range.1 hk)
    simp only [e]
    rfl

/-- A clean line gives its bytes as stored. -/
theorem State.lineBytes_clean {s : State} {phys : Nat} (h : s.lineClass phys = .clean) :
    s.lineBytes phys = Memory.readBytes s.mem (64 * phys) 64 := by
  rw [State.lineClass_eq_clean] at h
  apply List.ext_getElem?
  intro i
  rw [State.getElem?_lineBytes, State.getElem?_stored]
  split
  · rw [State.wordBytes_clean (h _ (by omega))]
  · rfl

end Sys2Proof.Machine
end

