-- ==== Sys2Proof/Laws/Runs.lean ====
section
/-! SUPPORT. Runs of bytes over lines laid end to end: what an access reads, merges and stores. -/

namespace Sys2Proof.Machine

/-! ### Lines laid end to end -/

theorem length_flatMap_lines {α : Type} (f : α → List Byte) (l : List α)
    (hf : ∀ x ∈ l, (f x).length = 64) : (l.flatMap f).length = 64 * l.length := by
  induction l with
  | nil => rfl
  | cons x l ih =>
    rw [List.flatMap_cons, List.length_append, hf x (List.mem_cons_self ..),
      ih (fun y hy => hf y (List.mem_cons_of_mem _ hy)), List.length_cons]
    omega

theorem getElem?_flatMap_lines {α : Type} (f : α → List Byte) (l : List α)
    (hf : ∀ x ∈ l, (f x).length = 64) (i : Nat) :
    (l.flatMap f)[i]? = (l[i / 64]?).bind (fun x => (f x)[i % 64]?) := by
  induction l generalizing i with
  | nil => simp
  | cons x l ih =>
    rw [List.flatMap_cons, List.getElem?_append, hf x (List.mem_cons_self ..)]
    by_cases h : i < 64
    · rw [if_pos h, show i / 64 = 0 by omega, show i % 64 = i by omega]
      simp
    · rw [if_neg h, ih (fun y hy => hf y (List.mem_cons_of_mem _ hy)),
        show i / 64 = (i - 64) / 64 + 1 by omega, show i % 64 = (i - 64) % 64 by omega,
        List.getElem?_cons_succ]

/-- The bytes of clean lines, laid end to end, are the bytes stored at the run's addresses. -/
theorem State.getElem?_readBytes {s : State} {lines : List LineRef}
    (hc : ∀ r ∈ lines, s.lineClass r.phys = .clean) {i : Nat} (h : i < 64 * lines.length) :
    (readBytes (lines.map s.readLine))[i]? = some (Memory.read s.mem (runAddress lines i)) := by
  unfold readBytes
  rw [getElem?_flatMap_lines]
  · have hl : i / 64 < lines.length := by omega
    rw [List.getElem?_map, List.getElem?_eq_getElem hl]
    simp only [Option.map_some, Option.bind_some]
    unfold State.readLine
    simp only
    rw [State.lineBytes_clean (hc _ (List.getElem_mem hl)), State.getElem?_stored,
      if_pos (by omega), State.getElem?_storedWord _ _ _ _ (by omega)]
    unfold runAddress
    rw [List.getD_eq_getElem?_getD, List.getElem?_eq_getElem hl]
    simp only [Option.getD_some]
    congr 2
    omega
  · intro x hx
    obtain ⟨r, _, rfl⟩ := List.mem_map.1 hx
    exact s.length_lineBytes _

theorem State.length_readBytes (s : State) (lines : List LineRef) :
    (readBytes (lines.map s.readLine)).length = 64 * lines.length := by
  unfold readBytes
  rw [length_flatMap_lines, List.length_map]
  intro x hx
  obtain ⟨r, _, rfl⟩ := List.mem_map.1 hx
  exact s.length_lineBytes _

/-- The bytes of a run over clean lines. -/
theorem State.run_readBytes {s : State} {lines : List LineRef}
    (hc : ∀ r ∈ lines, s.lineClass r.phys = .clean) {first n : Nat}
    (h : first + n ≤ 64 * lines.length) :
    ((readBytes (lines.map s.readLine)).drop first).take n =
      (List.range n).map (fun k => Memory.read s.mem (runAddress lines (first + k))) := by
  apply List.ext_getElem?
  intro i
  rw [List.getElem?_take, List.getElem?_map]
  by_cases hi : i < n
  · rw [if_pos hi, List.getElem?_drop, State.getElem?_readBytes hc (by omega),
      List.getElem?_range hi]
    rfl
  · rw [if_neg hi, List.getElem?_eq_none (by simpa using hi)]
    rfl

/-! ### Handling clean lines -/

/-- Lines without an uncorrectable one are good reads. -/
theorem State.readsGood_iff (s : State) (lines : List LineRef) :
    readsGood (lines.map s.readLine) = true ↔
      ∀ r ∈ lines, s.lineClass r.phys ≠ .uncorrectable := by
  unfold readsGood
  simp [State.readLine]

/-- Clean lines into which nothing is stored are left as they are. -/
theorem State.handleReads_clean {s : State} {lines : List LineRef}
    (hc : ∀ r ∈ lines, s.lineClass r.phys = .clean) (t : State) :
    t.handleReads (lines.map s.readLine) (fun _ => none) = t := by
  unfold State.handleReads
  induction lines generalizing t with
  | nil => rfl
  | cons r l ih =>
    rw [List.map_cons, List.foldl_cons]
    have : t.handleRead (s.readLine r) none = t := by
      unfold State.handleRead State.readLine
      simp only [hc r (List.mem_cons_self ..)]
    rw [this]
    exact ih (fun x hx => hc x (List.mem_cons_of_mem _ hx)) t

end Sys2Proof.Machine
end

