-- ==== Sys2Proof/Laws/Poison.lean ====
section
/-! SUPPORT. Poisoning and retiring a line (R116, R120): the mark, the counts and the notices, and what
stays. -/

namespace Sys2Proof.Machine

theorem mem_insertRising (l : List Nat) (x y : Nat) : y ∈ insertRising l x ↔ y ∈ l ∨ y = x := by
  induction l with
  | nil => simp [insertRising]
  | cons a l ih =>
    unfold insertRising
    split
    · rw [List.mem_cons]
      exact or_comm
    · split
      · rename_i h
        subst h
        rw [List.mem_cons]
        constructor
        · exact Or.inl
        · rintro (h | h)
          · exact h
          · exact Or.inl h
      · rw [List.mem_cons, List.mem_cons, ih, or_assoc]

/-- What a notice leaves of a PCU: everything but its notices. -/
def Pcu.SameWork (u v : Pcu) : Prop :=
  v.completions = u.completions ∧ v.queue = u.queue ∧ v.access = u.access ∧
    v.accessAwaited = u.accessAwaited ∧ v.outstanding = u.outstanding ∧
    v.reservations = u.reservations ∧ v.state = u.state ∧ v.jobsAwaited = u.jobsAwaited

theorem Pcu.SameWork.refl (u : Pcu) : u.SameWork u := ⟨rfl, rfl, rfl, rfl, rfl, rfl, rfl, rfl⟩

theorem Pcu.SameWork.trans {u v w : Pcu} (h : u.SameWork v) (k : v.SameWork w) : u.SameWork w := by
  obtain ⟨a1, a2, a3, a4, a5, a6, a7, a8⟩ := h
  obtain ⟨b1, b2, b3, b4, b5, b6, b7, b8⟩ := k
  exact ⟨b1.trans a1, b2.trans a2, b3.trans a3, b4.trans a4, b5.trans a5, b6.trans a6, b7.trans a7,
    b8.trans a8⟩

theorem Pcu.SameWork.post (u : Pcu) (n : Notice) : u.SameWork (u.post n) := by
  rw [Pcu.post_fields]
  exact ⟨rfl, rfl, rfl, rfl, rfl, rfl, rfl, rfl⟩

/-- A notice to every port, port by port. -/
theorem State.pcu_postAll (s : State) (n : Notice) (q : Port) :
    (s.postAll n).pcu q = (s.pcu q).post n := by
  unfold State.postAll Port.all State.post
  simp only [List.foldl_cons, List.foldl_nil, State.pcu_setPcu]
  cases q <;> simp

theorem State.pcu_countFault (s : State) (line : Nat) (f : FaultCounts → FaultCounts) (q : Port) :
    (s.countFault line f).pcu q = s.pcu q := by
  unfold State.countFault
  split
  · rfl
  · split <;> rfl

/-- Poisoning a line gives every PCU notices at most. -/
theorem State.pcu_poisonLine (s : State) (line : Nat) (q : Port) :
    (s.pcu q).SameWork ((s.poisonLine line).pcu q) := by
  unfold State.poisonLine
  simp only
  split
  · exact Pcu.SameWork.refl _
  · split
    · exact Pcu.SameWork.refl _
    · rw [State.pcu_postAll, State.pcu_countFault]
      exact Pcu.SameWork.post _ _

/-- Poisoning a line marks it, and otherwise changes windows' counts and the PCUs alone. -/
theorem State.poisonLine_eq (s : State) (line : Nat) :
    s.poisonLine line =
      { s with
        poisoned := insertRising s.poisoned line
        windows := (s.poisonLine line).windows
        pcus := (s.poisonLine line).pcus } := by
  conv_lhs => unfold State.poisonLine
  simp only
  split
  · rename_i h
    have e : s.poisonLine line = { s with poisoned := insertRising s.poisoned line } := by
      unfold State.poisonLine
      simp only [h]
    rw [e]
  · rename_i i h
    split
    · rename_i hw
      have e : s.poisonLine line = { s with poisoned := insertRising s.poisoned line } := by
        unfold State.poisonLine
        simp only [h, hw]
      rw [e]
    · rename_i w hw
      have e : s.poisonLine line =
          (State.countFault { s with poisoned := insertRising s.poisoned line } line
            (fun c => { c with poisonings := countUp 65535 c.poisonings })).postAll
            (.linePoisoned i (line - w.base) 1) := by
        unfold State.poisonLine
        simp only [h, hw]
      have c := (State.Calm.countFault { s with poisoned := insertRising s.poisoned line } line
        (fun c => { c with poisonings := countUp 65535 c.poisonings })).trans
        (State.Calm.postAll _ (.linePoisoned i (line - w.base) 1))
      rw [e]
      exact c.frame

/-- A fault count changes the windows alone. -/
theorem State.countFault_eq (s : State) (line : Nat) (f : FaultCounts → FaultCounts) :
    s.countFault line f = { s with windows := (s.countFault line f).windows } := by
  unfold State.countFault
  split
  · rfl
  · split <;> rfl

/-- A retirement, but for the fault counts of the windows (R116). -/
theorem State.retire_eq (s : State) (line k : Nat) (b : List Byte) : ∃ ws, s.retire line k b =
    { s with
      windows := ws
      suspects := s.suspects.erase line
      spares := s.sparesAfter line k
      remap := remapAfter s.remap line k
      retirementsTotal := s.retirementsTotal + 1
      mem := Memory.writeBytes s.mem (64 * (16384 + k)) b
      flips := s.flips.filter (fun f => f.phys != 16384 + k) } := by
  unfold State.retire
  rw [State.countFault_eq]
  exact ⟨_, rfl⟩

/-- The spare a retirement takes is the lowest-numbered FREE one (R116). -/
theorem State.freeSpare?_eq {s : State} {k : Nat} (h : s.spares[k]? = some SpareState.free)
    (hm : ∀ m : Nat, m < k → s.spares[m]? ≠ some SpareState.free) : s.freeSpare? = some k := by
  unfold State.freeSpare?
  have hk : k < 16 := by
    rcases Nat.lt_or_ge k 16 with hlt | hge
    · exact hlt
    · rw [Vector.getElem?_eq_none hge] at h
      cases h
  rw [List.find?_eq_some_iff_getElem]
  exact ⟨by simp [h], k, by simpa using hk, by simp, fun j hj => by simpa using hm j hj⟩

end Sys2Proof.Machine
end

