-- ==== Sys2Proof/Laws/WindowLaw.lean ====
section
/-! SUPPORT. What commands do to the windows: the record at each index after each operation, and
`Keeps.ofWindowLaw`, which carries a law of single windows through every command. -/

set_option linter.unusedVariables false

namespace Sys2Proof.Machine

/-! ### The record at an index -/

theorem State.window?_setGuard (s : State) (i j : Nat) (f : Guard → Guard) :
    (s.setGuard i f).window? j =
      if j = i then (s.window? i).map (fun w => { w with guard := f w.guard }) else s.window? j := by
  unfold State.setGuard
  cases h : s.window? i with
  | none =>
    simp only [Option.map_none]
    split
    · rename_i e; rw [e, h]
    · rfl
  | some w =>
    have := State.window?_eq_some_lt h
    simp only [State.window?_setWindow, this, and_true, Option.map_some]

theorem State.windows_startJob (s : State) (j : Job) : (s.startJob j).windows = s.windows := by
  unfold State.startJob
  split <;> simp

theorem State.windows_endJob (s : State) (c : Channel) (o : OutcomeCode) :
    (s.endJob c o).windows = s.windows := by
  unfold State.endJob
  split
  · rfl
  · simp only
    split
    · simp [State.complete]
    · split <;> simp

theorem State.windows_revokeJob (s : State) (i : Nat) (c : Channel) :
    (s.revokeJob i c).windows = s.windows := by
  unfold State.revokeJob
  split
  · rfl
  · split
    · split
      · split <;> simp
      · exact State.windows_endJob s c _
    · rfl

theorem State.window?_wipeStart {s : State} (p : Port) (tag : Byte) {i : Nat} (w : Window) (h : i < 32)
    (j : Nat) : (s.wipeStart p tag i w).window? j =
      if j = i then some w.startWiping.clearClaims else s.window? j := by
  have e : (s.wipeStart p tag i w).windows =
      ((s.setWindow i (some w.startWiping)).revoke i).windows := by
    unfold State.wipeStart
    simp only
    rw [show ∀ (t : State), (t.leaveQueue p).windows = t.windows from fun _ => rfl,
      State.windows_startJob, State.windows_revokeJob, State.windows_revokeJob]
  rw [State.window?_of_windows e, State.window?_revoke, State.window?_setWindow,
    State.window?_setWindow]
  simp only [h, and_true]
  split <;> simp_all

theorem State.windows_teardownJob (s : State) (p : Port) (c : Channel) :
    (s.teardownJob p c).windows = s.windows := by
  unfold State.teardownJob
  split
  · rfl
  · split
    · split
      · simp
      · split
        · split <;> simp [State.awaitJob]
        · simp [State.awaitJob]
    · rfl

theorem State.window?_foldl_grantPass (l : List Nat) (hl : l.Nodup) (s : State) (j : Nat) :
    (l.foldl (fun t i => t.grantPass i) s).window? j =
      if j ∈ l then (s.window? j).map (fun w => w.afterPass s.msCount) else s.window? j := by
  induction l generalizing s with
  | nil => simp
  | cons i l ih =>
    rw [List.nodup_cons] at hl
    rw [List.foldl_cons, ih hl.2, State.window?_grantPass, (State.Calm.grantPass s i).msCount]
    by_cases e : j = i
    · subst e
      simp [hl.1]
    · simp [e]

/-- Every window after the claims of a port were torn down (R49, R192). -/
theorem State.window?_teardownClaims (s : State) (p : Port) (j : Nat) :
    (s.teardownClaims p).window? j = (s.window? j).map (fun w =>
      if w.holds p || w.waits p then (w.removePort p).afterPass s.msCount else w.removePort p) := by
  unfold State.teardownClaims
  simp only
  rw [State.window?_foldl_grantPass _ ((List.nodup_range).filter _)]
  have hm : State.window? { s with windows := s.windows.map (fun w => w.map (fun v => v.removePort p)) } j
      = (s.window? j).map (fun v => v.removePort p) := by
    unfold State.window?
    simp only [Vector.getElem?_map]
    cases s.windows[j]? with
    | none => rfl
    | some w => cases w <;> rfl
  rw [hm]
  cases hw : s.window? j with
  | none => simp
  | some w =>
    have := State.window?_eq_some_lt hw
    have hc : s.claimsOn p j = (w.holds p || w.waits p) := by simp [State.claimsOn, hw]
    simp only [List.mem_filter, List.mem_range, this, true_and, hc, Option.map_some]
    split <;> simp_all

theorem State.window?_touchStep (s : State) (j : Job) (i : Nat) :
    ∀ v, (s.touchStep j).window? i = some v → ∃ w, s.window? i = some w ∧
      (v = w ∨ w.holds j.owner = true ∧ ∃ l, v =
        { w with holders := w.holders.set j.owner (some l) }) := by
  have h1 : ∀ (t : State) (p : Port) (k : Nat) v, (t.touch p k).window? i = some v →
      ∃ w, t.window? i = some w ∧ (v = w ∨ w.holds p = true ∧ ∃ l, v =
        { w with holders := w.holders.set p (some l) }) := by
    intro t p k v hv
    rw [State.window?_touch] at hv
    split at hv
    · rename_i e
      subst e
      cases hw : t.window? i with
      | none => simp [hw] at hv
      | some w =>
        rw [hw] at hv
        simp only [Option.map_some, Option.some.injEq] at hv
        refine ⟨w, rfl, ?_⟩
        split at hv
        · rename_i hp; exact Or.inr ⟨hp, _, hv.symm⟩
        · exact Or.inl hv.symm
    · exact ⟨v, hv, Or.inl rfl⟩
  intro v hv
  unfold State.touchStep at hv
  simp only at hv
  split at hv
  · obtain ⟨u, hu, h⟩ := h1 _ _ _ _ hv
    obtain ⟨w, hw, k⟩ := h1 _ _ _ _ hu
    refine ⟨w, hw, ?_⟩
    rcases k with rfl | ⟨k1, l, rfl⟩
    · exact h
    · rcases h with rfl | ⟨h1, m, rfl⟩
      · exact Or.inr ⟨k1, l, rfl⟩
      · exact Or.inr ⟨k1, m, by simp⟩
  · exact h1 _ _ _ _ hv

/-- The windows after a COPY or FILL step: unchanged, or with a new term of the owner's claim (R144). -/
theorem State.window?_stepDone (s : State) (c : Channel) (n : Nat) (good : Bool) (i : Nat) :
    ∀ v, (s.stepDone c n good).window? i = some v → ∃ w, s.window? i = some w ∧
      (v = w ∨ ∃ p, w.holds p = true ∧ ∃ l, v = { w with holders := w.holders.set p (some l) }) := by
  intro v hv
  unfold State.stepDone at hv
  split at hv
  · exact ⟨v, hv, Or.inl rfl⟩
  · rename_i j hj
    have h0 : ∀ j' : Job, (s.setJob c (some j')).window? i = some v →
        ∃ w, s.window? i = some w ∧
          (v = w ∨ ∃ p, w.holds p = true ∧ ∃ l, v = { w with holders := w.holders.set p (some l) }) :=
      fun j' h => ⟨v, by simpa using h, Or.inl rfl⟩
    have h1 : ∀ j' : Job, ((s.setJob c (some j')).touchStep j').window? i = some v →
        ∃ w, s.window? i = some w ∧
          (v = w ∨ ∃ p, w.holds p = true ∧ ∃ l, v =
            { w with holders := w.holders.set p (some l) }) := by
      intro j' h
      obtain ⟨w, hw, k⟩ := State.window?_touchStep _ _ _ v h
      refine ⟨w, by simpa using hw, ?_⟩
      rcases k with rfl | ⟨hp, l, rfl⟩
      · exact Or.inl rfl
      · exact Or.inr ⟨_, hp, l, rfl⟩
    have he : ∀ (t : State) (o : OutcomeCode), (t.endJob c o).window? i = t.window? i := fun t o =>
      State.window?_of_windows (State.windows_endJob t c o) i
    cases good
    · simp only [Bool.false_eq_true, if_false, Bool.not_false, if_true] at hv
      split at hv
      · rw [he] at hv; exact h0 _ hv
      · rw [he] at hv; exact h0 _ hv
    · simp only [if_true, Bool.not_true, Bool.false_eq_true, if_false] at hv
      split at hv
      · split at hv
        · rw [he] at hv; exact h1 _ hv
        · exact h1 _ hv
      · rw [he] at hv; exact h1 _ hv

/-- The windows after a WIPE step: unchanged, or the window of the job wiped (R74). -/
theorem State.window?_wipeStepDone {s : State} {c : Channel} {j : Job} (hj : s.job c = some j) (i : Nat) :
    (s.wipeStepDone c).window? i =
      if i = j.dest.window ∧ j.total ≤ j.bytesDone + 64 then (s.window? i).map Window.wiped
      else s.window? i := by
  unfold State.wipeStepDone
  rw [hj]
  simp only
  split
  · rename_i h
    unfold State.wipeEnd
    rw [State.window?_of_windows (State.windows_endJob _ c _), State.window?_setWindow]
    by_cases e : i = j.dest.window
    · subst e
      by_cases h32 : j.dest.window < 32
      · simp [h32, h]
      · have : s.window? j.dest.window = none := by
          cases hw : s.window? j.dest.window with
          | none => rfl
          | some w => exact absurd (State.window?_eq_some_lt hw) h32
        simp [h32, h, this]
    · simp [e]
  · rename_i h
    simp [h]

/-! ### A law of single windows -/

/-- A law of single windows that every change of a window keeps is kept by every command, beside a
property `J` that says what a wipe step finds (`A`). -/
theorem Keeps.ofWindowLaw {J : State → Prop} (kJ : Keeps J) {P A : Window → Prop}
    (hA : ∀ (s : State) c d j w, J s → s.inFlight = some ⟨.slot (.channel c), .wipeStep d⟩ →
      s.job c = some j → s.window? j.dest.window = some w → A w)
    (fresh : ∀ b l pol x y, 1 ≤ l → b + l ≤ 16384 → P (Window.fresh b l pol x y))
    (params : ∀ w sel pol x y,
      (changesPolicy w sel pol = true →
        w.activity = .idle ∧ w.noHolders = true ∧ w.waiters = [] ∧
          (policyOf pol = some .free → w.guard.key = none)) →
      P w → P (w.withParams sel pol x y))
    (granted : ∀ w p k now, w.activity = .idle → w.policy ≠ .free → w.holds p = false →
      w.waits p = false → w.grantable k = true → P w → P (w.grantClaim p k now))
    (waiting : ∀ w p k tag now, w.activity = .idle → w.policy ≠ .free → w.holds p = false →
      w.waits p = false → w.grantable k = false → P w →
      P { w with waiters := w.waiters ++ [w.newWaiter p k tag now] })
    (claimEnds : ∀ w p now, w.holds p = true → P w → P ((w.removeHolder p).afterPass now))
    (waitEnds : ∀ w p now, P w → P ((w.removeWaiter p).afterPass now))
    (lease : ∀ w p l, w.holds p = true → P w →
      P { w with holders := w.holders.set p (some l) })
    (keyed : ∀ w p key level, w.activity = .idle → w.holdsWrite p = true → P w →
      P { w with guard := Guard.keyedBy p key level })
    (cleared : ∀ w, P w → P { w with guard := Guard.fresh })
    (compared : ∀ w n, w.guard.key ≠ none → (w.guard.attempts ≤ 4 → n ≤ 4) → P w →
      P { w with guard := { w.guard with attempts := n } })
    (unlocked : ∀ w p, w.guard.key ≠ none → w.activity = .idle → P w →
      P { w with guard := { w.guard with unlocked := w.guard.unlocked.set p true } })
    (locked : ∀ w p, P w →
      P { w with guard := { w.guard with unlocked := w.guard.unlocked.set p false } })
    (torn : ∀ w p, w.holds p = false → w.waits p = false → P w → P (w.removePort p))
    (tornPass : ∀ w p now, P w → P ((w.removePort p).afterPass now))
    (wiping : ∀ w, w.activity = .idle → P w → P w.startWiping.clearClaims)
    (faults : ∀ w f, P w → P { w with faults := f })
    (wiped : ∀ w, A w → P w → P w.wiped) : Keeps (fun s => J s ∧ EveryWindow s P) := by
  have same : ∀ {s t : State}, t.windows = s.windows → EveryWindow s P → EveryWindow t P := by
    intro s t h hs i w hw
    exact hs i w (by rw [← State.window?_of_windows h]; exact hw)
  have set1 : ∀ {s : State} {i : Nat} {w : Window}, P w → EveryWindow s P →
      EveryWindow (s.setWindow i (some w)) P := by
    intro s i w hw hs j v hv
    rw [State.window?_setWindow] at hv
    split at hv
    · cases hv; exact hw
    · exact hs j v hv
  have guard : ∀ {s : State} {i : Nat} {f : Guard → Guard},
      (∀ w, s.window? i = some w → P w → P { w with guard := f w.guard }) → EveryWindow s P →
      EveryWindow (s.setGuard i f) P := by
    intro s i f hf hs j v hv
    rw [State.window?_setGuard] at hv
    split at hv
    · cases hw : s.window? i with
      | none => simp [hw] at hv
      | some w =>
        rw [hw] at hv
        cases hv
        exact hf w hw (hs i w hw)
    · exact hs j v hv
  have mends : ∀ {s t : State}, s.Mends t → EveryWindow s P → EveryWindow t P := by
    intro s t h hs i v hv
    cases hw : s.window? i with
    | none => rw [(h.absent i).2 hw] at hv; cases hv
    | some w =>
      have := h.present i w v hw hv
      rw [this]
      exact faults w _ (hs i w hw)
  constructor
  case pending => exact fun s l h => ⟨kJ.pending s l h.1, same rfl h.2⟩
  case pcu => exact fun s p u hu h => ⟨kJ.pcu s p u hu h.1, same rfl h.2⟩
  case link => exact fun s p l hl h => ⟨kJ.link s p l hl h.1, same rfl h.2⟩
  case admitCommand => exact fun s p f tag c h1 h2 h => ⟨kJ.admitCommand s p f tag c h1 h2 h.1, same rfl h.2⟩
  case define =>
    intro s p i b l pol x y ho h
    refine ⟨kJ.define s p i b l pol x y ho h.1, ?_⟩
    unfold defineOutcome at ho
    rw [firstFail_eq_ok (by simp [State.layoutChecks])] at ho
    simp only [State.layoutChecks, List.cons_append, List.nil_append, List.forall_mem_cons,
      List.not_mem_nil, false_imp_iff, implies_true, and_true, decide_eq_true_eq] at ho
    cases hp : policyOf pol with
    | none => simp [hp] at ho
    | some z => exact set1 (fresh _ _ _ _ _ ho.2.2.2.2.1.1 ho.2.2.2.2.1.2) h.2
  case params =>
    intro s p i sel pol x y ho h
    refine ⟨kJ.params s p i sel pol x y ho h.1, ?_⟩
    unfold paramsOutcome at ho
    simp only at ho
    rw [firstFail_eq_ok (by simp [State.layoutChecks])] at ho
    simp only [State.layoutChecks, List.cons_append, List.nil_append, List.forall_mem_cons,
      List.not_mem_nil, false_imp_iff, implies_true, and_true, decide_eq_true_eq] at ho
    obtain ⟨-, -, -, hs, -, hb, hk⟩ := ho
    obtain ⟨w, hw⟩ := Option.isSome_iff_exists.1 hs
    rw [hw] at hb hk ⊢
    refine set1 (params w sel pol x y ?_ (h.2 _ w hw)) h.2
    intro hc
    simp only [Option.any_some, hc, Bool.not_true, Bool.false_or, Bool.and_eq_true, beq_iff_eq,
      List.isEmpty_iff] at hb hk
    refine ⟨hb.1.1, hb.1.2, hb.2, fun hf => ?_⟩
    simpa [hf] using hk
  case delete =>
    intro s p i ho h
    refine ⟨kJ.delete s p i ho h.1, ?_⟩
    intro j v hv
    rw [State.window?_setWindow] at hv
    split at hv
    · cases hv
    · rename_i hn
      rw [State.window?_revoke] at hv
      split at hv
      · rename_i e
        cases hw : s.window? i.toNat with
        | none => simp [hw] at hv
        | some w => exact absurd ⟨e, State.window?_eq_some_lt hw⟩ hn
      · exact h.2 j v hv
  case granted =>
    intro s i w p k hw h1 h2 h3 h4 h5 h
    exact ⟨kJ.granted s i w p k hw h1 h2 h3 h4 h5 h.1,
      set1 (granted w p k _ h1 h2 h3 h4 h5 (h.2 i w hw)) h.2⟩
  case waiting =>
    intro s i w p k tag hw h1 h2 h3 h4 h5 h
    exact ⟨kJ.waiting s i w p k tag hw h1 h2 h3 h4 h5 h.1,
      set1 (waiting w p k tag _ h1 h2 h3 h4 h5 (h.2 i w hw)) h.2⟩
  case claimEnds =>
    intro s t i w p hw hp hc ht h
    refine ⟨kJ.claimEnds s t i w p hw hp hc ht h.1, ?_⟩
    intro j v hv
    rw [State.window?_grantPass, State.window?_of_windows ht, State.window?_of_windows ht,
      State.window?_setWindow, State.window?_setWindow] at hv
    have hi := State.window?_eq_some_lt hw
    split at hv
    · simp only [hi, and_self, if_true, Option.map_some, Option.some.injEq] at hv
      rw [← hv]
      exact claimEnds w p _ hp (h.2 i w hw)
    · rename_i e
      simp only [e, false_and, if_false] at hv
      exact h.2 j v hv
  case waitEnds =>
    intro s t i w p hw hc ht h
    refine ⟨kJ.waitEnds s t i w p hw hc ht h.1, ?_⟩
    intro j v hv
    rw [State.window?_grantPass, State.window?_of_windows ht, State.window?_of_windows ht,
      State.window?_setWindow, State.window?_setWindow] at hv
    have hi := State.window?_eq_some_lt hw
    split at hv
    · simp only [hi, and_self, if_true, Option.map_some, Option.some.injEq] at hv
      rw [← hv]
      exact waitEnds w p _ (h.2 i w hw)
    · rename_i e
      simp only [e, false_and, if_false] at hv
      exact h.2 j v hv
  case lease =>
    intro s i w p l hw hp h
    exact ⟨kJ.lease s i w p l hw hp h.1, set1 (lease w p l hp (h.2 i w hw)) h.2⟩
  case keyed =>
    intro s p i level key ho h
    refine ⟨kJ.keyed s p i level key ho h.1, guard (fun w hw hP => ?_) h.2⟩
    unfold setKeyOutcome at ho
    simp only at ho
    rw [firstFail_eq_ok (by simp), hw] at ho
    simp only [List.forall_mem_cons, List.not_mem_nil, false_imp_iff, implies_true, and_true,
      Option.any_some, beq_iff_eq] at ho
    exact keyed w p key _ ho.2.2.1 ho.2.2.2.1 hP
  case cleared =>
    intro s p i ho h
    exact ⟨kJ.cleared s p i ho h.1, guard (fun w hw hP => cleared w hP) h.2⟩
  case compared =>
    intro s i b hk h
    refine ⟨kJ.compared s i b hk h.1, guard (fun w hw hP => ?_) h.2⟩
    exact compared w _ (hk w hw) (fun h4 => by split <;> omega) hP
  case unlocked =>
    intro s i p hk h
    exact ⟨kJ.unlocked s i p hk h.1,
      guard (fun w hw hP => unlocked w p (hk w hw).1 (hk w hw).2 hP) h.2⟩
  case locked =>
    exact fun s i p h => ⟨kJ.locked s i p h.1, guard (fun w hw hP => locked w p hP) h.2⟩
  case torn =>
    intro s p h
    refine ⟨kJ.torn s p h.1, ?_⟩
    intro j v hv
    rw [State.window?_teardownClaims] at hv
    cases hw : s.window? j with
    | none => simp [hw] at hv
    | some w =>
      rw [hw] at hv
      simp only [Option.map_some, Option.some.injEq] at hv
      rw [← hv]
      split
      · exact tornPass w p _ (h.2 j w hw)
      · rename_i hn
        rw [Bool.or_eq_true, not_or] at hn
        exact torn w p (by simpa using hn.1) (by simpa using hn.2) (h.2 j w hw)
  case wipeStart =>
    intro s p tag i w hw ha hf hc h
    refine ⟨kJ.wipeStart s p tag i w hw ha hf hc h.1, ?_⟩
    intro j v hv
    rw [State.window?_wipeStart p tag w (State.window?_eq_some_lt hw)] at hv
    split at hv
    · cases hv; exact wiping w ha (h.2 i w hw)
    · exact h.2 j v hv
  case newMaster => exact fun s key hf h => ⟨kJ.newMaster s key hf h.1, same rfl h.2⟩
  case comparedMaster => exact fun s b h => ⟨kJ.comparedMaster s b h.1, same rfl h.2⟩
  case freeze => exact fun s p hf h => ⟨kJ.freeze s p hf h.1, same rfl h.2⟩
  case scrub =>
    exact fun s e n h => ⟨kJ.scrub s e n h.1, same (by unfold State.applyScrub; split <;> rfl) h.2⟩
  case startJob =>
    exact fun s j h1 h2 h => ⟨kJ.startJob s j h1 h2 h.1, same (State.windows_startJob s j) h.2⟩
  case ending =>
    exact fun s c j o h1 h2 h3 h => ⟨kJ.ending s c j o h1 h2 h3 h.1, same (by simp) h.2⟩
  case endJob =>
    exact fun s c j o h1 h2 h3 h =>
      ⟨kJ.endJob s c j o h1 h2 h3 h.1, same (State.windows_endJob s c o) h.2⟩
  case tornJob =>
    exact fun s p c h => ⟨kJ.tornJob s p c h.1, same (State.windows_teardownJob s p c) h.2⟩
  case rotation => exact fun s x h => ⟨kJ.rotation s x h.1, same rfl h.2⟩
  case startPort => exact fun s p w h1 h2 h => ⟨kJ.startPort s p w h1 h2 h.1, same rfl h.2⟩
  case startStep =>
    exact fun s c j w h1 h2 h3 h4 h => ⟨kJ.startStep s c j w h1 h2 h3 h4 h.1, same rfl h.2⟩
  case grantScrub => exact fun s h0 h => ⟨kJ.grantScrub s h0 h.1, same rfl h.2⟩
  case handled =>
    exact fun s r b h => ⟨kJ.handled s r b h.1, mends (State.Mends.handleRead s r b) h.2⟩
  case overwritten => exact fun s r b h => ⟨kJ.overwritten s r b h.1, same rfl h.2⟩
  case planted => exact fun s n x h => ⟨kJ.planted s n x h.1, same rfl h.2⟩
  case flipped =>
    exact fun s f h => ⟨kJ.flipped s f h.1,
      same (by unfold State.flipBit; simp only; split <;> rfl) h.2⟩
  case endPort => exact fun s p w h1 h => ⟨kJ.endPort s p w h1 h.1, same rfl h.2⟩
  case endScrub => exact fun s w n h1 h => ⟨kJ.endScrub s w n h1 h.1, same rfl h.2⟩
  case stepEnds =>
    intro s c work n good h1 h2 h
    refine ⟨kJ.stepEnds s c work n good h1 h2 h.1, ?_⟩
    intro i v hv
    obtain ⟨w, hw, hk⟩ := State.window?_stepDone _ c n good i v hv
    have hP := h.2 i w hw
    rcases hk with rfl | ⟨p, hp, l, rfl⟩
    · exact hP
    · exact lease w p l hp hP
  case wipeStepEnds =>
    intro s c d hf h
    refine ⟨kJ.wipeStepEnds s c d hf h.1, ?_⟩
    intro i v hv
    cases hj : s.endFlight.job c with
    | none =>
      unfold State.wipeStepDone at hv
      rw [hj] at hv
      exact h.2 i v hv
    | some j =>
      rw [State.window?_wipeStepDone hj] at hv
      split at hv
      · rename_i e
        cases hw : s.window? i with
        | none => rw [show s.endFlight.window? i = s.window? i from rfl, hw] at hv; cases hv
        | some w =>
          rw [show s.endFlight.window? i = s.window? i from rfl, hw] at hv
          cases hv
          have hj' : s.job c = some j := by rw [← hj]; cases c <;> rfl
          exact wiped w (hA s c d j w h.1 hf hj' (by rw [← e.1]; exact hw)) (h.2 i w hw)
      · exact h.2 i v hv
  case signal =>
    exact fun s x h => ⟨kJ.signal s x h.1,
      same (by unfold State.scrubSignal; simp only; split <;> rfl) h.2⟩
  case timer => exact fun s x h => ⟨kJ.timer s x h.1, same rfl h.2⟩
  case microtick => exact fun s hd h => ⟨kJ.microtick s hd h.1, same rfl h.2⟩
  case tick => exact fun s x h => ⟨kJ.tick s x h.1, same rfl h.2⟩
  case sweep => exact fun s n h => ⟨kJ.sweep s n h.1, same rfl h.2⟩
  case sweepEnd => exact fun s h => ⟨kJ.sweepEnd s h.1, same rfl h.2⟩

end Sys2Proof.Machine
end

