-- ==== Sys2Proof/Laws/Layout.lean ====
section
/-! SUPPORT. Changes that keep the layout: every window's place, policy, key and activity, the freeze
flag and the master key. `Keeps.ofLayout` carries a property that depends on no more than that through
every command. -/

set_option linter.unusedVariables false

namespace Sys2Proof.Machine

/-- Two records of one window with the same place, policy, key and activity. -/
structure Window.SamePlace (w v : Window) : Prop where
  base : v.base = w.base
  length : v.length = w.length
  policy : v.policy = w.policy
  key : v.guard.key = w.guard.key
  activity : v.activity = w.activity

theorem Window.SamePlace.refl (w : Window) : w.SamePlace w := ⟨rfl, rfl, rfl, rfl, rfl⟩

theorem Window.SamePlace.trans {u v w : Window} (h : u.SamePlace v) (k : v.SamePlace w) :
    u.SamePlace w :=
  ⟨k.base.trans h.base, k.length.trans h.length, k.policy.trans h.policy, k.key.trans h.key,
    k.activity.trans h.activity⟩

theorem Window.SamePlace.afterPass (w : Window) (now : Tick) : w.SamePlace (w.afterPass now) := by
  rw [Window.afterPass_eq]
  exact ⟨rfl, rfl, rfl, rfl, rfl⟩

/-- A change that keeps the layout. -/
structure State.SameLayout (s t : State) : Prop where
  frozen : t.frozen = s.frozen
  masterKey : t.masterKey = s.masterKey
  masterAttempts : t.masterAttempts = s.masterAttempts
  absent : ∀ i, s.window? i = none → t.window? i = none
  present : ∀ i w, s.window? i = some w → ∃ v, t.window? i = some v ∧ w.SamePlace v

theorem State.SameLayout.of_windows {s t : State} (h : t.windows = s.windows)
    (h1 : t.frozen = s.frozen) (h2 : t.masterKey = s.masterKey)
    (h3 : t.masterAttempts = s.masterAttempts) : s.SameLayout t :=
  ⟨h1, h2, h3, fun i hi => (State.window?_of_windows h i).trans hi,
    fun i w hw => ⟨w, (State.window?_of_windows h i).trans hw, Window.SamePlace.refl w⟩⟩

theorem State.SameLayout.of_map {s t : State} (f : Nat → Window → Window)
    (hf : ∀ i w, s.window? i = some w → w.SamePlace (f i w))
    (h : ∀ i, t.window? i = (s.window? i).map (f i)) (h1 : t.frozen = s.frozen)
    (h2 : t.masterKey = s.masterKey) (h3 : t.masterAttempts = s.masterAttempts) : s.SameLayout t :=
  ⟨h1, h2, h3, fun i hi => by rw [h, hi]; rfl,
    fun i w hw => ⟨f i w, by rw [h, hw]; rfl, hf i w hw⟩⟩

theorem State.SameLayout.setWindow {s : State} {i : Nat} {w v : Window} (hw : s.window? i = some w)
    (h : w.SamePlace v) : s.SameLayout (s.setWindow i (some v)) := by
  have hi := State.window?_eq_some_lt hw
  refine ⟨rfl, rfl, rfl, fun j hj => ?_, fun j x hx => ?_⟩
  · rw [State.window?_setWindow]
    split
    · rename_i e; rw [e.1, hw] at hj; cases hj
    · exact hj
  · rw [State.window?_setWindow]
    split
    · rename_i e
      rw [e.1, hw] at hx
      cases hx
      exact ⟨v, rfl, h⟩
    · exact ⟨x, hx, Window.SamePlace.refl x⟩

theorem State.SameLayout.setGuard {s : State} (i : Nat) {f : Guard → Guard}
    (hf : ∀ g, (f g).key = g.key) : s.SameLayout (s.setGuard i f) := by
  unfold State.setGuard
  split
  · exact State.SameLayout.of_windows rfl rfl rfl rfl
  · rename_i w hw
    exact State.SameLayout.setWindow hw ⟨rfl, rfl, rfl, hf _, rfl⟩

theorem State.SameLayout.mends {s t : State} (h : s.Mends t) : s.SameLayout t := by
  refine ⟨h.frozen, h.masterKey, h.masterAttempts, fun i hi => (h.absent i).2 hi, fun i w hw => ?_⟩
  cases hv : t.window? i with
  | none => rw [(h.absent i).1 hv] at hw; cases hw
  | some v =>
    have := h.present i w v hw hv
    exact ⟨v, rfl, by rw [this]; exact ⟨rfl, rfl, rfl, rfl, rfl⟩⟩

theorem State.frozen_endJob (s : State) (c : Channel) (o : OutcomeCode) :
    (s.endJob c o).frozen = s.frozen ∧ (s.endJob c o).masterKey = s.masterKey ∧
      (s.endJob c o).masterAttempts = s.masterAttempts := by
  unfold State.endJob
  split
  · exact ⟨rfl, rfl, rfl⟩
  · simp only
    split
    · simp [State.complete]
    · split <;> simp

theorem State.SameLayout.endJob (s : State) (c : Channel) (o : OutcomeCode) :
    s.SameLayout (s.endJob c o) :=
  State.SameLayout.of_windows (State.windows_endJob s c o) (State.frozen_endJob s c o).1
    (State.frozen_endJob s c o).2.1 (State.frozen_endJob s c o).2.2

theorem State.SameLayout.trans {s t u : State} (h : s.SameLayout t) (k : t.SameLayout u) :
    s.SameLayout u := by
  refine ⟨k.frozen.trans h.frozen, k.masterKey.trans h.masterKey,
    k.masterAttempts.trans h.masterAttempts, fun i hi => k.absent i (h.absent i hi), fun i w hw => ?_⟩
  obtain ⟨v, hv, h1⟩ := h.present i w hw
  obtain ⟨x, hx, h2⟩ := k.present i v hv
  exact ⟨x, hx, h1.trans h2⟩

theorem State.SameLayout.refl (s : State) : s.SameLayout s :=
  State.SameLayout.of_windows rfl rfl rfl rfl

theorem State.SameLayout.setJob (s : State) (c : Channel) (j : Option Job) :
    s.SameLayout (s.setJob c j) :=
  State.SameLayout.of_windows (by simp) (by simp) (by simp) (by simp)

theorem State.SameLayout.touch (s : State) (p : Port) (i : Nat) : s.SameLayout (s.touch p i) := by
  unfold State.touch
  split
  · exact State.SameLayout.refl s
  · rename_i w hw
    split
    · exact State.SameLayout.setWindow hw ⟨rfl, rfl, rfl, rfl, rfl⟩
    · exact State.SameLayout.refl s

theorem State.SameLayout.touchStep (s : State) (j : Job) : s.SameLayout (s.touchStep j) := by
  unfold State.touchStep
  simp only
  split
  · exact (State.SameLayout.touch s _ _).trans (State.SameLayout.touch _ _ _)
  · exact State.SameLayout.touch s _ _

theorem State.SameLayout.stepDone (s : State) (c : Channel) (n : Nat) (good : Bool) :
    s.SameLayout (s.stepDone c n good) := by
  unfold State.stepDone
  split
  · exact State.SameLayout.refl s
  · have h1 : ∀ j', s.SameLayout (s.setJob c (some j')) := fun j' => State.SameLayout.setJob s c _
    have h2 : ∀ j', s.SameLayout ((s.setJob c (some j')).touchStep j') := fun j' =>
      (h1 j').trans (State.SameLayout.touchStep _ _)
    have h3 : ∀ (t : State) (o : OutcomeCode), s.SameLayout t → s.SameLayout (t.endJob c o) :=
      fun t o h => h.trans (State.SameLayout.endJob t c o)
    cases good
    · simp only [Bool.false_eq_true, if_false, Bool.not_false, if_true]
      split
      · exact h3 _ _ (h1 _)
      · exact h3 _ _ (h1 _)
    · simp only [if_true, Bool.not_true, Bool.false_eq_true, if_false]
      split
      · split
        · exact h3 _ _ (h2 _)
        · exact h2 _
      · exact h3 _ _ (h2 _)

theorem State.SameLayout.grantPass_of {s t : State} {i : Nat} {w v : Window}
    (hw : s.window? i = some w) (hc : s.Calm t) (ht : t.windows = (s.setWindow i (some v)).windows)
    (h : w.SamePlace v) : s.SameLayout (t.grantPass i) := by
  have hi := State.window?_eq_some_lt hw
  have hg := State.Calm.grantPass t i
  refine State.SameLayout.of_map
    (fun j x => if j = i then v.afterPass t.msCount else x) (fun j x hx => ?_) (fun j => ?_)
    (hg.frozen.trans hc.frozen) (hg.masterKey.trans hc.masterKey)
    (hg.masterAttempts.trans hc.masterAttempts)
  · split
    · rename_i e; rw [e, hw] at hx; cases hx
      exact h.trans (Window.SamePlace.afterPass v _)
    · exact Window.SamePlace.refl x
  · rw [State.window?_grantPass, State.window?_of_windows ht, State.window?_of_windows ht,
      State.window?_setWindow, State.window?_setWindow]
    by_cases e : j = i
    · subst e; simp [hi, hw]
    · simp [e]

theorem State.SameLayout.teardownClaims (s : State) (p : Port) : s.SameLayout (s.teardownClaims p) := by
  have hc := State.Calm.teardownClaims s p
  refine State.SameLayout.of_map _ (fun j w hw => ?_) (State.window?_teardownClaims s p) hc.frozen
    hc.masterKey hc.masterAttempts
  have h1 : w.SamePlace (w.removePort p) := ⟨rfl, rfl, rfl, rfl, rfl⟩
  split
  · exact h1.trans (Window.SamePlace.afterPass _ _)
  · exact h1

theorem State.SameLayout.teardownJob (s : State) (p : Port) (c : Channel) :
    s.SameLayout (s.teardownJob p c) := by
  unfold State.teardownJob
  split
  · exact State.SameLayout.refl s
  · split
    · split
      · exact State.SameLayout.setJob s _ _
      · split
        · split
          · exact (State.SameLayout.setJob s _ _).trans (State.SameLayout.of_windows rfl rfl rfl rfl)
          · exact State.SameLayout.setJob s _ _
        · exact (State.SameLayout.setJob s _ _).trans (State.SameLayout.of_windows rfl rfl rfl rfl)
    · exact State.SameLayout.refl s

/-- A property of the layout that the commands which change the layout keep is kept by every command,
beside a property `J` that is kept. -/
theorem Keeps.ofLayout {J Inv : State → Prop} (kJ : Keeps J)
    (keep : ∀ s t : State, s.SameLayout t → Inv s → Inv t)
    (define : ∀ (s : State) p i base len pol lease wait, J s →
      defineOutcome s p i base len pol lease wait = .ok → Inv s → Inv (s.setWindow i.toNat
        ((policyOf pol).map (fun x => Window.fresh base.toNat len.toNat x lease.toNat wait.toNat))))
    (params : ∀ (s : State) p i sel pol lease wait, J s →
      paramsOutcome s p i sel pol lease wait = .ok →
      Inv s → Inv (s.setWindow i.toNat
        ((s.window? i.toNat).map (fun w => w.withParams sel pol lease wait))))
    (delete : ∀ (s : State) p i, J s → deleteOutcome s p i = .ok → Inv s →
      Inv ((s.revoke i.toNat).setWindow i.toNat none))
    (keyed : ∀ (s : State) p i level key, J s → setKeyOutcome s p i level = .ok → Inv s →
      Inv (s.setGuard i.toNat (fun _ => Guard.keyedBy p key ((levelOf level).getD .standard))))
    (cleared : ∀ (s : State) p i, J s → clearKeyOutcome s p i = .ok → Inv s →
      Inv (s.setGuard i.toNat (fun _ => Guard.fresh)))
    (newMaster : ∀ (s : State) key, J s → s.frozen = false → Inv s →
      Inv { s with masterKey := some key, masterAttempts := 4 })
    (comparedMaster : ∀ (s : State) b, J s → Inv s → Inv (s.compareMaster b))
    (freeze : ∀ (s : State) p, J s → freezeOutcome s p = .ok → Inv s → Inv { s with frozen := true })
    (wipeStart : ∀ (s : State) p tag i w, J s → s.window? i = some w → w.activity = .idle →
      s.frozen = false → (s.c0 = none ∨ s.c1 = none) → Inv s → Inv (s.wipeStart p tag i w))
    (wipeStepEnds : ∀ (s : State) c d, J s → s.inFlight = some ⟨.slot (.channel c), .wipeStep d⟩ →
      Inv s → Inv (s.endFlight.wipeStepDone c)) : Keeps (fun s => J s ∧ Inv s) := by
  have same : ∀ (s t : State), t.windows = s.windows → t.frozen = s.frozen →
      t.masterKey = s.masterKey → t.masterAttempts = s.masterAttempts → Inv s → Inv t :=
    fun s t h h1 h2 h3 hs => keep _ _ (State.SameLayout.of_windows h h1 h2 h3) hs
  constructor
  case pending => exact fun s l h => ⟨kJ.pending s l h.1, same s _ rfl rfl rfl rfl h.2⟩
  case pcu => exact fun s p u hu h => ⟨kJ.pcu s p u hu h.1, same s _ rfl rfl rfl rfl h.2⟩
  case link => exact fun s p l hl h => ⟨kJ.link s p l hl h.1, same s _ rfl rfl rfl rfl h.2⟩
  case admitCommand =>
    exact fun s p f tag c h1 h2 h => ⟨kJ.admitCommand s p f tag c h1 h2 h.1, same s _ rfl rfl rfl rfl h.2⟩
  case define =>
    exact fun s p i b l pol x y ho h =>
      ⟨kJ.define s p i b l pol x y ho h.1, define s p i b l pol x y h.1 ho h.2⟩
  case params =>
    exact fun s p i sel pol x y ho h =>
      ⟨kJ.params s p i sel pol x y ho h.1, params s p i sel pol x y h.1 ho h.2⟩
  case delete => exact fun s p i ho h => ⟨kJ.delete s p i ho h.1, delete s p i h.1 ho h.2⟩
  case granted =>
    exact fun s i w p k hw h1 h2 h3 h4 h5 h => ⟨kJ.granted s i w p k hw h1 h2 h3 h4 h5 h.1,
      keep _ _ (State.SameLayout.setWindow hw ⟨rfl, rfl, rfl, rfl, rfl⟩) h.2⟩
  case waiting =>
    exact fun s i w p k tag hw h1 h2 h3 h4 h5 h => ⟨kJ.waiting s i w p k tag hw h1 h2 h3 h4 h5 h.1,
      keep _ _ (State.SameLayout.setWindow hw ⟨rfl, rfl, rfl, rfl, rfl⟩) h.2⟩
  case claimEnds =>
    exact fun s t i w p hw hp hc ht h => ⟨kJ.claimEnds s t i w p hw hp hc ht h.1,
      keep _ _ (State.SameLayout.grantPass_of hw hc ht ⟨rfl, rfl, rfl, rfl, rfl⟩) h.2⟩
  case waitEnds =>
    exact fun s t i w p hw hc ht h => ⟨kJ.waitEnds s t i w p hw hc ht h.1,
      keep _ _ (State.SameLayout.grantPass_of hw hc ht ⟨rfl, rfl, rfl, rfl, rfl⟩) h.2⟩
  case lease =>
    exact fun s i w p l hw hp h => ⟨kJ.lease s i w p l hw hp h.1,
      keep _ _ (State.SameLayout.setWindow hw ⟨rfl, rfl, rfl, rfl, rfl⟩) h.2⟩
  case keyed =>
    exact fun s p i level key ho h =>
      ⟨kJ.keyed s p i level key ho h.1, keyed s p i level key h.1 ho h.2⟩
  case cleared => exact fun s p i ho h => ⟨kJ.cleared s p i ho h.1, cleared s p i h.1 ho h.2⟩
  case compared =>
    exact fun s i b hk h => ⟨kJ.compared s i b hk h.1,
      keep _ _ (State.SameLayout.setGuard i (fun _ => rfl)) h.2⟩
  case unlocked =>
    exact fun s i p hk h => ⟨kJ.unlocked s i p hk h.1,
      keep _ _ (State.SameLayout.setGuard i (fun _ => rfl)) h.2⟩
  case locked =>
    exact fun s i p h => ⟨kJ.locked s i p h.1,
      keep _ _ (State.SameLayout.setGuard i (fun _ => rfl)) h.2⟩
  case torn => exact fun s p h => ⟨kJ.torn s p h.1, keep _ _ (State.SameLayout.teardownClaims s p) h.2⟩
  case wipeStart =>
    exact fun s p tag i w hw ha hf hc h => ⟨kJ.wipeStart s p tag i w hw ha hf hc h.1,
      wipeStart s p tag i w h.1 hw ha hf hc h.2⟩
  case newMaster => exact fun s key hf h => ⟨kJ.newMaster s key hf h.1, newMaster s key h.1 hf h.2⟩
  case comparedMaster => exact fun s b h => ⟨kJ.comparedMaster s b h.1, comparedMaster s b h.1 h.2⟩
  case freeze => exact fun s p hf h => ⟨kJ.freeze s p hf h.1, freeze s p h.1 hf h.2⟩
  case scrub =>
    exact fun s e n h => ⟨kJ.scrub s e n h.1, by
      unfold State.applyScrub; split <;> exact same s _ rfl rfl rfl rfl h.2⟩
  case startJob =>
    exact fun s j h1 h2 h => ⟨kJ.startJob s j h1 h2 h.1, by
      unfold State.startJob
      split
      · exact keep _ _ (State.SameLayout.setJob s _ _) h.2
      · exact h.2⟩
  case ending =>
    exact fun s c j o h1 h2 h3 h => ⟨kJ.ending s c j o h1 h2 h3 h.1,
      keep _ _ (State.SameLayout.setJob s _ _) h.2⟩
  case endJob =>
    exact fun s c j o h1 h2 h3 h => ⟨kJ.endJob s c j o h1 h2 h3 h.1,
      keep _ _ (State.SameLayout.endJob s c o) h.2⟩
  case tornJob =>
    exact fun s p c h => ⟨kJ.tornJob s p c h.1, keep _ _ (State.SameLayout.teardownJob s p c) h.2⟩
  case rotation => exact fun s x h => ⟨kJ.rotation s x h.1, same s _ rfl rfl rfl rfl h.2⟩
  case startPort =>
    exact fun s p w h1 h2 h => ⟨kJ.startPort s p w h1 h2 h.1, same s _ rfl rfl rfl rfl h.2⟩
  case startStep =>
    exact fun s c j w h1 h2 h3 h4 h =>
      ⟨kJ.startStep s c j w h1 h2 h3 h4 h.1, same s _ rfl rfl rfl rfl h.2⟩
  case grantScrub => exact fun s h0 h => ⟨kJ.grantScrub s h0 h.1, same s _ rfl rfl rfl rfl h.2⟩
  case handled =>
    exact fun s r b h => ⟨kJ.handled s r b h.1,
      keep _ _ (State.SameLayout.mends (State.Mends.handleRead s r b)) h.2⟩
  case overwritten => exact fun s r b h => ⟨kJ.overwritten s r b h.1, same s _ rfl rfl rfl rfl h.2⟩
  case planted => exact fun s n x h => ⟨kJ.planted s n x h.1, same s _ rfl rfl rfl rfl h.2⟩
  case flipped =>
    exact fun s f h => ⟨kJ.flipped s f h.1, by
      unfold State.flipBit
      simp only
      split <;> exact same s _ rfl rfl rfl rfl h.2⟩
  case endPort => exact fun s p w h1 h => ⟨kJ.endPort s p w h1 h.1, same s _ rfl rfl rfl rfl h.2⟩
  case endScrub => exact fun s w n h1 h => ⟨kJ.endScrub s w n h1 h.1, same s _ rfl rfl rfl rfl h.2⟩
  case stepEnds =>
    exact fun s c work n good h1 h2 h => ⟨kJ.stepEnds s c work n good h1 h2 h.1,
      keep _ _ ((State.SameLayout.of_windows (s := s) (t := s.endFlight) rfl rfl rfl rfl).trans
        (State.SameLayout.stepDone _ c n good)) h.2⟩
  case wipeStepEnds =>
    exact fun s c d hf h => ⟨kJ.wipeStepEnds s c d hf h.1, wipeStepEnds s c d h.1 hf h.2⟩
  case signal =>
    exact fun s x h => ⟨kJ.signal s x h.1, by
      unfold State.scrubSignal
      simp only
      split <;> exact same s _ rfl rfl rfl rfl h.2⟩
  case timer => exact fun s x h => ⟨kJ.timer s x h.1, same s _ rfl rfl rfl rfl h.2⟩
  case microtick => exact fun s hd h => ⟨kJ.microtick s hd h.1, same s _ rfl rfl rfl rfl h.2⟩
  case tick => exact fun s x h => ⟨kJ.tick s x h.1, same s _ rfl rfl rfl rfl h.2⟩
  case sweep => exact fun s n h => ⟨kJ.sweep s n h.1, same s _ rfl rfl rfl rfl h.2⟩
  case sweepEnd => exact fun s h => ⟨kJ.sweepEnd s h.1, same s _ rfl rfl rfl rfl h.2⟩

end Sys2Proof.Machine
end

