-- ==== Sys2Proof/Laws/Jobs.lean ====
section
/-! SUPPORT. The channels: what each operation does to the jobs, and that every change keeps them
lawful. -/

set_option linter.unusedVariables false

namespace Sys2Proof.Machine

/-! ### The law of the channels, of its parts alone -/

/-- The law of the channels, of the access in flight, the jobs and the windows' activities. -/
structure JobsOk (fl : Option InFlight) (jb : Channel → Option Job) (act : Nat → Option Activity) :
    Prop where
  flight : ∀ c work, fl = some ⟨.slot (.channel c), work⟩ → ∃ j, jb c = some j ∧ work.ofJob j.kind
  ending : ∀ c j, jb c = some j → j.state ≠ .running → ∃ work, fl = some ⟨.slot (.channel c), work⟩
  wipe : ∀ c j, jb c = some j → j.kind = .wipe → j.state = .running ∧
    act j.dest.window = some .wiping
  apart : ∀ c d j k, c ≠ d → jb c = some j → jb d = some k → j.kind = .wipe → k.kind = .wipe →
    j.dest.window ≠ k.dest.window
  wiped : ∀ i, act i = some .wiping → ∃ c j, jb c = some j ∧ j.kind = .wipe ∧ j.dest.window = i

/-- The activities of the windows. -/
def State.activities (s : State) (i : Nat) : Option Activity := (s.window? i).map Window.activity

theorem State.stepInFlight_iff {s : State} {c : Channel} :
    s.stepInFlight c = true ↔ ∃ work, s.inFlight = some ⟨.slot (.channel c), work⟩ := by
  unfold State.stepInFlight
  cases h : s.inFlight with
  | none => simp
  | some f =>
    obtain ⟨r, work⟩ := f
    simp

theorem jobsLawful_iff {s : State} : JobsLawful s ↔ JobsOk s.inFlight s.job s.activities := by
  have ha : ∀ i x, s.activities i = some x ↔ ∃ w, s.window? i = some w ∧ w.activity = x := by
    intro i x
    unfold State.activities
    cases s.window? i <;> simp
  constructor
  · rintro ⟨h1, h2, h3, h4, h5⟩
    refine ⟨h1, fun c j hj hs => State.stepInFlight_iff.1 (h2 c j hj hs), fun c j hj hk => ?_, ?_,
      fun i hi => ?_⟩
    · obtain ⟨a, w, hw, b⟩ := h3 c j hj hk
      exact ⟨a, (ha _ _).2 ⟨w, hw, b⟩⟩
    · intro c d j k hcd hj hk hjw hkw
      cases c <;> cases d
      · exact absurd rfl hcd
      · exact h4 j k hj hk hjw hkw
      · exact (h4 k j hk hj hkw hjw).symm
      · exact absurd rfl hcd
    · obtain ⟨w, hw, b⟩ := (ha _ _).1 hi
      exact h5 i w hw b
  · rintro ⟨h1, h2, h3, h4, h5⟩
    refine ⟨h1, fun c j hj hs => State.stepInFlight_iff.2 (h2 c j hj hs), fun c j hj hk => ?_, ?_,
      fun i w hw hi => h5 i ((ha _ _).2 ⟨w, hw, hi⟩)⟩
    · obtain ⟨a, b⟩ := h3 c j hj hk
      exact ⟨a, (ha _ _).1 b⟩
    · intro j k hj hk hjw hkw
      exact h4 .c0 .c1 j k (by simp) hj hk hjw hkw

namespace JobsOk

variable {fl : Option InFlight} {jb : Channel → Option Job} {act : Nat → Option Activity}

/-- A channel gives up a job that is no wipe and has no step in flight. -/
theorem clear (h : JobsOk fl jb act) {c : Channel}
    (hw : ∀ j, jb c = some j → j.kind ≠ .wipe) (hf : ∀ work, fl ≠ some ⟨.slot (.channel c), work⟩) :
    JobsOk fl (fun d => if d = c then none else jb d) act := by
  refine ⟨fun d work e => ?_, fun d j hj hs => ?_, fun d j hj hk => ?_, ?_, fun i hi => ?_⟩
  · obtain ⟨j, hj, hk⟩ := h.flight d work e
    have : d ≠ c := by rintro rfl; exact hf work e
    exact ⟨j, by simp [this, hj], hk⟩
  · split at hj
    · cases hj
    · exact h.ending d j hj hs
  · split at hj
    · cases hj
    · exact h.wipe d j hj hk
  · intro a b j k hab hj hk
    split at hj
    · cases hj
    · split at hk
      · cases hk
      · exact h.apart a b j k hab hj hk
  · obtain ⟨d, j, hj, hk, e⟩ := h.wiped i hi
    have : d ≠ c := by rintro rfl; exact hw j hj hk
    exact ⟨d, j, by simp [this, hj], hk, e⟩

/-- A channel's job changes to one of its kind and place: RUNNING, or no wipe with its step in
flight. -/
theorem change (h : JobsOk fl jb act) {c : Channel} {j k : Job} (hj : jb c = some j)
    (hk : k.kind = j.kind) (hd : k.dest = j.dest)
    (hs : k.state = .running ∨ (j.kind ≠ .wipe ∧ ∃ work, fl = some ⟨.slot (.channel c), work⟩)) :
    JobsOk fl (fun d => if d = c then some k else jb d) act := by
  refine ⟨fun d work e => ?_, fun d x hx hxs => ?_, fun d x hx hxk => ?_, ?_, fun i hi => ?_⟩
  · obtain ⟨x, hx, hk'⟩ := h.flight d work e
    by_cases e' : d = c
    · subst e'
      rw [hj] at hx; cases hx
      exact ⟨k, by simp, by rw [hk]; exact hk'⟩
    · exact ⟨x, by simp [e', hx], hk'⟩
  · split at hx
    · cases hx
      rename_i e
      rw [e]
      rcases hs with hs | hs
      · exact absurd hs hxs
      · exact hs.2
    · exact h.ending d x hx hxs
  · split at hx
    · cases hx
      obtain ⟨h1, h2⟩ := h.wipe c j hj (hk ▸ hxk)
      refine ⟨?_, by rw [hd]; exact h2⟩
      rcases hs with hs | hs
      · exact hs
      · exact absurd (hk ▸ hxk) hs.1
    · exact h.wipe d x hx hxk
  · intro a b x y hab hx hy hxk hyk
    split at hx <;> split at hy <;> rename_i e1 e2
    · exact absurd (e1.trans e2.symm) hab
    · cases hx
      rw [hd]
      exact h.apart c b j y (fun e => e2 e.symm) hj hy (hk ▸ hxk) hyk
    · cases hy
      rw [hd]
      exact h.apart a c x j e1 hx hj hxk (hk ▸ hyk)
    · exact h.apart a b x y hab hx hy hxk hyk
  · obtain ⟨d, x, hx, hxk, e⟩ := h.wiped i hi
    by_cases e' : d = c
    · subst e'
      rw [hj] at hx; cases hx
      exact ⟨d, k, by simp, by rw [hk]; exact hxk, by rw [hd]; exact e⟩
    · exact ⟨d, x, by simp [e', hx], hxk, e⟩

/-- A free channel takes a running job that is no wipe. -/
theorem start (h : JobsOk fl jb act) {c : Channel} (hc : jb c = none) {k : Job} (hk : k.kind ≠ .wipe)
    (hs : k.state = .running) : JobsOk fl (fun d => if d = c then some k else jb d) act := by
  refine ⟨fun d work e => ?_, fun d x hx hxs => ?_, fun d x hx hxk => ?_, ?_, fun i hi => ?_⟩
  · obtain ⟨x, hx, hk'⟩ := h.flight d work e
    have : d ≠ c := by rintro rfl; rw [hc] at hx; cases hx
    exact ⟨x, by simp [this, hx], hk'⟩
  · split at hx
    · cases hx; exact absurd hs hxs
    · exact h.ending d x hx hxs
  · split at hx
    · cases hx; exact absurd hxk hk
    · exact h.wipe d x hx hxk
  · intro a b x y hab hx hy hxk hyk
    split at hx
    · cases hx; exact absurd hxk hk
    · split at hy
      · cases hy; exact absurd hyk hk
      · exact h.apart a b x y hab hx hy hxk hyk
  · obtain ⟨d, x, hx, hxk, e⟩ := h.wiped i hi
    have : d ≠ c := by rintro rfl; rw [hc] at hx; cases hx
    exact ⟨d, x, by simp [this, hx], hxk, e⟩

/-- A free channel takes the wipe of a window that becomes WIPING. -/
theorem startWipe (h : JobsOk fl jb act) {c : Channel} (hc : jb c = none) {k : Job}
    (hk : k.kind = .wipe) (hs : k.state = .running) (ha : act k.dest.window ≠ some .wiping) :
    JobsOk fl (fun d => if d = c then some k else jb d)
      (fun i => if i = k.dest.window then some .wiping else act i) := by
  have hn : ∀ d x, jb d = some x → x.kind = .wipe → x.dest.window ≠ k.dest.window := by
    intro d x hx hxk e
    exact ha (e ▸ (h.wipe d x hx hxk).2)
  refine ⟨fun d work e => ?_, fun d x hx hxs => ?_, fun d x hx hxk => ?_, ?_, fun i hi => ?_⟩
  · obtain ⟨x, hx, hk'⟩ := h.flight d work e
    have : d ≠ c := by rintro rfl; rw [hc] at hx; cases hx
    exact ⟨x, by simp [this, hx], hk'⟩
  · split at hx
    · cases hx; exact absurd hs hxs
    · exact h.ending d x hx hxs
  · split at hx
    · cases hx; exact ⟨hs, by simp⟩
    · have := h.wipe d x hx hxk
      exact ⟨this.1, by simp [hn d x hx hxk, this.2]⟩
  · intro a b x y hab hx hy hxk hyk
    split at hx <;> split at hy <;> rename_i e1 e2
    · exact absurd (e1.trans e2.symm) hab
    · cases hx; exact (hn b y hy hyk).symm
    · cases hy; exact hn a x hx hxk
    · exact h.apart a b x y hab hx hy hxk hyk
  · split at hi
    · rename_i e; exact ⟨c, k, by simp, hk, e.symm⟩
    · obtain ⟨d, x, hx, hxk, e⟩ := h.wiped i hi
      have : d ≠ c := by rintro rfl; rw [hc] at hx; cases hx
      exact ⟨d, x, by simp [this, hx], hxk, e⟩

/-- A wipe ends: its window is IDLE and its channel free. -/
theorem endWipe (h : JobsOk fl jb act) {c : Channel} {j : Job} (hj : jb c = some j)
    (hk : j.kind = .wipe) (hf : ∀ work, fl ≠ some ⟨.slot (.channel c), work⟩) :
    JobsOk fl (fun d => if d = c then none else jb d)
      (fun i => if i = j.dest.window then some .idle else act i) := by
  refine ⟨fun d work e => ?_, fun d x hx hxs => ?_, fun d x hx hxk => ?_, ?_, fun i hi => ?_⟩
  · obtain ⟨x, hx, hk'⟩ := h.flight d work e
    have : d ≠ c := by rintro rfl; exact hf work e
    exact ⟨x, by simp [this, hx], hk'⟩
  · split at hx
    · cases hx
    · exact h.ending d x hx hxs
  · split at hx
    · cases hx
    · rename_i e
      have := h.wipe d x hx hxk
      have hne := h.apart d c x j e hx hj hxk hk
      exact ⟨this.1, by simp [hne, this.2]⟩
  · intro a b x y hab hx hy
    split at hx
    · cases hx
    · split at hy
      · cases hy
      · exact h.apart a b x y hab hx hy
  · split at hi
    · cases hi
    · rename_i hne
      obtain ⟨d, x, hx, hxk, e⟩ := h.wiped i hi
      have : d ≠ c := by
        rintro rfl
        rw [hj] at hx; cases hx
        exact hne e.symm
      exact ⟨d, x, by simp [this, hx], hxk, e⟩

/-- The access in flight changes, where none is a step of a channel before. -/
theorem fly (h : JobsOk none jb act) {fl' : Option InFlight}
    (h' : ∀ c work, fl' = some ⟨.slot (.channel c), work⟩ → ∃ j, jb c = some j ∧ work.ofJob j.kind) :
    JobsOk fl' jb act :=
  ⟨h', fun c j hj hs => (by obtain ⟨work, e⟩ := h.ending c j hj hs; cases e), h.wipe, h.apart,
    h.wiped⟩

/-- The access of no channel ends. -/
theorem land (h : JobsOk fl jb act) (hn : ∀ c work, fl ≠ some ⟨.slot (.channel c), work⟩) :
    JobsOk none jb act :=
  ⟨fun c work e => (by cases e),
    fun c j hj hs => (by obtain ⟨work, e⟩ := h.ending c j hj hs; exact absurd e (hn c work)),
    h.wipe, h.apart, h.wiped⟩

/-- The step of a channel ends, with its job RUNNING or given up. -/
theorem landStep (h : JobsOk fl jb act) {c : Channel} {work : Work}
    (hf : fl = some ⟨.slot (.channel c), work⟩) {o : Option Job} {j : Job} (hj : jb c = some j)
    (ho : ∀ k, o = some k → k.kind = j.kind ∧ k.dest = j.dest ∧ k.state = .running)
    (hw : o = none → j.kind ≠ .wipe) :
    JobsOk none (fun d => if d = c then o else jb d) act := by
  refine ⟨fun d x e => (by cases e), fun d x hx hxs => ?_, fun d x hx hxk => ?_, ?_, fun i hi => ?_⟩
  · split at hx
    · exact absurd (ho x hx).2.2 hxs
    · rename_i hne
      obtain ⟨y, e⟩ := h.ending d x hx hxs
      rw [hf] at e
      simp only [Option.some.injEq, InFlight.mk.injEq, Requestor.slot.injEq, Slot.channel.injEq] at e
      exact absurd e.1.symm hne
  · split at hx
    · obtain ⟨h1, h2, h3⟩ := ho x hx
      refine ⟨h3, ?_⟩
      rw [h2]
      exact (h.wipe c j hj (h1 ▸ hxk)).2
    · exact h.wipe d x hx hxk
  · intro a b x y hab hx hy hxk hyk
    split at hx <;> split at hy <;> rename_i e1 e2
    · exact absurd (e1.trans e2.symm) hab
    · obtain ⟨h1, h2, h3⟩ := ho x hx
      rw [h2]
      exact h.apart c b j y (fun e => e2 e.symm) hj hy (h1 ▸ hxk) hyk
    · obtain ⟨h1, h2, h3⟩ := ho y hy
      rw [h2]
      exact h.apart a c x j e1 hx hj hxk (h1 ▸ hyk)
    · exact h.apart a b x y hab hx hy hxk hyk
  · obtain ⟨d, x, hx, hxk, e⟩ := h.wiped i hi
    by_cases e' : d = c
    · subst e'
      rw [hj] at hx; cases hx
      cases o with
      | none => exact absurd hxk (hw rfl)
      | some k =>
        obtain ⟨h1, h2, h3⟩ := ho k rfl
        exact ⟨d, k, by simp, by rw [h1]; exact hxk, by rw [h2]; exact e⟩
    · exact ⟨d, x, by simp [e', hx], hxk, e⟩

end JobsOk

/-! ### The jobs after each operation -/

theorem State.job_endJob (s : State) (c : Channel) (o : OutcomeCode) (d : Channel) :
    (s.endJob c o).job d = if d = c then none else s.job d := by
  unfold State.endJob
  split
  · rename_i h
    split
    · rename_i e; rw [e, h]
    · rfl
  · simp only
    split
    · simp [State.complete, State.job_setJob]
    · split <;> simp [State.job_setJob]

theorem State.job_startJob {s : State} {c : Channel} (h : s.freeChannel? = some c) (j : Job)
    (d : Channel) : (s.startJob j).job d = if d = c then some j else s.job d := by
  unfold State.startJob
  rw [h]
  exact State.job_setJob s c d _

theorem State.freeChannel?_some {s : State} {c : Channel} (h : s.freeChannel? = some c) :
    s.job c = none := by
  unfold State.freeChannel? at h
  split at h
  · rename_i h0; cases h; exact Option.isNone_iff_eq_none.1 h0
  · split at h
    · rename_i h1; cases h; exact Option.isNone_iff_eq_none.1 h1
    · cases h

/-- What the start of a wipe makes of the job of a channel (R72). -/
def State.revokedJob (s : State) (i : Nat) (c : Channel) : Option Job :=
  match s.job c with
  | none => none
  | some j =>
    if j.names i && j.kind != .wipe then
      if s.stepInFlight c then
        some (if j.state = .running then { j with state := .ending .revoked } else j)
      else none
    else some j

theorem State.job_revokeJob (s : State) (i : Nat) (c d : Channel) :
    (s.revokeJob i c).job d = if d = c then s.revokedJob i c else s.job d := by
  unfold State.revokeJob State.revokedJob
  cases hj : s.job c with
  | none =>
    simp only
    split
    · rename_i e; rw [e, hj]
    · rfl
  | some j =>
    simp only
    split
    · split
      · split
        · exact State.job_setJob s c d _
        · split
          · rename_i e; rw [e, hj]
          · rfl
      · exact State.job_endJob s c _ d
    · split
      · rename_i e; rw [e, hj]
      · rfl

theorem State.jobsOk_revokeJob {s : State} {act : Nat → Option Activity}
    (h : JobsOk s.inFlight s.job act) (i : Nat) (c : Channel) :
    JobsOk (s.revokeJob i c).inFlight (s.revokeJob i c).job act := by
  rw [State.inFlight_revokeJob]
  have e : (s.revokeJob i c).job = fun d => if d = c then s.revokedJob i c else s.job d :=
    funext (State.job_revokeJob s i c)
  rw [e]
  unfold State.revokedJob
  cases hj : s.job c with
  | none =>
    simp only
    refine h.clear (fun j hj' => ?_) (fun work e => ?_)
    · rw [hj] at hj'; cases hj'
    · obtain ⟨j, hj', -⟩ := h.flight c work e
      rw [hj] at hj'; cases hj'
  | some j =>
    simp only
    split
    · rename_i hn
      rw [Bool.and_eq_true, bne_iff_ne] at hn
      split
      · rename_i hf
        refine h.change hj ?_ ?_ (Or.inr ⟨hn.2, State.stepInFlight_iff.1 hf⟩)
        · split <;> rfl
        · split <;> rfl
      · rename_i hf
        refine h.clear (fun k hk => ?_) (fun work e => ?_)
        · rw [hj] at hk; cases hk; exact hn.2
        · exact hf (State.stepInFlight_iff.2 ⟨work, e⟩)
    · have : (fun d => if d = c then some j else s.job d) = s.job := by
        funext d
        split
        · rename_i e; rw [e, hj]
        · rfl
      rw [this]; exact h

/-! ### Every change keeps the channels lawful -/

theorem State.SameLayout.activities {s t : State} (h : s.SameLayout t) : t.activities = s.activities := by
  funext i
  unfold State.activities
  cases hw : s.window? i with
  | none => rw [h.absent i hw]
  | some w =>
    obtain ⟨v, hv, k⟩ := h.present i w hw
    rw [hv]
    simp [k.activity]

/-- A change of neither the access in flight, nor the jobs, nor an activity. -/
theorem JobsLawful.keep {s t : State} (hs : JobsLawful s) (h1 : t.inFlight = s.inFlight)
    (h2 : ∀ c, t.job c = s.job c) (h3 : t.activities = s.activities) : JobsLawful t := by
  rw [jobsLawful_iff] at *
  rw [h1, funext h2, h3]
  exact hs

theorem JobsLawful.calm {s t : State} (hs : JobsLawful s) (h : s.Calm t) (k : s.SameLayout t) :
    JobsLawful t := hs.keep h.inFlight h.job k.activities

theorem State.activities_of_windows {s t : State} (h : t.windows = s.windows) :
    t.activities = s.activities := by
  funext i
  unfold State.activities
  rw [State.window?_of_windows h]

theorem State.activities_setWindow {s : State} {i : Nat} (h : i < 32) (w : Window) :
    (s.setWindow i (some w)).activities =
      fun j => if j = i then some w.activity else s.activities j := by
  funext j
  unfold State.activities
  rw [State.window?_setWindow]
  by_cases e : j = i
  · simp [e, h]
  · simp [e]

theorem State.jobsLawful_teardownJob {s : State} (hs : JobsLawful s) (p : Port) (c : Channel) :
    JobsLawful (s.teardownJob p c) := by
  rw [jobsLawful_iff] at *
  rw [State.activities_of_windows (State.windows_teardownJob s p c)]
  unfold State.teardownJob
  split
  · exact hs
  · rename_i j hj
    split
    · have hset : ∀ k : Option Job, (s.setJob c k).job = fun d => if d = c then k else s.job d :=
        fun k => funext fun d => State.job_setJob s c d k
      have hset2 : ∀ k : Option Job, ((s.setJob c k).awaitJob p).job =
          fun d => if d = c then k else s.job d := fun k => by
        funext d
        unfold State.awaitJob
        rw [State.job_setPcu, State.job_setJob]
      split
      · rw [hset, State.inFlight_setJob]
        rename_i hk
        exact hs.change hj rfl rfl (Or.inl (hs.wipe c j hj hk).1)
      · rename_i hk
        split
        · rename_i hst
          split
          · rename_i hf
            rw [hset2]
            unfold State.awaitJob
            rw [State.inFlight_setPcu, State.inFlight_setJob]
            exact hs.change hj rfl rfl (Or.inr ⟨hk, State.stepInFlight_iff.1 hf⟩)
          · rename_i hf
            rw [hset, State.inFlight_setJob]
            exact hs.clear (fun x hx => by rw [hj] at hx; cases hx; exact hk)
              (fun work e => hf (State.stepInFlight_iff.2 ⟨work, e⟩))
        · rename_i o hst
          rw [hset2]
          unfold State.awaitJob
          rw [State.inFlight_setPcu, State.inFlight_setJob]
          exact hs.change hj rfl rfl (Or.inr ⟨hk, hs.ending c j hj (by rw [hst]; simp)⟩)
    · exact hs

/-- The jobs after a COPY or FILL step (R144). -/
theorem State.job_stepDone {s : State} {c : Channel} {j : Job} (hj : s.job c = some j) (n : Nat)
    (good : Bool) : ∃ o, (∀ d, (s.stepDone c n good).job d = if d = c then o else s.job d) ∧
      ∀ k, o = some k → k = { j with bytesDone := k.bytesDone } ∧ j.state = .running := by
  have htouch : ∀ (t : State) (x : Job) d, (t.touchStep x).job d = t.job d := fun t x d =>
    (State.Calm.touchStep t x).job d
  have he : ∀ (x : Job) (o : OutcomeCode) d, ((s.setJob c (some x)).endJob c o).job d =
      if d = c then none else s.job d := by
    intro x o d
    rw [State.job_endJob, State.job_setJob]
    split <;> simp_all
  have he' : ∀ (x y : Job) (o : OutcomeCode) d,
      (((s.setJob c (some x)).touchStep y).endJob c o).job d = if d = c then none else s.job d := by
    intro x y o d
    rw [State.job_endJob, htouch, State.job_setJob]
    split <;> simp_all
  unfold State.stepDone
  rw [hj]
  cases good
  · simp only [Bool.false_eq_true, if_false, Bool.not_false, if_true]
    split
    · exact ⟨none, he _ _, fun k hk => by cases hk⟩
    · exact ⟨none, he _ _, fun k hk => by cases hk⟩
  · simp only [if_true, Bool.not_true, Bool.false_eq_true, if_false]
    split
    · rename_i hst
      split
      · exact ⟨none, he' _ _ _, fun k hk => by cases hk⟩
      · refine ⟨some { j with bytesDone := j.bytesDone + n }, fun d => ?_, fun k hk => ?_⟩
        · rw [htouch, State.job_setJob]
        · cases hk; exact ⟨rfl, hst⟩
    · exact ⟨none, he' _ _ _, fun k hk => by cases hk⟩

theorem State.inFlight_stepDone (s : State) (c : Channel) (n : Nat) (good : Bool) :
    (s.stepDone c n good).inFlight = s.inFlight := by
  have htouch : ∀ (t : State) (x : Job), (t.touchStep x).inFlight = t.inFlight := fun t x =>
    (State.Calm.touchStep t x).inFlight
  unfold State.stepDone
  split
  · rfl
  · cases good
    · simp only [Bool.false_eq_true, if_false, Bool.not_false, if_true]
      split <;> simp [State.inFlight_endJob]
    · simp only [if_true, Bool.not_true, Bool.false_eq_true, if_false]
      split
      · split <;> simp [State.inFlight_endJob, htouch]
      · simp [State.inFlight_endJob, htouch]

theorem jobsLawful_keeps : Keeps JobsLawful := by
  have same : ∀ (s t : State), t.windows = s.windows → t.inFlight = s.inFlight →
      (∀ c, t.job c = s.job c) → JobsLawful s → JobsLawful t :=
    fun s t h1 h2 h3 hs => hs.keep h2 h3 (State.activities_of_windows h1)
  have jobs : ∀ (s t : State) , t.c0 = s.c0 → t.c1 = s.c1 → ∀ c, t.job c = s.job c := by
    intro s t h0 h1 c; cases c
    · exact h0
    · exact h1
  constructor
  case pending => exact fun s l h => same s _ rfl rfl (jobs s _ rfl rfl) h
  case pcu => exact fun s p u hu h => same s _ rfl rfl (jobs s _ rfl rfl) h
  case link => exact fun s p l hl h => same s _ rfl rfl (jobs s _ rfl rfl) h
  case admitCommand => exact fun s p f tag c h1 h2 h => same s _ rfl rfl (jobs s _ rfl rfl) h
  case define =>
    intro s p i b l pol x y ho hs
    unfold defineOutcome at ho
    rw [firstFail_eq_ok (by simp [State.layoutChecks])] at ho
    simp only [State.layoutChecks, List.cons_append, List.nil_append, List.forall_mem_cons,
      List.not_mem_nil, false_imp_iff, implies_true, and_true, decide_eq_true_eq] at ho
    cases hp : policyOf pol with
    | none => simp [hp] at ho
    | some z =>
      have hnone : s.activities i.toNat = none := by
        unfold State.activities
        rw [Option.isNone_iff_eq_none.1 ho.2.2.2.1]; rfl
      rw [jobsLawful_iff] at *
      simp only [Option.map_some]
      rw [State.activities_setWindow ho.2.2.1]
      refine ⟨hs.flight, hs.ending, fun c j hj hk => ?_, hs.apart, fun k hk => ?_⟩
      · obtain ⟨h1, h2⟩ := hs.wipe c j hj hk
        refine ⟨h1, ?_⟩
        have : j.dest.window ≠ i.toNat := by intro e; rw [e, hnone] at h2; cases h2
        simpa [this] using h2
      · split at hk
        · simp [Window.fresh] at hk
        · exact hs.wiped k hk
  case params =>
    intro s p i sel pol x y ho hs
    cases hw : s.window? i.toNat with
    | none =>
      refine hs.keep rfl (jobs s _ rfl rfl) ?_
      funext j
      unfold State.activities
      rw [State.window?_setWindow]
      split
      · rename_i e; rw [e.1, hw]; rfl
      · rfl
    | some w =>
      have hi := State.window?_eq_some_lt hw
      refine hs.keep rfl (jobs s _ rfl rfl) ?_
      simp only [Option.map_some]
      rw [State.activities_setWindow hi]
      funext j
      split
      · rename_i e; rw [e]; unfold State.activities; rw [hw]; rfl
      · rfl
  case delete =>
    intro s p i ho hs
    unfold deleteOutcome at ho
    simp only at ho
    rw [firstFail_eq_ok (by simp [State.layoutChecks])] at ho
    simp only [State.layoutChecks, List.cons_append, List.nil_append, List.forall_mem_cons,
      List.not_mem_nil, false_imp_iff, implies_true, and_true, decide_eq_true_eq,
      Bool.and_eq_true, Bool.not_eq_true'] at ho
    obtain ⟨-, -, hi, -, -, -, hn⟩ := ho
    have hcalm := (State.Calm.revoke s i.toNat).trans (State.Calm.setWindow _ i.toNat none)
    have hact : ((s.revoke i.toNat).setWindow i.toNat none).activities =
        fun j => if j = i.toNat then none else s.activities j := by
      funext j
      unfold State.activities
      rw [State.window?_setWindow, State.window?_revoke]
      by_cases e : j = i.toNat
      · simp [e, hi]
      · simp [e]
    have hname : ∀ c j, s.job c = some j → j.dest.window ≠ i.toNat := by
      intro c j hj e
      unfold State.jobNames at hn
      rw [Bool.or_eq_false_iff] at hn
      cases c
      · have : s.c0 = some j := hj
        rw [this] at hn
        simp [Job.names, e] at hn
      · have : s.c1 = some j := hj
        rw [this] at hn
        simp [Job.names, e] at hn
    rw [jobsLawful_iff] at *
    rw [hcalm.inFlight, funext hcalm.job, hact]
    refine ⟨hs.flight, hs.ending, fun c j hj hk => ?_, hs.apart, fun k hk => ?_⟩
    · obtain ⟨h1, h2⟩ := hs.wipe c j hj hk
      exact ⟨h1, by simpa [hname c j hj] using h2⟩
    · split at hk
      · cases hk
      · exact hs.wiped k hk
  case granted =>
    exact fun s i w p k hw h1 h2 h3 h4 h5 h => h.calm (State.Calm.setWindow s _ _)
      (State.SameLayout.setWindow hw ⟨rfl, rfl, rfl, rfl, rfl⟩)
  case waiting =>
    exact fun s i w p k tag hw h1 h2 h3 h4 h5 h => h.calm (State.Calm.setWindow s _ _)
      (State.SameLayout.setWindow hw ⟨rfl, rfl, rfl, rfl, rfl⟩)
  case claimEnds =>
    exact fun s t i w p hw hp hc ht h => h.calm (hc.trans (State.Calm.grantPass _ _))
      (State.SameLayout.grantPass_of hw hc ht ⟨rfl, rfl, rfl, rfl, rfl⟩)
  case waitEnds =>
    exact fun s t i w p hw hc ht h => h.calm (hc.trans (State.Calm.grantPass _ _))
      (State.SameLayout.grantPass_of hw hc ht ⟨rfl, rfl, rfl, rfl, rfl⟩)
  case lease =>
    exact fun s i w p l hw hp h => h.calm (State.Calm.setWindow s _ _)
      (State.SameLayout.setWindow hw ⟨rfl, rfl, rfl, rfl, rfl⟩)
  case keyed =>
    intro s p i level key ho h
    refine h.keep (State.Calm.setGuard s _ _).inFlight (State.Calm.setGuard s _ _).job ?_
    funext j
    unfold State.activities
    rw [State.window?_setGuard]
    split
    · rename_i e; rw [e]; cases s.window? i.toNat <;> rfl
    · rfl
  case cleared =>
    intro s p i ho h
    refine h.keep (State.Calm.setGuard s _ _).inFlight (State.Calm.setGuard s _ _).job ?_
    funext j
    unfold State.activities
    rw [State.window?_setGuard]
    split
    · rename_i e; rw [e]; cases s.window? i.toNat <;> rfl
    · rfl
  case compared =>
    exact fun s i b hk h => h.calm (State.Calm.setGuard s _ _)
      (State.SameLayout.setGuard i (fun _ => rfl))
  case unlocked =>
    exact fun s i p hk h => h.calm (State.Calm.setGuard s _ _)
      (State.SameLayout.setGuard i (fun _ => rfl))
  case locked =>
    exact fun s i p h => h.calm (State.Calm.setGuard s _ _)
      (State.SameLayout.setGuard i (fun _ => rfl))
  case torn =>
    exact fun s p h => h.calm (State.Calm.teardownClaims s p) (State.SameLayout.teardownClaims s p)
  case wipeStart =>
    intro s p tag i w hw ha hf hc hs
    have hi := State.window?_eq_some_lt hw
    rw [jobsLawful_iff] at hs ⊢
    have hact : (s.wipeStart p tag i w).activities =
        fun j => if j = i then some .wiping else s.activities j := by
      funext j
      unfold State.activities
      rw [State.window?_wipeStart p tag w hi]
      split <;> rfl
    rw [hact, State.inFlight_wipeStart]
    obtain ⟨s₁, hs₁⟩ : ∃ s₁, s₁ = (s.setWindow i (some w.startWiping)).revoke i := ⟨_, rfl⟩
    have hcalm : s.Calm s₁ := by
      rw [hs₁]; exact (State.Calm.setWindow s _ _).trans (State.Calm.revoke _ _)
    have h1 : JobsOk s₁.inFlight s₁.job s.activities := by
      rw [hcalm.inFlight, funext hcalm.job]; exact hs
    have h2 := State.jobsOk_revokeJob (State.jobsOk_revokeJob h1 i .c0) i .c1
    obtain ⟨s₂, hs₂⟩ : ∃ s₂, s₂ = (s₁.revokeJob i .c0).revokeJob i .c1 := ⟨_, rfl⟩
    rw [← hs₂] at h2
    have hfl : s₂.inFlight = s.inFlight := by
      rw [hs₂, State.inFlight_revokeJob, State.inFlight_revokeJob, hcalm.inFlight]
    have hfree : ∃ c, s₂.freeChannel? = some c := by
      rw [← Option.isSome_iff_exists, State.freeChannel?_isSome]
      have hn : ∀ c, s₁.job c = none → s₂.job c = none := by
        intro c hc
        rw [hs₂, State.job_revokeJob]
        have h0 : (s₁.revokeJob i .c0).job c = none := by
          rw [State.job_revokeJob]
          split
          · rename_i e; subst e; unfold State.revokedJob; rw [hc]
          · exact hc
        split
        · rename_i e; subst e; unfold State.revokedJob; rw [h0]
        · exact h0
      rcases hc with h | h
      · exact Or.inl (hn .c0 ((hcalm.job .c0).trans h))
      · exact Or.inr (hn .c1 ((hcalm.job .c1).trans h))
    obtain ⟨c, hc⟩ := hfree
    have hjob : (s.wipeStart p tag i w).job =
        fun d => if d = c then some (w.wipeJob i p tag) else s₂.job d := by
      funext d
      unfold State.wipeStart
      simp only
      rw [← hs₁, ← hs₂, (State.Calm.leaveQueue _ p).job, State.job_startJob hc]
    rw [hjob, ← hfl]
    refine h2.startWipe (State.freeChannel?_some hc) (k := w.wipeJob i p tag) rfl rfl ?_
    unfold State.activities
    rw [show (w.wipeJob i p tag).dest.window = i from rfl, hw]
    simp [ha]
  case newMaster => exact fun s key hf h => same s _ rfl rfl (jobs s _ rfl rfl) h
  case comparedMaster => exact fun s b h => same s _ rfl rfl (jobs s _ rfl rfl) h
  case freeze => exact fun s p hf h => same s _ rfl rfl (jobs s _ rfl rfl) h
  case scrub =>
    intro s e n h
    unfold State.applyScrub
    split <;> exact same s _ rfl rfl (jobs s _ rfl rfl) h
  case startJob =>
    intro s j h1 h2 hs
    cases hc : s.freeChannel? with
    | none =>
      have : s.startJob j = s := by unfold State.startJob; rw [hc]
      rw [this]; exact hs
    | some c =>
      rw [jobsLawful_iff] at *
      rw [State.inFlight_startJob, funext (State.job_startJob hc j),
        State.activities_of_windows (State.windows_startJob s j)]
      exact hs.start (State.freeChannel?_some hc) h1 h2
  case ending =>
    intro s c j o hj hk hf hs
    rw [jobsLawful_iff] at *
    rw [State.inFlight_setJob, show (s.setJob c (some { j with state := .ending o })).job =
      fun d => if d = c then some { j with state := .ending o } else s.job d from
        funext (fun d => State.job_setJob s c d _),
      State.activities_of_windows (State.windows_setJob s c _)]
    exact hs.change hj rfl rfl (Or.inr ⟨hk, State.stepInFlight_iff.1 hf⟩)
  case endJob =>
    intro s c j o hj hf hw hs
    rw [jobsLawful_iff] at *
    rw [State.inFlight_endJob, funext (State.job_endJob s c o),
      State.activities_of_windows (State.windows_endJob s c o)]
    refine hs.clear (fun k hk e => ?_) (fun work e => ?_)
    · rw [hj] at hk; cases hk
      have := (hs.wipe c j hj e).2
      unfold State.activities at this
      rw [hw e] at this
      cases this
    · have := State.stepInFlight_iff.2 ⟨work, e⟩
      rw [hf] at this; cases this
  case tornJob => exact fun s p c h => State.jobsLawful_teardownJob h p c
  case rotation => exact fun s x h => same s _ rfl rfl (jobs s _ rfl rfl) h
  case startPort =>
    intro s p work h0 hd hs
    rw [jobsLawful_iff] at *
    rw [h0] at hs
    exact hs.fly (fun c w e => by cases e)
  case startStep =>
    intro s c j work h0 hd hj hk hs
    rw [jobsLawful_iff] at *
    rw [h0] at hs
    refine hs.fly (fun d w e => ?_)
    cases e
    exact ⟨j, hj, hk⟩
  case grantScrub =>
    intro s h0 hs
    rw [jobsLawful_iff] at *
    rw [h0] at hs
    exact hs.fly (fun c w e => by cases e)
  case handled =>
    exact fun s r b h => h.keep (State.Mends.handleRead s r b).inFlight
      (State.Mends.handleRead s r b).job
      (State.SameLayout.mends (State.Mends.handleRead s r b)).activities
  case overwritten => exact fun s r b h => same s _ rfl rfl (jobs s _ rfl rfl) h
  case planted => exact fun s n x h => same s _ rfl rfl (jobs s _ rfl rfl) h
  case flipped =>
    intro s f h
    unfold State.flipBit
    simp only
    split <;> exact same s _ rfl rfl (jobs s _ rfl rfl) h
  case endPort =>
    intro s p work hf hs
    rw [jobsLawful_iff] at *
    exact hs.land (fun c w e => by rw [hf] at e; cases e)
  case endScrub =>
    intro s work n hf hs
    rw [jobsLawful_iff] at *
    exact hs.land (fun c w e => by rw [hf] at e; cases e)
  case stepEnds =>
    intro s c work n good hf hw hs
    rw [jobsLawful_iff] at hs ⊢
    obtain ⟨j, hj, hk⟩ := hs.flight c work hf
    have hj' : s.endFlight.job c = some j := by rw [← hj]; cases c <;> rfl
    obtain ⟨o, ho, hok⟩ := State.job_stepDone hj' n good
    have hjob : (s.endFlight.stepDone c n good).job = fun d => if d = c then o else s.job d := by
      funext d
      rw [ho d]
      split
      · rfl
      · cases d <;> rfl
    rw [hjob, State.inFlight_stepDone, (State.SameLayout.stepDone _ c n good).activities]
    refine hs.landStep hf hj (fun k hk' => ?_) (fun _ => hw _ hk)
    obtain ⟨e, hst⟩ := hok k hk'
    rw [e]
    exact ⟨rfl, rfl, hst⟩
  case wipeStepEnds =>
    intro s c d hf hs
    rw [jobsLawful_iff] at hs ⊢
    obtain ⟨j, hj, hk⟩ := hs.flight c _ hf
    have hj' : s.endFlight.job c = some j := by rw [← hj]; cases c <;> rfl
    have hkw : j.kind = .wipe := hk
    have hrun := (hs.wipe c j hj hkw).1
    have hland : JobsOk none s.job s.activities := by
      have := hs.landStep (o := some j) hf hj (fun k hk' => by cases hk'; exact ⟨rfl, rfl, hrun⟩)
        (fun e => by cases e)
      have e : (fun d => if d = c then some j else s.job d) = s.job := by
        funext d
        split
        · rename_i e; rw [e, hj]
        · rfl
      rwa [e] at this
    have hact : (s.endFlight.wipeStepDone c).activities =
        fun i => if i = j.dest.window ∧ j.total ≤ j.bytesDone + 64 then
          (s.activities i).map (fun _ => .idle) else s.activities i := by
      funext i
      unfold State.activities
      rw [State.window?_wipeStepDone hj']
      split
      · rw [show s.endFlight.window? i = s.window? i from rfl]
        cases s.window? i <;> rfl
      · rfl
    rw [hact]
    unfold State.wipeStepDone
    rw [hj']
    simp only
    split
    · rename_i hfin
      simp only [hfin, and_true]
      unfold State.wipeEnd
      rw [State.inFlight_endJob, State.inFlight_setWindow, State.inFlight_setJob]
      have hjob : (((s.endFlight.setJob c (some { j with bytesDone := j.bytesDone + 64 })).setWindow
          j.dest.window (((s.endFlight.setJob c (some { j with
            bytesDone := j.bytesDone + 64 })).window? j.dest.window).map Window.wiped)).endJob c
          .ok).job = fun d => if d = c then none else s.job d := by
        funext d
        rw [State.job_endJob, State.job_setWindow, State.job_setJob]
        split
        · rfl
        · cases d <;> rfl
      rw [hjob]
      have hwip := (hs.wipe c j hj hkw).2
      have := hland.endWipe hj hkw (fun work e => by cases e)
      have e : (fun i => if i = j.dest.window then some Activity.idle else s.activities i) =
          fun i => if i = j.dest.window then (s.activities i).map (fun _ => Activity.idle)
            else s.activities i := by
        funext i
        split
        · rename_i e; rw [e, hwip]; rfl
        · rfl
      rw [← e]
      exact this
    · rename_i hfin
      simp only [hfin, and_false, if_false]
      rw [State.inFlight_setJob]
      have hjob : (s.endFlight.setJob c (some { j with bytesDone := j.bytesDone + 64 })).job =
          fun d => if d = c then some { j with bytesDone := j.bytesDone + 64 } else s.job d := by
        funext d
        rw [State.job_setJob]
        split
        · rfl
        · cases d <;> rfl
      rw [hjob]
      exact hland.change hj rfl rfl (Or.inl hrun)
  case signal =>
    intro s x h
    unfold State.scrubSignal
    simp only
    split <;> exact same s _ rfl rfl (jobs s _ rfl rfl) h
  case timer => exact fun s x h => same s _ rfl rfl (jobs s _ rfl rfl) h
  case microtick => exact fun s _ h => same s _ rfl rfl (jobs s _ rfl rfl) h
  case tick => exact fun s x h => same s _ rfl rfl (jobs s _ rfl rfl) h
  case sweep => exact fun s n h => same s _ rfl rfl (jobs s _ rfl rfl) h
  case sweepEnd => exact fun s h => same s _ rfl rfl (jobs s _ rfl rfl) h

end Sys2Proof.Machine
end

