-- ==== Sys2Proof/Laws/Stores.lean ====
section
/-! SUPPORT. What an access that finds its lines clean leaves in the array: the lines it stores into,
byte by byte. -/

namespace Sys2Proof.Machine

/-- Bytes stored into lines one after another, where `m` gives some for a line. -/
def State.storeLines (s : State) (l : List LineRef) (m : LineRef → Option (List Byte)) : State :=
  l.foldl (fun t r =>
    match m r with
    | some b => t.writeLine r.phys b
    | none => t) s

theorem State.storeLines_cons (s : State) (r : LineRef) (l : List LineRef)
    (m : LineRef → Option (List Byte)) :
    s.storeLines (r :: l) m =
      (match m r with
        | some b => s.writeLine r.phys b
        | none => s).storeLines l m := rfl

/-- Clean lines are handled by storing what the access merged into them (R110). -/
theorem State.handleReads_eq_storeLines {s : State} {lines : List LineRef}
    (hc : ∀ r ∈ lines, s.lineClass r.phys = .clean) (m : LineRef → Option (List Byte)) (t : State) :
    t.handleReads (lines.map s.readLine) m = t.storeLines lines m := by
  unfold State.handleReads
  induction lines generalizing t with
  | nil => rfl
  | cons r l ih =>
    rw [List.map_cons, List.foldl_cons, State.storeLines_cons,
      ih (fun x hx => hc x (List.mem_cons_of_mem _ hx))]
    congr 1
    unfold State.handleRead State.readLine
    simp only [hc r (List.mem_cons_self ..)] <;> cases m r <;> rfl

/-- Storing into lines changes the array's bytes and flips alone. -/
theorem State.storeLines_frame (s : State) (l : List LineRef) (m : LineRef → Option (List Byte)) :
    s.storeLines l m =
      { s with mem := (s.storeLines l m).mem, flips := (s.storeLines l m).flips } := by
  induction l generalizing s with
  | nil => rfl
  | cons r l ih =>
    rw [State.storeLines_cons]
    rw [ih]
    split <;> rfl

/-- The flips of the lines stored into are gone. -/
theorem State.flips_storeLines (s : State) (l : List LineRef) (m : LineRef → Option (List Byte)) :
    (s.storeLines l m).flips =
      s.flips.filter (fun f => !l.any (fun r => r.phys == f.phys && (m r).isSome)) := by
  induction l generalizing s with
  | nil => exact (List.filter_eq_self.2 (fun _ _ => rfl)).symm
  | cons r l ih =>
    rw [State.storeLines_cons, ih]
    cases hm : m r with
    | none => simp [hm]
    | some b =>
      show (s.flips.filter _).filter _ = _
      rw [List.filter_filter]
      apply List.filter_congr
      intro f _
      simp only [List.any_cons, hm, Option.isSome_some, Bool.and_true, Bool.not_or]
      rw [Bool.and_comm]
      congr 1
      rw [Bool.eq_iff_iff, bne_iff_ne, Bool.not_eq_true', beq_eq_false_iff_ne]
      exact ne_comm

theorem State.wf_storeLines {s : State} (h : Memory.wf s.mem = true) (l : List LineRef)
    (m : LineRef → Option (List Byte)) : Memory.wf (s.storeLines l m).mem = true := by
  induction l generalizing s with
  | nil => exact h
  | cons r l ih =>
    rw [State.storeLines_cons]
    apply ih
    split
    · exact State.wf_writeLine h _ _
    · exact h

/-- A byte of a line that is not stored into reads as before. -/
theorem State.read_storeLines_ne {s : State} (h : Memory.wf s.mem = true) (l : List LineRef)
    (m : LineRef → Option (List Byte)) (hm : ∀ r ∈ l, ∀ b, m r = some b → b.length = 64) (a : Nat)
    (ha : ∀ r ∈ l, r.phys = a / 64 → m r = none) :
    Memory.read (s.storeLines l m).mem a = Memory.read s.mem a := by
  induction l generalizing s with
  | nil => rfl
  | cons r l ih =>
    rw [State.storeLines_cons]
    have hl := fun x hx => ha x (List.mem_cons_of_mem _ hx)
    have hm' := fun x hx => hm x (List.mem_cons_of_mem _ hx)
    cases hr : m r with
    | none => exact ih h hm' hl
    | some b =>
      rw [ih (State.wf_writeLine h _ _) hm' hl, State.read_writeLine h,
        hm r (List.mem_cons_self ..) b hr, if_neg]
      intro hh
      have := ha r (List.mem_cons_self ..) (by omega)
      rw [hr] at this
      cases this

/-- A byte of a line stored into reads as the byte stored, where the lines' places are distinct. -/
theorem State.read_storeLines {s : State} (h : Memory.wf s.mem = true) (l : List LineRef)
    (m : LineRef → Option (List Byte)) (hm : ∀ r ∈ l, ∀ b, m r = some b → b.length = 64)
    (hl : (l.map LineRef.phys).Nodup) {r : LineRef} (hr : r ∈ l) {b : List Byte} (hb : m r = some b)
    {o : Nat} (ho : o < 64) :
    Memory.read (s.storeLines l m).mem (64 * r.phys + o) = b.getD o 0#8 := by
  induction l generalizing s with
  | nil => cases hr
  | cons x l ih =>
    rw [List.map_cons, List.nodup_cons] at hl
    rw [State.storeLines_cons]
    have hm' := fun x hx => hm x (List.mem_cons_of_mem _ hx)
    rcases List.mem_cons.1 hr with rfl | hr
    · rw [hb]
      rw [State.read_storeLines_ne (State.wf_writeLine h _ _) l m hm', State.read_writeLine h,
        hm r (List.mem_cons_self ..) b hb, if_pos (by omega)]
      · congr 1
        omega
      · intro y hy hp
        exact absurd (List.mem_map.2 ⟨y, hy, by omega⟩) hl.1
    · refine ih ?_ hm' hl.2 hr
      split
      · exact State.wf_writeLine h _ _
      · exact h

/-! ### Splicing -/

theorem length_splice (old new : List Byte) (start : Nat) (h : start + new.length ≤ old.length) :
    (splice old start new).length = old.length := by
  unfold splice
  simp only [List.length_append, List.length_take, List.length_drop]
  omega

theorem getD_splice (old new : List Byte) (start i : Nat) (h : start + new.length ≤ old.length) :
    (splice old start new).getD i 0#8 =
      if start ≤ i ∧ i < start + new.length then new.getD (i - start) 0#8 else old.getD i 0#8 := by
  unfold splice
  simp only [List.getD_eq_getElem?_getD]
  rw [List.append_assoc, List.getElem?_append, List.length_take, Nat.min_eq_left (by omega)]
  by_cases h1 : i < start
  · rw [if_pos h1, if_neg (by omega), List.getElem?_take, if_pos h1]
  · rw [if_neg h1, List.getElem?_append]
    by_cases h2 : i - start < new.length
    · rw [if_pos h2, if_pos (by omega)]
    · rw [if_neg h2, if_neg (by omega), List.getElem?_drop,
        show start + new.length + (i - start - new.length) = i by omega]

theorem length_lineChunk (bytes : List Byte) (j : Nat) (h : 64 * (j + 1) ≤ bytes.length) :
    (lineChunk bytes j).length = 64 := by
  unfold lineChunk
  simp only [List.length_take, List.length_drop]
  omega

theorem getD_lineChunk (bytes : List Byte) (j o : Nat) (ho : o < 64) :
    (lineChunk bytes j).getD o 0#8 = bytes.getD (64 * j + o) 0#8 := by
  unfold lineChunk
  simp only [List.getD_eq_getElem?_getD]
  rw [List.getElem?_take, if_pos ho, List.getElem?_drop]

/-- The bytes of clean lines, laid end to end, one by one. -/
theorem State.getD_readBytes {s : State} {lines : List LineRef}
    (hc : ∀ r ∈ lines, s.lineClass r.phys = .clean) {i : Nat} (h : i < 64 * lines.length) :
    (readBytes (lines.map s.readLine)).getD i 0#8 = Memory.read s.mem (runAddress lines i) := by
  rw [List.getD_eq_getElem?_getD, State.getElem?_readBytes hc h, Option.getD_some]

theorem State.getD_lineBytes {s : State} {phys : Nat} (hc : s.lineClass phys = .clean) {o : Nat}
    (h : o < 64) : (s.lineBytes phys).getD o 0#8 = Memory.read s.mem (64 * phys + o) := by
  rw [State.lineBytes_clean hc, List.getD_eq_getElem?_getD]
  simp [Memory.readBytes, h]

theorem runAddress_getElem {lines : List LineRef} {j o : Nat} (hj : j < lines.length) (ho : o < 64) :
    runAddress lines (64 * j + o) = 64 * lines[j].phys + o := by
  unfold runAddress
  rw [show (64 * j + o) / 64 = j by omega, show (64 * j + o) % 64 = o by omega,
    List.getD_eq_getElem?_getD, List.getElem?_eq_getElem hj, Option.getD_some]

end Sys2Proof.Machine
end

