-- ==== Sys2Proof/Laws/Steps.lean ====
section
/-! SUPPORT. What a completed step makes of its job and its owner (R144 to R146, R149). -/

namespace Sys2Proof.Machine

/-- The end of a job that reports its completion (R146). -/
theorem State.endJob_deliver {s : State} {c : Channel} {j : Job} (h : s.job c = some j)
    (hd : j.deliver = true) (o : OutcomeCode) :
    s.endJob c o =
      (s.setJob c none).complete j.owner ⟨j.tag, j.kind.command, o, .count j.bytesDone⟩ := by
  unfold State.endJob
  rw [h]
  simp [hd]

/-- A step completed OK of a RUNNING job that has bytes left: bytes done rises and the windows are
touched (R144). -/
theorem State.stepDone_goes_on {s : State} {c : Channel} {j : Job} (h : s.job c = some j)
    (hr : j.state = .running) {n : Nat} (hn : j.bytesDone + n < j.total) :
    s.stepDone c n true =
      (s.setJob c (some { j with bytesDone := j.bytesDone + n })).touchStep
        { j with bytesDone := j.bytesDone + n } := by
  unfold State.stepDone
  rw [h]
  simp only [if_true, hr, Bool.not_true, Bool.false_eq_true, if_false]
  rw [if_neg (by simpa using hn)]

/-- The last step of a RUNNING job completed OK ends the job OK (R144, R146). -/
theorem State.stepDone_ends {s : State} {c : Channel} {j : Job} (h : s.job c = some j)
    (hr : j.state = .running) {n : Nat} (hn : j.total ≤ j.bytesDone + n) :
    s.stepDone c n true =
      ((s.setJob c (some { j with bytesDone := j.bytesDone + n })).touchStep
        { j with bytesDone := j.bytesDone + n }).endJob c .ok := by
  unfold State.stepDone
  rw [h]
  simp only [if_true, hr, Bool.not_true, Bool.false_eq_true, if_false]
  rw [if_pos (by simpa using hn)]

/-- A step of a RUNNING job that found a line uncorrectable ends the job DATA_LOST (R144). -/
theorem State.stepDone_lost {s : State} {c : Channel} {j : Job} (h : s.job c = some j)
    (hr : j.state = .running) (n : Nat) :
    s.stepDone c n false = (s.setJob c (some j)).endJob c .dataLost := by
  unfold State.stepDone
  rw [h]
  cases j
  cases hr
  rfl

/-- The step of an ENDING job ends it (R145). -/
theorem State.stepDone_ending {s : State} {c : Channel} {j : Job} {o : OutcomeCode}
    (h : s.job c = some j) (hr : j.state = .ending o) (n : Nat) (good : Bool) :
    s.stepDone c n good =
      (if good then
        (s.setJob c (some { j with bytesDone := j.bytesDone + n })).touchStep
          { j with bytesDone := j.bytesDone + n }
      else s.setJob c (some j)).endJob c
        (endingOutcome o good (decide (j.total ≤ if good then j.bytesDone + n else j.bytesDone))) := by
  unfold State.stepDone
  rw [h]
  cases j
  cases hr
  cases good <;> rfl

/-- A touch changes the windows alone. -/
theorem State.touch_eq (s : State) (p : Port) (i : Nat) :
    s.touch p i = { s with windows := (s.touch p i).windows } := by
  unfold State.touch
  split
  · rfl
  · split <;> rfl

theorem State.touchStep_eq (s : State) (j : Job) :
    s.touchStep j = { s with windows := (s.touchStep j).windows } := by
  unfold State.touchStep
  simp only
  split
  · rw [State.touch_eq, State.touch_eq s]
  · rw [State.touch_eq]

/-- The array's part of a FILL step of a line it covers whole, or that is clean (R143). -/
theorem State.fillLines_good {s : State} {dest : LineRef} {first n : Nat} {pat : Byte}
    (hf : first + n ≤ 64) (h : n = 64 ∨ s.lineClass dest.phys = .clean) :
    s.fillLines dest first n pat =
      (if n = 64 then s.overwriteLine dest (List.replicate 64 pat)
        else s.writeLine dest.phys (splice (s.lineBytes dest.phys) first (List.replicate n pat)),
        true) := by
  unfold State.fillLines
  simp only
  by_cases hn : n = 64
  · subst hn
    rw [if_pos ⟨by omega, rfl⟩, if_pos rfl]
  · rcases h with h | h
    · exact absurd h hn
    · rw [if_neg (fun x => hn x.2), if_neg hn]
      have hg : readsGood [s.readLine dest] = true := by simp [readsGood, State.readLine, h]
      rw [hg]
      simp only [if_true]
      unfold State.handleReads
      simp only [List.foldl_cons, List.foldl_nil]
      unfold State.handleRead State.readLine
      simp only [h]

end Sys2Proof.Machine
end

