-- ==== Sys2Proof/Laws/Handled.lean ====
section
/-! SUPPORT. The handling of the lines an access read, in the words of the statements: what it leaves of
a PCU, the poison marks and the claims; and the ends of an access that a teardown awaits, of a merged
WRITE and of a job's step. -/

namespace Sys2Proof.Machine

/-! ### The words of the statements -/

/-- The lines read, handled one after another, are the engine's handling of its reads. -/
theorem State.handlesLines_eq (s : State) (lines : List LineRef)
    (m : LineRef → Option (List Byte)) :
    s.handlesLines lines m = s.handleReads (lines.map s.readLine) m := by
  unfold State.handlesLines State.handleReads
  rw [List.foldl_map]
  rfl

theorem allReadable_iff (s : State) (lines : List LineRef) :
    AllReadable s lines ↔ readsGood (lines.map s.readLine) = true := (s.readsGood_iff lines).symm

theorem allReadable_not_iff (s : State) (lines : List LineRef) :
    ¬ AllReadable s lines ↔ readsGood (lines.map s.readLine) = false := by
  rw [allReadable_iff, Bool.not_eq_true]

theorem State.readBytes_eq (s : State) (lines : List LineRef) :
    readBytes (lines.map s.readLine) = s.correctedBytes lines := by
  unfold readBytes State.correctedBytes
  rw [List.flatMap_map]
  rfl

theorem State.length_correctedBytes (s : State) (lines : List LineRef) :
    (s.correctedBytes lines).length = 64 * lines.length := by
  rw [← State.readBytes_eq, State.length_readBytes]

/-! ### What the handling leaves of a PCU -/

theorem State.pcu_countCorrection (s : State) (line : Nat) (q : Port) :
    (s.countCorrection line).pcu q = s.pcu q := by
  unfold State.countCorrection
  rw [State.pcu_countFault]
  rfl

/-- The handling of a line posts to a PCU at most: one notice, or nothing. -/
theorem State.pcu_handleRead (s : State) (r : LineRead) (b : Option (List Byte)) (q : Port) :
    (s.handleRead r b).pcu q = s.pcu q ∨ ∃ n, (s.handleRead r b).pcu q = (s.pcu q).post n := by
  unfold State.handleRead
  split
  · split <;> exact Or.inl rfl
  · unfold State.rewriteSuspect
    have h0 := s.pcu_countCorrection r.ref.line q
    split
    · split
      · rename_i k _
        obtain ⟨ws, e⟩ :=
          State.retire_eq (s.countCorrection r.ref.line) r.ref.line k (b.getD r.bytes)
        rw [e]
        exact Or.inl h0
      · refine Or.inr ⟨.sparesExhausted, ?_⟩
        show ((s.countCorrection r.ref.line).postAll .sparesExhausted).pcu q = _
        rw [State.pcu_postAll, h0]
    · exact Or.inl h0
  · unfold State.poisonLine
    simp only
    split
    · exact Or.inl rfl
    · split
      · exact Or.inl rfl
      · rename_i i _ _ w _
        refine Or.inr ⟨.linePoisoned i (r.ref.line - w.base) 1, ?_⟩
        rw [State.pcu_postAll, State.pcu_countFault]
        rfl

/-- The handling of lines gives a PCU notices at most. -/
theorem State.sameWork_handleReads (rs : List LineRead) (m : LineRef → Option (List Byte))
    (s : State) (q : Port) : (s.pcu q).SameWork ((s.handleReads rs m).pcu q) := by
  unfold State.handleReads
  induction rs generalizing s with
  | nil => exact Pcu.SameWork.refl _
  | cons r l ih =>
    refine Pcu.SameWork.trans ?_ (ih _)
    rcases s.pcu_handleRead r (m r.ref) q with h | ⟨n, h⟩ <;> rw [h]
    · exact Pcu.SameWork.refl _
    · exact Pcu.SameWork.post _ _

/-- A PCU that is not READY takes no notice (R187). -/
theorem Pcu.post_of_not_ready {u : Pcu} (h : u.state ≠ .ready) (n : Notice) : u.post n = u := by
  unfold Pcu.post
  rw [if_neg h]

/-- The handling of lines leaves a PCU that is not READY as it was (R187). -/
theorem State.pcu_handleReads_of_not_ready (rs : List LineRead) (m : LineRef → Option (List Byte))
    (s : State) (q : Port) (h : (s.pcu q).state ≠ .ready) :
    (s.handleReads rs m).pcu q = s.pcu q := by
  unfold State.handleReads
  induction rs generalizing s with
  | nil => rfl
  | cons r l ih =>
    have e : (s.handleRead r (m r.ref)).pcu q = s.pcu q := by
      rcases s.pcu_handleRead r (m r.ref) q with k | ⟨n, k⟩
      · exact k
      · exact k.trans (Pcu.post_of_not_ready h n)
    rw [List.foldl_cons, ih _ (by rw [e]; exact h), e]

/-! ### What the handling leaves of the array and the claims -/

theorem State.poisoned_handleRead (t : State) (r : LineRead) (b : Option (List Byte)) (x : Nat) :
    x ∈ (t.handleRead r b).poisoned ↔
      x ∈ t.poisoned ∨ (r.ref.line = x ∧ r.cls = .uncorrectable) := by
  unfold State.handleRead
  cases h : r.cls with
  | clean => cases b <;> simp
  | uncorrectable =>
    simp only
    rw [State.poisonLine_eq, mem_insertRising]
    simp [eq_comm]
  | correctable =>
    have h0 : (t.countCorrection r.ref.line).poisoned = t.poisoned := by
      unfold State.countCorrection
      exact (State.Calm.countFault _ _ _).poisoned
    have e : ((t.countCorrection r.ref.line).rewriteSuspect r.ref (b.getD r.bytes)).poisoned =
        t.poisoned := by
      unfold State.rewriteSuspect
      split
      · split
        · rename_i k _
          obtain ⟨ws, e⟩ :=
            State.retire_eq (t.countCorrection r.ref.line) r.ref.line k (b.getD r.bytes)
          rw [e]
          exact h0
        · exact (State.Calm.postAll _ .sparesExhausted).poisoned.trans h0
      · exact h0
    simp only
    rw [e]
    simp

/-- The lines found uncorrectable are the lines the handling poisons (R120). -/
theorem State.poisoned_handleReads (s : State) (m : LineRef → Option (List Byte))
    (l : List LineRef) (t : State) (x : Nat) :
    x ∈ (t.handleReads (l.map s.readLine) m).poisoned ↔
      x ∈ t.poisoned ∨ ∃ r ∈ l, r.line = x ∧ s.lineClass r.phys = .uncorrectable := by
  induction l generalizing t with
  | nil => simp [State.handleReads]
  | cons r l ih =>
    have e : t.handleReads ((r :: l).map s.readLine) m =
        (t.handleRead (s.readLine r) (m r)).handleReads (l.map s.readLine) m := rfl
    rw [e, ih, State.poisoned_handleRead]
    simp [State.readLine, or_assoc]

/-- Where no line is correctable and nothing is stored, the array's bytes and flips stay. -/
theorem State.handleReads_stores_nothing (s : State) (l : List LineRef) (t : State)
    (h : ∀ r ∈ l, s.lineClass r.phys ≠ .correctable) :
    (t.handleReads (l.map s.readLine) (fun _ => none)).mem = t.mem ∧
      (t.handleReads (l.map s.readLine) (fun _ => none)).flips = t.flips := by
  induction l generalizing t with
  | nil => exact ⟨rfl, rfl⟩
  | cons r l ih =>
    have e : (t.handleRead (s.readLine r) none).mem = t.mem ∧
        (t.handleRead (s.readLine r) none).flips = t.flips := by
      unfold State.handleRead State.readLine
      cases hc : s.lineClass r.phys with
      | correctable => exact absurd hc (h r (List.mem_cons_self ..))
      | clean => exact ⟨rfl, rfl⟩
      | uncorrectable =>
        simp only
        rw [State.poisonLine_eq]
        exact ⟨rfl, rfl⟩
    have i := ih (t.handleRead (s.readLine r) none) (fun x hx => h x (List.mem_cons_of_mem _ hx))
    exact ⟨i.1.trans e.1, i.2.trans e.2⟩

/-- The handling of lines changes no holder. -/
theorem State.Mends.sameHolders {s t : State} (h : s.Mends t) : SameHolders s t := by
  intro i
  cases hs : s.window? i with
  | none => rw [(h.absent i).2 hs]
  | some w =>
    cases ht : t.window? i with
    | none => rw [(h.absent i).1 ht] at hs; cases hs
    | some v =>
      have := h.present i w v hs ht
      unfold Window.SameButFaults at this
      rw [this]
      rfl

/-- A touch sets the same terms on a state whose windows' claims and periods are the same. -/
theorem State.Mends.touch_holders {s t : State} (h : s.Mends t) (p : Port) (i : Nat) :
    SameHolders (s.touch p i) (t.touch p i) := by
  intro j
  cases hs : s.window? i with
  | none =>
    have ht := (h.absent i).2 hs
    unfold State.touch
    rw [hs, ht]
    exact h.sameHolders j
  | some w =>
    cases ht : t.window? i with
    | none => rw [(h.absent i).1 ht] at hs; cases hs
    | some v =>
      have e := h.present i w v hs ht
      unfold Window.SameButFaults at e
      have hh : v.holds p = w.holds p := by rw [e]; rfl
      unfold State.touch
      rw [hs, ht]
      simp only [hh]
      split
      · by_cases hji : j = i
        · subst hji
          have hlt := State.window?_eq_some_lt hs
          rw [State.window?_setWindow_same _ hlt, State.window?_setWindow_same _ hlt, e, h.msCount]
          rfl
        · rw [State.window?_setWindow_ne _ _ hji, State.window?_setWindow_ne _ _ hji]
          exact h.sameHolders j
      · exact h.sameHolders j

theorem SameHolders.trans {s t u : State} (h : SameHolders s t) (k : SameHolders t u) :
    SameHolders s u := fun i => (k i).trans (h i)

/-! ### The ends of accesses -/

/-- A WRITE that covers its lines in part leaves what the statements say, with the lines handled (R87,
R88). -/
theorem WriteLeaves.writeLines {s u : State} {lines : List LineRef} {first : Nat} {data : List Byte}
    (hn : ¬ (lines.length = 1 ∧ data.length = 64)) (hu : WriteLeaves s lines first data u) :
    s.writeLines lines first data = (u, readsGood (lines.map s.readLine)) := by
  have e : s.writeLines lines first data =
      (s.handleReads (lines.map s.readLine) (writeMerge (lines.map s.readLine) first data),
        readsGood (lines.map s.readLine)) := by
    unfold State.writeLines
    split
    · rw [if_neg (fun h => hn ⟨rfl, h.2⟩)]
      rfl
    · rfl
  rw [e]
  congr 1
  by_cases hg : AllReadable s lines
  · rw [hu.1 hg, State.handlesLines_eq]
    congr 1
    funext r
    unfold writeMerge
    rw [if_pos ((allReadable_iff s lines).1 hg)]
    unfold writeChunk lineChunk splice
    rw [State.readBytes_eq, List.findIdx_map]
    rfl
  · rw [hu.2 hg, State.handlesLines_eq]
    congr 1
    funext r
    unfold writeMerge
    rw [if_neg (fun h => hg ((allReadable_iff s lines).2 h))]

theorem WriteLeaves.handleReads {s u : State} {lines : List LineRef} {first : Nat}
    {data : List Byte} (hu : WriteLeaves s lines first data u) :
    ∃ m, u = s.handleReads (lines.map s.readLine) m := by
  by_cases hg : AllReadable s lines
  · exact ⟨_, (hu.1 hg).trans (State.handlesLines_eq ..)⟩
  · exact ⟨_, (hu.2 hg).trans (State.handlesLines_eq ..)⟩

/-- The end of an access that a teardown awaits (R195). -/
theorem State.endAccess_awaited {s : State} {p : Port} (h : (s.pcu p).state = .teardown)
    (ha : (s.pcu p).accessAwaited = true) (k : CommandKind) (o : OutcomeCode) (e : Extra) :
    s.endAccess p k o e = s.setPcu p
      { s.pcu p with
        accessAwaited := false
        state := if (s.pcu p).jobsAwaited = 0 then .ready else .teardown } := by
  unfold State.endAccess
  simp only [ha, if_true]
  congr 1
  unfold Pcu.endTeardown
  simp only [h, true_and]
  split <;> simp [*]

/-- A port that holds no window touches none (R41). -/
theorem State.touch_of_no_claim {s : State} {p : Port}
    (h : ∀ i w, s.window? i = some w → w.holds p = false) (i : Nat) : s.touch p i = s := by
  unfold State.touch
  split
  · rfl
  · rename_i w hw
    rw [if_neg (by rw [h i w hw]; exact Bool.false_ne_true)]

/-- A PCU with an empty queue takes nothing (R173). -/
theorem takeIfDue_of_empty (s : State) {t : State} {p : Port} (h : (t.pcu p).queue = []) :
    takeIfDue s t p = t := by
  unfold takeIfDue
  split
  · rfl
  · unfold State.takeHead State.dueHead
    have e : (t.pcu p).takeable = false := by
      unfold Pcu.takeable
      rw [h]
      simp
    rw [e]
    rfl

/-! ### The ends of steps -/

/-- What a touch does to the windows depends on the windows and the tick count alone. -/
theorem State.windows_touch_congr {s t : State} (hw : s.windows = t.windows)
    (hm : s.msCount = t.msCount) (p : Port) (i : Nat) :
    (s.touch p i).windows = (t.touch p i).windows := by
  have e : s.window? i = t.window? i := by
    unfold State.window?
    rw [hw]
  unfold State.touch
  rw [e]
  split
  · exact hw
  · split
    · unfold State.setWindow
      simp only [hw, hm]
    · exact hw

theorem State.job_touchStep (s : State) (j : Job) (c : Channel) :
    (s.touchStep j).job c = s.job c := by
  rw [State.touchStep_eq]
  cases c <;> rfl

theorem State.pcu_touchStep (s : State) (j : Job) (q : Port) : (s.touchStep j).pcu q = s.pcu q := by
  rw [State.touchStep_eq]
  rfl

theorem SameIntegrity.refl (s : State) : SameIntegrity s s :=
  ⟨⟨fun _ => rfl, rfl, rfl, rfl, rfl, rfl, rfl, rfl⟩, fun _ => rfl⟩

theorem SameIntegrity.trans {s t u : State} (h : SameIntegrity s t) (k : SameIntegrity t u) :
    SameIntegrity s u := by
  obtain ⟨⟨a1, a2, a3, a4, a5, a6, a7, a8⟩, a9⟩ := h
  obtain ⟨⟨b1, b2, b3, b4, b5, b6, b7, b8⟩, b9⟩ := k
  exact ⟨⟨fun a => (b1 a).trans (a1 a), b2.trans a2, b3.trans a3, b4.trans a4, b5.trans a5,
    b6.trans a6, b7.trans a7, b8.trans a8⟩, fun i => (b9 i).trans (a9 i)⟩

theorem State.sameIntegrity_touch (s : State) (p : Port) (i : Nat) :
    SameIntegrity s (s.touch p i) := by
  unfold State.touch
  split
  · exact .refl s
  · split
    · rename_i w hw _
      refine ⟨⟨fun _ => rfl, rfl, rfl, rfl, rfl, rfl, rfl, rfl⟩, fun j => ?_⟩
      rw [State.window?_setWindow]
      split
      · rename_i h
        rw [h.1, hw]
        rfl
      · rfl
    · exact .refl s

theorem State.sameIntegrity_touchStep (s : State) (j : Job) : SameIntegrity s (s.touchStep j) := by
  unfold State.touchStep
  simp only
  split
  · exact (s.sameIntegrity_touch _ _).trans (State.sameIntegrity_touch _ _ _)
  · exact s.sameIntegrity_touch _ _

/-- What the end of a job leaves alone: everything but its channel and the PCUs. -/
theorem State.endJob_frame (s : State) (c : Channel) (o : OutcomeCode) :
    s.endJob c o = { s with
      c0 := (s.endJob c o).c0, c1 := (s.endJob c o).c1, pcus := (s.endJob c o).pcus } := by
  unfold State.endJob
  split
  · rfl
  · simp only
    split
    · cases c <;> rfl
    · split <;> cases c <;> rfl

theorem State.sameIntegrity_endJob (s : State) (c : Channel) (o : OutcomeCode) :
    SameIntegrity s (s.endJob c o) ∧ (s.endJob c o).windows = s.windows ∧
      (s.endJob c o).inFlight = s.inFlight := by
  rw [State.endJob_frame]
  exact ⟨⟨⟨fun _ => rfl, rfl, rfl, rfl, rfl, rfl, rfl, rfl⟩, fun _ => rfl⟩, rfl, rfl⟩

theorem State.windows_touchStep_congr {s t : State} (hw : s.windows = t.windows)
    (hm : s.msCount = t.msCount) (j : Job) : (s.touchStep j).windows = (t.touchStep j).windows := by
  unfold State.touchStep
  simp only
  cases j.source with
  | none => exact State.windows_touch_congr hw hm _ _
  | some x =>
    refine State.windows_touch_congr (State.windows_touch_congr hw hm _ _) ?_ _ _
    rw [State.touch_eq, State.touch_eq t]
    exact hm

/-- What a step's completion leaves, `good` saying whether its lines were readable. -/
def StepLeaves (s t : State) (j : Job) (good : Bool) : Prop :=
  SameIntegrity s t ∧ t.inFlight = s.inFlight ∧
    t.windows = (if good then s.touchStep j else s).windows

theorem StepLeaves.endJob {s t : State} {j : Job} {good : Bool} (h : StepLeaves s t j good)
    (c : Channel) (o : OutcomeCode) : StepLeaves s (t.endJob c o) j good := by
  have k := t.sameIntegrity_endJob c o
  exact ⟨h.1.trans k.1, k.2.2.trans h.2.1, k.2.1.trans h.2.2⟩

theorem StepLeaves.setJob (s : State) (c : Channel) (x : Option Job) (j : Job) :
    StepLeaves s (s.setJob c x) j false := by
  cases c <;> exact ⟨⟨⟨fun _ => rfl, rfl, rfl, rfl, rfl, rfl, rfl, rfl⟩, fun _ => rfl⟩, rfl, rfl⟩

theorem StepLeaves.touch (s : State) (c : Channel) (x : Option Job) (j : Job) (n : Nat) :
    StepLeaves s ((s.setJob c x).touchStep { j with bytesDone := n }) j true := by
  have h := StepLeaves.setJob s c x j
  refine ⟨h.1.trans (State.sameIntegrity_touchStep _ _), ?_, ?_⟩
  · rw [State.touchStep_eq]
    exact h.2.1
  · refine (State.windows_touchStep_congr h.2.2 ?_ _).trans rfl
    cases c <;> rfl

/-- After its lines are handled, a step's completion leaves the array and the integrity unit's records
alone, and touches the claims of a step completed OK (R144, R145). -/
theorem State.stepDone_leaves {s : State} {c : Channel} {j : Job} (h : s.job c = some j) (n : Nat)
    (good : Bool) : StepLeaves s (s.stepDone c n good) j good := by
  cases hs : j.state with
  | ending o =>
    rw [State.stepDone_ending h hs]
    cases good
    · exact (StepLeaves.setJob ..).endJob _ _
    · exact (StepLeaves.touch ..).endJob _ _
  | running =>
    cases good
    · rw [State.stepDone_lost h hs]
      exact (StepLeaves.setJob ..).endJob _ _
    · rcases Nat.lt_or_ge (j.bytesDone + n) j.total with hn | hn
      · rw [State.stepDone_goes_on h hs hn]
        exact StepLeaves.touch ..
      · rw [State.stepDone_ends h hs hn]
        exact (StepLeaves.touch ..).endJob _ _

/-- The end of a job that reports: its completion at its owner, and nothing at another port (R146). -/
theorem State.endJob_reports {s : State} {c : Channel} {j : Job} (h : s.job c = some j)
    (hd : j.deliver = true) (o : OutcomeCode) :
    (s.endJob c o).job c = none ∧ (∀ q, q ≠ j.owner → (s.endJob c o).pcu q = s.pcu q) ∧
      (s.endJob c o).pcu j.owner =
        (s.pcu j.owner).complete ⟨j.tag, j.kind.command, o, .count j.bytesDone⟩ := by
  rw [State.endJob_deliver h hd]
  unfold State.complete
  refine ⟨by cases c <;> rfl, fun q hq => ?_, ?_⟩
  · rw [State.pcu_setPcu, if_neg hq]
    cases c <;> rfl
  · rw [State.pcu_setPcu_same]
    cases c <;> rfl

/-! ### What a step's completion leaves -/

theorem SameOutsideStep.refl (s : State) (c : Channel) : SameOutsideStep s s c :=
  ⟨fun _ _ => rfl, rfl, ⟨rfl, rfl, rfl, rfl, rfl, rfl⟩, ⟨rfl, rfl, rfl⟩, ⟨rfl, rfl, rfl, rfl⟩, rfl, rfl,
    rfl⟩

theorem SameOutsideStep.trans {s t u : State} {c : Channel} (h : SameOutsideStep s t c)
    (k : SameOutsideStep t u c) : SameOutsideStep s u c := by
  obtain ⟨a1, a2, ⟨b1, b2, b3, b4, b5, b6⟩, ⟨d1, d2, d3⟩, ⟨e1, e2, e3, e4⟩, f1, f2, f3⟩ := h
  obtain ⟨x1, x2, ⟨y1, y2, y3, y4, y5, y6⟩, ⟨z1, z2, z3⟩, ⟨w1, w2, w3, w4⟩, v1, v2, v3⟩ := k
  exact ⟨fun d hd => (x1 d hd).trans (a1 d hd), x2.trans a2,
    ⟨y1.trans b1, y2.trans b2, y3.trans b3, y4.trans b4, y5.trans b5, y6.trans b6⟩,
    ⟨z1.trans d1, z2.trans d2, z3.trans d3⟩,
    ⟨w1.trans e1, w2.trans e2, w3.trans e3, w4.trans e4⟩, v1.trans f1, v2.trans f2, v3.trans f3⟩

theorem SameOutsideStep.mends {s t : State} (h : s.Mends t) (c : Channel) : SameOutsideStep s t c :=
  ⟨fun d _ => h.job d, h.links,
    ⟨h.phase, h.layoutPort, h.msCount, h.usCount, h.sweepPointer, h.pending⟩,
    ⟨h.masterKey, h.masterAttempts, h.frozen⟩,
    ⟨h.scrubEnabled, h.scrubInterval, h.scrubTimer, h.scrubPointer⟩, h.rotation, h.scrubDue,
    h.postponed⟩

theorem SameOutsideStep.setJob (s : State) (c : Channel) (x : Option Job) :
    SameOutsideStep s (s.setJob c x) c := by
  refine ⟨fun d hd => ?_, ?_⟩
  · rw [State.job_setJob, if_neg hd]
  · cases c <;> exact (SameOutsideStep.refl s .c0).2

theorem SameOutsideStep.touchStep (s : State) (j : Job) (c : Channel) :
    SameOutsideStep s (s.touchStep j) c := by
  rw [State.touchStep_eq]
  exact SameOutsideStep.refl s c

theorem SameOutsideStep.endJob (s : State) (c : Channel) (o : OutcomeCode) :
    SameOutsideStep s (s.endJob c o) c := by
  refine ⟨fun d hd => ?_, ?_⟩
  · rw [State.job_endJob, if_neg hd]
  · rw [State.endJob_frame]
    exact (SameOutsideStep.refl s c).2

theorem SameOutsideStep.stepDone (s : State) (c : Channel) (n : Nat) (good : Bool) :
    SameOutsideStep s (s.stepDone c n good) c := by
  cases h : s.job c with
  | none =>
    unfold State.stepDone
    rw [h]
    exact SameOutsideStep.refl s c
  | some j =>
    have e : ∀ {t : State} (o : OutcomeCode), SameOutsideStep s t c →
        SameOutsideStep s (t.endJob c o) c := fun o k => k.trans (.endJob _ c o)
    cases hs : j.state with
    | ending o =>
      rw [State.stepDone_ending h hs]
      cases good
      · exact e _ (.setJob ..)
      · exact e _ ((SameOutsideStep.setJob ..).trans (.touchStep ..))
    | running =>
      cases good
      · rw [State.stepDone_lost h hs]
        exact e _ (.setJob ..)
      · rcases Nat.lt_or_ge (j.bytesDone + n) j.total with hn | hn
        · rw [State.stepDone_goes_on h hs hn]
          exact (SameOutsideStep.setJob ..).trans (.touchStep ..)
        · rw [State.stepDone_ends h hs hn]
          exact e _ ((SameOutsideStep.setJob ..).trans (.touchStep ..))

theorem SamePcusBut.of_pcu {s t : State} (h : ∀ q, t.pcu q = s.pcu q) (p : Port) :
    SamePcusBut s t p := ⟨fun q _ => h q, by rw [h p]⟩

theorem SamePcusBut.trans {s t u : State} {p : Port} (h : SamePcusBut s t p)
    (k : SamePcusBut t u p) : SamePcusBut s u p := by
  refine ⟨fun q hq => (k.1 q hq).trans (h.1 q hq), ?_⟩
  rw [k.2, h.2]

theorem SamePcusBut.endJob {s : State} {c : Channel} {j : Job} (h : s.job c = some j)
    (o : OutcomeCode) : SamePcusBut s (s.endJob c o) j.owner := by
  unfold State.endJob
  rw [h]
  simp only
  have set : ∀ (t : State) u, (∀ q, t.pcu q = s.pcu q) →
      u = { s.pcu j.owner with
        state := u.state, completions := u.completions, reservations := u.reservations
        outstanding := u.outstanding, jobsAwaited := u.jobsAwaited } →
      SamePcusBut s (t.setPcu j.owner u) j.owner := by
    intro t u ht hu
    refine ⟨fun q hq => ?_, ?_⟩
    · rw [State.pcu_setPcu_ne _ _ hq, ht]
    · rw [State.pcu_setPcu_same]
      exact hu
  split
  · exact set _ _ (fun q => State.pcu_setJob ..) (by rw [State.pcu_setJob]; rfl)
  · split
    · exact set _ _ (fun q => State.pcu_setJob ..) (by rw [State.pcu_setJob])
    · refine set _ _ (fun q => State.pcu_setJob ..) ?_
      rw [State.pcu_setJob]
      unfold Pcu.endTeardown
      split <;> rfl

theorem SamePcusBut.stepDone {s : State} {c : Channel} {j : Job} (h : s.job c = some j) (n : Nat)
    (good : Bool) : SamePcusBut s (s.stepDone c n good) j.owner := by
  have a : ∀ x, SamePcusBut s (s.setJob c (some x)) j.owner := fun x =>
    .of_pcu (fun q => State.pcu_setJob ..) _
  have b : ∀ x y, SamePcusBut s ((s.setJob c (some x)).touchStep y) j.owner := fun x y =>
    .of_pcu (fun q => by rw [State.pcu_touchStep, State.pcu_setJob]) _
  cases hs : j.state with
  | ending o =>
    rw [State.stepDone_ending h hs]
    cases good
    · exact (a _).trans (.endJob (j := { j with bytesDone := _ }) (State.job_setJob_same ..) _)
    · exact (b _ _).trans (.endJob (j := { j with bytesDone := _ })
        ((State.job_touchStep ..).trans (State.job_setJob_same ..)) _)
  | running =>
    cases good
    · rw [State.stepDone_lost h hs]
      exact (a _).trans (.endJob (j := { j with bytesDone := _ }) (State.job_setJob_same ..) _)
    · rcases Nat.lt_or_ge (j.bytesDone + n) j.total with hn | hn
      · rw [State.stepDone_goes_on h hs hn]
        exact b _ _
      · rw [State.stepDone_ends h hs hn]
        exact (b _ _).trans (.endJob (j := { j with bytesDone := _ })
          ((State.job_touchStep ..).trans (State.job_setJob_same ..)) _)

theorem SameWindowsButHolders.of_windows {s t : State} (h : t.windows = s.windows) :
    SameWindowsButHolders s t := fun i =>
  ⟨fun hi => (State.window?_of_windows h i).trans hi,
    fun w hw => ⟨w.holders, (State.window?_of_windows h i).trans hw⟩⟩

theorem SameWindowsButHolders.trans {s t u : State} (h : SameWindowsButHolders s t)
    (k : SameWindowsButHolders t u) : SameWindowsButHolders s u := fun i =>
  ⟨fun hi => (k i).1 ((h i).1 hi), fun w hw => by
    obtain ⟨x, hx⟩ := (h i).2 w hw
    obtain ⟨y, hy⟩ := (k i).2 _ hx
    exact ⟨y, hy⟩⟩

theorem SameWindowsButHolders.touch (s : State) (p : Port) (i : Nat) :
    SameWindowsButHolders s (s.touch p i) := by
  unfold State.touch
  split
  · exact .of_windows rfl
  · split
    · rename_i w hw _
      refine fun j => ⟨fun hj => ?_, fun x hx => ?_⟩
      · rw [State.window?_setWindow, if_neg]
        · exact hj
        · rintro ⟨rfl, _⟩; rw [hj] at hw; cases hw
      · rw [State.window?_setWindow]
        split
        · rename_i e
          rw [e.1, hw] at hx
          cases hx
          exact ⟨_, rfl⟩
        · exact ⟨x.holders, hx⟩
    · exact .of_windows rfl

theorem SameWindowsButHolders.stepDone {s : State} {c : Channel} {j : Job} (h : s.job c = some j)
    (n : Nat) (good : Bool) : SameWindowsButHolders s (s.stepDone c n good) := by
  refine .trans (t := if good then s.touchStep j else s) ?_
    (.of_windows (State.stepDone_leaves h n good).2.2)
  cases good
  · exact .of_windows rfl
  · simp only [if_true]
    unfold State.touchStep
    simp only
    split
    · exact SameWindowsButHolders.trans (SameWindowsButHolders.touch s _ _)
        (SameWindowsButHolders.touch _ _ _)
    · exact SameWindowsButHolders.touch s _ _

end Sys2Proof.Machine
end

