-- ==== Sys2Proof/Laws/PerInstr.lean ====
section
/-! SUPPORT. Statements about every command, one lemma per constructor of `Instr`: no row of the opcode
table gives bits, so no word of the table spells a command. -/

namespace Sys2Proof.Laws.Encoding

/-- No word, of whatever number of bits, decodes to the command. -/
def Statement (i : Instr) : Prop := ∀ nbits w, decodeTableWord nbits w ≠ some i

/-- The decoder answers no command at all. -/
theorem of_table (i : Instr) : Statement i := fun _ _ h => by cases h

theorem powerOn (r : Bool) (l : BitVec 2) : Statement (.powerOn r l) := of_table _
theorem resetAssert : Statement .resetAssert := of_table _
theorem resetRelease (l : BitVec 2) : Statement (.resetRelease l) := of_table _
theorem sweepLineWrite : Statement .sweepLineWrite := of_table _
theorem frameStart (p : Port) : Statement (.frameStart p) := of_table _
theorem commandFrame (p : Port) (e : FrameEvent) : Statement (.commandFrame p e) := of_table _
theorem status (p : Port) (e : FrameEvent) : Statement (.status p e) := of_table _
theorem collect (p : Port) (e : FrameEvent) : Statement (.collect p e) := of_table _
theorem fetchNotice (p : Port) (e : FrameEvent) : Statement (.fetchNotice p e) := of_table _
theorem windowInfo (p : Port) (e : FrameEvent) : Statement (.windowInfo p e) := of_table _
theorem deviceInfo (p : Port) (e : FrameEvent) : Statement (.deviceInfo p e) := of_table _
theorem portReset (p : Port) (e : FrameEvent) : Statement (.portReset p e) := of_table _
theorem teardownEnd (p : Port) : Statement (.teardownEnd p) := of_table _
theorem defineWindow (p : Port) : Statement (.defineWindow p) := of_table _
theorem setWindowParams (p : Port) : Statement (.setWindowParams p) := of_table _
theorem deleteWindow (p : Port) : Statement (.deleteWindow p) := of_table _
theorem claim (p : Port) : Statement (.claim p) := of_table _
theorem release (p : Port) : Statement (.release p) := of_table _
theorem renew (p : Port) : Statement (.renew p) := of_table _
theorem setKey (p : Port) : Statement (.setKey p) := of_table _
theorem clearKey (p : Port) : Statement (.clearKey p) := of_table _
theorem unlock (p : Port) : Statement (.unlock p) := of_table _
theorem lock (p : Port) : Statement (.lock p) := of_table _
theorem setMasterKey (p : Port) : Statement (.setMasterKey p) := of_table _
theorem freeze (p : Port) : Statement (.freeze p) := of_table _
theorem wipePrepare (p : Port) : Statement (.wipePrepare p) := of_table _
theorem wipe (p : Port) : Statement (.wipe p) := of_table _
theorem read (p : Port) : Statement (.read p) := of_table _
theorem write (p : Port) : Statement (.write p) := of_table _
theorem inject (p : Port) : Statement (.inject p) := of_table _
theorem scrubSettings (p : Port) : Statement (.scrubSettings p) := of_table _
theorem copy (p : Port) : Statement (.copy p) := of_table _
theorem fill (p : Port) : Statement (.fill p) := of_table _
theorem cancelJob (p : Port) : Statement (.cancelJob p) := of_table _
theorem grant : Statement .grant := of_table _
theorem readCompletion : Statement .readCompletion := of_table _
theorem writeCompletion : Statement .writeCompletion := of_table _
theorem injectCompletion : Statement .injectCompletion := of_table _
theorem copyStepCompletion : Statement .copyStepCompletion := of_table _
theorem fillStepCompletion : Statement .fillStepCompletion := of_table _
theorem wipeStepCompletion : Statement .wipeStepCompletion := of_table _
theorem scrubReadCompletion : Statement .scrubReadCompletion := of_table _
theorem leaseLowPoint (w : Nat) (p : Port) : Statement (.leaseLowPoint w p) := of_table _
theorem leaseExpiry (w : Nat) (p : Port) : Statement (.leaseExpiry w p) := of_table _
theorem waitExpiry (w : Nat) (p : Port) : Statement (.waitExpiry w p) := of_table _
theorem scrubTimerExpiry : Statement .scrubTimerExpiry := of_table _
theorem storedBitFlip (phys word : Nat) (bit : StoredBit) : Statement (.storedBitFlip phys word bit) :=
  of_table _
theorem millisecondTick : Statement .millisecondTick := of_table _
theorem microsecondTick : Statement .microsecondTick := of_table _
theorem emptyFrame (p : Port) : Statement (.emptyFrame p) := of_table _

end Sys2Proof.Laws.Encoding
end

