-- ==== Sys2Proof/Laws/Resets.lean ====
section
/-! SUPPORT. The three resets beside the other commands: what a reset leaves, and steps as a whole. -/

namespace Sys2Proof.Machine

/-- What a power-on or the assertion or release of RESET# leaves: every block at its reset values, the
map and the spares as they were or empty and FREE (R198, R199, R202, R203). -/
def State.afterReset (s : State) (ph : Phase) (lp : Port) (ms : Tick) (us : Nat)
    (rm : List RemapEntry) (sp : Vector SpareState 16) : State :=
  { s.blocksReset ph with layoutPort := lp, msCount := ms, usCount := us, remap := rm, spares := sp }

/-- No window is defined after a reset. -/
theorem State.window?_afterReset (s : State) (ph : Phase) (lp : Port) (ms : Tick)
    (us : Nat) (rm : List RemapEntry) (sp : Vector SpareState 16) (i : Nat) :
    (s.afterReset ph lp ms us rm sp).window? i = none := by
  show State.reset.window? i = none
  unfold State.window? State.reset
  by_cases h : i < 32
  · simp [h]
  · simp [h]

/-- A reset changes nothing, or leaves the reset values. -/
theorem exec_reset {c : Instr} {s t : State}
    (hc : (∃ r l, c = .powerOn r l) ∨ c = .resetAssert ∨ ∃ l, c = .resetRelease l)
    (h : exec c s = .next t) :
    t = s ∨ ∃ ph lp ms us rm sp, t = s.afterReset ph lp ms us rm sp ∧
      ((rm = s.remap ∧ sp = s.spares) ∨ (rm = [] ∧ sp = Vector.replicate 16 .free)) := by
  rcases hc with ⟨r, l, rfl⟩ | rfl | ⟨l, rfl⟩
  · exact Or.inr ⟨_, _, _, _, _, _, (Host.Outcome.next.inj h).symm, Or.inr ⟨rfl, rfl⟩⟩
  · simp only [exec, execResetAssert] at h
    split at h
    · exact Or.inl (Host.Outcome.next.inj h).symm
    · exact Or.inr ⟨.held, s.layoutPort, s.msCount, s.usCount, s.remap, s.spares,
        (Host.Outcome.next.inj h).symm, Or.inl ⟨rfl, rfl⟩⟩
  · simp only [exec, execResetRelease] at h
    split at h
    · exact Or.inr ⟨_, _, _, _, _, _, (Host.Outcome.next.inj h).symm, Or.inl ⟨rfl, rfl⟩⟩
    · exact Or.inl (Host.Outcome.next.inj h).symm

/-- What every command keeps but the resets, and every reset keeps, every step keeps. -/
theorem Keeps.everyStep {Inv : State → Prop} (k : Keeps Inv)
    (hr : ∀ (s : State) ph lp ms us rm sp, Inv s →
      ((rm = s.remap ∧ sp = s.spares) ∨ (rm = [] ∧ sp = Vector.replicate 16 .free)) →
      Inv (s.afterReset ph lp ms us rm sp))
    {s t : State} (hs : Inv s) (h : Machine.step s = .next t) : Inv t := by
  unfold Machine.step at h
  split at h
  · exact (Host.Outcome.next.inj h) ▸ hs
  · rename_i c rest _
    have hs' := k.pending s rest hs
    by_cases hc : (∃ r l, c = .powerOn r l) ∨ c = .resetAssert ∨ ∃ l, c = .resetRelease l
    · rcases exec_reset hc h with rfl | ⟨ph, lp, ms, us, rm, sp, rfl, hh⟩
      · exact hs'
      · exact hr _ _ _ _ _ _ _ hs' hh
    · simp only [not_or, not_exists] at hc
      exact k.exec hs' hc.1 hc.2.1 hc.2.2 h

/-- A property of the windows and jobs alone that every empty part has holds after a reset. -/
theorem jobsLawful_afterReset (s : State) (ph : Phase) (lp : Port) (ms : Tick)
    (us : Nat) (rm : List RemapEntry) (sp : Vector SpareState 16) : JobsLawful (s.afterReset ph lp ms us rm sp) := by
  refine ⟨?_, ?_, ?_, ?_, ?_⟩
  · intro c work h; cases h
  · intro c j h; cases c <;> cases h
  · intro c j h; cases c <;> cases h
  · intro j k h; cases h
  · intro i w h
    rw [State.window?_afterReset] at h
    cases h

end Sys2Proof.Machine
end

