-- ==== Sys2Proof/Laws/Revocation.lean ====
section
/-! SUPPORT. What a revocation and a grant pass do to the PCUs, and a revocation made inside a taking. -/

namespace Sys2Proof.Machine

/-! ### Posting to several ports and completing several waits -/

/-- The PCUs after a notice to some of the ports, each once. -/
theorem State.pcu_foldl_post (l : List Port) (hl : l.Nodup) (c : Port → Bool) (n : Notice) (s : State)
    (q : Port) :
    (l.foldl (fun t p => if c p then t.post p n else t) s).pcu q =
      if q ∈ l ∧ c q = true then (s.pcu q).post n else s.pcu q := by
  induction l generalizing s with
  | nil => simp
  | cons p l ih =>
    rw [List.nodup_cons] at hl
    rw [List.foldl_cons, ih hl.2]
    have hp : (if c p = true then s.post p n else s).pcu q =
        if q = p ∧ c p = true then (s.pcu q).post n else s.pcu q := by
      by_cases hc : c p = true
      · rw [if_pos hc]
        unfold State.post
        rw [State.pcu_setPcu]
        by_cases e : q = p
        · simp [e, hc]
        · simp [e]
      · simp [hc]
    rw [hp]
    by_cases e : q = p
    · subst e
      simp [hl.1]
    · simp [e]

/-- The PCU of a port that is not among the waiters completed. -/
theorem State.pcu_foldl_completeWait_ne (l : List Waiter) (o : OutcomeCode) (s : State) (q : Port)
    (h : ∀ x ∈ l, x.port ≠ q) : (l.foldl (fun t x => t.completeWait x o) s).pcu q = s.pcu q := by
  induction l generalizing s with
  | nil => rfl
  | cons x l ih =>
    rw [List.foldl_cons, ih _ (fun y hy => h y (List.mem_cons_of_mem _ hy))]
    unfold State.completeWait State.complete
    rw [State.pcu_setPcu_ne _ _ (fun e => h x (List.mem_cons_self ..) e.symm)]

/-- The PCU of a port among the waiters completed, where no port waits twice. -/
theorem State.pcu_foldl_completeWait (l : List Waiter) (hl : (l.map Waiter.port).Nodup)
    (o : OutcomeCode) (s : State) (x : Waiter) (hx : x ∈ l) :
    (l.foldl (fun t x => t.completeWait x o) s).pcu x.port =
      (s.pcu x.port).complete ⟨x.tag, .claim, o, .none⟩ := by
  induction l generalizing s with
  | nil => cases hx
  | cons y l ih =>
    rw [List.map_cons, List.nodup_cons] at hl
    rw [List.foldl_cons]
    rcases List.mem_cons.1 hx with e | hx
    · subst e
      rw [State.pcu_foldl_completeWait_ne l o _ _ (fun z hz e =>
        hl.1 (by rw [← e]; exact List.mem_map_of_mem hz))]
      unfold State.completeWait State.complete
      rw [State.pcu_setPcu_same]
    · have hne : x.port ≠ y.port := fun e => hl.1 (by rw [← e]; exact List.mem_map_of_mem hx)
      rw [ih hl.2 _ hx]
      unfold State.completeWait State.complete
      rw [State.pcu_setPcu_ne _ _ hne]

/-! ### Revocation (R48) -/

theorem Port.nodup_all : Port.all.Nodup := by decide

/-- The PCUs after a revocation. -/
theorem State.pcu_revoke {s : State} {i : Nat} {w : Window} (hw : s.window? i = some w) (q : Port) :
    (s.revoke i).pcu q = (w.waiters.foldl (fun t x => t.completeWait x .revoked)
      (Port.all.foldl (fun t p => if w.holds p then t.post p (.claimRevoked i) else t) s)).pcu q := by
  unfold State.revoke
  rw [hw]
  rfl

/-- A port that neither holds nor waits is left alone by a revocation. -/
theorem State.pcu_revoke_other {s : State} {i : Nat} {w : Window} (hw : s.window? i = some w)
    {q : Port} (h1 : w.holds q = false) (h2 : w.waits q = false) :
    (s.revoke i).pcu q = s.pcu q := by
  unfold Window.waits at h2
  rw [List.any_eq_false] at h2
  rw [State.pcu_revoke hw, State.pcu_foldl_completeWait_ne _ _ _ _ (fun x hx => by simpa using h2 x hx),
    State.pcu_foldl_post _ Port.nodup_all, if_neg (by simp [h1])]

/-- A holder that does not wait gets the notice of the revocation. -/
theorem State.pcu_revoke_holder {s : State} {i : Nat} {w : Window} (hw : s.window? i = some w)
    {q : Port} (h1 : w.holds q = true) (h2 : w.waits q = false) :
    (s.revoke i).pcu q = (s.pcu q).post (.claimRevoked i) := by
  unfold Window.waits at h2
  rw [List.any_eq_false] at h2
  rw [State.pcu_revoke hw, State.pcu_foldl_completeWait_ne _ _ _ _ (fun x hx => by simpa using h2 x hx),
    State.pcu_foldl_post _ Port.nodup_all, if_pos ⟨Port.mem_all q, h1⟩]

/-- A waiter that does not hold completes REVOKED. -/
theorem State.pcu_revoke_waiter {s : State} {i : Nat} {w : Window} (hw : s.window? i = some w)
    (hn : (w.waiters.map Waiter.port).Nodup) {x : Waiter} (hx : x ∈ w.waiters)
    (h : w.holds x.port = false) :
    (s.revoke i).pcu x.port = (s.pcu x.port).complete ⟨x.tag, .claim, .revoked, .none⟩ := by
  rw [State.pcu_revoke hw, State.pcu_foldl_completeWait _ hn _ _ _ hx,
    State.pcu_foldl_post _ Port.nodup_all, if_neg (by simp [h])]

/-! ### A change made inside a taking -/

/-- The state inside a taking beside the state outside it: the port's reservation is one higher, or both
are 0, and its wipe-prepared record is clear. -/
def State.Shadows (p : Port) (s t : State) : Prop :=
  ∃ r, r - 1 = (s.pcu p).reservations ∧
    t = s.setPcu p { s.pcu p with reservations := r, wipePrepared := none }

theorem State.Shadows.beginTake (s : State) (p : Port) : State.Shadows p s (s.beginTake p) :=
  ⟨(s.pcu p).reservations + 1, by omega, rfl⟩

theorem State.Shadows.pcu_ne {p q : Port} {s t : State} (h : State.Shadows p s t) (hq : q ≠ p) :
    t.pcu q = s.pcu q := by
  obtain ⟨r, _, rfl⟩ := h
  exact State.pcu_setPcu_ne _ _ hq

theorem State.Shadows.window? {p : Port} {s t : State} (h : State.Shadows p s t) (i : Nat) :
    t.window? i = s.window? i := by
  obtain ⟨r, _, rfl⟩ := h
  rfl

theorem State.Shadows.setWindow {p : Port} {s t : State} (h : State.Shadows p s t) (i : Nat)
    (w : Option Window) : State.Shadows p (s.setWindow i w) (t.setWindow i w) := by
  obtain ⟨r, hr, rfl⟩ := h
  exact ⟨r, hr, rfl⟩

theorem State.setPcu_comm (s : State) {p q : Port} (u v : Pcu) (h : q ≠ p) :
    (s.setPcu p u).setPcu q v = (s.setPcu q v).setPcu p u := by
  unfold State.setPcu
  congr 1
  apply PerPort.ext_get
  intro x
  simp only [PerPort.get_set]
  split <;> split <;> simp_all

/-- The notices of a PCU do not depend on its reservations or its wipe-prepared record. -/
theorem Pcu.post_shadow (u : Pcu) (n : Notice) (r : Nat) :
    ({ u with reservations := r, wipePrepared := none } : Pcu).post n =
      { u.post n with reservations := r, wipePrepared := none } := by
  unfold Pcu.post Pcu.store Pcu.supersede Pcu.removeNotice
  split
  · cases n <;> simp only <;> split <;> (try split) <;> rfl
  · rfl

theorem State.Shadows.post {p : Port} {s t : State} (h : State.Shadows p s t) (q : Port)
    (n : Notice) : State.Shadows p (s.post q n) (t.post q n) := by
  obtain ⟨r, hr, rfl⟩ := h
  unfold State.post
  by_cases e : q = p
  · subst e
    refine ⟨r, ?_, ?_⟩
    · rw [State.pcu_setPcu_same, Pcu.post_fields]
      exact hr
    · simp only [State.pcu_setPcu_same, State.setPcu_setPcu]
      rw [Pcu.post_shadow]
  · refine ⟨r, ?_, ?_⟩
    · rw [State.pcu_setPcu_ne _ _ (Ne.symm e)]; exact hr
    · rw [State.pcu_setPcu_ne _ _ (Ne.symm e), State.pcu_setPcu_ne _ _ e, State.setPcu_comm _ _ _ e]

theorem State.Shadows.complete {p : Port} {s t : State} (h : State.Shadows p s t) (q : Port)
    (c : Completion) : State.Shadows p (s.complete q c) (t.complete q c) := by
  obtain ⟨r, hr, rfl⟩ := h
  unfold State.complete
  by_cases e : q = p
  · subst e
    refine ⟨r - 1, ?_, ?_⟩
    · rw [State.pcu_setPcu_same]
      simp only [Pcu.complete]
      omega
    · simp only [State.pcu_setPcu_same, State.setPcu_setPcu]
      rfl
  · refine ⟨r, ?_, ?_⟩
    · rw [State.pcu_setPcu_ne _ _ (Ne.symm e)]; exact hr
    · rw [State.pcu_setPcu_ne _ _ (Ne.symm e), State.pcu_setPcu_ne _ _ e, State.setPcu_comm _ _ _ e]

theorem State.Shadows.foldl {p : Port} {α : Type} {f : State → α → State}
    (h : ∀ s t x, State.Shadows p s t → State.Shadows p (f s x) (f t x)) (l : List α) {s t : State}
    (k : State.Shadows p s t) : State.Shadows p (l.foldl f s) (l.foldl f t) := by
  induction l generalizing s t with
  | nil => exact k
  | cons x l ih => exact ih (h s t x k)

theorem State.Shadows.revoke {p : Port} {s t : State} (h : State.Shadows p s t) (i : Nat) :
    State.Shadows p (s.revoke i) (t.revoke i) := by
  unfold State.revoke
  rw [h.window? i]
  split
  · exact h
  · rename_i w _
    simp only
    refine State.Shadows.setWindow ?_ _ _
    refine State.Shadows.foldl (f := fun t x => t.completeWait x .revoked)
      (fun s t x k => k.complete _ _) _ ?_
    refine State.Shadows.foldl (f := fun t p => if w.holds p then t.post p (.claimRevoked i) else t)
      (fun s t x k => ?_) _ h
    split
    · exact k.post _ _
    · exact k

/-- The completion of a command whose effect was made inside its taking. -/
theorem State.Shadows.finish {p : Port} {s t : State} (h : State.Shadows p s t) (tag : Byte)
    (k : CommandKind) (o : OutcomeCode) : t.finish p tag k o = s.answers p tag k o := by
  obtain ⟨r, hr, rfl⟩ := h
  unfold State.finish State.answers
  simp only [State.pcu_setPcu_same, State.setPcu_setPcu, Pcu.popHead, Pcu.complete]
  rw [hr]

end Sys2Proof.Machine
end

