-- ==== Sys2Proof/Laws/WindowInvariants.lean ====
section
/-! SUPPORT. Changes keep the laws of the windows: claims, guards and placement. -/

set_option linter.unusedVariables false

namespace Sys2Proof.Machine

/-! ### The claim part -/

theorem Window.holds_setHolders (w : Window) (p q : Port) (l : Option Lease) :
    Window.holds { w with holders := w.holders.set p l } q =
      if q = p then l.isSome else w.holds q := by
  unfold Window.holds
  rw [PerPort.get_set]
  split <;> rfl

theorem Window.holds_removeHolder (w : Window) (p q : Port) :
    (w.removeHolder p).holds q = if q = p then false else w.holds q :=
  Window.holds_setHolders w p q none

theorem Window.holderCount_congr {w v : Window} (h : ∀ q, v.holds q = w.holds q) :
    v.holderCount = w.holderCount := by
  unfold Window.holderCount
  rw [show v.holds = w.holds from funext h]

/-- The end of a claim leaves the claim part open for the grant pass (R36). -/
theorem Window.ClaimsOpen.removeHolder {w : Window} (h : w.ClaimsOpen) (p : Port) :
    (w.removeHolder p).ClaimsOpen := by
  have hh := Window.holds_removeHolder w p
  have hno : (w.removeHolder p).noHolders =
      Window.noHolders { w with holders := w.holders.set p none } := rfl
  have hst : (w.removeHolder p).claimState =
      if (w.removeHolder p).noHolders then .unclaimed else w.claimState := by rw [hno]; rfl
  refine ⟨?_, ?_, h.nodup, fun x hx => ?_⟩
  · rw [hst]
    by_cases hn : (w.removeHolder p).noHolders = true
    · rw [if_pos hn]
      simp [Window.holderCount_eq_zero.2 (Window.noHolders_iff.1 hn)]
    · rw [if_neg hn, h.unclaimed]
      constructor
      · intro h0
        exfalso
        apply hn
        rw [Window.noHolders_iff]
        intro q
        rw [hh, Window.holderCount_eq_zero.1 h0 q]
        simp
      · intro h0
        exact absurd (Window.noHolders_iff.2 (Window.holderCount_eq_zero.1 h0)) hn
  · rw [hst]
    by_cases hn : (w.removeHolder p).noHolders = true
    · rw [if_pos hn]; intro e; cases e
    · rw [if_neg hn]
      intro e
      have h1 := h.write e
      have hp : w.holds p = false := by
        cases hp : w.holds p with
        | false => rfl
        | true =>
          exfalso
          apply hn
          rw [Window.noHolders_iff]
          intro q
          rw [hh]
          split
          · rfl
          · rename_i hqp
            cases hq : w.holds q with
            | false => rfl
            | true => exact absurd (Window.holds_unique h1 hq hp) hqp
      rw [← h1]
      apply Window.holderCount_congr
      intro q
      rw [hh]
      split
      · rename_i e; rw [e, hp]
      · rfl
  · rw [hh]
    split
    · rfl
    · exact h.apart x hx

/-- The end of a wait leaves the claim part open for the grant pass (R37). -/
theorem Window.ClaimsOpen.removeWaiter {w : Window} (h : w.ClaimsOpen) (p : Port) :
    (w.removeWaiter p).ClaimsOpen :=
  ⟨h.unclaimed, h.write, h.nodup.sublist (List.filter_sublist.map _),
    fun x hx => h.apart x (List.mem_filter.1 hx).1⟩

theorem Window.removeWaiter_absent {w : Window} {p : Port} (h : w.waits p = false) :
    w.removeWaiter p = w := by
  unfold Window.removeWaiter
  have : w.waiters.filter (fun x => x.port != p) = w.waiters := by
    rw [List.filter_eq_self]
    intro x hx
    unfold Window.waits at h
    rw [List.any_eq_false] at h
    simpa using h x hx
  rw [this]

/-- The claim part of a window torn down for a port that is not in it stays as it was. -/
theorem Window.ClaimsLawful.removePort {w : Window} {p : Port} (h : w.ClaimsLawful)
    (hp : w.holds p = false) (hw : w.waits p = false) : (w.removePort p).ClaimsLawful := by
  have hh : ∀ q, (w.removePort p).holds q = w.holds q := by
    intro q
    rw [show (w.removePort p).holds q = (w.removeHolder p).holds q from rfl,
      Window.holds_removeHolder]
    split
    · rename_i e; rw [e, hp]
    · rfl
  have hwt : (w.removePort p).waiters = w.waiters := by
    have h0 : (w.removeWaiter p).waiters = w.waiters :=
      congrArg Window.waiters (Window.removeWaiter_absent hw)
    exact h0
  have hcs : (w.removePort p).claimState = (w.removeHolder p).claimState := rfl
  have ho := h.open.removeHolder p
  refine Window.ClaimsOpen.lawful ⟨?_, ?_, ?_, ?_⟩ ?_
  · rw [hcs, ho.unclaimed, Window.holderCount_congr (w := w) hh, Window.holderCount_congr (w := w)]
    intro q
    rw [Window.holds_removeHolder]
    split
    · rename_i e; rw [e, hp]
    · rfl
  · rw [hcs]
    intro e
    rw [← ho.write e]
    exact Window.holderCount_congr (fun q => rfl)
  · rw [hwt]; exact h.open.nodup
  · rw [hwt]; intro x hx; rw [hh]; exact h.open.apart x hx
  · rw [hwt, Window.holderCount_congr hh]; exact h.2.2.2.2

theorem Window.ClaimsOpen.removePort {w : Window} (h : w.ClaimsOpen) (p : Port) :
    (w.removePort p).ClaimsOpen := by
  have := (h.removeHolder p).removeWaiter p
  exact ⟨this.unclaimed, this.write, this.nodup, this.apart⟩

theorem Window.clearClaims_lawful (w : Window) : w.clearClaims.ClaimsLawful ∧
    w.clearClaims.holderCount = 0 := by
  have h0 : w.clearClaims.holderCount = 0 := by
    rw [Window.holderCount_eq_zero]
    intro q
    simp [Window.holds, Window.clearClaims]
  refine ⟨⟨?_, ?_, ?_, ?_, ?_⟩, h0⟩
  · rw [h0]; simp [Window.clearClaims]
  · intro e; simp [Window.clearClaims] at e
  · simp [Window.clearClaims]
  · intro x hx; simp [Window.clearClaims] at hx
  · intro e; exact absurd rfl e

/-- The law of one window's claims: lawful, and empty while it is wiped. -/
def Window.ClaimsRule (w : Window) : Prop :=
  w.ClaimsLawful ∧ (w.activity = .wiping → w.holderCount = 0 ∧ w.waiters = [])

theorem Window.ClaimsRule.pass {w : Window} (h : w.ClaimsOpen) (now : Tick)
    (hw : w.activity = .wiping → w.holderCount = 0 ∧ w.waiters = []) :
    (w.afterPass now).ClaimsRule := by
  refine ⟨h.afterPass now, fun e => ?_⟩
  have ha : w.activity = .wiping := by rw [← (Window.SamePlace.afterPass w now).activity]; exact e
  rw [Window.afterPass_empty (hw ha).2]
  exact hw ha

theorem True.keeps : Keeps (fun _ => True) := by
  constructor <;> intros <;> trivial

theorem claimsLawful_keeps : Keeps (fun s => True ∧ ClaimsLawful s) := by
  refine Keeps.ofWindowLaw (P := Window.ClaimsRule) (A := fun _ => True) True.keeps
    (fun _ _ _ _ _ _ _ _ _ => trivial) ?_ ?_ ?_ ?_ ?_ ?_ ?_ ?_ ?_ ?_ ?_ ?_ ?_ ?_ ?_ ?_ ?_
  · intro b l pol x y _ _
    exact ⟨(Window.clearClaims_lawful (Window.fresh b l pol x y)).1, fun e => by simp [Window.fresh] at e⟩
  · exact fun w sel pol x y _ h => h
  · intro w p k now hi _ hp _ hg h
    refine ⟨?_, fun e => by rw [show (w.grantClaim p k now).activity = w.activity from rfl, hi] at e; cases e⟩
    have hh : ∀ q, (w.grantClaim p k now).holds q = if q = p then true else w.holds q := fun q =>
      Window.holds_setHolders w p q (some (newLease w.leasePeriod now))
    have hwt : w.waiters = [] := by
      cases k <;> simp only [Window.grantable, Bool.and_eq_true, List.isEmpty_iff] at hg <;> exact hg.2
    have hpos : 1 ≤ (w.grantClaim p k now).holderCount :=
      Window.holderCount_pos (q := p) (by rw [hh]; simp)
    have hcs : (w.grantClaim p k now).claimState = k.held := rfl
    have hw' : (w.grantClaim p k now).waiters = [] := hwt
    refine Window.ClaimsOpen.lawful ⟨?_, ?_, ?_, ?_⟩ (fun _ => hpos)
    · rw [hcs]
      constructor
      · intro e; cases k <;> cases e
      · intro e; omega
    · rw [hcs]
      intro e
      have hk : k = .write := by cases k <;> [cases e; rfl]
      subst hk
      simp only [Window.grantable, Bool.and_eq_true] at hg
      have hn := Window.noHolders_iff.1 hg.1
      apply Window.holderCount_eq_one (p := p)
      intro q
      rw [hh, hn q]
      split <;> simp_all
    · rw [hw']; simp
    · rw [hw']; intro x hx; cases hx
  · intro w p k tag now hi _ hp hw hg h
    refine ⟨?_, fun e => by rw [show Window.activity { w with waiters := w.waiters ++ [w.newWaiter p k tag now] } = w.activity from rfl, hi] at e; cases e⟩
    obtain ⟨h1, h2, h3, h4, h5⟩ := h.1
    refine ⟨h1, h2, ?_, fun x hx => ?_, fun _ => ?_⟩
    · rw [List.map_append, List.nodup_append]
      refine ⟨h3, by simp, fun a ha b hb => ?_⟩
      simp only [List.map_cons, List.map_nil, List.mem_singleton] at hb
      obtain ⟨x, hx, rfl⟩ := List.mem_map.1 ha
      unfold Window.waits at hw
      rw [List.any_eq_false] at hw
      have := hw x hx
      rw [hb]
      show x.port ≠ p
      simpa using this
    · rcases List.mem_append.1 hx with hx | hx
      · exact h4 x hx
      · rw [List.mem_singleton] at hx
        rw [hx]
        exact hp
    · show 1 ≤ w.holderCount
      by_cases hne : w.waiters = []
      · cases k
        · simp only [Window.grantable, hne, List.isEmpty_nil, Bool.and_true, bne_eq_false_iff_eq] at hg
          rw [h2 hg]
        · simp only [Window.grantable, hne, List.isEmpty_nil, Bool.and_true] at hg
          by_contra hc
          have h0 : w.holderCount = 0 := by omega
          rw [Window.noHolders_iff.2 (Window.holderCount_eq_zero.1 h0)] at hg
          cases hg
      · exact h5 hne
  · intro w p now hp h
    refine Window.ClaimsRule.pass (h.1.open.removeHolder p) now (fun e => ?_)
    have := Window.holderCount_eq_zero.1 (h.2 e).1 p
    rw [hp] at this; cases this
  · intro w p now h
    refine Window.ClaimsRule.pass (h.1.open.removeWaiter p) now (fun e => ?_)
    obtain ⟨h1, h2⟩ := h.2 e
    exact ⟨h1, by simp [Window.removeWaiter, h2]⟩
  · intro w p l hp h
    have hh : ∀ q, Window.holds { w with holders := w.holders.set p (some l) } q = w.holds q := by
      intro q
      rw [Window.holds_setHolders]
      split
      · rename_i e; rw [e, hp]; rfl
      · rfl
    obtain ⟨⟨h1, h2, h3, h4, h5⟩, h6⟩ := h
    have hc := Window.holderCount_congr hh
    refine ⟨⟨?_, ?_, h3, ?_, ?_⟩, ?_⟩
    · rw [hc]; exact h1
    · rw [hc]; exact h2
    · intro x hx; rw [hh]; exact h4 x hx
    · rw [hc]; exact h5
    · rw [hc]; exact h6
  · exact fun w p key level _ _ h => h
  · exact fun w h => h
  · exact fun w n _ _ h => h
  · exact fun w p _ _ h => h
  · exact fun w p h => h
  · intro w p hp hw h
    refine ⟨h.1.removePort hp hw, fun e => ?_⟩
    obtain ⟨h1, h2⟩ := h.2 e
    refine ⟨?_, by simp [Window.removePort, Window.removeWaiter, Window.removeHolder, h2]⟩
    rw [Window.holderCount_eq_zero] at h1 ⊢
    intro q
    rw [show (w.removePort p).holds q = (w.removeHolder p).holds q from rfl,
      Window.holds_removeHolder, h1 q]
    simp
  · intro w p now h
    refine Window.ClaimsRule.pass (h.1.open.removePort p) now (fun e => ?_)
    obtain ⟨h1, h2⟩ := h.2 e
    refine ⟨?_, by simp [Window.removePort, Window.removeWaiter, Window.removeHolder, h2]⟩
    rw [Window.holderCount_eq_zero] at h1 ⊢
    intro q
    rw [show (w.removePort p).holds q = (w.removeHolder p).holds q from rfl,
      Window.holds_removeHolder, h1 q]
    simp
  · intro w _ h
    exact ⟨(Window.clearClaims_lawful w.startWiping).1,
      fun _ => ⟨(Window.clearClaims_lawful w.startWiping).2, rfl⟩⟩
  · exact fun w f h => h
  · exact fun w _ h => ⟨h.1, fun e => by cases e⟩

/-! ### The guard record -/

/-- The law of one window's guard record (R4, R51, R54, R71). -/
def Window.GuardRule (w : Window) : Prop :=
  w.guard.attempts ≤ 4 ∧
  (w.guard.key = none →
    w.guard.level = .standard ∧ w.guard.unlocked = PerPort.const false ∧ w.guard.attempts = 4) ∧
  (w.activity = .wiping → w.guard.unlocked = PerPort.const false) ∧
  (w.policy = .free → w.guard.key = none ∧ w.holderCount = 0 ∧ w.waiters = [])

theorem PerPort.const_set {α : Type} (a : α) (p : Port) : (PerPort.const a).set p a = PerPort.const a := by
  cases p <;> rfl

/-- A change of the claim part alone keeps the guard's law, where a FREE window stays unclaimed. -/
theorem Window.GuardRule.claims {w v : Window} (h : w.GuardRule) (hg : v.guard = w.guard)
    (ha : v.activity = w.activity) (hp : v.policy = w.policy)
    (hf : w.policy = .free → v.holderCount = 0 ∧ v.waiters = []) : v.GuardRule := by
  obtain ⟨h1, h2, h3, h4⟩ := h
  unfold Window.GuardRule
  rw [hg, ha, hp]
  exact ⟨h1, h2, h3, fun e => ⟨(h4 e).1, hf e⟩⟩

theorem Window.guard_afterPass (w : Window) (now : Tick) : (w.afterPass now).guard = w.guard := by
  rw [Window.afterPass_eq]

theorem guardRule_keeps :
    Keeps (fun s => JobsLawful s ∧ EveryWindow s Window.GuardRule) := by
  refine Keeps.ofWindowLaw (P := Window.GuardRule) (A := fun w => w.activity = .wiping)
    jobsLawful_keeps ?_ ?_ ?_ ?_ ?_ ?_ ?_ ?_ ?_ ?_ ?_ ?_ ?_ ?_ ?_ ?_ ?_ ?_
  · intro s c d j w hJ hf hj hw
    obtain ⟨h1, -, h3, -, -⟩ := hJ
    obtain ⟨k, hk, hkind⟩ := h1 c _ hf
    rw [hj] at hk; cases hk
    obtain ⟨-, v, hv, hact⟩ := h3 c j hj hkind
    rw [hw] at hv; cases hv
    exact hact
  · intro b l pol x y _ _
    refine ⟨by simp [Window.fresh, Guard.fresh], fun _ => by simp [Window.fresh, Guard.fresh],
      fun e => by simp [Window.fresh] at e, fun _ => ⟨rfl, ?_, rfl⟩⟩
    rw [Window.holderCount_eq_zero]
    intro q
    simp [Window.holds, Window.fresh]
  · intro w sel pol x y hc h
    obtain ⟨h1, h2, h3, h4⟩ := h
    refine ⟨h1, h2, h3, fun e => ?_⟩
    by_cases hch : changesPolicy w sel pol = true
    · obtain ⟨_, hn, hwt, hk⟩ := hc hch
      simp only [changesPolicy, Bool.and_eq_true, bne_iff_ne] at hch
      have e' : (if selects sel 0 then (policyOf pol).getD w.policy else w.policy) = .free := e
      rw [if_pos hch.1] at e'
      cases hp : policyOf pol with
      | none => rw [hp] at e'; exact h4 e'
      | some z =>
        rw [hp] at e'
        have e2 : z = .free := e'
        exact ⟨hk (by rw [hp, e2]), Window.holderCount_eq_zero.2 (Window.noHolders_iff.1 hn), hwt⟩
    · have e' : w.policy = .free := by
        have e1 : (if selects sel 0 then (policyOf pol).getD w.policy else w.policy) = .free := e
        split at e1
        · rename_i hs
          have : policyOf pol = some w.policy := by
            by_contra hne
            exact hch (by simp [changesPolicy, hs, hne])
          rw [this] at e1
          exact e1
        · exact e1
      exact h4 e'
  · intro w p k now _ hp _ _ _ h
    exact h.claims rfl rfl rfl (fun e => absurd e hp)
  · intro w p k tag now _ hp _ _ _ h
    exact h.claims rfl rfl rfl (fun e => absurd e hp)
  · intro w p now hp h
    refine h.claims (Window.guard_afterPass _ _) (Window.SamePlace.afterPass _ now).activity
      (Window.SamePlace.afterPass _ now).policy (fun e => ?_)
    have := Window.holderCount_eq_zero.1 (h.2.2.2 e).2.1 p
    rw [hp] at this; cases this
  · intro w p now h
    refine h.claims (Window.guard_afterPass _ _) (Window.SamePlace.afterPass _ now).activity
      (Window.SamePlace.afterPass _ now).policy (fun e => ?_)
    obtain ⟨-, h1, h2⟩ := h.2.2.2 e
    have hw : (w.removeWaiter p).waiters = [] := by simp [Window.removeWaiter, h2]
    rw [Window.afterPass_empty hw]
    exact ⟨h1, hw⟩
  · intro w p l hp h
    refine h.claims rfl rfl rfl (fun e => ?_)
    have := Window.holderCount_eq_zero.1 (h.2.2.2 e).2.1 p
    rw [hp] at this; cases this
  · intro w p key level hi hp h
    refine ⟨by simp [Guard.keyedBy], fun e => by simp [Guard.keyedBy] at e, fun e => ?_, fun e => ?_⟩
    · have e' : w.activity = .wiping := e
      rw [hi] at e'; cases e'
    · have := Window.holderCount_eq_zero.1 (h.2.2.2 e).2.1 p
      unfold Window.holdsWrite at hp
      rw [Bool.and_eq_true] at hp
      rw [hp.2] at this; cases this
  · intro w h
    exact ⟨by simp [Guard.fresh], fun _ => by simp [Guard.fresh], fun _ => rfl,
      fun e => ⟨rfl, (h.2.2.2 e).2⟩⟩
  · intro w n hk hn h
    exact ⟨hn h.1, fun e => absurd e hk, h.2.2.1, h.2.2.2⟩
  · intro w p hk hi h
    refine ⟨h.1, fun e => absurd e hk, fun e => ?_, h.2.2.2⟩
    have e' : w.activity = .wiping := e
    rw [hi] at e'; cases e'
  · intro w p h
    obtain ⟨h1, h2, h3, h4⟩ := h
    refine ⟨h1, fun e => ?_, fun e => ?_, h4⟩
    · obtain ⟨a, b, c⟩ := h2 e
      exact ⟨a, by simp only [b]; exact PerPort.const_set _ _, c⟩
    · simp only [h3 e]; exact PerPort.const_set _ _
  · intro w p hp hw h
    obtain ⟨h1, h2, h3, h4⟩ := h
    refine ⟨h1, fun e => ?_, fun e => ?_, fun e => ?_⟩
    · obtain ⟨a, b, c⟩ := h2 e
      refine ⟨a, ?_, c⟩
      show w.guard.unlocked.set p false = _
      rw [b]; exact PerPort.const_set _ _
    · show w.guard.unlocked.set p false = _
      rw [h3 e]; exact PerPort.const_set _ _
    · obtain ⟨a, b, c⟩ := h4 e
      refine ⟨a, ?_, by simp [Window.removePort, Window.removeWaiter, Window.removeHolder, c]⟩
      rw [Window.holderCount_eq_zero] at b ⊢
      intro q
      rw [show (w.removePort p).holds q = (w.removeHolder p).holds q from rfl,
        Window.holds_removeHolder, b q]
      simp
  · intro w p now h
    obtain ⟨h1, h2, h3, h4⟩ := h
    have hr : (w.removePort p).GuardRule := by
      refine ⟨h1, fun e => ?_, fun e => ?_, fun e => ?_⟩
      · obtain ⟨a, b, c⟩ := h2 e
        refine ⟨a, ?_, c⟩
        show w.guard.unlocked.set p false = _
        rw [b]; exact PerPort.const_set _ _
      · show w.guard.unlocked.set p false = _
        rw [h3 e]; exact PerPort.const_set _ _
      · obtain ⟨a, b, c⟩ := h4 e
        refine ⟨a, ?_, by simp [Window.removePort, Window.removeWaiter, Window.removeHolder, c]⟩
        rw [Window.holderCount_eq_zero] at b ⊢
        intro q
        rw [show (w.removePort p).holds q = (w.removeHolder p).holds q from rfl,
          Window.holds_removeHolder, b q]
        simp
    refine hr.claims (Window.guard_afterPass _ _) (Window.SamePlace.afterPass _ now).activity
      (Window.SamePlace.afterPass _ now).policy (fun e => ?_)
    obtain ⟨-, a, b⟩ := hr.2.2.2 e
    rw [Window.afterPass_empty b]
    exact ⟨a, b⟩
  · intro w hi h
    obtain ⟨h1, h2, h3, h4⟩ := h
    refine ⟨h1, fun e => ?_, fun _ => rfl, fun e => ?_⟩
    · obtain ⟨a, b, c⟩ := h2 e
      exact ⟨a, rfl, c⟩
    · exact ⟨(h4 e).1, (Window.clearClaims_lawful w.startWiping).2, rfl⟩
  · intro w f h
    exact h
  · intro w hA h
    obtain ⟨h1, h2, h3, h4⟩ := h
    exact ⟨by simp [Window.wiped], fun _ => ⟨rfl, h3 hA, rfl⟩, (fun e => by cases e),
      fun e => ⟨rfl, (h4 e).2⟩⟩

theorem masterAttempts_keeps : Keeps (fun s => True ∧ s.masterAttempts ≤ 4) := by
  refine Keeps.ofLayout True.keeps (fun s t h hs => by rw [h.masterAttempts]; exact hs)
    (fun s p i a b c d e _ _ hs => hs) (fun s p i a b c d _ _ hs => hs)
    (fun s p i _ _ hs => ?_) (fun s p i a b _ _ hs => ?_) (fun s p i _ _ hs => ?_)
    (fun s key _ _ _ => le_refl 4) (fun s b _ hs => ?_) (fun s p _ _ hs => hs)
    (fun s p tag i w _ hw _ _ _ hs => ?_) (fun s c d _ _ hs => ?_)
  · rw [State.masterAttempts_setWindow, (State.Calm.revoke s _).masterAttempts]; exact hs
  · rw [(State.Calm.setGuard s _ _).masterAttempts]; exact hs
  · rw [(State.Calm.setGuard s _ _).masterAttempts]; exact hs
  · unfold State.compareMaster
    simp only
    split <;> omega
  · have h1 : ∀ (t : State) c, (t.revokeJob i c).masterAttempts = t.masterAttempts := by
      intro t c
      unfold State.revokeJob
      split
      · rfl
      · split
        · split
          · split <;> simp
          · exact (State.frozen_endJob t c _).2.2
        · rfl
    have h2 : ∀ (t : State) j, (t.startJob j).masterAttempts = t.masterAttempts := by
      intro t j
      unfold State.startJob
      split <;> simp
    unfold State.wipeStart
    simp only
    rw [(State.Calm.leaveQueue _ p).masterAttempts, h2, h1, h1,
      (State.Calm.revoke _ _).masterAttempts]
    exact hs
  · unfold State.wipeStepDone
    split
    · exact hs
    · simp only
      split
      · unfold State.wipeEnd
        rw [(State.frozen_endJob _ c _).2.2]
        simpa [State.endFlight] using hs
      · simpa [State.endFlight] using hs

/-! ### Placement -/

theorem Window.covers_iff {w : Window} {l : Nat} :
    w.covers l = true ↔ w.base ≤ l ∧ l < w.base + w.length := by
  simp [Window.covers]

theorem placementLawful_keep {s t : State} (hs : PlacementLawful s)
    (h : ∀ i v, t.window? i = some v →
      ∃ w, s.window? i = some w ∧ v.base = w.base ∧ v.length = w.length) : PlacementLawful t := by
  refine ⟨fun i v hv => ?_, fun i j v x hij hv hx line => ?_⟩
  · obtain ⟨w, hw, e1, e2⟩ := h i v hv
    rw [e1, e2]
    exact hs.1 i w hw
  · obtain ⟨w, hw, e1, e2⟩ := h i v hv
    obtain ⟨y, hy, e3, e4⟩ := h j x hx
    rw [Window.covers_iff, Window.covers_iff, e1, e2, e3, e4, ← Window.covers_iff,
      ← Window.covers_iff]
    exact hs.2 i j w y hij hw hy line

theorem placementLawful_keeps : Keeps (fun s => True ∧ PlacementLawful s) := by
  have guard : ∀ (s : State) i f, PlacementLawful s → PlacementLawful (s.setGuard i f) := by
    intro s i f hs
    refine placementLawful_keep hs (fun j v hv => ?_)
    rw [State.window?_setGuard] at hv
    split at hv
    · rename_i e
      cases hw : s.window? i with
      | none => rw [hw] at hv; cases hv
      | some w => rw [hw] at hv; cases hv; exact ⟨w, by rw [e, hw], rfl, rfl⟩
    · exact ⟨v, hv, rfl, rfl⟩
  refine Keeps.ofLayout True.keeps (fun s t h hs => ?_) (fun s p i base len pol x y _ ho hs => ?_)
    (fun s p i a b c d _ _ hs => ?_) (fun s p i _ _ hs => ?_) (fun s p i a b _ _ hs => guard s _ _ hs)
    (fun s p i _ _ hs => guard s _ _ hs) (fun s key _ _ hs => hs) (fun s b _ hs => hs)
    (fun s p _ _ hs => hs) (fun s p tag i w _ hw _ _ _ hs => ?_) (fun s c d _ _ hs => ?_)
  · refine placementLawful_keep hs (fun i v hv => ?_)
    cases hw : s.window? i with
    | none => rw [h.absent i hw] at hv; cases hv
    | some w =>
      obtain ⟨x, hx, k⟩ := h.present i w hw
      rw [hv] at hx; cases hx
      exact ⟨w, rfl, k.base, k.length⟩
  · unfold defineOutcome at ho
    rw [firstFail_eq_ok (by simp [State.layoutChecks])] at ho
    simp only [State.layoutChecks, List.cons_append, List.nil_append, List.forall_mem_cons,
      List.not_mem_nil, false_imp_iff, implies_true, and_true, decide_eq_true_eq] at ho
    obtain ⟨-, -, hi, hn, hb, hr, hp⟩ := ho
    cases hz : policyOf pol with
    | none => simp [hz] at hp
    | some z =>
      have hfree : ∀ j w, s.window? j = some w → ∀ line, base.toNat ≤ line →
          line < base.toNat + len.toNat → ¬ (w.covers line = true) := by
        intro j w hw line h1 h2 h3
        unfold State.rangeFree at hr
        rw [List.all_eq_true] at hr
        have := hr j (List.mem_range.2 (State.window?_eq_some_lt hw))
        rw [hw] at this
        rw [Window.covers_iff] at h3
        simp at this
        omega
      simp only [Option.map_some]
      refine ⟨fun j v hv => ?_, fun j k v x hjk hv hx line => ?_⟩
      · rw [State.window?_setWindow] at hv
        split at hv
        · cases hv; exact hb
        · exact hs.1 j v hv
      · rw [State.window?_setWindow] at hv hx
        split at hv <;> split at hx <;> rename_i e1 e2
        · exact absurd (e1.1.trans e2.1.symm) hjk
        · cases hv
          rintro ⟨h1, h2⟩
          rw [Window.covers_iff] at h1
          exact hfree k x hx line h1.1 h1.2 h2
        · cases hx
          rintro ⟨h1, h2⟩
          rw [Window.covers_iff] at h2
          exact hfree j v hv line h2.1 h2.2 h1
        · exact hs.2 j k v x hjk hv hx line
  · refine placementLawful_keep hs (fun j v hv => ?_)
    rw [State.window?_setWindow] at hv
    split at hv
    · rename_i e
      cases hw : s.window? i.toNat with
      | none => rw [hw] at hv; cases hv
      | some w => rw [hw] at hv; cases hv; exact ⟨w, by rw [e.1, hw], rfl, rfl⟩
    · exact ⟨v, hv, rfl, rfl⟩
  · refine placementLawful_keep hs (fun j v hv => ?_)
    rw [State.window?_setWindow] at hv
    split at hv
    · cases hv
    · rw [State.window?_revoke] at hv
      split at hv
      · rename_i e
        cases hw : s.window? i.toNat with
        | none => rw [hw] at hv; cases hv
        | some w => rw [hw] at hv; cases hv; exact ⟨w, by rw [e, hw], rfl, rfl⟩
      · exact ⟨v, hv, rfl, rfl⟩
  · refine placementLawful_keep hs (fun j v hv => ?_)
    rw [State.window?_wipeStart p tag w (State.window?_eq_some_lt hw)] at hv
    split at hv
    · rename_i e
      cases hv; exact ⟨w, by rw [e, hw], rfl, rfl⟩
    · exact ⟨v, hv, rfl, rfl⟩
  · refine placementLawful_keep hs (fun i v hv => ?_)
    cases hj : s.endFlight.job c with
    | none =>
      unfold State.wipeStepDone at hv
      rw [hj] at hv
      exact ⟨v, hv, rfl, rfl⟩
    | some j =>
      rw [State.window?_wipeStepDone hj] at hv
      split at hv
      · cases hw : s.window? i with
        | none => rw [show s.endFlight.window? i = s.window? i from rfl, hw] at hv; cases hv
        | some w =>
          rw [show s.endFlight.window? i = s.window? i from rfl, hw] at hv
          cases hv; exact ⟨w, rfl, rfl, rfl⟩
      · exact ⟨v, hv, rfl, rfl⟩

end Sys2Proof.Machine
end

