-- ==== Sys2Proof/Laws/WipeJobs.lean ====
section
/-! SUPPORT. The WIPE jobs: every change keeps each one's length the size of its window, and its bytes
done whole lines short of it. -/

set_option linter.unusedVariables false

namespace Sys2Proof.Machine

/-- A change under which every WIPE job is one that stood, with its place and bytes, or one that meets
the law, and the window of every WIPE job that stood keeps its length. -/
theorem WipeJobsLawful.ofJobs {s t : State} (hs : WipeJobsLawful s)
    (hj : ∀ c k, t.job c = some k → k.kind = .wipe →
      (∃ j, s.job c = some j ∧ j.kind = .wipe ∧ j.dest = k.dest ∧ j.total = k.total ∧
        j.bytesDone = k.bytesDone) ∨
      (k.dest.offset = 0 ∧ 64 ∣ k.bytesDone ∧ k.bytesDone < k.total ∧
        ∃ w, t.window? k.dest.window = some w ∧ k.total = 64 * w.length))
    (hw : ∀ i w, s.window? i = some w →
      (∃ c j, s.job c = some j ∧ j.kind = .wipe ∧ j.dest.window = i) →
      ∃ v, t.window? i = some v ∧ v.length = w.length) : WipeJobsLawful t := by
  intro c k hk hkw
  rcases hj c k hk hkw with ⟨j, hjs, hjw, h1, h2, h3⟩ | h
  · obtain ⟨a, b, d, w, hi, ht⟩ := hs c j hjs hjw
    obtain ⟨v, hv, hl⟩ := hw _ w hi ⟨c, j, hjs, hjw, rfl⟩
    rw [← h1, ← h2, ← h3]
    exact ⟨a, b, d, v, hv, by rw [hl]; exact ht⟩
  · exact h

/-- A change of neither the jobs nor the layout. -/
theorem WipeJobsLawful.keep {s t : State} (hs : WipeJobsLawful s) (h : ∀ c, t.job c = s.job c)
    (k : s.SameLayout t) : WipeJobsLawful t := by
  refine hs.ofJobs (fun c j hj hjw => Or.inl ⟨j, (h c).symm.trans hj, hjw, rfl, rfl, rfl⟩)
    (fun i w hw _ => ?_)
  obtain ⟨v, hv, e⟩ := k.present i w hw
  exact ⟨v, hv, e.length⟩

theorem WipeJobsLawful.calm {s t : State} (hs : WipeJobsLawful s) (h : s.Calm t)
    (k : s.SameLayout t) : WipeJobsLawful t := hs.keep h.job k

/-- The jobs after a WIPE step (R149). -/
theorem State.job_wipeStepDone {s : State} {c : Channel} {j : Job} (hj : s.job c = some j)
    (d : Channel) : (s.wipeStepDone c).job d =
      if d = c then
        (if j.total ≤ j.bytesDone + 64 then none else some { j with bytesDone := j.bytesDone + 64 })
      else s.job d := by
  unfold State.wipeStepDone
  rw [hj]
  simp only
  split
  · unfold State.wipeEnd
    rw [State.job_endJob, State.job_setWindow, State.job_setJob]
    split <;> rfl
  · rw [State.job_setJob]

/-- A WIPE step changes no window's length. -/
theorem State.length_wipeStepDone {s : State} {c : Channel} {j : Job} (hj : s.job c = some j)
    {i : Nat} {w : Window} (hw : s.window? i = some w) :
    ∃ v, (s.wipeStepDone c).window? i = some v ∧ v.length = w.length := by
  rw [State.window?_wipeStepDone hj]
  split
  · rw [hw]; exact ⟨_, rfl, rfl⟩
  · exact ⟨w, hw, rfl⟩

/-- A WIPE job that stands after a wipe start is the new one, or stood before. -/
theorem State.job_wipeStart_wipe {s : State} {p : Port} {tag : Byte} {i : Nat} {w : Window}
    {d : Channel} {k : Job} (hk : (s.wipeStart p tag i w).job d = some k) (hw : k.kind = .wipe) :
    k = w.wipeJob i p tag ∨ s.job d = some k := by
  have back : ∀ (t : State) c, (t.revokeJob i c).job d = some k → t.job d = some k := by
    intro t c h
    rw [State.job_revokeJob] at h
    split at h
    · rename_i e
      subst e
      unfold State.revokedJob at h
      split at h
      · cases h
      · rename_i j hj
        split at h
        · rename_i hn
          rw [Bool.and_eq_true, bne_iff_ne] at hn
          split at h
          · cases h
            refine absurd hw ?_
            split <;> exact hn.2
          · cases h
        · exact hj.trans h
    · exact h
  unfold State.wipeStart at hk
  simp only at hk
  rw [(State.Calm.leaveQueue _ p).job] at hk
  unfold State.startJob at hk
  have stood : ∀ t, ((((s.setWindow i (some w.startWiping)).revoke i).revokeJob i .c0).revokeJob i
      .c1).job d = t → t = some k → s.job d = some k := by
    rintro t rfl h
    have := back _ _ (back _ _ h)
    rwa [(State.Calm.revoke _ i).job, State.job_setWindow] at this
  split at hk
  · rw [State.job_setJob] at hk
    split at hk
    · exact Or.inl (Option.some.inj hk).symm
    · exact Or.inr (stood _ rfl hk)
  · exact Or.inr (stood _ rfl hk)

theorem wipeJobsLawful_keeps :
    Keeps (fun s => (JobsLawful s ∧ True ∧ PlacementLawful s) ∧ WipeJobsLawful s) := by
  have kJ := jobsLawful_keeps
  have kP := placementLawful_keeps
  have same : ∀ (s t : State), t.windows = s.windows →
      (∀ c, t.job c = s.job c) → WipeJobsLawful s → WipeJobsLawful t := fun s t h1 h2 hs =>
    hs.ofJobs (fun c j hj hjw => Or.inl ⟨j, (h2 c).symm.trans hj, hjw, rfl, rfl, rfl⟩)
      (fun i w hw _ => ⟨w, (State.window?_of_windows h1 i).trans hw, rfl⟩)
  have lay : ∀ {s : State} (t : State), t.windows = s.windows → ∀ i w, s.window? i = some w →
      (∃ c j, s.job c = some j ∧ j.kind = .wipe ∧ j.dest.window = i) →
      ∃ v, t.window? i = some v ∧ v.length = w.length :=
    fun t h i w hw _ => ⟨w, (State.window?_of_windows h i).trans hw, rfl⟩
  have jobs : ∀ (s t : State) , t.c0 = s.c0 → t.c1 = s.c1 → ∀ c, t.job c = s.job c := by
    intro s t h0 h1 c; cases c
    · exact h0
    · exact h1
  have guard : ∀ (s : State) i f, WipeJobsLawful s → WipeJobsLawful (s.setGuard i f) := by
    intro s i f hs
    refine hs.ofJobs (fun c j hj hjw => Or.inl
      ⟨j, ((State.Calm.setGuard s i f).job c).symm.trans hj, hjw, rfl, rfl, rfl⟩) (fun j w hw _ => ?_)
    rw [State.window?_setGuard]
    split
    · rename_i e
      rw [← e, hw]; exact ⟨_, rfl, rfl⟩
    · exact ⟨w, hw, rfl⟩
  constructor
  case pending =>
    exact fun s l h =>
      ⟨⟨kJ.pending s l h.1.1,
        kP.pending s l h.1.2⟩,
      same s _ rfl (jobs s _ rfl rfl) h.2⟩
  case pcu =>
    exact fun s p u hu h =>
      ⟨⟨kJ.pcu s p u hu h.1.1,
        kP.pcu s p u hu h.1.2⟩,
      same s _ rfl (jobs s _ rfl rfl) h.2⟩
  case link =>
    exact fun s p l hl h =>
      ⟨⟨kJ.link s p l hl h.1.1,
        kP.link s p l hl h.1.2⟩,
      same s _ rfl (jobs s _ rfl rfl) h.2⟩
  case admitCommand =>
    exact fun s p f tag c h1 h2 h =>
      ⟨⟨kJ.admitCommand s p f tag c h1 h2 h.1.1,
        kP.admitCommand s p f tag c h1 h2 h.1.2⟩,
      same s _ rfl (jobs s _ rfl rfl) h.2⟩
  case define =>
    intro s p i b l pol x y ho h
    refine ⟨⟨kJ.define s p i b l pol x y ho h.1.1, kP.define s p i b l pol x y ho h.1.2⟩, ?_⟩
    unfold defineOutcome at ho
    rw [firstFail_eq_ok (by simp [State.layoutChecks])] at ho
    simp only [State.layoutChecks, List.cons_append, List.nil_append, List.forall_mem_cons,
      List.not_mem_nil, false_imp_iff, implies_true, and_true, decide_eq_true_eq] at ho
    refine h.2.ofJobs (fun d k hk hkw => Or.inl ⟨k, hk, hkw, rfl, rfl, rfl⟩) (fun j w hw _ => ?_)
    rw [State.window?_setWindow]
    split
    · rename_i e
      rw [e.1, Option.isNone_iff_eq_none.1 ho.2.2.2.1] at hw
      cases hw
    · exact ⟨w, hw, rfl⟩
  case params =>
    intro s p i sel pol x y ho h
    refine ⟨⟨kJ.params s p i sel pol x y ho h.1.1, kP.params s p i sel pol x y ho h.1.2⟩, ?_⟩
    refine h.2.ofJobs (fun d k hk hkw => Or.inl ⟨k, hk, hkw, rfl, rfl, rfl⟩) (fun j w hw _ => ?_)
    rw [State.window?_setWindow]
    split
    · rename_i e
      rw [e.1] at hw
      rw [hw]
      exact ⟨_, rfl, rfl⟩
    · exact ⟨w, hw, rfl⟩
  case delete =>
    intro s p i ho h
    refine ⟨⟨kJ.delete s p i ho h.1.1, kP.delete s p i ho h.1.2⟩, ?_⟩
    have hcalm := (State.Calm.revoke s i.toNat).trans (State.Calm.setWindow _ i.toNat none)
    have hJ := kJ.delete s p i ho h.1.1
    refine h.2.ofJobs (fun d k hk hkw => Or.inl ⟨k, (hcalm.job d).symm.trans hk, hkw, rfl, rfl, rfl⟩)
      (fun j w hw hn => ?_)
    obtain ⟨c, k, hk, hkw, rfl⟩ := hn
    obtain ⟨-, v, hv, -⟩ := hJ.2.2.1 c k ((hcalm.job c).trans hk) hkw
    refine ⟨v, hv, ?_⟩
    rw [State.window?_setWindow, State.window?_revoke] at hv
    split at hv
    · cases hv
    · split at hv
      · rename_i e1 e2
        exact absurd ⟨e2, e2 ▸ State.window?_eq_some_lt hw⟩ e1
      · rw [hw] at hv; cases hv; rfl
  case granted =>
    exact fun s i w p k hw h1 h2 h3 h4 h5 h =>
      ⟨⟨kJ.granted s i w p k hw h1 h2 h3 h4 h5 h.1.1,
        kP.granted s i w p k hw h1 h2 h3 h4 h5 h.1.2⟩,
      h.2.calm (State.Calm.setWindow s _ _)
        (State.SameLayout.setWindow hw ⟨rfl, rfl, rfl, rfl, rfl⟩)⟩
  case waiting =>
    exact fun s i w p k tag hw h1 h2 h3 h4 h5 h =>
      ⟨⟨kJ.waiting s i w p k tag hw h1 h2 h3 h4 h5 h.1.1,
        kP.waiting s i w p k tag hw h1 h2 h3 h4 h5 h.1.2⟩,
      h.2.calm (State.Calm.setWindow s _ _)
        (State.SameLayout.setWindow hw ⟨rfl, rfl, rfl, rfl, rfl⟩)⟩
  case claimEnds =>
    exact fun s t i w p hw hp hc ht h =>
      ⟨⟨kJ.claimEnds s t i w p hw hp hc ht h.1.1,
        kP.claimEnds s t i w p hw hp hc ht h.1.2⟩,
      h.2.calm (hc.trans (State.Calm.grantPass _ _))
        (State.SameLayout.grantPass_of hw hc ht ⟨rfl, rfl, rfl, rfl, rfl⟩)⟩
  case waitEnds =>
    exact fun s t i w p hw hc ht h =>
      ⟨⟨kJ.waitEnds s t i w p hw hc ht h.1.1,
        kP.waitEnds s t i w p hw hc ht h.1.2⟩,
      h.2.calm (hc.trans (State.Calm.grantPass _ _))
        (State.SameLayout.grantPass_of hw hc ht ⟨rfl, rfl, rfl, rfl, rfl⟩)⟩
  case lease =>
    exact fun s i w p l hw hp h =>
      ⟨⟨kJ.lease s i w p l hw hp h.1.1,
        kP.lease s i w p l hw hp h.1.2⟩,
      h.2.calm (State.Calm.setWindow s _ _)
        (State.SameLayout.setWindow hw ⟨rfl, rfl, rfl, rfl, rfl⟩)⟩
  case keyed =>
    exact fun s p i level key ho h =>
      ⟨⟨kJ.keyed s p i level key ho h.1.1,
        kP.keyed s p i level key ho h.1.2⟩,
      guard s _ _ h.2⟩
  case cleared =>
    exact fun s p i ho h =>
      ⟨⟨kJ.cleared s p i ho h.1.1,
        kP.cleared s p i ho h.1.2⟩,
      guard s _ _ h.2⟩
  case compared =>
    exact fun s i b hk h =>
      ⟨⟨kJ.compared s i b hk h.1.1,
        kP.compared s i b hk h.1.2⟩,
      guard s _ _ h.2⟩
  case unlocked =>
    exact fun s i p hk h =>
      ⟨⟨kJ.unlocked s i p hk h.1.1,
        kP.unlocked s i p hk h.1.2⟩,
      guard s _ _ h.2⟩
  case locked =>
    exact fun s i p h =>
      ⟨⟨kJ.locked s i p h.1.1,
        kP.locked s i p h.1.2⟩,
      guard s _ _ h.2⟩
  case torn =>
    exact fun s p h =>
      ⟨⟨kJ.torn s p h.1.1,
        kP.torn s p h.1.2⟩,
      h.2.calm (State.Calm.teardownClaims s p) (State.SameLayout.teardownClaims s p)⟩
  case wipeStart =>
    intro s p tag i w hw ha hf hc h
    refine ⟨⟨kJ.wipeStart s p tag i w hw ha hf hc h.1.1,
      kP.wipeStart s p tag i w hw ha hf hc h.1.2⟩, ?_⟩
    have hi := State.window?_eq_some_lt hw
    have hlen : ∀ j v, s.window? j = some v → ∃ x, (s.wipeStart p tag i w).window? j = some x ∧
        x.length = v.length := by
      intro j v hv
      rw [State.window?_wipeStart p tag w hi]
      split
      · rename_i e
        rw [e, hw] at hv; cases hv; exact ⟨_, rfl, rfl⟩
      · exact ⟨v, hv, rfl⟩
    refine h.2.ofJobs (fun d k hk hkw => ?_) (fun j v hv _ => hlen j v hv)
    rcases State.job_wipeStart_wipe hk hkw with rfl | hs
    · obtain ⟨v, hv, hl⟩ := hlen i w hw
      exact Or.inr ⟨rfl, dvd_zero 64, Nat.mul_pos (by decide) (h.1.2.2.1 i w hw).1, v, hv, by
        rw [hl]; rfl⟩
    · exact Or.inl ⟨k, hs, hkw, rfl, rfl, rfl⟩
  case newMaster =>
    exact fun s key hf h =>
      ⟨⟨kJ.newMaster s key hf h.1.1,
        kP.newMaster s key hf h.1.2⟩,
      same s _ rfl (jobs s _ rfl rfl) h.2⟩
  case comparedMaster =>
    exact fun s b h =>
      ⟨⟨kJ.comparedMaster s b h.1.1,
        kP.comparedMaster s b h.1.2⟩,
      same s _ rfl (jobs s _ rfl rfl) h.2⟩
  case freeze =>
    exact fun s p hf h =>
      ⟨⟨kJ.freeze s p hf h.1.1,
        kP.freeze s p hf h.1.2⟩,
      same s _ rfl (jobs s _ rfl rfl) h.2⟩
  case scrub =>
    exact fun s e n h =>
      ⟨⟨kJ.scrub s e n h.1.1,
        kP.scrub s e n h.1.2⟩,
      by
      unfold State.applyScrub
      split <;> exact same s _ rfl (jobs s _ rfl rfl) h.2⟩
  case startJob =>
    intro s j h1 h2 h
    refine ⟨⟨kJ.startJob s j h1 h2 h.1.1, kP.startJob s j h1 h2 h.1.2⟩, ?_⟩
    cases hc : s.freeChannel? with
    | none =>
      have : s.startJob j = s := by unfold State.startJob; rw [hc]
      rw [this]; exact h.2
    | some c =>
      refine h.2.ofJobs (fun d k hk hkw => Or.inl ?_) (lay _ (State.windows_startJob s j))
      rw [State.job_startJob hc] at hk
      split at hk
      · cases hk; exact absurd hkw h1
      · exact ⟨k, hk, hkw, rfl, rfl, rfl⟩
  case ending =>
    intro s c j o hj hk hf h
    refine ⟨⟨kJ.ending s c j o hj hk hf h.1.1, kP.ending s c j o hj hk hf h.1.2⟩, ?_⟩
    refine h.2.ofJobs (fun d k hk' hkw => Or.inl ?_) (lay _ (State.windows_setJob s c _))
    rw [State.job_setJob] at hk'
    split at hk'
    · cases hk'; exact absurd hkw hk
    · exact ⟨k, hk', hkw, rfl, rfl, rfl⟩
  case endJob =>
    intro s c j o hj hf hw h
    refine ⟨⟨kJ.endJob s c j o hj hf hw h.1.1, kP.endJob s c j o hj hf hw h.1.2⟩, ?_⟩
    refine h.2.ofJobs (fun d k hk hkw => Or.inl ?_) (lay _ (State.windows_endJob s c o))
    rw [State.job_endJob] at hk
    split at hk
    · cases hk
    · exact ⟨k, hk, hkw, rfl, rfl, rfl⟩
  case tornJob =>
    intro s p c h
    refine ⟨⟨kJ.tornJob s p c h.1.1, kP.tornJob s p c h.1.2⟩, ?_⟩
    refine h.2.ofJobs (fun d k hk hkw => Or.inl ?_) (lay _ (State.windows_teardownJob s p c))
    unfold State.teardownJob State.awaitJob at hk
    split at hk
    · exact ⟨k, hk, hkw, rfl, rfl, rfl⟩
    · rename_i j hj
      split at hk
      · split at hk
        · rw [State.job_setJob] at hk
          split at hk
          · rename_i e
            cases hk; exact ⟨j, e ▸ hj, hkw, rfl, rfl, rfl⟩
          · exact ⟨k, hk, hkw, rfl, rfl, rfl⟩
        · rename_i hkind
          have other : ∀ x : Option Job, (∀ y, x = some y → y.kind = j.kind) →
              (s.setJob c x).job d = some k → ∃ j', s.job d = some j' ∧ j'.kind = .wipe ∧
                j'.dest = k.dest ∧ j'.total = k.total ∧ j'.bytesDone = k.bytesDone := by
            intro x hx hk
            rw [State.job_setJob] at hk
            split at hk
            · exact absurd ((hx k hk).symm.trans hkw) hkind
            · exact ⟨k, hk, hkw, rfl, rfl, rfl⟩
          split at hk
          · split at hk
            · exact other _ (fun y hy => by cases hy; rfl) ((State.job_setPcu ..).symm.trans hk)
            · exact other _ (fun y hy => by cases hy) hk
          · exact other _ (fun y hy => by cases hy; rfl) ((State.job_setPcu ..).symm.trans hk)
      · exact ⟨k, hk, hkw, rfl, rfl, rfl⟩
  case rotation =>
    exact fun s x h =>
      ⟨⟨kJ.rotation s x h.1.1,
        kP.rotation s x h.1.2⟩,
      same s _ rfl (jobs s _ rfl rfl) h.2⟩
  case startPort =>
    exact fun s p work h0 hd h =>
      ⟨⟨kJ.startPort s p work h0 hd h.1.1,
        kP.startPort s p work h0 hd h.1.2⟩,
      same s _ rfl (jobs s _ rfl rfl) h.2⟩
  case startStep =>
    exact fun s c j work h0 hd hj hk h =>
      ⟨⟨kJ.startStep s c j work h0 hd hj hk h.1.1,
        kP.startStep s c j work h0 hd hj hk h.1.2⟩,
      same s _ rfl (jobs s _ rfl rfl) h.2⟩
  case grantScrub =>
    exact fun s h0 h =>
      ⟨⟨kJ.grantScrub s h0 h.1.1,
        kP.grantScrub s h0 h.1.2⟩,
      same s _ rfl (jobs s _ rfl rfl) h.2⟩
  case handled =>
    exact fun s r b h =>
      ⟨⟨kJ.handled s r b h.1.1,
        kP.handled s r b h.1.2⟩,
      h.2.keep (State.Mends.handleRead s r b).job
      (State.SameLayout.mends (State.Mends.handleRead s r b))⟩
  case overwritten =>
    exact fun s r b h =>
      ⟨⟨kJ.overwritten s r b h.1.1,
        kP.overwritten s r b h.1.2⟩,
      same s _ rfl (jobs s _ rfl rfl) h.2⟩
  case planted =>
    exact fun s n x h =>
      ⟨⟨kJ.planted s n x h.1.1,
        kP.planted s n x h.1.2⟩,
      same s _ rfl (jobs s _ rfl rfl) h.2⟩
  case flipped =>
    exact fun s f h =>
      ⟨⟨kJ.flipped s f h.1.1,
        kP.flipped s f h.1.2⟩,
      by
      unfold State.flipBit
      simp only
      split <;> exact same s _ rfl (jobs s _ rfl rfl) h.2⟩
  case endPort =>
    exact fun s p work hf h =>
      ⟨⟨kJ.endPort s p work hf h.1.1,
        kP.endPort s p work hf h.1.2⟩,
      same s _ rfl (jobs s _ rfl rfl) h.2⟩
  case endScrub =>
    exact fun s work n hf h =>
      ⟨⟨kJ.endScrub s work n hf h.1.1,
        kP.endScrub s work n hf h.1.2⟩,
      same s _ rfl (jobs s _ rfl rfl) h.2⟩
  case stepEnds =>
    intro s c work n good hf hw h
    refine ⟨⟨kJ.stepEnds s c work n good hf hw h.1.1, kP.stepEnds s c work n good hf hw h.1.2⟩, ?_⟩
    obtain ⟨j, hj, hk⟩ := h.1.1.1 c work hf
    have hj' : s.endFlight.job c = some j := by rw [← hj]; cases c <;> rfl
    obtain ⟨o, ho, hok⟩ := State.job_stepDone hj' n good
    refine h.2.ofJobs (fun d k hk' hkw => Or.inl ?_) (fun i w hi _ => ?_)
    · rw [ho d] at hk'
      split at hk'
      · have e := (hok k hk').1
        rw [e] at hkw
        exact absurd hkw (hw _ hk)
      · exact ⟨k, by rw [← hk']; cases d <;> rfl, hkw, rfl, rfl, rfl⟩
    · obtain ⟨v, hv, e⟩ := (State.SameLayout.stepDone s.endFlight c n good).present i w hi
      exact ⟨v, hv, e.length⟩
  case wipeStepEnds =>
    intro s c d hf h
    refine ⟨⟨kJ.wipeStepEnds s c d hf h.1.1, kP.wipeStepEnds s c d hf h.1.2⟩, ?_⟩
    obtain ⟨j, hj, hk⟩ := h.1.1.1 c _ hf
    have hj' : s.endFlight.job c = some j := by rw [← hj]; cases c <;> rfl
    refine h.2.ofJobs (fun e k hk' hkw => ?_) (fun i w hi _ => ?_)
    · rw [State.job_wipeStepDone hj'] at hk'
      split at hk'
      · rename_i ec
        subst ec
        split at hk'
        · cases hk'
        · rename_i hn
          cases hk'
          obtain ⟨h1, h2, h3, h4⟩ := h.2 _ j hj hkw
          obtain ⟨w, hw, ht⟩ := h4
          obtain ⟨v, hv, hl⟩ := State.length_wipeStepDone hj' (show s.endFlight.window? _ = _ from hw)
          exact Or.inr ⟨h1, (Nat.dvd_add_right h2).2 (dvd_refl 64), Nat.lt_of_not_le hn, v, hv, by
            rw [hl]; exact ht⟩
      · exact Or.inl ⟨k, by rw [← hk']; cases e <;> rfl, hkw, rfl, rfl, rfl⟩
    · exact State.length_wipeStepDone hj' hi
  case signal =>
    exact fun s x h =>
      ⟨⟨kJ.signal s x h.1.1,
        kP.signal s x h.1.2⟩,
      by
      unfold State.scrubSignal
      simp only
      split <;> exact same s _ rfl (jobs s _ rfl rfl) h.2⟩
  case timer =>
    exact fun s x h =>
      ⟨⟨kJ.timer s x h.1.1,
        kP.timer s x h.1.2⟩,
      same s _ rfl (jobs s _ rfl rfl) h.2⟩
  case tick =>
    exact fun s x h =>
      ⟨⟨kJ.tick s x h.1.1,
        kP.tick s x h.1.2⟩,
      same s _ rfl (jobs s _ rfl rfl) h.2⟩
  case microtick =>
    exact fun s hd h =>
      ⟨⟨kJ.microtick s hd h.1.1,
        kP.microtick s hd h.1.2⟩,
      same s _ rfl (jobs s _ rfl rfl) h.2⟩
  case sweep =>
    exact fun s n h =>
      ⟨⟨kJ.sweep s n h.1.1,
        kP.sweep s n h.1.2⟩,
      same s _ rfl (jobs s _ rfl rfl) h.2⟩
  case sweepEnd =>
    exact fun s h =>
      ⟨⟨kJ.sweepEnd s h.1.1,
        kP.sweepEnd s h.1.2⟩,
      same s _ rfl (jobs s _ rfl rfl) h.2⟩

end Sys2Proof.Machine
end

