-- ==== Sys2Proof/Tests/Slice0.lean ====
section
/-! SUPPORT. The model's own tests: ill-formed commands are refused by the check, frames and records have
the bytes of chapter 12, each command does on a small state what its rule says, and the hypotheses of
every statement are met by some state. -/

namespace Sys2Proof.Tests

set_option Elab.async false

open Sys2Proof Sys2Proof.Machine

/-! ### Well-formedness -/

theorem test_illFormed_leaseLowPoint : (Instr.leaseLowPoint 32 .p0).wellFormed = false := by decide
theorem test_illFormed_leaseExpiry : (Instr.leaseExpiry 32 .p0).wellFormed = false := by decide
theorem test_illFormed_waitExpiry : (Instr.waitExpiry 32 .p0).wellFormed = false := by decide
theorem test_illFormed_flip_line : (Instr.storedBitFlip 16400 0 (.code 0)).wellFormed = false := by
  decide
theorem test_illFormed_flip_word : (Instr.storedBitFlip 0 8 (.code 0)).wellFormed = false := by decide
theorem test_wellFormed_bounds :
    (Instr.leaseLowPoint 31 .p3).wellFormed = true ∧
      (Instr.storedBitFlip 16399 7 (.data 7 7)).wellFormed = true := by decide
theorem test_illFormed_write_empty : (Command.write 0 0 []).wellFormed = false := by decide
theorem test_illFormed_write_long :
    (Command.write 0 0 (List.replicate 65 0#8)).wellFormed = false := by decide
theorem test_wellFormed_write :
    (Command.write 0 0 [1#8]).wellFormed = true ∧
      (Command.write 0 0 (List.replicate 64 0#8)).wellFormed = true := by decide

/-! ### Frames and records, byte by byte (12.2, 12.4 to 12.6) -/

theorem test_frame_defineWindow :
    commandOfFrame [0x20, 0x11, 0x03, 0x01, 0x02, 0x00, 0x10, 0x02, 0x0F, 0xFF, 0x00, 0x64] =
      some (0x11, .defineWindow 3 0x0102 0x0010 2 0x0FFF 0x0064) := by decide +kernel
theorem test_frame_claim :
    commandOfFrame [0x30, 0x05, 0x07, 0x02, 0x01] = some (0x05, .claim 7 2 1) := by decide +kernel
theorem test_frame_setKey :
    commandOfFrame ([0x40, 0x05, 0x07, 0x01] ++ List.replicate 15 0 ++ [0x2A]) =
      some (0x05, .setKey 7 1 0x2A) := by decide +kernel
theorem test_frame_write :
    commandOfFrame [0x51, 0x09, 0x02, 0x01, 0x00, 0x3F, 0x00, 0x02, 0xAA, 0xBB] =
      some (0x09, .write 2 0x01003F [0xAA, 0xBB]) := by decide +kernel
theorem test_frame_copy :
    commandOfFrame [0x60, 0x09, 0x01, 0x00, 0x00, 0x40, 0x02, 0x00, 0x00, 0x80, 0x01, 0x00, 0x00] =
      some (0x09, .copy 1 0x40 2 0x80 0x010000) := by decide +kernel
theorem test_frame_bytes :
    Command.frame 9 (.setMasterKey 1 0xA0000000000000000000000000000002) =
      [0x24, 9] ++ List.replicate 15 0 ++ [1, 0xA0] ++ List.replicate 14 0 ++ [2] ∧
    Command.frame 9 (.fill 3 0x010203 0x040506 7) = [0x61, 9, 3, 1, 2, 3, 4, 5, 6, 7] ∧
    Command.frame 9 (.read 3 0x010203 0x0040) = [0x50, 9, 3, 1, 2, 3, 0, 0x40] ∧
    Command.frame 9 (.inject 0x3FFF 2) = [0x26, 9, 0x3F, 0xFF, 2] := by decide +kernel
theorem test_frame_short_or_unknown :
    commandOfFrame [0x30, 0x05, 0x07, 0x02] = none ∧ commandOfFrame [0x00, 0x05] = none ∧
      commandOfFrame [0x51, 0x09, 0x02, 0, 0, 0, 0x00, 0x00] = none := by decide +kernel
theorem test_completion_record :
    Completion.bytes ⟨0x11, .fill, .cancelled, .count 0x010203⟩ =
      [0x11, 0x61, 0x04, 0x03, 0x01, 0x02, 0x03] := by decide +kernel
theorem test_notice_records :
    Notice.bytes (.linePoisoned 3 0x1234 9) = [0x04, 0x03, 0x12, 0x34, 0x09] ∧
      Notice.bytes .sparesExhausted = [0x05, 0xFF, 0x00, 0x00, 0x00] ∧
      fetchBytes none = [0, 0, 0, 0, 0] := by decide +kernel

/-! ### A small part -/

/-- A READY port with nothing queued. -/
def ready : Pcu := { Pcu.reset with state := .ready }

/-- A term that ends on tick 100, with its low point 25 milliseconds before. -/
def lease : Lease := { deadline := some 100#32, lowPoint := some 25, lowSent := false }

/-- A guard record without a key. -/
def noKey : Guard :=
  { key := none, level := .standard, unlocked := PerPort.const false, attempts := 4 }

/-- A FREE window of two lines from line 0. -/
def w0 : Window :=
  { base := 0, length := 2, policy := .free, leasePeriod := 0, waitLimit := 0, activity := .idle
    claimState := .unclaimed, holders := PerPort.const none, waiters := [], guard := noKey
    faults := { corrected := 0, poisonings := 0, retirements := 0 } }

/-- A CLAIMED window of two lines that P0 write-holds and P1 waits for until tick 50. -/
def w1 : Window :=
  { w0 with
    base := 2, policy := .claimed, leasePeriod := 100, waitLimit := 50, claimState := .writeHeld
    holders := ⟨some lease, none, none, none⟩
    waiters := [{ port := .p1, kind := .read, deadline := some 50#32, tag := 9 }] }

/-- A CLAIMED window of one line with key 5, unlocked for P0. -/
def w2 : Window :=
  { w0 with
    base := 4, length := 1, policy := .claimed
    guard := { noKey with key := some 5, unlocked := ⟨true, false, false, false⟩ } }

/-- A CLAIMED window without holders. -/
def w3 : Window := { w0 with base := 5, policy := .claimed }

/-- The part in RUNNING with the four windows; P1's waiting CLAIM holds its reservation. -/
def part : State :=
  { State.reset with
    phase := .running
    pcus := ⟨ready, { ready with reservations := 1, outstanding := [9] }, ready, ready⟩
    scrubTimer := some 100
    windows := #v[some w0, some w1, some w2, some w3, none, none, none, none, none, none, none, none,
      none, none, none, none, none, none, none, none, none, none, none, none, none, none, none,
      none, none, none, none, none] }

/-- The part with one command at the head of P0's queue under tag 7. -/
def head (c : Command) (s : State := part) : State :=
  s.setPcu .p0 { s.pcu .p0 with queue := [⟨7, c, false⟩], outstanding := [7] }

/-- What a command's next state shows; `none` for a fault or a refusal. -/
def shows {α : Type} (a : Answer) (f : State → α) : Option α :=
  match a with
  | .next t => some (f t)
  | _ => none

/-- The outcomes in P0's completion queue after P0 takes a command. -/
def outcomes (c : Command) (s : State := part) : Option (List OutcomeCode) :=
  shows (exec (CommandKind.taking .p0 c.kind) (head c s))
    (fun t => (t.pcu .p0).completions.map Completion.outcome)

/-! ### Commands taken by a PCU, at the bounds of their checks -/

theorem test_defineWindow_bounds :
    outcomes (.defineWindow 31 16383 1 2 4095 4095) = some [.ok] ∧
      outcomes (.defineWindow 31 16383 2 2 0 0) = some [.outOfRange] ∧
      outcomes (.defineWindow 32 16383 1 2 0 0) = some [.badParameter] ∧
      outcomes (.defineWindow 31 6 1 2 0 0) = some [.overlap] ∧
      outcomes (.defineWindow 31 7 1 2 4096 0) = some [.badParameter] := by decide +kernel
theorem test_defineWindow_effect :
    shows (exec (.defineWindow .p0) (head (.defineWindow 31 16383 1 2 4095 7)))
      (fun t => t.window? 31) =
      some (some { w0 with
        base := 16383, length := 1, policy := .claimed, leasePeriod := 4095, waitLimit := 7 }) := by
  decide +kernel
theorem test_setWindowParams :
    outcomes (.setWindowParams 3 7 1 4095 4095) = some [.ok] ∧
      outcomes (.setWindowParams 3 8 0 0 0) = some [.badParameter] ∧
      outcomes (.setWindowParams 1 1 1 0 0) = some [.busyWindow] ∧
      outcomes (.setWindowParams 2 1 0 0 0) = some [.keyed] := by decide +kernel
theorem test_deleteWindow :
    outcomes (.deleteWindow 1) = some [.ok] ∧ outcomes (.deleteWindow 2) = some [.keyed] ∧
      shows (exec (.deleteWindow .p0) (head (.deleteWindow 1))) (fun t =>
        (t.window? 1, (t.pcu .p0).notices, (t.pcu .p1).completions)) =
        some (none, [.claimRevoked 1], [⟨9, .claim, .revoked, .none⟩]) := by decide +kernel
theorem test_claim :
    outcomes (.claim 3 2 0) = some [.ok] ∧ outcomes (.claim 0 1 0) = some [.notClaimable] ∧
      outcomes (.claim 1 1 0) = some [.alreadyHeld] ∧
      outcomes (.claim 3 3 0) = some [.badParameter] := by decide +kernel
theorem test_claim_kinds :
    [1#8, 2#8].map (fun k => shows (exec (.claim .p0) (head (.claim 3 k 0))) (fun t =>
      (t.window? 3).map Window.claimState)) =
      [some (some .readHeld), some (some .writeHeld)] := by decide +kernel
theorem test_release_grants_the_waiter :
    shows (exec (.release .p0) (head (.release 1))) (fun t =>
      ((t.pcu .p0).completions, (t.pcu .p1).completions, (t.window? 1).map Window.claimState)) =
      some ([⟨7, .release, .ok, .none⟩], [⟨9, .claim, .ok, .none⟩], some .readHeld) := by
  decide +kernel
theorem test_renew :
    outcomes (.renew 1) = some [.ok] ∧ outcomes (.renew 3) = some [.notHeld] ∧
      outcomes (.renew 32) = some [.notHeld] := by decide +kernel
theorem test_setKey :
    outcomes (.setKey 1 1 5) = some [.ok] ∧ outcomes (.setKey 3 1 5) = some [.notHeld] := by
  decide +kernel
theorem test_clearKey : outcomes (.clearKey 2) = some [.notHeld] := by decide +kernel
theorem test_unlock :
    outcomes (.unlock 2 1 5) = some [.ok] ∧ outcomes (.unlock 2 1 6) = some [.keyMismatch] ∧
      outcomes (.unlock 2 2 5) = some [.noMasterKey] ∧
      outcomes (.unlock 2 3 5) = some [.badParameter] := by decide +kernel
theorem test_lock :
    outcomes (.lock 3) = some [.ok] ∧ outcomes (.lock 4) = some [.noWindow] := by decide +kernel
theorem test_setMasterKey :
    outcomes (.setMasterKey 0 5) = some [.ok] ∧
      outcomes (.setMasterKey 6 5) { part with masterKey := some 5 } = some [.keyMismatch] ∧
      outcomes (.setMasterKey 6 5) { part with masterKey := some 5, masterAttempts := 0 } =
        some [.barred] := by decide +kernel
theorem test_freeze :
    outcomes .freeze = some [.ok] ∧ outcomes .freeze { part with frozen := true } = some [.ok] ∧
      outcomes .freeze { part with layoutPort := .p1 } = some [.notLayoutPort] := by decide +kernel
theorem test_wipePrepare :
    outcomes (.wipePrepare 31) = some [.noWindow] ∧
      shows (exec (.wipePrepare .p0) (head (.wipePrepare 1))) (fun t => (t.pcu .p0).wipePrepared) =
        some (some 1) := by decide +kernel

/-- The part with P0 prepared to wipe a window. -/
def prepared (i : Nat) (s : State := part) : State :=
  s.setPcu .p0 { s.pcu .p0 with wipePrepared := some i }

theorem test_wipe_refused :
    outcomes (.wipe 1 0 0) = some [.notPrepared] ∧
      outcomes (.wipe 2 1 6) (prepared 2) = some [.keyMismatch] := by decide +kernel
theorem test_wipe_starts :
    shows (exec (.wipe .p0) (head (.wipe 2 1 5) (prepared 2))) (fun t =>
      ((t.window? 2).map Window.activity, t.c0.map Job.total, t.inFlight.map InFlight.work)) =
      some (some .wiping, some 64, some (.wipeStep ⟨4, 4⟩)) := by decide +kernel
theorem test_read_lengths :
    outcomes (.read 0 0 0) = some [.badParameter] ∧ outcomes (.read 0 0 65) = some [.badParameter] ∧
      outcomes (.read 0 64 64) = some [] ∧ outcomes (.read 0 65 64) = some [.outOfRange] := by
  decide +kernel
theorem test_write_and_inject_granted :
    shows (exec (.write .p0) (head (.write 0 63 [1, 2]))) (fun t => t.inFlight.map InFlight.work) =
        some (some (.write 0 [⟨0, 0⟩, ⟨1, 1⟩] 63 [1, 2])) ∧
      shows (exec (.inject .p0) (head (.inject 16383 2))) (fun t => t.inFlight.map InFlight.work) =
        some (some (.inject ⟨16383, 16383⟩ .two)) ∧
      outcomes (.inject 16384 1) = some [.badParameter] := by decide +kernel
theorem test_scrubSettings :
    outcomes (.scrubSettings 1 0) = some [.badParameter] ∧
      outcomes (.scrubSettings 1 1) = some [.ok] ∧ outcomes (.scrubSettings 0 0) = some [.ok] := by
  decide +kernel
theorem test_copy_and_fill_start :
    shows (exec (.copy .p0) (head (.copy 0 0 0 10 20))) (fun t => t.c0.map Job.direction) =
        some (some .descending) ∧
      shows (exec (.fill .p0) (head (.fill 0 60 10 0xA5))) (fun t =>
        t.inFlight.map InFlight.work) = some (some (.fillStep ⟨0, 0⟩ 60 4 0xA5)) ∧
      outcomes (.fill 0 0 65537 0) = some [.badParameter] := by decide +kernel

/-! ### The engine, the resets and time -/

/-- The part with an access in flight that P0's pending access made. -/
def flying (b : AccessBody) (work : Work) (s : State := part) : State :=
  { s.setPcu .p0
      { s.pcu .p0 with
        queue := [⟨7, .freeze, true⟩], access := some ⟨7, b⟩, reservations := 1
        outstanding := [7] } with
    inFlight := some ⟨.slot (.port .p0), work⟩ }

/-- The part with a step of a channel's job in flight. -/
def stepping (j : Job) (work : Work) (s : State := part) : State :=
  { s with c0 := some j, inFlight := some ⟨.slot (.channel .c0), work⟩ }

/-- A FILL job of P0 in window 0. -/
def fillJob (n : Nat) : Job :=
  { owner := .p0, tag := 7, kind := .fill, source := none, dest := ⟨0, 0⟩, total := n
    pattern := some 0xA5, direction := .ascending, bytesDone := 0, state := .running
    deliver := true }

/-- A COPY job of P0 from window 0 to itself. -/
def copyJob (n : Nat) : Job :=
  { fillJob n with kind := .copy, source := some ⟨0, 0⟩, dest := ⟨0, 64⟩, pattern := none }

theorem test_write_then_read :
    shows (exec .writeCompletion (flying (.write 0 63 [1, 2])
      (.write 0 [⟨0, 0⟩, ⟨1, 1⟩] 63 [1, 2]))) (fun t => (t.mem, t.inFlight,
        (t.pcu .p0).completions)) = some ([(63, 1), (64, 2)], none, [⟨7, .write, .ok, .none⟩]) ∧
    shows (exec .readCompletion (flying (.read 0 63 2) (.read 0 [⟨0, 0⟩, ⟨1, 1⟩] 63 2)
      { part with mem := [(63, 1), (64, 2)] })) (fun t => (t.pcu .p0).completions) =
        some [⟨7, .read, .ok, .data [1, 2]⟩] := by decide +kernel
theorem test_read_of_a_double_word :
    shows (exec .readCompletion (flying (.read 0 0 1) (.read 0 [⟨0, 0⟩] 0 1)
      { part with flips := [⟨0, 0, .code 0⟩, ⟨0, 0, .code 1⟩] })) (fun t =>
        (t.poisoned, (t.pcu .p0).completions, (t.pcu .p2).notices)) =
        some ([0], [⟨7, .read, .dataLost, .none⟩], [.linePoisoned 0 0 1]) := by decide +kernel
theorem test_read_corrects_a_single_word :
    shows (exec .readCompletion (flying (.read 0 0 1) (.read 0 [⟨0, 0⟩] 0 1)
      { part with mem := [(0, 4)], flips := [⟨0, 0, .data 0 2⟩] })) (fun t =>
        (t.mem, t.flips, t.suspects, (t.pcu .p0).completions)) =
        some ([], [], [0], [⟨7, .read, .ok, .data [0]⟩]) := by decide +kernel
theorem test_second_correction_retires :
    shows (exec .scrubReadCompletion { part with
      inFlight := some ⟨.scrub, .scrub ⟨16383, 16383⟩ false⟩
      suspects := [16383], flips := [⟨16383, 7, .code 0⟩] }) (fun t =>
        (t.remap, t.spares[0], t.suspects, t.scrubPointer, t.physOf 16383)) =
        some ([⟨16383, 0⟩], .inUse, [], 0, 16384) := by decide +kernel
theorem test_next_retirement_spends_the_old_spare :
    shows (exec .scrubReadCompletion { part with
      inFlight := some ⟨.scrub, .scrub ⟨9, 16384⟩ false⟩
      suspects := [9], flips := [⟨16384, 7, .code 0⟩]
      remap := [⟨9, 0⟩], spares := part.spares.set 0 .inUse }) (fun t =>
        (t.remap, t.spares[0], t.spares[1], t.spares[2])) =
        some ([⟨9, 1⟩], .spent, .inUse, .free) := by decide +kernel
theorem test_inject :
    shows (exec .injectCompletion (flying (.inject 3 .two) (.inject ⟨3, 3⟩ .two))) (fun t =>
      (t.lineClass 3, (t.pcu .p0).completions)) =
        some (.uncorrectable, [⟨7, .inject, .ok, .none⟩]) := by decide +kernel
theorem test_fill_steps :
    shows (exec .fillStepCompletion (stepping (fillJob 2) (.fillStep ⟨0, 0⟩ 0 2 0xA5)))
      (fun t => (t.mem, t.c0, (t.pcu .p0).completions)) =
        some ([(0, 0xA5), (1, 0xA5)], none, [⟨7, .fill, .ok, .count 2⟩]) ∧
    shows (exec .fillStepCompletion (stepping (fillJob 65) (.fillStep ⟨0, 0⟩ 0 64 0xA5)))
      (fun t => (t.c0.map Job.bytesDone, (t.pcu .p0).completions)) = some (some 64, []) := by
  decide +kernel
theorem test_copy_step :
    shows (exec .copyStepCompletion (stepping (copyJob 2) (.copyStep [⟨0, 0⟩] 0 ⟨1, 1⟩ 0 2)
      { part with mem := [(0, 3), (1, 4)] })) (fun t => t.mem) =
        some [(0, 3), (1, 4), (64, 3), (65, 4)] := by decide +kernel
theorem test_wipe_step_ends :
    shows (exec .wipeStepCompletion (stepping { fillJob 64 with kind := .wipe, dest := ⟨2, 0⟩ }
      (.wipeStep ⟨4, 4⟩) { part with mem := [(256, 9)], poisoned := [4] })) (fun t =>
        (t.mem, t.poisoned, (t.window? 2).bind (fun w => w.guard.key),
          (t.pcu .p0).completions)) = some ([], [], none, [⟨7, .wipe, .ok, .count 64⟩]) := by
  decide +kernel
theorem test_cancelJob :
    shows (exec (.cancelJob .p0) (head (.cancelJob 8) { part with
      c0 := some { fillJob 9 with tag := 8 } })) (fun t => (t.c0, (t.pcu .p0).completions)) =
        some (none, [⟨8, .fill, .cancelled, .count 0⟩, ⟨7, .cancelJob, .ok, .none⟩]) ∧
      outcomes (.cancelJob 8) = some [.noJob] := by decide +kernel
theorem test_grant_to_scrub :
    shows (exec .grant { part with scrubDue := true, scrubPointer := 9 }) (fun t =>
      (t.scrubDue, t.inFlight.map InFlight.work)) = some (false, some (.scrub ⟨9, 9⟩ false)) := by
  decide +kernel
theorem test_powerOn_and_resets :
    shows (exec (.powerOn true 3) part) (fun t => (t.phase, t.layoutPort)) = some (.held, .p3) ∧
      shows (exec .resetAssert part) (fun t => (t.phase, t.window? 0)) = some (.held, none) ∧
      shows (exec (.resetRelease 2) { part with phase := .held, msCount := 5 }) (fun t =>
        (t.phase, t.layoutPort, t.msCount)) = some (.sweeping, .p2, 0) := by decide +kernel
theorem test_links_after_reset :
    shows (exec .resetAssert ((part.setLink .p0 { decoder := .waitRelease, reject := some .badLength }).setLink
      .p1 { decoder := .idle, reject := some .badLength })) (fun t => (t.link .p0, t.link .p1)) =
        some (⟨.waitRelease, none⟩, ⟨.idle, none⟩) := by decide +kernel
theorem test_last_sweep_write :
    shows (exec .sweepLineWrite { State.reset with sweepPointer := 16383, mem := [(5, 1)] })
      (fun t => (t.phase, t.scrubTimer, (t.pcu .p3).state, t.mem)) =
        some (.running, some 100, .ready, [(5, 1)]) := by decide +kernel
theorem test_timer_events :
    shows (exec (.leaseLowPoint 1 .p0) { part with msCount := 75 }) (fun t => (t.pcu .p0).notices) =
        some [.leaseLow 1] ∧
      shows (exec (.leaseExpiry 1 .p0) { part with msCount := 100 }) (fun t =>
        ((t.pcu .p0).notices, (t.pcu .p1).completions)) =
        some ([.leaseExpired 1], [⟨9, .claim, .ok, .none⟩]) ∧
      shows (exec (.waitExpiry 1 .p1) { part with msCount := 50 }) (fun t =>
        (t.pcu .p1).completions) = some [⟨9, .claim, .timedOut, .none⟩] := by decide +kernel
theorem test_timer_events_not_due :
    shows (exec (.leaseLowPoint 1 .p0) { part with msCount := 74 }) id = some { part with msCount := 74 } ∧
      shows (exec (.leaseExpiry 1 .p0) { part with msCount := 99 }) id = some { part with msCount := 99 } ∧
      shows (exec (.waitExpiry 1 .p1) { part with msCount := 51 }) id =
        some { part with msCount := 51 } := by decide +kernel
theorem test_ticks :
    shows (exec .millisecondTick { part with msCount := 0xFFFFFFFF, usCount := 1000 }) (fun t =>
        (t.msCount, t.usCount)) = some (0, 0) ∧
      shows (exec .millisecondTick { part with usCount := 999 }) State.msCount = some 0 ∧
      shows (exec .microsecondTick part) (fun t => (t.scrubTimer, t.usCount)) = some (some 99, 1) ∧
      shows (exec .microsecondTick { part with usCount := 1000 }) (fun t => (t.msCount, t.usCount)) =
        some (1, 1) ∧
      shows (exec .scrubTimerExpiry { part with scrubTimer := some 0, scrubDue := true
                                                postponed := 2 }) (fun t =>
        (t.scrubTimer, t.postponed)) = some (some 100, 4) := by decide +kernel
theorem test_ticks_take_what_is_due_first :
    shows (exec .millisecondTick { part with msCount := 50, usCount := 1000 }) (fun t =>
        (t.msCount, (t.pcu .p1).completions)) = some (51, [⟨9, .claim, .timedOut, .none⟩]) ∧
      shows (exec .microsecondTick { part with scrubTimer := some 0, scrubPointer := 9 }) (fun t =>
        (t.scrubTimer, t.usCount, t.inFlight.map InFlight.work)) =
        some (some 99, 1, some (.scrub ⟨9, 9⟩ false)) := by decide +kernel
theorem test_storedBitFlip_twice :
    shows (exec (.storedBitFlip 16399 7 (.data 7 7)) part) (fun t => (t.mem, t.flips)) =
        some ([(1049599, 0x80)], [⟨16399, 7, .data 7 7⟩]) ∧
      shows (exec (.storedBitFlip 16400 0 (.code 0)) part) State.flips = some [] := by
  decide +kernel

/-! ### Links -/

/-- A frame just begun at a READY port. -/
def begun : Frame :=
  { start := { state := .ready, cqFull := false, comp := false, note := false, lost := false
               rej := false }
    bitCount := 0, bytes := [], bits := [], snapshot := none }

/-- A frame that has received these bytes whole. -/
def received (bytes : List Byte) : Frame := { begun with bitCount := 8 * bytes.length, bytes := bytes }

/-- The part with a frame in progress on P0's link. -/
def inFrame (f : Frame) (s : State := part) : State :=
  s.setLink .p0 { decoder := .frame f, reject := none }

/-- A frame whose snapshot is taken and which has clocked `n` bits. -/
def shown (bytes : List Byte) (sn : Snapshot) (n : Nat) : Frame :=
  { begun with bitCount := n, bytes := bytes, snapshot := some sn }

theorem test_frameStart_byte :
    shows (exec (.frameStart .p0) part) (fun t =>
      match (t.link .p0).decoder with
      | .frame f => some f.start.byte
      | _ => none) = some (some 0x80) := by decide +kernel
theorem test_commandFrame_taken_at_once :
    shows (exec (.commandFrame .p0 .release) (inFrame (received [0x30, 7, 3, 1, 0]))) (fun t =>
      ((t.pcu .p0).queue, (t.pcu .p0).completions)) = some ([], [⟨7, .claim, .ok, .none⟩]) := by
  decide +kernel
theorem test_commandFrame_rejected :
    shows (exec (.commandFrame .p0 .release) (inFrame (received [0xFF]))) (fun t =>
      (t.link .p0).reject) = some (some .unknownOpcode) := by decide +kernel
theorem test_status_frame :
    shows (exec (.status .p0 (.clock (bitsOfByte 1))) (inFrame begun)) (fun t => t.sdo .p0) =
        some (some true) ∧
      (part.statusRecord .p0).bytes = [0x80, 0, 0, 0, 0, 0, 2] := by decide +kernel
theorem test_collect_frame_of_a_port_not_ready :
    shows (exec (.collect .p0 (.clock (bitsOfBytes [2, 0])))
      (inFrame { begun with start := { begun.start with state := .teardown } }
        (part.setPcu .p0 { ready with completions := [⟨7, .freeze, .ok, .none⟩] })))
      (fun t => t.sdo .p0) = some (some false) ∧
    shows (exec (.portReset .p0 (.clock (bitsOfBytes [0x0F, 0x5A])))
      (inFrame begun)) (fun t => t.sdo .p0) = some (some true) := by decide +kernel
theorem test_collect_frame :
    shows (exec (.collect .p0 .release) (inFrame
      (shown [2] (.collect (some ⟨7, .freeze, .ok, .none⟩)) 40)
      (part.setPcu .p0 { ready with completions := [⟨7, .freeze, .ok, .none⟩] }))) (fun t =>
        (t.pcu .p0).completions) = some [] := by decide +kernel
theorem test_fetchNotice_frame :
    shows (exec (.fetchNotice .p0 .release) (inFrame
      (shown [3] (.fetchNotice (some .sparesExhausted)) 48)
      (part.setPcu .p0 { ready with
        notices := [.sparesExhausted], fetchMark := some ⟨.sparesExhausted, 0, none⟩ }))) (fun t =>
        (t.pcu .p0).notices) = some [] := by decide +kernel
theorem test_information_frames :
    shows (exec (.windowInfo .p0 (.clock (bitsOfBytes [4, 32]))) (inFrame begun)) (fun t =>
      match (t.link .p0).decoder with
      | .frame f => f.snapshot.map Snapshot.bytes
      | _ => none) = some (some [32, 0]) ∧
    shows (exec (.deviceInfo .p0 .release) (inFrame (shown [5] (.deviceInfo part.deviceInfo) 8)))
      (fun t => (t.link .p0).decoder) = some .idle ∧
    shows (exec (.emptyFrame .p0) (inFrame begun)) (fun t => (t.link .p0).decoder) =
      some .idle := by decide +kernel
theorem test_portReset_and_teardownEnd :
    shows (exec (.portReset .p0 .release) (inFrame (received [0x0F, 0x5A]))) (fun t =>
      ((t.pcu .p0).state, (t.pcu .p1).completions, (t.window? 1).map (fun w => w.holds .p0))) =
        some (.teardown, [⟨9, .claim, .ok, .none⟩], some false) ∧
    shows (exec (.teardownEnd .p0) (part.setPcu .p0 { ready with state := .teardown })) (fun t =>
      (t.pcu .p0).state) = some .ready := by decide +kernel

/-! ### The hypotheses of the statements are met -/

theorem onWindow {s : State} {i : Nat} {v : Window} {P : Window → Prop} (h : s.window? i = some v)
    (hp : P v) : ∀ w, s.window? i = some w → P w := fun w hw => by
  rw [h] at hw
  cases hw
  exact hp

/-- P0 takes whatever command stands at its head: every taking statement's first hypothesis, with any
outcome of its checks (`Verdict.total`). -/
theorem test_witness_takes (c : Command) : (head c).takes .p0 7 c [] := 
  ⟨rfl, rfl, by show 0 + 0 < 8; decide⟩

theorem test_witness_verdicts (l : List (Prop × OutcomeCode)) : ∃ o, Verdict l o := Verdict.total l

theorem test_witness_StepRunsFrontCommand : State.reset.pending = [] := rfl

theorem test_witness_ResetsSetEveryBlock :
    part.phase ≠ .held ∧ State.phase { part with phase := .held } = .held := by decide +kernel

theorem test_witness_SweepWriteZeroesOneLine :
    (State.reset.phase = .sweeping ∧ Memory.wf State.reset.mem = true ∧
      State.reset.sweepPointer ≠ 16383) ∧
    ∃ s : State, s.phase = .sweeping ∧ Memory.wf s.mem = true ∧ s.sweepPointer = 16383 :=
  ⟨by decide +kernel, { State.reset with sweepPointer := 16383 }, rfl, rfl, rfl⟩

theorem test_witness_FrameStartSamplesStatus :
    (part.phase ≠ .held ∧ (part.link .p0).decoder = .idle) ∧
    (∃ s : State, s.phase = .held ∧ (s.link .p0).decoder = .idle) ∧
    ∃ s : State, (s.link .p0).decoder = .waitRelease :=
  ⟨by decide +kernel, ⟨{ part with phase := .held }, rfl, rfl⟩,
    part.setLink .p0 { decoder := .waitRelease, reject := none }, rfl⟩

theorem test_witness_CommandFrameIsReceivedAndDecodes :
    (Command.freeze.wellFormed = true ∧ (Command.write 0 0 [0]).wellFormed = true ∧
      (Command.write 0 0 (List.replicate 64 0)).wellFormed = true) ∧
    commandOfFrame [0x23, 7] = some (7, .freeze) ∧
    ((inFrame begun).link .p0).decoder = .frame begun ∧ begun.bitCount = 0 ∧ begun.bytes = [] ∧
      begun.bits = [] ∧ begun.snapshot = none := by decide +kernel

theorem test_witness_RecordsHaveTheirLayouts :
    (∃ s : State, ∃ j, s.c0 = some j ∧ s.c1 = none) ∧ (w1.holders.get .p0).isSome = true ∧
      w1.waiters ≠ [] ∧ ∃ k : Nat, 3 ≤ k ∧ 2 ≤ k :=
  ⟨⟨{ part with c0 := some (fillJob 64) }, _, rfl, rfl⟩, rfl, fun h => (nomatch h), 3, by decide⟩

/-- The frame of a RENEW under tag 7. -/
def renewFrame : Frame := received (Command.frame 7 (.renew 1))

/-- What both clauses of the admission statement ask of a state. -/
def Admits (s : State) : Prop :=
  (s.link .p0).decoder = .frame renewFrame ∧ renewFrame.start.state = .ready ∧
    renewFrame.start.cqFull = false ∧ renewFrame.bytes = Command.frame 7 (.renew 1) ∧
    renewFrame.bitCount = 8 * (Command.frame 7 (.renew 1)).length ∧
    (Command.renew 1).wellFormed = true ∧ 7 ∉ (s.pcu .p0).outstanding

theorem test_witness_AdmissionQueuesTheCommandAndMayTakeIt :
    (∃ s, Admits s ∧ 8 ≤ (s.pcu .p0).completions.length + (s.pcu .p0).reservations) ∧
    ∃ s, Admits s ∧ (s.pcu .p0).queue = [] ∧ (s.pcu .p0).state = .ready ∧
      (s.pcu .p0).completions.length + (s.pcu .p0).reservations < 8 :=
  ⟨⟨inFrame renewFrame (part.setPcu .p0 { ready with reservations := 8 }),
      by unfold Admits; decide +kernel, by decide +kernel⟩,
    inFrame renewFrame (part.setPcu .p0 { ready with reservations := 7 }),
      by unfold Admits; decide +kernel, by decide +kernel, by decide +kernel, by decide +kernel⟩

/-- The checks of R157 on a frame of P0's. -/
def frameChecks (s : State) (f : Frame) : List (Prop × RejectReason) :=
  [ (f.start.state = .ready, .notReady),
    (f.bitCount % 8 = 0, .partialByte),
    (f.bytes.head?.bind commandKindOf ≠ none, .unknownOpcode),
    (f.start.cqFull = false, .queueFull),
    (commandOfFrame f.bytes ≠ none, .badLength),
    (f.bytes.getD 1 0#8 ∉ (s.pcu .p0).outstanding, .dupTag) ]

theorem test_witness_RejectedFrameLeavesOnlyTheReason :
    (∃ f, ((inFrame f).link .p0).decoder = .frame f ∧ f.bitCount ≠ 0 ∧
      f.bytes.head?.bind immediateOf = none ∧
      RejectVerdict (frameChecks (inFrame f) f) (some .partialByte)) ∧
    ∃ s : State, (s.link .p0).decoder = .frame renewFrame ∧ renewFrame.bitCount ≠ 0 ∧
      renewFrame.bytes.head?.bind immediateOf = none ∧
      RejectVerdict (frameChecks s renewFrame) (some .dupTag) :=
  ⟨⟨{ begun with bitCount := 1, bits := [true] }, by decide +kernel, by decide, by decide,
      Or.inr ⟨by decide, Or.inl ⟨by decide, rfl⟩⟩⟩,
    inFrame renewFrame (part.setPcu .p0 { ready with outstanding := [7] }), by decide +kernel,
      by decide +kernel, by decide +kernel,
      Or.inr ⟨by decide +kernel, Or.inr ⟨by decide +kernel, Or.inr ⟨by decide +kernel,
        Or.inr ⟨by decide +kernel, Or.inr ⟨by decide +kernel,
          Or.inl ⟨by decide +kernel, rfl⟩⟩⟩⟩⟩⟩⟩

/-- What the clauses about an immediate frame ask: it is P0's frame and its start showed READY. -/
def Serves (s : State) (f : Frame) : Prop :=
  (s.link .p0).decoder = .frame f ∧ f.start.state = .ready

theorem test_witness_serves (f : Frame) (h : f.start.state = .ready) (s : State) :
    Serves (inFrame f s) f := ⟨rfl, h⟩

theorem test_witness_HeaderTakesTheSnapshotAndShiftsItOut :
    (Serves (inFrame begun) begun ∧ begun.bitCount = 0 ∧ begun.bytes = [] ∧ begun.bits = [] ∧
      begun.snapshot = none) ∧
    ∃ f, Serves (inFrame f) f ∧ f.snapshot = some (.status (part.statusRecord .p0)) ∧
      f.bytes.head?.bind immediateOf = some .status ∧ f.bitCount = 8 * headerLength .status + 0 :=
  ⟨by unfold Serves; decide +kernel, shown [1] (.status (part.statusRecord .p0)) 8,
    by unfold Serves; decide +kernel⟩

theorem test_witness_HeaderTakesTheSnapshotAndShiftsItOut_command :
    (Serves (inFrame begun) begun ∧ begun.snapshot = none) ∧
    ∃ f, Serves (inFrame f) f ∧ f.snapshot = none ∧ f.bytes ≠ [] ∧
      f.bytes.head?.bind immediateOf = none :=
  ⟨⟨test_witness_serves _ rfl _, rfl⟩, renewFrame, test_witness_serves _ rfl _, rfl,
    fun h => (nomatch h), by decide +kernel⟩

theorem test_witness_HeaderTakesTheSnapshotAndShiftsItOut_rejected :
    ∃ f, ((inFrame f).link .p0).decoder = .frame f ∧ f.bitCount = 0 ∧ f.bytes = [] ∧ f.bits = [] ∧
      f.snapshot = none ∧ f.start.state ≠ .ready :=
  ⟨{ begun with start := { begun.start with state := .init } }, rfl, rfl, rfl, rfl, rfl,
    fun h => nomatch h⟩

theorem test_witness_StatusFrameEnd :
    ∀ n ∈ [8, 63, 64], ∃ f, Serves (inFrame f) f ∧ f.bytes = [1] ∧
      f.snapshot = some (.status (part.statusRecord .p0)) ∧ f.bitCount = n :=
  fun n _ => ⟨shown [1] (.status (part.statusRecord .p0)) n, test_witness_serves _ rfl _, rfl, rfl, rfl⟩

/-- A completion of four bytes. -/
def done : Completion := ⟨7, .freeze, .ok, .none⟩

/-- A part in which P0's COLLECT showed its completion, with a RENEW behind it. -/
def collecting (n : Nat) (reserved : Nat) : State :=
  inFrame (shown [2] (.collect (some done)) n) (part.setPcu .p0
    { ready with completions := [done], reservations := reserved, queue := [⟨8, .renew 1, false⟩] })

theorem test_witness_CollectFrameEnd :
    (Serves (inFrame (shown [2] (.collect none) 8)) (shown [2] (.collect none) 8)) ∧
    (Serves (collecting 39 0) (shown [2] (.collect (some done)) 39) ∧ 39 < 8 * (1 + done.bytes.length)) ∧
    (Serves (collecting 40 0) (shown [2] (.collect (some done)) 40) ∧
      8 * (1 + done.bytes.length) ≤ 40 ∧ (collecting 40 0).takes .p0 8 (.renew 1) []) ∧
    ∃ t, t = ((collecting 40 7).setPcu .p0
        { (collecting 40 7).pcu .p0 with
          completions := ((collecting 40 7).pcu .p0).completions.tail }).setLink .p0
          { decoder := .idle, reject := ((collecting 40 7).link .p0).reject } ∧
      t.takes .p0 8 (.renew 1) [] ∧ ∀ tag c rest, ¬ (collecting 40 7).takes .p0 tag c rest :=
  ⟨test_witness_serves _ rfl _, ⟨test_witness_serves _ rfl _, by decide⟩,
    ⟨test_witness_serves _ rfl _, by decide, rfl, rfl, by decide⟩,
    _, rfl, ⟨rfl, rfl, by decide⟩, fun _ _ _ h => absurd h.2.2 (by decide)⟩

/-- A part in which a FETCH NOTICE frame has shown P0's notice. -/
def fetching (n : Nat) (m : Option FetchMark) : State :=
  inFrame (shown [3] (.fetchNotice (some (.linePoisoned 0 1 1))) n)
    (part.setPcu .p0 { ready with notices := [.linePoisoned 0 1 2], fetchMark := m })

theorem test_witness_FetchNoticeFrameEnd :
    (∀ n m, Serves (fetching n m) (shown [3] (.fetchNotice (some (.linePoisoned 0 1 1))) n)) ∧
    ((fetching 48 none).pcu .p0).fetchMark = none ∧
    ((fetching 48 (some ⟨.linePoisoned 0 1 1, 0, none⟩)).pcu .p0).fetchMark =
      some ⟨.linePoisoned 0 1 1, 0, none⟩ ∧
    ((fetching 48 (some ⟨.linePoisoned 0 1 1, 1, some 2⟩)).pcu .p0).fetchMark =
      some ⟨.linePoisoned 0 1 1, 1, some 2⟩ :=
  ⟨fun _ _ => test_witness_serves _ rfl _, rfl, rfl, rfl⟩

theorem test_witness_InformationFramesAndRejections :
    (∃ f, Serves (inFrame f) f ∧ f.bytes = [4, 0] ∧ f.snapshot = some (.windowInfo 0 none) ∧
      f.bitCount = 16) ∧
    (∃ f, Serves (inFrame f) f ∧ f.bytes = [5] ∧ f.snapshot.isSome = true ∧ f.bitCount = 8) ∧
    (Serves (inFrame begun) begun ∧ begun.bitCount = 0) ∧
    (∀ op n, ∃ f, Serves (inFrame f) f ∧ f.bytes.head? = some op ∧ f.bitCount = n ∧
      f.snapshot = none) ∧
    ∀ op, ∃ f s, (State.link s .p0).decoder = .frame f ∧ f.bytes.head? = some op ∧ f.bitCount = 8 ∧
      f.start.state ≠ .ready :=
  ⟨⟨shown [4, 0] (.windowInfo 0 none) 16, test_witness_serves _ rfl _, rfl, rfl, rfl⟩,
    ⟨shown [5] (.deviceInfo part.deviceInfo) 8, test_witness_serves _ rfl _, rfl, rfl, rfl⟩,
    ⟨test_witness_serves _ rfl _, rfl⟩,
    fun op n => ⟨{ begun with bytes := [op], bitCount := n }, test_witness_serves _ rfl _, rfl, rfl, rfl⟩,
    fun op => ⟨{ received [op] with start := { begun.start with state := .init } },
      inFrame { received [op] with start := { begun.start with state := .init } },
      rfl, rfl, rfl, fun h => nomatch h⟩⟩

theorem test_witness_TeardownOfAPort :
    (∃ f, Serves (inFrame f) f ∧ f.bytes = [0x0F, 0x5A] ∧ f.bitCount = 16) ∧
    ∃ s : State, (s.pcu .p0).state = .teardown ∧ (s.pcu .p0).accessAwaited = false ∧
      (s.pcu .p0).jobsAwaited = 0 :=
  ⟨⟨received [0x0F, 0x5A], test_witness_serves _ rfl _, rfl, rfl⟩,
    part.setPcu .p0 { ready with state := .teardown }, rfl, rfl, rfl⟩

/-- The part without windows. -/
def bare : State := { part with windows := Vector.replicate 32 none }

theorem bare_window? (c : Command) (i : Nat) : (head c bare).window? i = none := by
  show ((Vector.replicate 32 (none : Option Window))[i]?).join = none
  rw [Vector.getElem?_replicate]
  split <;> rfl

theorem bare_placement (c : Command) : PlacementLawful (head c bare) := by
  refine ⟨fun i w h => ?_, fun i j v w _ h => ?_⟩
  · rw [bare_window?] at h
    cases h
  · rw [bare_window?] at h
    cases h

theorem test_witness_DefineWindowChecksAndEffect :
    ∃ s : State, PlacementLawful s ∧ s.takes .p0 7 (.defineWindow 31 16383 1 2 0 0) [] :=
  ⟨head (.defineWindow 31 16383 1 2 0 0) bare, bare_placement _, rfl, rfl, by decide⟩

/-- No window of the part is being wiped, and no channel holds a job. -/
theorem part_idle (c : Command) (i : Nat) (w : Window) (h : (head c).window? i = some w) :
    w.activity = .idle := by
  have k : ∀ i : Fin 32, (part.window? i).all (fun w => w.activity == .idle) = true := by
    decide +kernel
  change part.window? i = some w at h
  rcases Nat.lt_or_ge i 32 with hi | hi
  · have := k ⟨i, hi⟩
    simp only [h] at this
    simpa using this
  · unfold State.window? at h
    rw [Vector.getElem?_eq_none hi] at h
    cases h

theorem part_jobs (c : Command) : JobsLawful (head c) :=
  ⟨fun _ _ h => (nomatch (show (none : Option InFlight) = _ from h)),
    fun d j h => (nomatch (show (none : Option Job) = some j by cases d <;> exact h)),
    fun d j h => (nomatch (show (none : Option Job) = some j by cases d <;> exact h)),
    fun j _ h => (nomatch (show (none : Option Job) = some j from h)),
    fun i w h hw => by rw [part_idle c i w h] at hw; cases hw⟩

theorem w1_claims : w1.ClaimsLawful := by unfold Window.ClaimsLawful; decide +kernel

theorem test_witness_SetWindowParamsChecksAndEffect :
    (head (.setWindowParams 3 7 1 4095 4095)).takes .p0 7 (.setWindowParams 3 7 1 4095 4095) [] :=
  test_witness_takes _

theorem test_witness_DeleteWindowRevokesAndRemoves :
    part.window? 1 = some w1 ∧ w1.ClaimsLawful ∧ w1.holds .p0 = true ∧
      (∃ x, x ∈ w1.waiters ∧ x.port = .p1) ∧ w1.holds .p2 = false ∧ w1.waits .p2 = false :=
  ⟨by decide +kernel, w1_claims, rfl, ⟨_, List.mem_singleton_self _, rfl⟩, rfl, rfl⟩

/-- The checks of CLAIM for P0 on the window at index 3. -/
def claimChecks (s : State) (kind wait : Byte) : List (Prop × OutcomeCode) :=
  [ (s.window? 3 ≠ none, .noWindow),
    (∀ w, s.window? 3 = some w → w.activity = .idle, .busyWindow),
    (∀ w, s.window? 3 = some w → w.policy ≠ .free, .notClaimable),
    (∀ w, s.window? 3 = some w → w.guard.key = none ∨ w.guard.unlocked.get .p0 = true, .locked),
    (∀ w, s.window? 3 = some w → w.holds .p0 = false ∧ ∀ x ∈ w.waiters, x.port ≠ .p0, .alreadyHeld),
    ((kind = 1#8 ∨ kind = 2#8) ∧ (wait = 0#8 ∨ wait = 1#8), .badParameter) ]

/-- Window 3 write-held by P2. -/
def w3held : Window := { w3 with claimState := .writeHeld, holders := ⟨none, none, some lease, none⟩ }

theorem claimVerdict {s : State} {v : Window} {kind wait : Byte} (h : s.window? 3 = some v)
    (h1 : v.activity = .idle) (h2 : v.policy ≠ .free) (h3 : v.guard.key = none)
    (h4 : v.holds .p0 = false) (h5 : v.waiters = []) (hk : kind = 1#8 ∨ kind = 2#8)
    (hw : wait = 0#8 ∨ wait = 1#8) : Verdict (claimChecks s kind wait) .ok :=
  .pass (by rw [h]; exact fun e => nomatch e) <| .pass (onWindow h h1) <| .pass (onWindow h h2) <|
    .pass (onWindow h (Or.inl h3)) <|
      .pass (onWindow h ⟨h4, by rw [h5]; exact fun _ hx => nomatch hx⟩) <| .pass ⟨hk, hw⟩ rfl

theorem test_witness_ClaimIsRefusedGrantedOrWaits :
    (∀ kind ∈ [1#8, 2#8], ∀ wait ∈ [0#8, 1#8], ∃ s : State, s.takes .p0 7 (.claim 3 kind wait) [] ∧
      Verdict (claimChecks s kind wait) .ok ∧ s.window? 3 = some w3) ∧
    ∀ kind ∈ [1#8, 2#8], ∀ wait ∈ [0#8, 1#8], ∃ s : State, s.takes .p0 7 (.claim 3 kind wait) [] ∧
      Verdict (claimChecks s kind wait) .ok ∧ s.window? 3 = some w3held := by
  have mem1 : ∀ k ∈ [1#8, 2#8], k = 1#8 ∨ k = 2#8 := by decide
  have mem0 : ∀ k ∈ [0#8, 1#8], k = 0#8 ∨ k = 1#8 := by decide
  refine ⟨fun k hk w hw => ⟨head (.claim 3 k w), test_witness_takes _, ?_, rfl⟩,
    fun k hk w hw => ⟨head (.claim 3 k w) (part.setWindow 3 (some w3held)),
      ⟨rfl, rfl, by show 0 + 0 < 8; decide⟩, ?_, rfl⟩⟩
  · exact claimVerdict (v := w3) rfl rfl (by decide) rfl rfl rfl (mem1 k hk) (mem0 w hw)
  · exact claimVerdict (v := w3held) rfl rfl (by decide) rfl rfl rfl (mem1 k hk) (mem0 w hw)

/-- Window 1 with P0 waiting behind P1's claim. -/
def w1waiting : Window :=
  { w1 with
    holders := ⟨none, some lease, none, none⟩
    waiters := [{ port := .p0, kind := .write, deadline := none, tag := 9 }] }

theorem test_witness_ReleaseEndsAClaimOrAWait :
    (part.window? 1 = some w1 ∧ w1.holds .p0 = true) ∧
    ((part.setWindow 1 (some w1waiting)).window? 1 = some w1waiting ∧
      w1waiting.holds .p0 = false ∧
      (w1waiting.waiters.find? (fun y => y.port == .p0)).isSome = true) ∧
    (∀ w, part.window? 3 = some w → w.holds .p0 = false ∧ ∀ x ∈ w.waiters, x.port ≠ .p0) ∧
    part.window? 32 = none :=
  ⟨⟨rfl, rfl⟩, ⟨rfl, rfl, rfl⟩, onWindow (v := w3) rfl ⟨rfl, fun _ h => nomatch h⟩, rfl⟩

theorem test_witness_RenewBeginsANewTerm :
    (part.window? 1 = some w1 ∧ w1.holds .p0 = true) ∧
    (∀ w, part.window? 3 = some w → w.holds .p0 = false) ∧ part.window? 255 = none :=
  ⟨⟨rfl, rfl⟩, onWindow (v := w3) rfl rfl, rfl⟩

/-- What the grant-pass statement asks of a window. -/
def Passes (w : Window) : Prop :=
  (w.claimState = .unclaimed ↔ w.holderCount = 0) ∧ (w.waiters.map Waiter.port).Nodup ∧
    ∀ x ∈ w.waiters, w.holds x.port = false

theorem test_witness_GrantPassHandsTheWindowOn :
    Passes w1 ∧ Passes { w1 with claimState := .readHeld } ∧
      (∀ k ∈ [ClaimKind.read, ClaimKind.write], Passes
        { w3 with waiters := [{ port := .p1, kind := k, deadline := none, tag := 9 }] }) := by
  unfold Passes
  decide +kernel

theorem test_witness_TimerEventsOfAWindow :
    part.window? 1 = some w1 ∧ w1.holders.get .p0 = some lease ∧
      lease.deadline = some 100#32 ∧ lease.lowPoint = some 25 ∧ lease.lowSent = false ∧
      (100#32 - State.msCount { part with msCount := 75 }).toNat = 25 ∧
      lease.deadline = some (State.msCount { part with msCount := 100 }) ∧
      w1.waiters.find? (fun y => y.port == .p1) =
        some { port := .p1, kind := .read, deadline := some 50#32, tag := 9 } := by
  decide +kernel

theorem test_witness_TimerEventsOfAWindow_notDue :
    part.window? 4 = none ∧ w1.holders.get .p2 = none ∧
      (∀ d q, lease.deadline = some d → lease.lowPoint = some q →
        (d - State.msCount { part with msCount := 76 }).toNat ≠ q) ∧
      lease.deadline ≠ some part.msCount ∧ (∀ x ∈ w1.waiters, x.port ≠ .p2) ∧
      ∃ x, w1.waiters.find? (fun y => y.port == .p1) = some x ∧ x.deadline ≠ some part.msCount := by
  refine ⟨by decide +kernel, rfl, fun d q hd hq => ?_, by decide, by decide, _, rfl, by decide⟩
  cases hd
  cases hq
  decide

theorem test_witness_TimerEventsOfAWindow_marked :
    ∃ w : Window, ∃ l, (part.setWindow 1 (some w)).window? 1 = some w ∧
      w.holders.get .p0 = some l ∧ l.lowSent = true :=
  ⟨{ w1 with holders := ⟨some { lease with lowSent := true }, none, none, none⟩ }, _, rfl, rfl, rfl⟩

theorem test_witness_KeyingAWindow :
    (head (.setKey 1 1 5)).takes .p0 7 (.setKey 1 1 5) [] ∧
      (head (.clearKey 1)).takes .p0 7 (.clearKey 1) [] :=
  ⟨test_witness_takes _, test_witness_takes _⟩

/-- The checks of UNLOCK on the window at index 2. -/
def unlockChecks (s : State) (sel : Byte) : List (Prop × OutcomeCode) :=
  [ (s.window? 2 ≠ none, .noWindow),
    (sel = 1#8 ∨ sel = 2#8, .badParameter),
    (∀ w, s.window? 2 = some w → w.activity = .idle, .busyWindow),
    (∀ w, s.window? 2 = some w → w.guard.key ≠ none, .notKeyed),
    (∀ w, s.window? 2 = some w → w.guard.attempts ≠ 0, .barred) ] ++
    if sel = 2#8 then
      [ (∀ w, s.window? 2 = some w → w.guard.level = .standard, .barred),
        (s.masterKey ≠ none, .noMasterKey), (s.masterAttempts ≠ 0, .barred) ]
    else []

theorem test_witness_UnlockComparesOnceAndLockLeaves_unlock :
    ∀ key, (∃ s : State, s.takes .p0 7 (.unlock 2 1 key) [] ∧ Verdict (unlockChecks s 1) .ok ∧
      s.window? 2 = some w2) ∧
    ∃ s : State, s.takes .p0 7 (.unlock 2 2 key) [] ∧ Verdict (unlockChecks s 2) .ok ∧
      s.window? 2 = some w2 ∧ s.masterKey = some 5 := by
  intro key
  have hw : ∀ s : State, s.window? 2 = some w2 → s.window? 2 ≠ none := fun s h => by
    rw [h]; exact fun e => nomatch e
  refine ⟨⟨head (.unlock 2 1 key), test_witness_takes _, ?_, rfl⟩,
    head (.unlock 2 2 key) { part with masterKey := some 5 }, ⟨rfl, rfl, by show 0 + 0 < 8; decide⟩,
    ?_, rfl, rfl⟩
  · exact .pass (hw _ rfl) <| .pass (Or.inl rfl) <| .pass (onWindow (v := w2) rfl rfl) <|
      .pass (onWindow (v := w2) rfl (by decide)) <|
        .pass (onWindow (v := w2) rfl (by decide)) rfl
  · exact .pass (hw _ rfl) <| .pass (Or.inr rfl) <| .pass (onWindow (v := w2) rfl rfl) <|
      .pass (onWindow (v := w2) rfl (by decide)) <| .pass (onWindow (v := w2) rfl (by decide)) <|
        .pass (onWindow (v := w2) rfl rfl) <| .pass (fun e => nomatch e) <|
          .pass (fun e => nomatch e) rfl

theorem test_witness_UnlockComparesOnceAndLockLeaves_lock :
    part.window? 4 = none ∧ part.window? 2 = some w2 ∧ w2.guard.key ≠ none := by decide +kernel

theorem test_witness_MasterKeyAndFreeze :
    (State.layoutPort { part with layoutPort := .p1 } ≠ .p0) ∧
    (part.layoutPort = .p0 ∧ State.frozen { part with frozen := true } = true) ∧
    (part.frozen = false ∧ part.masterKey = none) ∧
    (∃ s : State, s.masterKey = some 5 ∧ s.masterAttempts = 0) ∧
    ∃ s : State, s.masterKey = some 5 ∧ s.masterAttempts = 1 ∧ (5 : Key) ≠ 6 :=
  ⟨by decide, by decide, by decide, ⟨{ part with masterKey := some 5, masterAttempts := 0 }, rfl, rfl⟩,
    { part with masterKey := some 5, masterAttempts := 1 }, rfl, rfl, by decide⟩

theorem test_witness_WipePrepareRecordsTheIndex :
    (head (.wipePrepare 31)).takes .p0 7 (.wipePrepare 31) [] := test_witness_takes _

/-- The first four checks of WIPE. -/
def wipeChecks (s : State) (i : Nat) : List (Prop × OutcomeCode) :=
  [ ((s.pcu .p0).wipePrepared = some i, .notPrepared),
    (s.frozen = false, .frozen),
    (s.window? i ≠ none, .noWindow),
    (∀ w, s.window? i = some w → w.activity = .idle, .busyWindow) ]

theorem wipeVerdict {s : State} {i : Nat} {v : Window} (h0 : (s.pcu .p0).wipePrepared = some i)
    (h1 : s.frozen = false) (h : s.window? i = some v) (h2 : v.activity = .idle) :
    Verdict (wipeChecks s i) .ok :=
  .pass h0 <| .pass h1 <| .pass (by rw [h]; exact fun e => nomatch e) <| .pass (onWindow h h2) rfl

/-- P0 takes WIPE on window 1 (without a key) or 2 (with key 5) of a part. -/
def wiping (i sel : Byte) (key : Key) (s : State) : State :=
  head (.wipe i sel key) (prepared i.toNat s)

theorem test_witness_WipeRefusals :
    (∀ sel key, ∃ s : State, s.takes .p0 7 (.wipe 1 sel key) [] ∧ Verdict (wipeChecks s 1) .ok ∧
      s.window? 1 = some w1 ∧ w1.guard.key = none ∧ s.c0 ≠ none ∧ s.c1 ≠ none) ∧
    (∃ s : State, s.takes .p0 7 (.wipe 3 0 0) [] ∧ Verdict (wipeChecks s 3) .ok ∧
      s.window? 3 = some w3 ∧ ¬ (w3.claimState = .writeHeld ∧ w3.holds .p0 = true)) ∧
    ∀ sel key (m : Option Key) n (g : Nat), ∃ s : State, s.takes .p0 7 (.wipe 2 sel key) [] ∧
      Verdict (wipeChecks s 2) .ok ∧
      s.window? 2 = some { w2 with guard := { w2.guard with attempts := g } } ∧
      s.masterKey = m ∧ s.masterAttempts = n ∧ s.c0 ≠ none ∧ s.c1 ≠ none := by
  refine ⟨fun sel key => ⟨wiping 1 sel key { part with c0 := some (fillJob 1), c1 := some (fillJob 1) },
      ⟨rfl, rfl, by show 0 + 0 < 8; decide⟩, wipeVerdict (v := w1) rfl rfl rfl rfl, rfl, rfl,
      fun e => (nomatch e), fun e => (nomatch e)⟩,
    ⟨wiping 3 0 0 part, ⟨rfl, rfl, by show 0 + 0 < 8; decide⟩,
      wipeVerdict (v := w3) rfl rfl rfl rfl, rfl, by decide⟩,
    fun sel key m n g => ⟨wiping 2 sel key (State.setWindow
        { part with
          c0 := some (fillJob 1), c1 := some (fillJob 1), masterKey := m, masterAttempts := n } 2
          (some { w2 with guard := { w2.guard with attempts := g } })),
      ⟨rfl, rfl, by show 0 + 0 < 8; decide⟩, wipeVerdict (v := { w2 with
        guard := { w2.guard with attempts := g } }) rfl rfl rfl rfl, rfl, rfl, rfl,
      fun e => (nomatch e), fun e => (nomatch e)⟩⟩

theorem test_witness_WipeStarts :
    ∀ i ∈ [1#8, 2#8], ∃ s : State, ∃ sel key w, s.takes .p0 7 (.wipe i sel key) [] ∧
      (s.pcu .p0).wipePrepared = some i.toNat ∧ s.frozen = false ∧
      s.window? i.toNat = some w ∧ w.activity = .idle ∧ w.ClaimsLawful ∧
      ((w.guard.key = none ∧ sel = 0#8 ∧ w.claimState = .writeHeld ∧ w.holds .p0 = true) ∨
        (sel = 1#8 ∧ w.guard.key = some key ∧ w.guard.attempts ≠ 0)) ∧
      (s.c0 = none ∨ s.c1 = none) ∧ JobsLawful s := by
  intro i hi
  have hj : ∀ i sel key, JobsLawful (wiping i sel key part) := fun i sel key =>
    part_jobs (.wipe i sel key)
  rcases (show i = 1#8 ∨ i = 2#8 by simpa using hi) with rfl | rfl
  · exact ⟨wiping 1 0 0 part, 0, 0, w1, ⟨rfl, rfl, by show 0 + 0 < 8; decide⟩, rfl, rfl, rfl, rfl,
      w1_claims, Or.inl ⟨rfl, rfl, rfl, rfl⟩, Or.inl rfl, hj _ _ _⟩
  · exact ⟨wiping 2 1 5 part, 1, 5, w2, ⟨rfl, rfl, by show 0 + 0 < 8; decide⟩, rfl, rfl, rfl, rfl,
      by unfold Window.ClaimsLawful; decide +kernel, Or.inr ⟨rfl, rfl, by decide⟩, Or.inl rfl,
      hj _ _ _⟩

theorem test_witness_WipeStarts_master :
    ∃ s : State, s.takes .p0 7 (.wipe 2 2 5) [] ∧ (s.pcu .p0).wipePrepared = some 2 ∧
      s.frozen = false ∧ s.window? 2 = some w2 ∧ w2.activity = .idle ∧ w2.ClaimsLawful ∧
      w2.guard.key ≠ none ∧ s.masterKey = some 5 ∧ s.masterAttempts ≠ 0 ∧ s.c0 = none ∧
      JobsLawful s :=
  ⟨wiping 2 2 5 { part with masterKey := some 5 }, ⟨rfl, rfl, by show 0 + 0 < 8; decide⟩, rfl, rfl, rfl,
    rfl, by unfold Window.ClaimsLawful; decide +kernel, by decide, rfl, by decide, rfl,
    part_jobs (.wipe 2 2 5)⟩

/-- What the clause of a started WIPE about its reservation and the clause about its tag ask beside the
rest: no waiter and no job of P0 that the wipe revokes, and the tag outstanding. -/
theorem test_witness_WipeStarts_keeps :
    (∀ x ∈ w1.waiters, x.port ≠ .p0) ∧
    (∀ c j, (wiping 1 0 0 part).job c = some j → j.owner = .p0 → j.kind = .wipe ∨ j.names 1 = false) ∧
    7 ∈ ((wiping 1 0 0 part).pcu .p0).outstanding ∧
    (∀ c j, (wiping 1 0 0 part).job c = some j → j.owner = .p0 → j.tag ≠ 7) := by
  refine ⟨by decide, fun c j h => ?_, by decide +kernel, fun c j h => ?_⟩ <;> cases c <;> cases h

/-- P2 neither holds nor waits for the window being wiped, and owns no job. -/
theorem test_witness_WipeStarts_others :
    w1.holds .p2 = false ∧ (∀ x ∈ w1.waiters, x.port ≠ .p2) ∧
    (∀ c j, (wiping 1 0 0 part).job c = some j → j.owner = .p2 → j.kind = .wipe ∨ j.names 1 = false) ∧
    (wiping 1 0 0 part).job .c1 = none := by
  refine ⟨rfl, by decide, fun c j h => ?_, rfl⟩
  cases c <;> cases h

theorem test_witness_AccessCommandsFormAccesses :
    (∀ n : BitVec 16, (head (.read 0 0 n)).takes .p0 7 (.read 0 0 n) []) ∧
    ((0 : BitVec 16).toNat = 0 ∧ (1 : BitVec 16).toNat = 1 ∧ (64 : BitVec 16).toNat = 64 ∧
      (65 : BitVec 16).toNat = 65) ∧
    (head (.write 0 0 [1])).takes .p0 7 (.write 0 0 [1]) [] ∧
    ∃ s : State, s.takes .p0 7 (.inject 16383 2) [] ∧
      Verdict
        [ (s.layoutPort = .p0, .notLayoutPort),
          (s.frozen = false, .frozen),
          ((16383#16).toNat ≤ 16383 ∧ (2#8 = 1#8 ∨ 2#8 = 2#8), .badParameter) ] .ok :=
  ⟨fun _ => test_witness_takes _, by decide, test_witness_takes _, head (.inject 16383 2),
    test_witness_takes _, .pass rfl <| .pass rfl <| .pass (by decide) rfl⟩

theorem test_witness_ScrubSettingsTakeEffect :
    (head (.scrubSettings 1 1)).takes .p0 7 (.scrubSettings 1 1) [] := test_witness_takes _

/-- The checks of FILL on window 0. -/
def fillChecks (s : State) (off n : Nat) : List (Prop × OutcomeCode) :=
  [ (1 ≤ n ∧ n ≤ 65536, .badParameter),
    (s.window? 0 ≠ none, .noWindow),
    (∀ w, s.window? 0 = some w → off + n ≤ 64 * w.length, .outOfRange),
    (s.c0 = none ∨ s.c1 = none, .noChannel) ]

theorem test_witness_TransferCommandsStartJobs :
    (∃ s : State, s.takes .p0 7 (.copy 0 0 0 64 64) [] ∧
      Verdict
        [ (1 ≤ 64 ∧ 64 ≤ 65536, .badParameter),
          (s.window? 0 ≠ none, .noWindow),
          (∀ w, s.window? 0 = some w → 0 + 64 ≤ 64 * w.length, .outOfRange),
          (s.window? 0 ≠ none, .noWindow),
          (∀ w, s.window? 0 = some w → 64 + 64 ≤ 64 * w.length, .outOfRange),
          (s.c0 = none ∨ s.c1 = none, .noChannel) ] .ok) ∧
    ∃ s : State, s.takes .p0 7 (.fill 0 0 128 9) [] ∧ Verdict (fillChecks s 0 128) .ok := by
  have hw : ∀ s : State, s.window? 0 = some w0 → s.window? 0 ≠ none := fun s h => by
    rw [h]; exact fun e => nomatch e
  refine ⟨⟨head (.copy 0 0 0 64 64), test_witness_takes _, ?_⟩, head (.fill 0 0 128 9),
    test_witness_takes _, ?_⟩
  · exact .pass (by decide) <| .pass (hw _ rfl) <| .pass (onWindow (v := w0) rfl (by decide)) <|
      .pass (hw _ rfl) <| .pass (onWindow (v := w0) rfl (by decide)) <| .pass (Or.inl rfl) rfl
  · exact .pass (by decide) <| .pass (hw _ rfl) <| .pass (onWindow (v := w0) rfl (by decide)) <|
      .pass (Or.inl rfl) rfl

/-- P0 takes CANCEL JOB of tag 8 with a job on C0. -/
def cancelling (j : Job) (f : Option InFlight := none) : State :=
  head (.cancelJob 8) { part with c0 := some j, inFlight := f }

theorem test_witness_CancelJobEndsTheJob :
    (∀ c j, (head (.cancelJob 8)).job c ≠ some j) ∧
    ∀ j : Job, j.owner = .p0 → j.tag = 8 →
      (∀ f, (cancelling j f).takes .p0 7 (.cancelJob 8) [] ∧ (cancelling j f).job .c0 = some j ∧
        ∀ d k, (cancelling j f).job d = some k → k.owner = .p0 → k.tag = 8 → d = .c0) ∧
      (cancelling j).stepInFlight .c0 = false ∧
      ∀ work, (cancelling j (some ⟨.slot (.channel .c0), work⟩)).stepInFlight .c0 = true := by
  refine ⟨fun d j h => (by cases d <;> cases h), fun j _ _ => ⟨fun f => ⟨⟨rfl, rfl, ?_⟩, rfl, ?_⟩, rfl,
    fun _ => rfl⟩⟩
  · show 0 + 0 < 8
    decide
  · intro d k h _ _
    cases d
    · rfl
    · cases (show (none : Option Job) = some k from h)

/-- The part with a pending access of P0. -/
def pendingAccess (b : AccessBody) : State :=
  part.setPcu .p0 { ready with queue := [⟨7, .freeze, true⟩], access := some ⟨7, b⟩, reservations := 1 }

theorem test_witness_ArbiterChooses :
    (∃ s : State, s.scrubDue = true ∧ s.postponed = 4) ∧
    ((pendingAccess (.read 0 0 1)).requests (Slot.next^[0] (pendingAccess (.read 0 0 1)).rotation) =
      true ∧ (pendingAccess (.read 0 0 1)).scrubDue = false) ∧
    (∃ s : State, s.requests (Slot.next^[5] s.rotation) = true ∧ s.postponed ≠ 4 ∧
      ∀ m, m < 5 → s.requests (Slot.next^[m] s.rotation) = false) ∧
    (∀ x, part.requests x = false) ∧
    (part.inFlight = none ∧ part.choose = none) ∧
    (∃ s : State, s.phase = .running ∧ s.inFlight = none ∧ s.choose = some .scrub) ∧
    ∃ s : State, s.inFlight ≠ none :=
  ⟨⟨{ part with scrubDue := true, postponed := 4 }, rfl, rfl⟩, by decide +kernel,
    ⟨{ pendingAccess (.read 0 0 1) with rotation := .port .p1 }, by decide +kernel, by decide,
      by decide +kernel⟩,
    by rintro (p | c) <;> [cases p; cases c] <;> decide +kernel, by decide +kernel,
    ⟨{ part with scrubDue := true }, rfl, rfl, by decide +kernel⟩,
    { part with inFlight := some ⟨.scrub, .scrub ⟨0, 0⟩ false⟩ }, fun h => nomatch h⟩

theorem grantVerdict {s : State} {write : Bool} {off n : Nat} (h : s.window? 0 = some w0)
    (h1 : off + n ≤ 128) (h2 : s.poisoned = []) :
    Verdict (GrantChecks s .p0 write ⟨0, off, n⟩) .ok :=
  .pass (by rw [h]; exact fun e => nomatch e) <| .pass (onWindow h rfl) <| .pass (onWindow h h1) <|
    .pass (onWindow h (Or.inl rfl)) <| .pass (onWindow h trivial) <|
      .pass (fun _ _ _ _ hp => by rw [h2] at hp; cases hp) rfl

/-- What the grant statement asks of a state, for an access of P0. -/
def AwaitsGrant (s : State) (b : AccessBody) : Prop :=
  s.phase = .running ∧ s.inFlight = none ∧ s.choose = some (.slot (.port .p0)) ∧
    (s.pcu .p0).access = some ⟨7, b⟩ ∧ (s.pcu .p0).accessAwaited = false

theorem test_witness_GrantToAPort :
    AwaitsGrant (pendingAccess (.inject 3 .one)) (.inject 3 .one) ∧
    (AwaitsGrant (pendingAccess (.read 0 64 64)) (.read 0 64 64) ∧
      Verdict (GrantChecks (pendingAccess (.read 0 64 64)) .p0 false ⟨0, 64, 64⟩) .ok) ∧
    (AwaitsGrant (pendingAccess (.read 9 0 1)) (.read 9 0 1) ∧
      Verdict (GrantChecks (pendingAccess (.read 9 0 1)) .p0 false ⟨9, 0, 1⟩) .noWindow) ∧
    (AwaitsGrant (pendingAccess (.write 0 127 [1])) (.write 0 127 [1]) ∧
      Verdict (GrantChecks (pendingAccess (.write 0 127 [1])) .p0 true ⟨0, 127, 1⟩) .ok) ∧
    (AwaitsGrant (pendingAccess (.write 9 0 [1])) (.write 9 0 [1]) ∧
      Verdict (GrantChecks (pendingAccess (.write 9 0 [1])) .p0 true ⟨9, 0, 1⟩) .noWindow) := by
  refine ⟨?_, ⟨?_, grantVerdict rfl (by decide) rfl⟩, ⟨?_, .fail (fun h => h rfl)⟩,
    ⟨?_, grantVerdict rfl (by decide) rfl⟩, ⟨?_, .fail (fun h => h rfl)⟩⟩ <;>
    · unfold AwaitsGrant
      decide +kernel

/-- The part with a job on C0. -/
def working (j : Job) : State := { part with c0 := some j }

theorem test_witness_GrantToAChannelStartsOneStep :
    (∀ j ∈ [copyJob 64, fillJob 64, { fillJob 64 with kind := .wipe }],
      (working j).phase = .running ∧ (working j).inFlight = none ∧
        (working j).choose = some (.slot (.channel .c0)) ∧ (working j).job .c0 = some j ∧
        (working j).window? j.destRun.window = some w0 ∧ j.bytesDone < j.total) ∧
    (copyJob 64).sourceRun = some ⟨0, 0, 64⟩ ∧
    Verdict (CopyChecks (working (copyJob 64)) .p0 ⟨0, 0, 64⟩ (copyJob 64).destRun) .ok ∧
    Verdict (GrantChecks (working (fillJob 64)) .p0 true (fillJob 64).destRun) .ok ∧
    (copyDirection ⟨0, 0⟩ ⟨0, 10⟩ 11 = .descending ∧ copyDirection ⟨0, 0⟩ ⟨0, 10⟩ 10 = .ascending) := by
  refine ⟨by decide +kernel, by decide +kernel, ?_, grantVerdict rfl (by decide) rfl, by decide⟩
  have hw : State.window? (working (copyJob 64)) 0 = some w0 := rfl
  have hd : (copyJob 64).destRun = ⟨0, 64, 64⟩ := by decide +kernel
  rw [hd]
  have hn : State.window? (working (copyJob 64)) 0 ≠ none := by
    rw [hw]
    exact fun e => nomatch e
  simp only [CopyChecks, GrantChecks, List.zipWith_cons_cons, List.zipWith_nil_left]
  refine .pass ⟨hn, hn⟩ (.pass ⟨onWindow hw rfl, onWindow hw rfl⟩
    (.pass ⟨onWindow hw (by decide), onWindow hw (by decide)⟩
      (.pass ⟨onWindow hw (Or.inl rfl), onWindow hw (Or.inl rfl)⟩
        (.pass ⟨onWindow hw trivial, onWindow hw trivial⟩
          (.pass ⟨fun _ _ _ _ hp => (nomatch hp), fun _ _ _ _ hp => (nomatch hp)⟩ rfl)))))

theorem test_witness_GrantToAChannelStartsOneStep_end :
    ∀ k d, ∃ s : State, ∃ j, s.job .c0 = some j ∧ j.kind = k ∧ j.deliver = d :=
  fun k d => ⟨working { fillJob 1 with kind := k, deliver := d }, _, rfl, rfl, rfl⟩

theorem test_witness_FreedHeadIsTaken :
    (∃ t : State, t.takes .p0 7 (.renew 1) []) ∧ (∀ tag c rest, ¬ part.takes .p0 tag c rest) :=
  ⟨⟨head (.renew 1), test_witness_takes _⟩,
    fun _ _ _ h => nomatch (show ([] : List Entry) = _ :: _ from h.2.1)⟩

/-! The completions: the line of a word without flips is clean, one with two flips uncorrectable. -/

/-- What the statements about a port's completion ask of the port. -/
def Flies (s : State) (b : AccessBody) (work : Work) : Prop :=
  s.inFlight = some ⟨.slot (.port .p0), work⟩ ∧ (s.pcu .p0).access = some ⟨7, b⟩ ∧
    (s.pcu .p0).accessAwaited = false

/-- The part with two flips in word 0 of line 0. -/
def spoilt : State := { part with flips := [⟨0, 0, .code 0⟩, ⟨0, 0, .code 1⟩] }

theorem test_witness_ReadReturnsItsBytesOrPoisons :
    (Flies (flying (.read 0 63 2) (.read 0 [⟨0, 0⟩, ⟨1, 1⟩] 63 2)) (.read 0 63 2)
        (.read 0 [⟨0, 0⟩, ⟨1, 1⟩] 63 2) ∧
      part.lineClass 0 = .clean ∧ part.lineClass 1 = .clean ∧ 63 + 2 ≤ 64 * 2) ∧
    (Flies (flying (.read 0 63 2) (.read 0 [⟨0, 0⟩, ⟨1, 1⟩] 63 2) spoilt) (.read 0 63 2)
        (.read 0 [⟨0, 0⟩, ⟨1, 1⟩] 63 2) ∧
      spoilt.lineClass 0 = .uncorrectable ∧ spoilt.lineClass 1 = .clean) := by
  unfold Flies
  decide +kernel

theorem test_witness_WriteStoresItsBytes :
    (Flies (flying (.write 0 63 [1, 2]) (.write 0 [⟨0, 0⟩, ⟨1, 1⟩] 63 [1, 2])) (.write 0 63 [1, 2])
        (.write 0 [⟨0, 0⟩, ⟨1, 1⟩] 63 [1, 2]) ∧
      RunLies [⟨0, 0⟩, ⟨1, 1⟩] 63 2 ∧ part.lineClass 0 = .clean ∧ part.lineClass 1 = .clean ∧
      Memory.wf part.mem = true) ∧
    (Flies (flying (.write 0 0 (List.replicate 64 1)) (.write 0 [⟨0, 0⟩] 0 (List.replicate 64 1)) spoilt)
        (.write 0 0 (List.replicate 64 1)) (.write 0 [⟨0, 0⟩] 0 (List.replicate 64 1)) ∧
      RunLies [⟨0, 0⟩] 0 (List.replicate 64 (1 : Byte)).length ∧
      (List.replicate 64 (1 : Byte)).length = 64) := by
  unfold Flies RunLies
  decide +kernel

/-- The part with one flip in word 0 of line 0. -/
def worn : State := { part with flips := [⟨0, 0, .code 0⟩] }

theorem readable_iff {s : State} {r : LineRef} :
    AllReadable s [r] ↔ s.lineClass r.phys ≠ .uncorrectable := by
  unfold AllReadable
  simp

theorem test_witness_ReadReturnsItsBytesOrPoisons_handled :
    (Flies (flying (.read 0 0 1) (.read 0 [⟨0, 0⟩] 0 1) worn) (.read 0 0 1) (.read 0 [⟨0, 0⟩] 0 1) ∧
      AllReadable worn [⟨0, 0⟩] ∧ worn.lineClass 0 = .correctable) ∧
    Flies (flying (.read 0 0 1) (.read 0 [⟨0, 0⟩] 0 1) spoilt) (.read 0 0 1) (.read 0 [⟨0, 0⟩] 0 1) ∧
      ¬ AllReadable spoilt [⟨0, 0⟩] := by
  rw [readable_iff, readable_iff]
  unfold Flies
  decide +kernel

theorem test_witness_ReadReturnsItsBytesOrPoisons_touch :
    (part.window? 1 = some w1 ∧ w1.holds .p0 = true) ∧ part.window? 4 = none ∧
      ∀ w, part.window? 3 = some w → w.holds .p0 = false :=
  ⟨⟨rfl, rfl⟩, by decide +kernel, onWindow (v := w3) rfl rfl⟩

/-- Some state is what a WRITE leaves of any state. -/
theorem writeLeaves_met (s : State) (lines : List LineRef) (first : Nat) (data : List Byte) :
    ∃ u, WriteLeaves s lines first data u := by
  by_cases h : AllReadable s lines
  · exact ⟨_, fun _ => rfl, fun k => absurd h k⟩
  · exact ⟨_, fun k => absurd k h, fun _ => rfl⟩

theorem test_witness_WriteStoresItsBytes_merged :
    (∀ s : State, ∃ u, WriteLeaves s [⟨0, 0⟩] 0 [1] u) ∧ RunLies [⟨0, 0⟩] 0 [(1 : Byte)].length ∧
    (∀ s ∈ [worn, spoilt], Flies (flying (.write 0 0 [1]) (.write 0 [⟨0, 0⟩] 0 [1]) s)
      (.write 0 0 [1]) (.write 0 [⟨0, 0⟩] 0 [1])) ∧
    AllReadable worn [⟨0, 0⟩] ∧ ¬ AllReadable spoilt [⟨0, 0⟩] ∧
    ∀ r ∈ [(⟨0, 0⟩ : LineRef)], spoilt.lineClass r.phys ≠ .correctable := by
  rw [readable_iff, readable_iff]
  exact ⟨fun s => writeLeaves_met s _ _ _, by unfold RunLies; decide,
    by unfold Flies; decide +kernel, by decide +kernel⟩

/-- The part with P0 in TEARDOWN, its access in flight awaited. -/
def awaited (jobs : Nat) (work : Work) (s : State := bare) : State :=
  { s.setPcu .p0
      { Pcu.reset with state := .teardown, accessAwaited := true, jobsAwaited := jobs } with
    inFlight := some ⟨.slot (.port .p0), work⟩ }

theorem test_witness_AwaitedWorkEnds_access (jobs : Nat) (work : Work) :
    ((awaited jobs work).pcu .p0).state = .teardown ∧
      ((awaited jobs work).pcu .p0).accessAwaited = true ∧
      ((awaited jobs work).pcu .p0).queue = [] ∧
      (∀ i w, (awaited jobs work).window? i = some w → w.holds .p0 = false) ∧
      (awaited jobs work).inFlight = some ⟨.slot (.port .p0), work⟩ :=
  ⟨rfl, rfl, rfl, fun i _ h => (nomatch (bare_window? .freeze i).symm.trans h), rfl⟩

theorem test_awaitedRead_ends :
    shows (exec .readCompletion (awaited 0 (.read 0 [⟨0, 0⟩] 0 1))) (fun t =>
        ((t.pcu .p0).state, (t.pcu .p0).completions, t.inFlight)) = some (.ready, [], none) ∧
      shows (exec .readCompletion (awaited 1 (.read 0 [⟨0, 0⟩] 0 1))) (fun t =>
        (t.pcu .p0).state) = some .teardown := by decide +kernel

/-- The part with P0 in TEARDOWN, the last step of its awaited job in flight. -/
def awaitedJob (j : Job) (work : Work) : State :=
  stepping { j with state := .ending .cancelled, deliver := false } work
    (part.setPcu .p0 { Pcu.reset with state := .teardown, jobsAwaited := 1 })

theorem test_witness_AwaitedWorkEnds_job (j : Job) (work : Work) (h : j.owner = .p0) :
    (awaitedJob j work).job .c0 =
        some { j with state := .ending .cancelled, deliver := false } ∧
      ((awaitedJob j work).pcu j.owner).state = .teardown ∧
      (awaitedJob j work).inFlight = some ⟨.slot (.channel .c0), work⟩ :=
  ⟨rfl, by rw [h]; rfl, rfl⟩

theorem test_awaitedStep_ends :
    shows (exec .fillStepCompletion (awaitedJob (fillJob 64) (.fillStep ⟨0, 0⟩ 0 64 9))) (fun t =>
      (t.c0, (t.pcu .p0).state, (t.pcu .p0).completions)) = some (none, .ready, []) := by
  decide +kernel

theorem test_witness_InjectPlantsItsFlips :
    ∀ k, Flies (flying (.inject 3 k) (.inject ⟨3, 3⟩ k)) (.inject 3 k) (.inject ⟨3, 3⟩ k) :=
  fun _ => ⟨rfl, rfl, rfl⟩

/-- What the statements about a step ask: the step is in flight, of the job on C0. -/
def Steps (s : State) (j : Job) (work : Work) : Prop :=
  s.inFlight = some ⟨.slot (.channel .c0), work⟩ ∧ s.job .c0 = some j

theorem test_witness_steps (j : Job) (work : Work) (s : State) : Steps (stepping j work s) j work :=
  ⟨rfl, rfl⟩

theorem test_witness_FillStepStoresThePatternOrEndsTheJob :
    (Steps (stepping (fillJob 64) (.fillStep ⟨0, 0⟩ 0 64 9)) (fillJob 64) (.fillStep ⟨0, 0⟩ 0 64 9) ∧
      Memory.wf part.mem = true ∧ (fillJob 64).state = .running ∧ (fillJob 64).source = none ∧
      (fillJob 64).deliver = true ∧ (fillJob 64).bytesDone + 64 = (fillJob 64).total) ∧
    (part.lineClass 0 = .clean ∧ (fillJob 64).bytesDone + 63 < (fillJob 64).total) ∧
    (spoilt.lineClass 0 = .uncorrectable ∧
      ∀ o, JobState.ending o ≠ .running ∧ ({ fillJob 63 with state := .ending o } : Job).deliver = true ∧
        ({ fillJob 63 with state := .ending o } : Job).bytesDone + 63 ≤ 63) :=
  ⟨⟨test_witness_steps _ _ _, by decide +kernel⟩, by decide +kernel, by decide +kernel,
    fun _ => ⟨fun h => (nomatch h), rfl, Nat.le_refl 63⟩⟩

/-- What a step's completion statement asks of its job, for a job of `n` bytes ENDING or RUNNING. -/
theorem test_witness_FillStepStoresThePatternOrEndsTheJob_handled :
    (∀ s : State, Memory.wf s.mem = true → ∀ st, ∃ t : State, ∃ j : Job,
      Steps t j (.fillStep ⟨0, 0⟩ 0 63 9) ∧ Memory.wf t.mem = true ∧ j.state = st ∧
      j.source = none ∧ j.deliver = true ∧ j.bytesDone + 63 ≤ j.total ∧ t.lineClass 0 = s.lineClass 0) ∧
    worn.lineClass 0 = .correctable ∧ spoilt.lineClass 0 = .uncorrectable ∧
    ∃ j : Job, j.state = .ending .cancelled ∧ j.bytesDone + 64 = j.total :=
  ⟨fun s h st => ⟨stepping { fillJob 63 with state := st } (.fillStep ⟨0, 0⟩ 0 63 9) s, _,
      test_witness_steps _ _ _, h, rfl, rfl, rfl, Nat.le_refl 63, rfl⟩, by decide +kernel,
    by decide +kernel, { fillJob 64 with state := .ending .cancelled }, rfl, rfl⟩

theorem test_endingFillStep :
    shows (exec .fillStepCompletion (stepping { fillJob 64 with state := .ending .cancelled }
      (.fillStep ⟨0, 0⟩ 0 64 9))) (fun t => (t.pcu .p0).completions) =
        some [⟨7, .fill, .ok, .count 64⟩] ∧
      shows (exec .fillStepCompletion (stepping { fillJob 65 with state := .ending .revoked }
        (.fillStep ⟨0, 0⟩ 0 1 9) spoilt)) (fun t => ((t.pcu .p0).completions, t.mem, t.poisoned)) =
        some ([⟨7, .fill, .revoked, .count 0⟩], [], [0]) := by decide +kernel

theorem test_witness_CopyStepMovesItsBytesOrEndsTheJob :
    (Steps (stepping (copyJob 64) (.copyStep [⟨0, 0⟩] 0 ⟨1, 1⟩ 0 64)) (copyJob 64)
        (.copyStep [⟨0, 0⟩] 0 ⟨1, 1⟩ 0 64) ∧
      RunLies [⟨0, 0⟩] 0 64 ∧ part.lineClass 0 = .clean ∧ (∀ r ∈ [(⟨0, 0⟩ : LineRef)], r.phys ≠ 1)) ∧
    (Steps (stepping (copyJob 64) (.copyStep [⟨0, 0⟩, ⟨1, 1⟩] 60 ⟨1, 1⟩ 0 63)) (copyJob 64)
        (.copyStep [⟨0, 0⟩, ⟨1, 1⟩] 60 ⟨1, 1⟩ 0 63) ∧
      RunLies [⟨0, 0⟩, ⟨1, 1⟩] 60 63 ∧ part.lineClass 1 = .clean ∧
      ⟨1, 1⟩ ∈ [(⟨0, 0⟩ : LineRef), ⟨1, 1⟩] ∧ (copyJob 64).bytesDone + 63 < (copyJob 64).total) := by
  unfold Steps RunLies
  decide +kernel

theorem test_witness_CopyStepMovesItsBytesOrEndsTheJob_handled :
    (∀ (s : State) st, ∃ t : State, ∃ j : Job, Steps t j (.copyStep [⟨0, 0⟩] 0 ⟨1, 1⟩ 0 64) ∧
      j.state = st ∧
      j.source = some ⟨0, 0⟩ ∧ j.deliver = true ∧ j.bytesDone + 64 ≤ j.total ∧ t.mem = s.mem ∧
      t.flips = s.flips) ∧
    RunLies [⟨0, 0⟩] 0 64 ∧ (⟨1, 1⟩ : LineRef) ∉ [(⟨0, 0⟩ : LineRef)] ∧ AllReadable worn [⟨0, 0⟩] ∧
    ¬ AllReadable spoilt [⟨0, 0⟩] := by
  rw [readable_iff, readable_iff]
  exact ⟨fun s st => ⟨stepping { copyJob 64 with state := st } (.copyStep [⟨0, 0⟩] 0 ⟨1, 1⟩ 0 64) s, _,
    test_witness_steps _ _ _, rfl, rfl, rfl, Nat.le_refl 64, rfl, rfl⟩, by unfold RunLies; decide,
    by decide, by decide +kernel⟩

theorem test_copyStep_of_a_double_word :
    shows (exec .copyStepCompletion (stepping (copyJob 64) (.copyStep [⟨0, 0⟩] 0 ⟨1, 1⟩ 0 64) spoilt))
      (fun t => (t.c0, t.poisoned, t.mem, (t.pcu .p0).completions)) =
        some (none, [0], [], [⟨7, .copy, .dataLost, .count 0⟩]) := by decide +kernel

theorem test_witness_WipeStepAndWipeEnd :
    ∀ n ∈ [64, 65], Steps (stepping { fillJob n with kind := .wipe } (.wipeStep ⟨0, 0⟩))
        { fillJob n with kind := .wipe } (.wipeStep ⟨0, 0⟩) ∧
      (stepping { fillJob n with kind := .wipe } (.wipeStep ⟨0, 0⟩)).window? 0 = some w0 ∧
      Memory.wf (stepping { fillJob n with kind := .wipe } (.wipeStep ⟨0, 0⟩)).mem = true :=
  fun _ _ => ⟨test_witness_steps _ _ _, rfl, rfl⟩

/-- The wipe of window 2, one line, at its only step. -/
def wipingOne : State :=
  stepping { fillJob 64 with kind := .wipe, dest := ⟨2, 0⟩ } (.wipeStep ⟨4, 4⟩)

theorem test_witness_WipeStepAndWipeEnd_lawful :
    WipeJobsLawful wipingOne ∧ wipingOne.window? 2 = some w2 ∧ 64 * w2.length = 64 := by
  refine ⟨fun c j h _ => ?_, rfl, rfl⟩
  cases c
  · cases h
    exact ⟨rfl, dvd_zero 64, by decide, w2, rfl, rfl⟩
  · cases h

theorem test_witness_ScrubReadMovesOn :
    (∀ r b, ∃ s : State, s.inFlight = some ⟨.scrub, .scrub r b⟩) ∧
      part.lineClass 16383 = .clean ∧ spoilt.lineClass 0 = .uncorrectable :=
  ⟨fun r b => ⟨{ part with inFlight := some ⟨.scrub, .scrub r b⟩ }, rfl⟩, by decide +kernel⟩

/-- The part without windows satisfies the law of the integrity unit's lists with line 9 suspect. -/
def suspicious (x : SpareState) : State :=
  { part with suspects := [9], spares := Vector.replicate 16 x }

theorem test_witness_LinesReadAreHandled :
    (∃ r : LineRead, r.cls = .correctable ∧ r.ref.line ∉ part.suspects) ∧
    (∃ r : LineRead, r.cls = .correctable ∧ r.ref.line ∈ (suspicious .free).suspects ∧
      (suspicious .free).spares[0]? = some SpareState.free ∧ IntegrityLawful (suspicious .free)) ∧
    ∃ r : LineRead, r.cls = .correctable ∧ r.ref.line ∈ (suspicious .spent).suspects ∧
      ∀ k : Nat, (suspicious .spent).spares[k]? ≠ some SpareState.free := by
  have spare : ∀ (x : SpareState) (k : Nat), (suspicious x).spares[k]? =
      if k < 16 then some x else none := fun x k => by
    show (Vector.replicate 16 x)[k]? = _
    rw [Vector.getElem?_replicate]
  refine ⟨⟨⟨⟨9, 9⟩, .correctable, []⟩, rfl, by decide⟩,
    ⟨⟨⟨9, 9⟩, .correctable, []⟩, rfl, by decide, by rw [spare]; rfl, by decide, by decide,
      List.Pairwise.nil, List.Pairwise.nil, List.Pairwise.nil, fun k => ?_⟩,
    ⟨⟨9, 9⟩, .correctable, []⟩, rfl, by decide, fun k => ?_⟩
  · rw [spare]
    constructor
    · intro h
      split at h <;> cases h
    · rintro ⟨e, he, _⟩
      cases he
  · rw [spare]
    split <;> exact fun h => nomatch h

/-- The part with line 9, on spare 0, suspect again. -/
def onSpare : State :=
  { part with suspects := [9], remap := [⟨9, 0⟩], spares := part.spares.set 0 .inUse }

theorem test_witness_LinesReadAreHandled_spent :
    IntegrityLawful onSpare ∧ 9 ∈ onSpare.suspects ∧ (⟨9, 0⟩ : RemapEntry) ∈ onSpare.remap ∧
      onSpare.spares[1]? = some SpareState.free ∧
      (∀ m : Nat, m < 1 → onSpare.spares[m]? ≠ some SpareState.free) ∧
      ∀ e ∈ onSpare.remap, e.spare ≠ 15 := by
  have spare : ∀ k : Fin 16, onSpare.spares[k.val]? = some SpareState.inUse ↔ k = 0 := by
    decide +kernel
  refine ⟨⟨by decide, by decide, List.Pairwise.nil, by decide, by decide, fun k => ?_⟩, by decide,
    by decide, by decide +kernel, by decide +kernel, by decide⟩
  rcases Nat.lt_or_ge k 16 with hk | hk
  · rw [spare ⟨k, hk⟩]
    constructor
    · intro h
      exact ⟨⟨9, 0⟩, List.mem_singleton_self _, (congrArg Fin.val h).symm⟩
    · rintro ⟨e, he, h⟩
      rw [List.mem_singleton.1 he] at h
      exact Fin.ext h.symm
  · rw [Vector.getElem?_eq_none hk]
    constructor
    · intro h
      cases h
    · rintro ⟨e, he, h⟩
      rw [List.mem_singleton.1 he] at h
      subst h
      exact absurd hk (by decide)

theorem bare_lawful : PlacementLawful bare := bare_placement .freeze

/-- A line with a remap entry, and one without. -/
theorem test_witness_LinesReadAreHandled_places :
    (⟨9, 0⟩ : RemapEntry) ∈ onSpare.remap ∧ onSpare.physOf 9 = 16384 ∧
      (∀ e ∈ onSpare.remap, e.line ≠ 10) ∧ onSpare.physOf 10 = 10 := by decide

theorem test_witness_LinesReadAreHandled_others :
    (∃ r : LineRead, r.cls = .uncorrectable ∧
      ∀ i w, bare.window? i = some w → w.covers r.ref.line = false) ∧
    (∃ r : LineRead, r.cls = .uncorrectable ∧ part.window? 1 = some w1 ∧
      w1.covers r.ref.line = true) ∧
    ∃ r : LineRead, r.cls = .clean :=
  ⟨⟨⟨⟨9, 9⟩, .uncorrectable, []⟩, rfl,
      fun i _ h => (nomatch (bare_window? .freeze i).symm.trans h)⟩,
    ⟨⟨⟨3, 3⟩, .uncorrectable, []⟩, rfl, rfl, by decide⟩, ⟨⟨9, 9⟩, .clean, []⟩, rfl⟩

theorem test_witness_FlipsDecideTheClass :
    (∀ word, part.flipsIn 0 word = []) ∧
    (∃ s : State, s.flipsIn 0 7 = [.data 7 7] ∧ s.flipsIn 0 0 = [.code 0] ∧
      ∀ v, v < 8 → (s.flipsIn 0 v).length ≤ 1) ∧
    (spoilt.flipsIn 0 0).length = 2 ∧
    (Memory.wf part.mem = true ∧ (⟨16399, 7, .code 0⟩ : Flip) ∉ part.flips) ∧
    (⟨0, 0, .code 0⟩ : Flip) ∈ spoilt.flips :=
  ⟨fun _ => rfl, ⟨{ part with flips := [⟨0, 7, .data 7 7⟩, ⟨0, 0, .code 0⟩] }, by decide +kernel⟩,
    by decide +kernel⟩

theorem part_window? {i : Nat} {w : Window} (h : part.window? i = some w) :
    (i = 0 ∧ w = w0) ∨ (i = 1 ∧ w = w1) ∨ (i = 2 ∧ w = w2) ∨ (i = 3 ∧ w = w3) := by
  have k : ∀ i : Fin 32, 4 ≤ i.val → part.window? i = none := by decide +kernel
  rcases Nat.lt_or_ge i 32 with hi | hi
  · rcases Nat.lt_or_ge i 4 with h4 | h4
    · have : i = 0 ∨ i = 1 ∨ i = 2 ∨ i = 3 := by omega
      rcases this with rfl | rfl | rfl | rfl
      · exact Or.inl ⟨rfl, (Option.some.inj (h.symm.trans (show part.window? 0 = some w0 from rfl)))⟩
      · exact Or.inr (Or.inl ⟨rfl,
          (Option.some.inj (h.symm.trans (show part.window? 1 = some w1 from rfl)))⟩)
      · exact Or.inr (Or.inr (Or.inl ⟨rfl,
          (Option.some.inj (h.symm.trans (show part.window? 2 = some w2 from rfl)))⟩))
      · exact Or.inr (Or.inr (Or.inr ⟨rfl,
          (Option.some.inj (h.symm.trans (show part.window? 3 = some w3 from rfl)))⟩))
    · rw [k ⟨i, hi⟩ h4] at h
      cases h
  · unfold State.window? at h
    rw [Vector.getElem?_eq_none hi] at h
    cases h

theorem part_every {P : Window → Prop} (h0 : P w0) (h1 : P w1) (h2 : P w2) (h3 : P w3) :
    EveryWindow part P := fun i w h => by
  rcases part_window? h with ⟨_, rfl⟩ | ⟨_, rfl⟩ | ⟨_, rfl⟩ | ⟨_, rfl⟩ <;> assumption

theorem test_witness_TicksAndScrubTimer_counts :
    (part.usCount = 0 ∧ part.scrubTimer = some (99 + 1)) ∧
    (∃ s : State, s.usCount = 1000 ∧ s.phase = .held) ∧
    (∃ s t : State, s.usCount = 1000 ∧ exec .millisecondTick s = .next t) ∧
    ∃ s : State, s.usCount = 999 ∧ s.scrubTimer = none :=
  ⟨⟨rfl, rfl⟩, ⟨{ State.reset with usCount := 1000, phase := .held }, rfl, rfl⟩,
    ⟨{ State.reset with usCount := 1000 }, _, rfl, rfl⟩, { State.reset with usCount := 999 }, rfl, rfl⟩

theorem test_witness_TicksAndScrubTimer :
    (State.usCount { part with usCount := 1000 } = 1000 ∧ part.phase ≠ .held ∧
      ∀ i w, part.window? i = some w →
      (∀ q l, w.holders.get q = some l → l.deadline ≠ some part.msCount ∧
        ∀ d k, l.deadline = some d → l.lowPoint = some k → (d - part.msCount).toNat = k →
          l.lowSent = true) ∧
      ∀ x ∈ w.waiters, x.deadline ≠ some part.msCount) ∧
    State.reset.scrubTimer = none ∧ part.scrubTimer = some (99 + 1) ∧
    (∃ s : State, s.scrubTimer = some 0 ∧ s.scrubDue = true ∧ s.choose ≠ none) ∧
    (∃ s : State, s.scrubTimer = some 0 ∧ s.scrubDue = false ∧ s.inFlight ≠ none) ∧
    ∃ s : State, s.scrubTimer = some 0 ∧ s.scrubDue = false ∧ s.inFlight = none ∧ s.choose = none := by
  have hl : ∀ (w : Window) (q : Port) (l : Lease), w.holders = PerPort.const none →
      w.holders.get q = some l → False := fun w q l e h => by
    rw [e] at h
    cases q <;> cases h
  refine ⟨⟨rfl, by decide +kernel, part_every ⟨fun q l h => (hl w0 q l rfl h).elim, fun _ h => nomatch h⟩
      ⟨fun q l h => ?_, ?_⟩ ⟨fun q l h => (hl w2 q l rfl h).elim, fun _ h => nomatch h⟩
      ⟨fun q l h => (hl w3 q l rfl h).elim, fun _ h => nomatch h⟩⟩, rfl, rfl,
    ⟨{ part with scrubTimer := some 0, scrubDue := true }, rfl, rfl, by decide +kernel⟩,
    ⟨{ part with scrubTimer := some 0, inFlight := some ⟨.scrub, .scrub ⟨0, 0⟩ false⟩ }, rfl, rfl,
      fun h => nomatch h⟩,
    { part with scrubTimer := some 0 }, rfl, rfl, rfl, by decide +kernel⟩
  · cases q
    · cases h
      refine ⟨by decide, fun d k hd hk hdk => ?_⟩
      cases hd
      cases hk
      exact absurd hdk (by decide)
    all_goals cases h
  · decide +kernel

theorem test_witness_NoticesCoalesceOrAreLost :
    (Pcu.reset.state ≠ .ready ∧ ready.state = .ready) ∧
    (∃ u : Pcu, u.state = .ready ∧ ∃ m ∈ u.notices, Notice.sameKey (.linePoisoned 0 1 1) m = true) ∧
    (∀ n ∈ [7, 8], ∃ u : Pcu, u.state = .ready ∧ u.notices.length = n ∧
      ∀ m ∈ u.notices, Notice.sameKey .sparesExhausted m = false) ∧
    ∃ u : Pcu, u.state = .ready ∧ u.notices.length = 8 ∧ Notice.leaseLow 3 ∈ u.notices :=
  ⟨by decide, ⟨{ ready with notices := [.linePoisoned 0 9 1] }, rfl, _, List.mem_singleton_self _, rfl⟩,
    fun n hn => ⟨{ ready with notices := (List.range n).map Notice.leaseLow }, rfl, by simp, by
      intro m hm
      obtain ⟨k, _, rfl⟩ := List.mem_map.1 hm
      rfl⟩,
    { ready with notices := (List.range 8).map Notice.leaseLow }, rfl, by simp, by decide⟩

theorem test_witness_NoticesCoalesceOrAreLost_expired :
    (∃ u : Pcu, u.state = .ready ∧ Notice.leaseLow 3 ∉ u.notices ∧ u.fetchMark = none) ∧
    (∃ u : Pcu, u.state = .ready ∧ Notice.leaseLow 3 ∈ u.notices ∧ Notice.leaseExpired 3 ∈ u.notices ∧
      u.fetchMark = some ⟨.leaseExpired 3, 0, none⟩) ∧
    (∃ u : Pcu, u.state = .ready ∧ Notice.leaseLow 3 ∈ u.notices ∧ Notice.leaseExpired 3 ∉ u.notices ∧
      u.fetchMark = some ⟨.leaseLow 3, 0, none⟩) ∧
    ∃ u : Pcu, u.state = .ready ∧ Notice.leaseLow 3 ∈ u.notices ∧
      u.fetchMark = some ⟨.sparesExhausted, 0, none⟩ :=
  ⟨⟨ready, rfl, by decide, rfl⟩,
    ⟨{ ready with
        notices := [.leaseExpired 3, .leaseLow 3], fetchMark := some ⟨.leaseExpired 3, 0, none⟩ },
      rfl, by decide, by decide, rfl⟩,
    ⟨{ ready with notices := [.leaseLow 3], fetchMark := some ⟨.leaseLow 3, 0, none⟩ },
      rfl, by decide, by decide, rfl⟩,
    { ready with
      notices := [.sparesExhausted, .leaseLow 3], fetchMark := some ⟨.sparesExhausted, 0, none⟩ },
    rfl, by decide, rfl⟩

theorem test_witness_TakingsLeaveTheRest :
    (∃ t, exec (CommandKind.taking .p0 .lock) part = .next t) ∧
      ∃ t, exec (CommandKind.taking .p0 .wipe) part = .next t := ⟨⟨_, rfl⟩, _, rfl⟩

/-- P3 holds and waits for nothing and owns no job; and the part is idle, or not. -/
theorem test_witness_TakingsLeaveTheRest_others :
    (∀ i w, part.window? i = some w → w.holds .p3 = false ∧ w.waits .p3 = false) ∧
    (∀ c j, part.job c = some j → j.owner ≠ .p3) ∧ (part.inFlight = none ∧ part.choose = none) ∧
    ∃ s : State, s.inFlight ≠ none := by
  refine ⟨part_every ?_ ?_ ?_ ?_, fun c j h => ?_, ⟨rfl, ?_⟩, wipingOne, nofun⟩
  iterate 4 decide
  · cases c <;> cases h
  · decide +kernel

/-! ### The invariants are met by a part at work -/

theorem part_step : step part = .next part := rfl

theorem test_witness_StepsKeepMemoryCanonical : MemoryCanonical part ∧ ∃ t, step part = .next t :=
  ⟨rfl, _, part_step⟩

theorem test_witness_StepsKeepTheScrubScheduleAndTheTicks :
    (ScheduleLawful part ∧ ∃ t, step part = .next t) ∧
    ∃ s t : State, s.usCount = 1000 ∧ step s = .next t :=
  ⟨⟨by unfold ScheduleLawful; decide +kernel, _, part_step⟩, { State.reset with usCount := 1000 },
    _, rfl, rfl⟩

theorem part_jobsLawful : JobsLawful part :=
  ⟨fun _ _ h => (nomatch (show (none : Option InFlight) = _ from h)),
    fun d j h => (nomatch (show (none : Option Job) = some j by cases d <;> exact h)),
    fun d j h => (nomatch (show (none : Option Job) = some j by cases d <;> exact h)),
    fun j _ h => (nomatch (show (none : Option Job) = some j from h)),
    fun i w h hw => by rw [part_idle .freeze i w h] at hw; cases hw⟩

theorem part_guards : GuardsLawful part :=
  ⟨by decide, part_every (by decide +kernel) (by decide +kernel) (by decide +kernel)
    (by decide +kernel)⟩

/-- The part with the wipe of window 2 alone. -/
def wipingAlone : State :=
  { bare with c0 := some { fillJob 64 with kind := .wipe, dest := ⟨2, 0⟩ } }.setWindow 2
    (some { w2 with activity := .wiping })

theorem wipingAlone_window? {i : Nat} {w : Window} (h : wipingAlone.window? i = some w) :
    i = 2 ∧ w = { w2 with activity := .wiping } := by
  unfold wipingAlone at h
  rw [State.window?_setWindow] at h
  split at h
  · rename_i e
    exact ⟨e.1, (Option.some.inj h).symm⟩
  · exact nomatch (bare_window? .freeze i).symm.trans h

theorem wipingAlone_job {c : Channel} {j : Job} (h : wipingAlone.job c = some j) :
    c = .c0 ∧ j = { fillJob 64 with kind := .wipe, dest := ⟨2, 0⟩ } := by
  cases c
  · exact ⟨rfl, (Option.some.inj h).symm⟩
  · cases h

theorem test_witness_StepsKeepJobsAndWipes :
    (JobsLawful part ∧ ∃ t, step part = .next t) ∧
    JobsLawful wipingAlone ∧ PlacementLawful wipingAlone ∧ WipeJobsLawful wipingAlone ∧
      ∃ t, step wipingAlone = .next t := by
  have two : wipingAlone.window? 2 = some { w2 with activity := .wiping } := by decide +kernel
  refine ⟨⟨part_jobsLawful, part, part_step⟩, ⟨fun _ _ h => (nomatch h), fun c j h k => ?_,
    fun c j h _ => ?_, fun j k _ h => (nomatch h), fun i w h _ => ?_⟩, ⟨fun i w h => ?_, fun i j v w hij h k => ?_⟩,
    fun c j h _ => ?_, wipingAlone, rfl⟩
  · rw [(wipingAlone_job h).2] at k
    exact absurd rfl k
  · rw [(wipingAlone_job h).2]
    exact ⟨rfl, _, two, rfl⟩
  · exact ⟨.c0, _, rfl, rfl, (wipingAlone_window? h).1.symm⟩
  · rw [(wipingAlone_window? h).2]
    decide
  · exact absurd ((wipingAlone_window? h).1.trans (wipingAlone_window? k).1.symm) hij
  · rw [(wipingAlone_job h).2]
    exact ⟨rfl, dvd_zero 64, by decide, _, two, rfl⟩

theorem test_witness_StepsKeepGuardsLawful :
    JobsLawful part ∧ GuardsLawful part ∧ ∃ t, step part = .next t :=
  ⟨part_jobsLawful, part_guards, _, part_step⟩

theorem test_witness_StepsKeepThePlacementLaw : PlacementLawful part ∧ ∃ t, step part = .next t := by
  refine ⟨⟨part_every (by decide) (by decide) (by decide) (by decide), ?_⟩, _, part_step⟩
  intro i j v w hij hv hw line
  rcases part_window? hv with ⟨rfl, rfl⟩ | ⟨rfl, rfl⟩ | ⟨rfl, rfl⟩ | ⟨rfl, rfl⟩ <;>
    rcases part_window? hw with ⟨rfl, rfl⟩ | ⟨rfl, rfl⟩ | ⟨rfl, rfl⟩ | ⟨rfl, rfl⟩ <;>
    first
      | exact absurd rfl hij
      | (rintro ⟨h1, h2⟩
         have h1 := of_decide_eq_true h1
         have h2 := of_decide_eq_true h2
         simp only [w0, w1, w2, w3] at h1 h2
         omega)

theorem test_witness_StepsKeepClaimsLawful : ClaimsLawful part ∧ ∃ t, step part = .next t := by
  refine ⟨part_every ?_ ?_ ?_ ?_, _, part_step⟩ <;> unfold Window.ClaimsLawful <;> decide +kernel

theorem test_witness_StepsKeepQueuesBounded :
    QueuesLawful part ∧ NoticesLawful part ∧ ∃ t, step part = .next t := by
  refine ⟨fun p => ⟨?_, fun f h => ?_⟩, fun p => ⟨?_, ?_⟩, _, part_step⟩
  · cases p <;> decide +kernel
  · cases p <;> cases h
  · cases p <;> decide +kernel
  · cases p <;> exact List.Pairwise.nil

theorem test_witness_StepsKeepQueuesBounded_completions :
    ClaimsLawful part ∧ CompletionsLawful part ∧ ∃ t, step part = .next t := by
  refine ⟨test_witness_StepsKeepClaimsLawful.1, fun p => ?_, _, part_step⟩
  refine ⟨by cases p <;> decide +kernel, by cases p <;> decide +kernel, fun h => absurd ?_ h⟩
  cases p <;> rfl

theorem test_witness_StepsKeepTheIntegrityLists : IntegrityLawful part ∧ ∃ t, step part = .next t := by
  refine ⟨⟨by decide, by decide, List.Pairwise.nil, List.Pairwise.nil, List.Pairwise.nil, fun k => ?_⟩,
    _, part_step⟩
  rw [show part.spares[k]? = if k < 16 then some .free else none from Vector.getElem?_replicate]
  constructor
  · intro h
    split at h <;> cases h
  · rintro ⟨e, he, _⟩
    cases he

theorem test_witness_FreezeFixesLayoutAndKeys :
    ∃ s : State, JobsLawful s ∧ s.frozen = true ∧ EveryWindow s (fun w => w.activity = .idle) ∧
      ∃ t, exec .grant s = .next t :=
  ⟨{ part with frozen := true }, part_jobsLawful, rfl, fun i w h => part_idle .freeze i w h, _, rfl⟩

end Sys2Proof.Tests
end

/-! The layout port's commands on window records: the checks of DEFINE WINDOW and SET WINDOW PARAMS,
one after another, in the words of the statements, and the records the two commands leave (R12, R13,
R16). -/

namespace Sys2Proof.Machine

/-! ### Ordered checks -/

/-- Where ordered checks answer OK, every one of them holds. -/
theorem Verdict.holds_of_ok {l : List (Prop × OutcomeCode)} (h : Verdict l .ok)
    (hl : ∀ x ∈ l, x.2 ≠ .ok) : ∀ x ∈ l, x.1 := by
  induction l with
  | nil => simp
  | cons x l ih =>
    rw [List.forall_mem_cons] at hl ⊢
    rcases h with ⟨-, h⟩ | ⟨hx, h⟩
    · exact absurd h.symm hl.1
    · exact ⟨hx, ih h hl.2⟩

/-- The two checks that the layout commands make first, before their own (R10). -/
theorem Verdict.firstFail_layoutChecks {s : State} {p : Port} {o : OutcomeCode}
    {rest : List (Prop × OutcomeCode)} {brest : List (Bool × OutcomeCode)}
    (h : Verdict ((s.layoutPort = p, .notLayoutPort) :: (s.frozen = false, .frozen) :: rest) o)
    (hr : Verdict rest o → o = firstFail brest) : o = firstFail (s.layoutChecks p ++ brest) :=
  h.firstFail_cons beq_iff_eq.symm fun _ h =>
    h.firstFail_cons (iff_of_eq (Bool.not_eq_true' _)).symm fun _ => hr

/-- A check made under a condition only, as an implication. -/
theorem not_or_eq_true_iff_imp {a b : Bool} : (!a || b) = true ↔ (a = true → b = true) := by
  cases a <;> simp

/-- A check on a defined window, as the statements write it. -/
theorem any_iff_of_defined {w? : Option Window} {f : Window → Bool} (h : w? ≠ none) :
    w?.any f = true ↔ ∀ w, w? = some w → f w = true := by
  obtain ⟨w, rfl⟩ := Option.ne_none_iff_exists'.1 h
  simp

/-! ### The policy a field names -/

/-- The policy of a defined code, in the words of the statements (12.3). -/
def policyNamed (b : Byte) : Policy :=
  if b = 0#8 then .free else if b = 1#8 then .writeClaimed else .claimed

theorem policyOf_eq_policyNamed {b : Byte} (h : b = 0#8 ∨ b = 1#8 ∨ b = 2#8) :
    policyOf b = some (policyNamed b) := by
  rcases h with rfl | rfl | rfl <;> rfl

/-- The selected policy, when its code is defined, changes the window's own (R16). -/
theorem changesPolicy_iff {w : Window} {sel pol : Byte}
    (h : sel.getLsbD 0 = true → pol = 0#8 ∨ pol = 1#8 ∨ pol = 2#8) :
    changesPolicy w sel pol = true ↔ sel.getLsbD 0 = true ∧ policyNamed pol ≠ w.policy := by
  unfold changesPolicy selects
  rw [Bool.and_eq_true, bne_iff_ne]
  refine and_congr_right fun hs => ?_
  rw [policyOf_eq_policyNamed (h hs), Ne, Option.some.injEq]

/-- The model's parameter change, with the selected policy written out (R16). -/
theorem Window.withParams_eq {w : Window} {sel pol : Byte} (lease wait : BitVec 16)
    (h : sel.getLsbD 0 = true → pol = 0#8 ∨ pol = 1#8 ∨ pol = 2#8) :
    w.withParams sel pol lease wait =
      { w with
        policy := if sel.getLsbD 0 then policyNamed pol else w.policy
        leasePeriod := if sel.getLsbD 1 then lease.toNat else w.leasePeriod
        waitLimit := if sel.getLsbD 2 then wait.toNat else w.waitLimit } := by
  unfold Window.withParams selects
  by_cases hs : sel.getLsbD 0 = true
  · rw [policyOf_eq_policyNamed (h hs), Option.getD_some]
  · rw [if_neg hs, if_neg hs]

/-! ### The range of a new window -/

/-- A nonempty range lies outside another one exactly when neither begins inside the other. -/
theorem range_outside_iff {a n b m : Nat} (hn : 1 ≤ n) (hm : 1 ≤ m) :
    (∀ line, a ≤ line → line < a + n → line < b ∨ b + m ≤ line) ↔ ¬ (a < b + m ∧ b < a + n) := by
  constructor
  · rintro h ⟨h1, h2⟩
    have := h (max a b) (le_max_left a b) (by omega)
    omega
  · intro h line h1 h2
    omega

/-- A nonempty range is free exactly when its lines lie outside every defined window (R12, check 6):
defined windows hold at least one line (R2). -/
theorem State.rangeFree_iff {s : State} (hs : PlacementLawful s) {base len : Nat} (hlen : 1 ≤ len) :
    s.rangeFree base len = true ↔
      ∀ j w, s.window? j = some w → ∀ line, base ≤ line → line < base + len →
        line < w.base ∨ w.base + w.length ≤ line := by
  unfold State.rangeFree
  simp only [List.all_eq_true, List.mem_range, Bool.not_eq_true', Option.any_eq_false,
    decide_eq_false_iff_not]
  refine ⟨fun h j w hw => ?_, fun h j _ w hw => ?_⟩
  · exact (range_outside_iff hlen (hs.1 j w hw).1).2 (h j (State.window?_eq_some_lt hw) w hw)
  · exact (range_outside_iff hlen (hs.1 j w hw).1).1 (h j w hw)

/-! ### The checks of the two commands as verdicts -/

/-- The checks of DEFINE WINDOW, in the words of the statement (R12). -/
def DefineChecks (s : State) (p : Port) (i : Byte) (base len : BitVec 16) (pol : Byte)
    (lease wait : BitVec 16) : List (Prop × OutcomeCode) :=
  [ (s.layoutPort = p, .notLayoutPort),
    (s.frozen = false, .frozen),
    (i.toNat < 32, .badParameter),
    (s.window? i.toNat = none, .exists),
    (1 ≤ len.toNat ∧ base.toNat + len.toNat ≤ 16384, .outOfRange),
    (∀ j w, s.window? j = some w → ∀ line, base.toNat ≤ line →
      line < base.toNat + len.toNat → line < w.base ∨ w.base + w.length ≤ line, .overlap),
    ((pol = 0#8 ∨ pol = 1#8 ∨ pol = 2#8) ∧ lease.toNat ≤ 4095 ∧ wait.toNat ≤ 4095,
      .badParameter) ]

/-- The outcome that DEFINE WINDOW computes is the verdict of its checks (R12). -/
theorem eq_defineOutcome_of_verdict {s : State} {p : Port} {i : Byte} {base len : BitVec 16}
    {pol : Byte} {lease wait : BitVec 16} {o : OutcomeCode} (hs : PlacementLawful s)
    (h : Verdict (DefineChecks s p i base len pol lease wait) o) :
    o = defineOutcome s p i base len pol lease wait :=
  h.firstFail_layoutChecks fun h =>
    h.firstFail_cons decide_eq_true_iff.symm fun _ h =>
    h.firstFail_cons Option.isNone_iff_eq_none.symm fun _ h =>
    h.firstFail_cons decide_eq_true_iff.symm fun hrange h =>
    h.firstFail_cons (State.rangeFree_iff hs hrange.1).symm fun _ h =>
    h.firstFail_cons (by rw [Bool.and_eq_true, policyOf_isSome, decide_eq_true_iff]) fun _ h => h

/-- DEFINE WINDOW passes its checks with a defined policy code alone (R12, check 7). -/
theorem policyDefined_of_defineChecks {s : State} {p : Port} {i : Byte} {base len : BitVec 16}
    {pol : Byte} {lease wait : BitVec 16}
    (h : Verdict (DefineChecks s p i base len pol lease wait) .ok) :
    pol = 0#8 ∨ pol = 1#8 ∨ pol = 2#8 := by
  have hall := h.holds_of_ok (by simp [DefineChecks])
  simp only [DefineChecks, List.forall_mem_cons] at hall
  obtain ⟨-, -, -, -, -, -, ⟨hpol, -⟩, -⟩ := hall
  exact hpol

/-- The checks of SET WINDOW PARAMS, in the words of the statement (R16). -/
def ParamsChecks (s : State) (p : Port) (i sel pol : Byte) (lease wait : BitVec 16) :
    List (Prop × OutcomeCode) :=
  [ (s.layoutPort = p, .notLayoutPort),
    (s.frozen = false, .frozen),
    (i.toNat < 32, .badParameter),
    (s.window? i.toNat ≠ none, .noWindow),
    (sel.toNat < 8 ∧ (sel.getLsbD 0 = true → pol = 0#8 ∨ pol = 1#8 ∨ pol = 2#8) ∧
      (sel.getLsbD 1 = true → lease.toNat ≤ 4095) ∧
      (sel.getLsbD 2 = true → wait.toNat ≤ 4095), .badParameter),
    (∀ w, s.window? i.toNat = some w → sel.getLsbD 0 = true → policyNamed pol ≠ w.policy →
      w.activity = .idle ∧ (∀ q, w.holds q = false) ∧ w.waiters = [], .busyWindow),
    (∀ w, s.window? i.toNat = some w → sel.getLsbD 0 = true → pol = 0#8 → w.policy ≠ .free →
      w.guard.key = none, .keyed) ]

/-- Check 5 of SET WINDOW PARAMS: the selection and every selected field are in range (R16, R206). -/
theorem paramsInRange_iff {sel pol : Byte} {lease wait : BitVec 16} :
    (selectionDefined sel && (!selects sel 0 || (policyOf pol).isSome) &&
        (!selects sel 1 || decide (lease.toNat ≤ 4095)) &&
        (!selects sel 2 || decide (wait.toNat ≤ 4095))) = true ↔
      sel.toNat < 8 ∧ (sel.getLsbD 0 = true → pol = 0#8 ∨ pol = 1#8 ∨ pol = 2#8) ∧
        (sel.getLsbD 1 = true → lease.toNat ≤ 4095) ∧
        (sel.getLsbD 2 = true → wait.toNat ≤ 4095) := by
  unfold selects
  simp only [Bool.and_eq_true, and_assoc, selectionDefined_iff, not_or_eq_true_iff_imp,
    policyOf_isSome, decide_eq_true_iff]

/-- Check 6 of SET WINDOW PARAMS, on the window itself: a policy changes only while the window is
IDLE with neither holders nor waiters (R16). -/
theorem policyMayChange_iff {w : Window} {sel pol : Byte}
    (h : sel.getLsbD 0 = true → pol = 0#8 ∨ pol = 1#8 ∨ pol = 2#8) :
    (!changesPolicy w sel pol || (w.activity == .idle && w.noHolders && w.waiters.isEmpty)) = true ↔
      (sel.getLsbD 0 = true → policyNamed pol ≠ w.policy →
        w.activity = .idle ∧ (∀ q, w.holds q = false) ∧ w.waiters = []) := by
  rw [not_or_eq_true_iff_imp, changesPolicy_iff h, and_imp, Bool.and_eq_true, Bool.and_eq_true,
    beq_iff_eq, Window.noHolders_iff, List.isEmpty_iff, and_assoc]

/-- Check 7 of SET WINDOW PARAMS, on the window itself: a policy changes to FREE only while the
window carries no key (R16). -/
theorem policyMayBeFreed_iff {w : Window} {sel pol : Byte}
    (h : sel.getLsbD 0 = true → pol = 0#8 ∨ pol = 1#8 ∨ pol = 2#8) :
    (!changesPolicy w sel pol || policyOf pol != some .free || w.guard.key.isNone) = true ↔
      (sel.getLsbD 0 = true → pol = 0#8 → w.policy ≠ .free → w.guard.key = none) := by
  have hfree : (policyOf pol != some .free) = !(pol == 0#8) := by
    rw [bne, Bool.eq_iff_iff]
    simp only [Bool.not_eq_true', beq_eq_false_iff_ne, ne_eq, policyOf_eq_free]
  rw [hfree, Bool.or_assoc, not_or_eq_true_iff_imp, not_or_eq_true_iff_imp, changesPolicy_iff h,
    and_imp, beq_iff_eq, Option.isNone_iff_eq_none]
  refine imp_congr_right fun _ => ⟨fun k hp hw => k ?_ hp, fun k hne hp => k hp ?_⟩
  · rw [hp]; exact Ne.symm hw
  · rw [hp] at hne; exact Ne.symm hne

/-- The outcome that SET WINDOW PARAMS computes is the verdict of its checks (R16). -/
theorem eq_paramsOutcome_of_verdict {s : State} {p : Port} {i sel pol : Byte}
    {lease wait : BitVec 16} {o : OutcomeCode}
    (h : Verdict (ParamsChecks s p i sel pol lease wait) o) :
    o = paramsOutcome s p i sel pol lease wait :=
  h.firstFail_layoutChecks fun h =>
    h.firstFail_cons decide_eq_true_iff.symm fun _ h =>
    h.firstFail_cons Option.isSome_iff_ne_none.symm fun hdef h =>
    h.firstFail_cons paramsInRange_iff.symm fun ⟨_, hpol, _⟩ h =>
    h.firstFail_cons (by simp only [any_iff_of_defined hdef, policyMayChange_iff hpol]) fun _ h =>
    h.firstFail_cons (by simp only [any_iff_of_defined hdef, policyMayBeFreed_iff hpol]) fun _ h => h

/-- SET WINDOW PARAMS passes its checks with a defined code alone in a selected policy (R16,
check 5). -/
theorem policyDefined_of_paramsChecks {s : State} {p : Port} {i sel pol : Byte}
    {lease wait : BitVec 16} (h : Verdict (ParamsChecks s p i sel pol lease wait) .ok) :
    sel.getLsbD 0 = true → pol = 0#8 ∨ pol = 1#8 ∨ pol = 2#8 := by
  have hall := h.holds_of_ok (by simp [ParamsChecks])
  simp only [ParamsChecks, List.forall_mem_cons] at hall
  obtain ⟨-, -, -, -, ⟨-, hpol, -⟩, -⟩ := hall
  exact hpol

/-! ### The two commands at their takings -/

/-- Settles O16: the outcome computed is the verdict of the checks, and where every one holds the
policy code is defined, so that the record made is the one written out. -/
theorem defineWindowChecksAndEffect : Obligations.DefineWindowChecksAndEffect := by
  intro s p tag i base len pol lease wait rest o hs ht
    (hv : Verdict (DefineChecks s p i base len pol lease wait) o)
  have hexec : exec (.defineWindow p) s =
      .next (doDefineWindow (s.beginTake p) p tag i base len pol lease wait) := by
    simp only [exec, execDefineWindow, State.dueHead_of_takes ht]
  rw [hexec]
  refine congrArg _ (State.finishWith_beginTake (eq_defineOutcome_of_verdict hs hv) rfl ?_)
  rintro rfl
  rw [policyOf_eq_policyNamed (policyDefined_of_defineChecks hv)]
  rfl

/-- Settles O17: the outcome computed is the verdict of the checks, and where every one holds a
selected policy code is defined, so that the selected fields take the values written out. -/
theorem setWindowParamsChecksAndEffect : Obligations.SetWindowParamsChecksAndEffect := by
  intro s p tag i sel pol lease wait rest o ht
    (hv : Verdict (ParamsChecks s p i sel pol lease wait) o)
  have hexec : exec (.setWindowParams p) s =
      .next (doSetWindowParams (s.beginTake p) p tag i sel pol lease wait) := by
    simp only [exec, execSetWindowParams, State.dueHead_of_takes ht]
  rw [hexec]
  refine congrArg _ (State.finishWith_beginTake (eq_paramsOutcome_of_verdict hv) rfl ?_)
  rintro rfl
  simp only [Window.withParams_eq lease wait (policyDefined_of_paramsChecks hv)]
  rfl

end Sys2Proof.Machine

/-! RENEW: the window record of a new term in the words of the statements, what the command does for a
holder and for every other port, and its taking (R39, R40). -/

namespace Sys2Proof.Machine

/-! ### What RENEW does -/

/-- The window record in which a new term has begun for a port, written out (R39). -/
theorem Window.beginTerm_eq (w : Window) (p : Port) (now : Tick) :
    w.beginTerm p now =
      { w with holders := w.holders.set p (some (termLease w.leasePeriod now)) } := by
  rw [Window.beginTerm, newLease_eq]

/-- RENEW from a holder begins a new term and completes OK (R40). -/
theorem doRenew_of_holds {s : State} {p : Port} {i : Byte} {w : Window}
    (hw : s.window? i.toNat = some w) (hp : w.holds p = true) (tag : Byte) :
    doRenew s p tag i =
      (s.setWindow i.toNat (some (w.beginTerm p s.msCount))).finish p tag .renew .ok := by
  simp only [doRenew, hw, hp, if_true]

/-- RENEW from a port that does not hold the window, its record present or not, completes NOT_HELD
alone (R40). -/
theorem doRenew_of_not_holds {s : State} {p : Port} {i : Byte}
    (h : ∀ w, s.window? i.toNat = some w → w.holds p = false) (tag : Byte) :
    doRenew s p tag i = s.finish p tag .renew .notHeld := by
  cases hw : s.window? i.toNat with
  | none => simp only [doRenew, hw]
  | some w => simp only [doRenew, hw, h w hw, Bool.false_eq_true, if_false]

/-! ### RENEW at its taking -/

/-- A RENEW that is taken is carried out after the first steps of its taking (R174). -/
theorem exec_renew_of_takes {s : State} {p : Port} {tag i : Byte} {rest : List Entry}
    (h : s.takes p tag (.renew i) rest) :
    exec (.renew p) s = .next (doRenew (s.beginTake p) p tag i) := by
  simp only [exec, execRenew, State.dueHead_of_takes h]

/-- Settles O21, by whether the port holds the window: the first steps of the taking leave the windows
and the tick count, so RENEW meets the record and the time of the state before it. -/
theorem renewBeginsANewTerm : Obligations.RenewBeginsANewTerm := by
  intro s p tag i rest ht
  rw [exec_renew_of_takes ht]
  constructor
  · intro w hw hp
    have hw' : (s.beginTake p).window? i.toNat = some w := hw
    rw [doRenew_of_holds hw' hp, State.finish_beginTake_setWindow, Window.beginTerm_eq]
    rfl
  · intro h
    have h' : ∀ w, (s.beginTake p).window? i.toNat = some w → w.holds p = false := h
    rw [doRenew_of_not_holds h', State.finish_beginTake]

end Sys2Proof.Machine

/-! WIPE PREPARE: its checks as a verdict, the PCU it leaves where they pass, and its taking (R66). -/

namespace Sys2Proof.Machine

/-- The checks of WIPE PREPARE, in the words of the statement (R66). -/
def PrepareChecks (s : State) (i : Byte) : List (Prop × OutcomeCode) :=
  [ (s.frozen = false, .frozen), (s.window? i.toNat ≠ none, .noWindow) ]

/-- The outcome that WIPE PREPARE computes is the verdict of its checks (R66). -/
theorem eq_wipePrepareOutcome_of_verdict {s : State} {i : Byte} {o : OutcomeCode}
    (h : Verdict (PrepareChecks s i) o) : o = wipePrepareOutcome s i :=
  h.firstFail_cons (iff_of_eq (Bool.not_eq_true' _)).symm fun _ h =>
    h.firstFail_cons Option.isSome_iff_ne_none.symm fun _ h => h

/-- A wipe-prepared record made between the first steps of a taking and its completion is the only
difference it makes: the record stands where the taking alone would leave it clear. -/
theorem State.finish_beginTake_setPrepared (s : State) (p : Port) (n : Nat) (tag : Byte)
    (k : CommandKind) (o : OutcomeCode) :
    ((s.beginTake p).setPrepared p n).finish p tag k o =
      s.setPcu p
        { s.pcu p with
          queue := (s.pcu p).queue.tail
          completions := (s.pcu p).completions ++ [⟨tag, k, o, .none⟩]
          outstanding := (s.pcu p).outstanding.erase tag
          wipePrepared := some n } := by
  simp only [State.finish, State.setPrepared, State.beginTake, Pcu.popHead, Pcu.complete,
    State.pcu_setPcu_same, State.setPcu_setPcu, Nat.add_sub_cancel]

/-- A WIPE PREPARE that is taken is carried out after the first steps of its taking (R174). -/
theorem exec_wipePrepare_of_takes {s : State} {p : Port} {tag i : Byte} {rest : List Entry}
    (h : s.takes p tag (.wipePrepare i) rest) :
    exec (.wipePrepare p) s = .next (doWipePrepare (s.beginTake p) p tag i) := by
  simp only [exec, execWipePrepare, State.dueHead_of_takes h]

/-- Settles O28, by whether the outcome is OK: the first steps of the taking clear the port's record and
leave what the checks read, so the record stands after it only where the checks pass. -/
theorem wipePrepareRecordsTheIndex : Obligations.WipePrepareRecordsTheIndex := by
  intro s p tag i rest o ht (hv : Verdict (PrepareChecks s i) o)
  have ho : wipePrepareOutcome (s.beginTake p) i = o := (eq_wipePrepareOutcome_of_verdict hv).symm
  rw [exec_wipePrepare_of_takes ht, doWipePrepare, State.finishWith, ho]
  by_cases hok : o = .ok
  · rw [if_pos hok, if_pos hok, State.finish_beginTake_setPrepared, hok]
  · rw [if_neg hok, if_neg hok, State.finish_beginTake, State.answers]

end Sys2Proof.Machine

/-! The invariants at reset and after every step, and what a frozen part keeps: each law holds of a part
whose blocks hold their reset values, and every change that commands are made of keeps it. -/

namespace Sys2Proof.Machine

/-! ### The invariants after a reset -/

section AfterReset

variable {s : State} {ph : Phase} {lp : Port} {ms : Tick} {us : Nat} {rm : List RemapEntry}
  {sp : Vector SpareState 16}

/-- Right after power-on the part is as a power-on leaves it (log 1). -/
theorem State.reset_eq_afterReset :
    State.reset =
      State.reset.afterReset .sweeping .p0 0#32 0 [] (Vector.replicate 16 SpareState.free) := rfl

theorem everyWindow_afterReset (P : Window → Prop) :
    EveryWindow (s.afterReset ph lp ms us rm sp) P := fun i w h => by
  rw [State.window?_afterReset] at h
  cases h

theorem scheduleLawful_afterReset : ScheduleLawful (s.afterReset ph lp ms us rm sp) :=
  ⟨Nat.zero_le _, fun _ => rfl⟩

theorem guardsLawful_afterReset : GuardsLawful (s.afterReset ph lp ms us rm sp) :=
  ⟨le_refl 4, everyWindow_afterReset _⟩

theorem placementLawful_afterReset : PlacementLawful (s.afterReset ph lp ms us rm sp) := by
  refine ⟨everyWindow_afterReset _, fun i j v w _ hv => ?_⟩
  rw [State.window?_afterReset] at hv
  cases hv

theorem claimsLawful_afterReset : ClaimsLawful (s.afterReset ph lp ms us rm sp) :=
  everyWindow_afterReset _

theorem State.job_afterReset (c : Channel) : (s.afterReset ph lp ms us rm sp).job c = none := by
  cases c <;> rfl

theorem wipeJobsLawful_afterReset : WipeJobsLawful (s.afterReset ph lp ms us rm sp) := fun c j h => by
  rw [State.job_afterReset] at h
  cases h

theorem State.pcu_afterReset (p : Port) :
    (s.afterReset ph lp ms us rm sp).pcu p = Pcu.reset := by cases p <;> rfl

theorem Link.decoder_afterReset_ne_frame (l : Link) (f : Frame) : l.afterReset.decoder ≠ .frame f := by
  unfold Link.afterReset
  split <;> exact Decoder.noConfusion

theorem State.link_afterReset (p : Port) :
    (s.afterReset ph lp ms us rm sp).link p = (s.link p).afterReset := by cases p <;> rfl

theorem queuesLawful_afterReset : QueuesLawful (s.afterReset ph lp ms us rm sp) := fun p => by
  rw [State.pcu_afterReset, State.link_afterReset]
  exact ⟨Nat.zero_le _, fun f h => absurd h (Link.decoder_afterReset_ne_frame _ f)⟩

theorem noticesLawful_afterReset : NoticesLawful (s.afterReset ph lp ms us rm sp) := fun p => by
  rw [State.pcu_afterReset]
  exact ⟨Nat.zero_le _, List.Pairwise.nil⟩

theorem completionsLawful_afterReset : CompletionsLawful (s.afterReset ph lp ms us rm sp) := fun p => by
  rw [State.pcu_afterReset]
  have hw : (s.afterReset ph lp ms us rm sp).waitCount p = 0 := by
    simp only [State.waitCount, State.window?_afterReset, Option.any_none, List.filter_false,
      List.length_nil]
  have hd : (s.afterReset ph lp ms us rm sp).deliverCount p = 0 := by
    simp only [State.deliverCount, State.job_afterReset, Option.any_none, List.filter_false,
      List.length_nil]
  rw [hw, hd]
  exact ⟨Nat.zero_le _, rfl, fun h => absurd rfl h⟩

/-- With the map empty and every spare FREE, no spare is IN-USE (R203). -/
theorem integrityLawful_afterReset
    (h : IntegrityLawful s ∧ rm = s.remap ∧ sp = s.spares ∨
      rm = [] ∧ sp = Vector.replicate 16 SpareState.free) :
    IntegrityLawful (s.afterReset ph lp ms us rm sp) := by
  rcases h with ⟨⟨-, -, -, hline, hspare, huse⟩, rfl, rfl⟩ | ⟨rfl, rfl⟩
  · exact ⟨Nat.zero_le _, List.nodup_nil, List.Pairwise.nil, hline, hspare, huse⟩
  · refine ⟨Nat.zero_le _, List.nodup_nil, List.Pairwise.nil, List.nodup_nil, List.nodup_nil,
      fun k => ?_⟩
    show (Vector.replicate 16 SpareState.free)[k]? = some .inUse ↔ ∃ e ∈ ([] : List RemapEntry), e.spare = k
    rw [Vector.getElem?_replicate]
    split <;> simp

end AfterReset

/-- Settles O51: the part right after power-on is as a reset leaves it, and every law holds of what a
reset leaves. -/
theorem invariantsHoldAtReset : Obligations.InvariantsHoldAtReset := by
  unfold Obligations.InvariantsHoldAtReset
  rw [State.reset_eq_afterReset]
  exact ⟨rfl, scheduleLawful_afterReset, guardsLawful_afterReset, jobsLawful_afterReset ..,
    wipeJobsLawful_afterReset, placementLawful_afterReset, claimsLawful_afterReset,
    queuesLawful_afterReset, completionsLawful_afterReset, noticesLawful_afterReset,
    integrityLawful_afterReset (Or.inr ⟨rfl, rfl⟩), Nat.zero_le _⟩

/-! ### The invariants after every step -/

/-- Settles O52: a reset leaves the array's bytes as they stand. -/
theorem stepsKeepMemoryCanonical : Obligations.StepsKeepMemoryCanonical := fun _ _ hs h =>
  memoryCanonical_keeps.everyStep (fun _ _ _ _ _ _ _ hs _ => hs) hs h

/-! ### The microsecond ticks counted -/

theorem State.usCount_startJob (s : State) (j : Job) : (s.startJob j).usCount = s.usCount := by
  unfold State.startJob
  split
  · rw [State.usCount_setJob]
  · rfl

theorem State.usCount_revokeJob (s : State) (i : Nat) (c : Channel) :
    (s.revokeJob i c).usCount = s.usCount := by
  unfold State.revokeJob
  split
  · rfl
  · split_ifs
    · rw [State.usCount_setJob]
    · rfl
    · exact (State.usCount_endJob s c _).1
    · rfl

theorem State.usCount_wipeStart (s : State) (p : Port) (tag : Byte) (i : Nat) (w : Window) :
    (s.wipeStart p tag i w).usCount = s.usCount := by
  simp only [State.wipeStart, State.leaveQueue, State.usCount_setPcu, State.usCount_startJob,
    State.usCount_revokeJob]
  rw [(State.Calm.revoke _ i).usCount, State.usCount_setWindow]

theorem State.usCount_teardownJob (s : State) (p : Port) (c : Channel) :
    (s.teardownJob p c).usCount = s.usCount := by
  have awaited : ∀ x, ((s.setJob c x).awaitJob p).usCount = s.usCount := fun x => by
    rw [State.awaitJob, State.usCount_setPcu, State.usCount_setJob]
  unfold State.teardownJob
  split
  · rfl
  · split
    · split
      · rw [State.usCount_setJob]
      · split
        · split
          · rw [awaited]
          · rw [State.usCount_setJob]
        · rw [awaited]
    · rfl

theorem State.usCount_stepDone (s : State) (c : Channel) (n : Nat) (good : Bool) :
    (s.stepDone c n good).usCount = s.usCount := by
  cases hj : s.job c with
  | none => simp only [State.stepDone, hj]
  | some j =>
    have touched : ∀ x k, ((s.setJob c x).touchStep k).usCount = s.usCount := fun x k => by
      rw [(State.Calm.touchStep _ k).usCount, State.usCount_setJob]
    simp only [State.stepDone, hj]
    split
    · split_ifs <;> simp only [(State.usCount_endJob _ _ _).1, touched, State.usCount_setJob]
    · split_ifs <;> simp only [(State.usCount_endJob _ _ _).1, touched, State.usCount_setJob]

theorem State.usCount_wipeStepDone (s : State) (c : Channel) :
    (s.wipeStepDone c).usCount = s.usCount := by
  cases hj : s.job c with
  | none => simp only [State.wipeStepDone, hj]
  | some j =>
    simp only [State.wipeStepDone, hj, State.wipeEnd]
    split_ifs
    · rw [(State.usCount_endJob _ _ _).1, State.usCount_setWindow, State.usCount_setJob]
    · rw [State.usCount_setJob]

/-- The ticks counted rise by one only where no millisecond tick is due (R204). -/
theorem usCount_keeps : Keeps (fun s => s.usCount ≤ 1000) := by
  have same : ∀ {s t : State}, t.usCount = s.usCount → s.usCount ≤ 1000 → t.usCount ≤ 1000 :=
    fun h hs => h ▸ hs
  constructor
  case delete => exact fun s p i _ h => same (State.Calm.revoke s i.toNat).usCount h
  case claimEnds =>
    exact fun s t i w p _ _ hc _ h => same ((State.Calm.grantPass t i).usCount.trans hc.usCount) h
  case waitEnds =>
    exact fun s t i w p _ hc _ h => same ((State.Calm.grantPass t i).usCount.trans hc.usCount) h
  case keyed => exact fun s p i l key _ h => same (State.Calm.setGuard s i.toNat _).usCount h
  case cleared => exact fun s p i _ h => same (State.Calm.setGuard s i.toNat _).usCount h
  case compared => exact fun s i b _ h => same (State.Calm.setGuard s i _).usCount h
  case unlocked => exact fun s i p _ h => same (State.Calm.setGuard s i _).usCount h
  case locked => exact fun s i p h => same (State.Calm.setGuard s i _).usCount h
  case torn => exact fun s p h => same (State.Calm.teardownClaims s p).usCount h
  case wipeStart => exact fun s p tag i w _ _ _ _ h => same (s.usCount_wipeStart p tag i w) h
  case scrub => exact fun s e n h => same (by unfold State.applyScrub; split <;> rfl) h
  case startJob => exact fun s j _ _ h => same (s.usCount_startJob j) h
  case ending => exact fun s c j o _ _ _ h => same (s.usCount_setJob c _) h
  case endJob => exact fun s c j o _ _ _ h => same (s.usCount_endJob c o).1 h
  case tornJob => exact fun s p c h => same (s.usCount_teardownJob p c) h
  case handled => exact fun s r b h => same (State.Mends.handleRead s r b).usCount h
  case flipped => exact fun s f h => same (by unfold State.flipBit; simp only; split <;> rfl) h
  case stepEnds => exact fun s c work n good _ _ h => same (s.endFlight.usCount_stepDone c n good) h
  case wipeStepEnds => exact fun s c d _ h => same (s.endFlight.usCount_wipeStepDone c) h
  case signal =>
    exact fun s x h => same (by unfold State.scrubSignal; simp only; split <;> rfl) h
  case tick => exact fun s x _ => Nat.zero_le _
  case microtick =>
    exact fun s hd _ => Nat.succ_le_of_lt (State.millisecondDue_eq_false.1 hd)
  case pending => exact fun _ _ h => h
  case pcu => exact fun _ _ _ _ h => h
  case link => exact fun _ _ _ _ h => h
  case admitCommand => exact fun _ _ _ _ _ _ _ h => h
  case define => exact fun _ _ _ _ _ _ _ _ _ h => h
  case params => exact fun _ _ _ _ _ _ _ _ h => h
  case granted => exact fun _ _ _ _ _ _ _ _ _ _ _ h => h
  case waiting => exact fun _ _ _ _ _ _ _ _ _ _ _ _ h => h
  case lease => exact fun _ _ _ _ _ _ _ h => h
  case newMaster => exact fun _ _ _ h => h
  case comparedMaster => exact fun _ _ h => h
  case freeze => exact fun _ _ _ h => h
  case rotation => exact fun _ _ h => h
  case startPort => exact fun _ _ _ _ _ h => h
  case startStep => exact fun _ _ _ _ _ _ _ _ h => h
  case grantScrub => exact fun _ _ h => h
  case overwritten => exact fun _ _ _ h => h
  case planted => exact fun _ _ _ h => h
  case endPort => exact fun _ _ _ _ h => h
  case endScrub => exact fun _ _ _ _ h => h
  case timer => exact fun _ _ h => h
  case sweep => exact fun _ _ h => h
  case sweepEnd => exact fun _ h => h

/-- A reset leaves the microsecond ticks counted, or begins a first millisecond (log 21). -/
theorem usCount_reset {s t : State}
    (h : (∃ r l, execPowerOn r l s = .next t) ∨ execResetAssert s = .next t ∨
      ∃ l, execResetRelease l s = .next t) : t.usCount = 0 ∨ t.usCount = s.usCount := by
  rcases h with ⟨r, l, h⟩ | h | ⟨l, h⟩
  · cases h; exact Or.inl rfl
  · unfold execResetAssert at h
    split at h <;> cases h <;> exact Or.inr rfl
  · unfold execResetRelease at h
    split at h <;> cases h <;> exact Or.inr rfl

/-- Settles O53: a reset leaves no scrub due and nothing postponed, and counts no tick. -/
theorem stepsKeepTheScrubScheduleAndTheTicks : Obligations.StepsKeepTheScrubScheduleAndTheTicks := by
  refine ⟨fun s t hs h => ?_, fun s t hs h => ?_⟩
  · exact scheduleLawful_keeps.everyStep (fun _ _ _ _ _ _ _ _ _ => scheduleLawful_afterReset) hs h
  · refine usCount_keeps.step hs (fun u v hu hr => ?_) h
    rcases usCount_reset hr with h | h
    · rw [h]; exact Nat.zero_le _
    · rw [h]; exact hu

/-! ### The channels, the windows and the integrity unit's lists -/

/-- Settles O54: both laws hold of a part without jobs and windows, as a reset leaves it. -/
theorem stepsKeepJobsAndWipes : Obligations.StepsKeepJobsAndWipes :=
  ⟨fun _ _ hs h =>
      jobsLawful_keeps.everyStep (fun _ _ _ _ _ _ _ _ _ => jobsLawful_afterReset ..) hs h,
    fun _ _ hj hp hw h =>
      (wipeJobsLawful_keeps.everyStep
        (fun _ _ _ _ _ _ _ _ _ => ⟨⟨jobsLawful_afterReset .., trivial, placementLawful_afterReset⟩,
          wipeJobsLawful_afterReset⟩) ⟨⟨hj, trivial, hp⟩, hw⟩ h).2⟩

/-- Settles O55: the windows' guard records are kept with the channels lawful, the master attempts
counter by itself. -/
theorem stepsKeepGuardsLawful : Obligations.StepsKeepGuardsLawful := fun _ _ hj ⟨hm, hg⟩ h =>
  ⟨(masterAttempts_keeps.everyStep (fun _ _ _ _ _ _ _ _ _ => ⟨trivial, le_refl 4⟩) ⟨trivial, hm⟩ h).2,
    (guardRule_keeps.everyStep (fun _ _ _ _ _ _ _ _ _ =>
      ⟨jobsLawful_afterReset .., everyWindow_afterReset _⟩) ⟨hj, hg⟩ h).2⟩

/-- Settles O56: no window stands after a reset. -/
theorem stepsKeepThePlacementLaw : Obligations.StepsKeepThePlacementLaw := fun _ _ hs h =>
  (placementLawful_keeps.everyStep
    (fun _ _ _ _ _ _ _ _ _ => ⟨trivial, placementLawful_afterReset⟩) ⟨trivial, hs⟩ h).2

/-- Settles O57: no window stands after a reset. -/
theorem stepsKeepClaimsLawful : Obligations.StepsKeepClaimsLawful := fun _ _ hs h =>
  (claimsLawful_keeps.everyStep
    (fun _ _ _ _ _ _ _ _ _ => ⟨trivial, claimsLawful_afterReset⟩) ⟨trivial, hs⟩ h).2

/-- Settles O59: a reset keeps the map and the spares, or empties the one and frees the others. -/
theorem stepsKeepTheIntegrityLists : Obligations.StepsKeepTheIntegrityLists := fun _ _ hs h =>
  integrityLawful_keeps.everyStep (fun _ _ _ _ _ _ _ hs hr =>
    integrityLawful_afterReset (hr.imp_left fun ⟨hm, hp⟩ => ⟨hs, hm, hp⟩)) hs h

/-! ### What a frozen part keeps -/

/-- What R64 says a frozen part keeps, in `t` as it stood in `s`. -/
def State.FrozenAs (s t : State) : Prop :=
  t.frozen = true ∧ t.masterKey = s.masterKey ∧
    ∀ i, (t.window? i).map (fun w => (w.base, w.length, w.policy, w.guard.key, w.activity)) =
      (s.window? i).map (fun w => (w.base, w.length, w.policy, w.guard.key, w.activity))

/-- A change that leaves the layout leaves what a frozen part keeps. -/
theorem State.FrozenAs.sameLayout {s t u : State} (h : s.FrozenAs t) (k : t.SameLayout u) :
    s.FrozenAs u := by
  obtain ⟨hf, hm, hw⟩ := h
  refine ⟨k.frozen.trans hf, k.masterKey.trans hm, fun i => (Eq.trans ?_ (hw i))⟩
  cases ht : t.window? i with
  | none => rw [k.absent i ht]
  | some w =>
    obtain ⟨v, hv, e⟩ := k.present i w ht
    rw [hv]
    simp only [Option.map_some, e.base, e.length, e.policy, e.key, e.activity]

/-- No window is WIPING that was IDLE when the part was frozen. -/
theorem State.FrozenAs.not_wiping {s t : State} (h : s.FrozenAs t)
    (hi : EveryWindow s (fun w => w.activity = .idle)) {i : Nat} {w : Window}
    (hw : t.window? i = some w) : w.activity ≠ .wiping := by
  have e := h.2.2 i
  rw [hw, Option.map_some, eq_comm, Option.map_eq_some_iff] at e
  obtain ⟨v, hv, e⟩ := e
  rw [Prod.mk.injEq, Prod.mk.injEq, Prod.mk.injEq, Prod.mk.injEq] at e
  rw [← e.2.2.2.2, hi i v hv]
  exact Activity.noConfusion

/-- No check of the freeze flag passes on a frozen part. -/
theorem State.layoutChecks_frozen {s : State} (h : s.frozen = true) (p : Port)
    (l : List (Bool × OutcomeCode)) : firstFail (s.layoutChecks p ++ l) ≠ .ok := by
  simp only [State.layoutChecks, h, List.cons_append, firstFail, Bool.not_true, Bool.false_eq_true,
    if_false]
  split <;> exact OutcomeCode.noConfusion

/-- Every change that commands are made of keeps what a frozen part keeps: the layout commands, the
keying of a window, a new master key and a wipe start are refused, and no wipe ends, since no window is
WIPING (R64). -/
theorem State.FrozenAs.keeps {s : State} (hi : EveryWindow s (fun w => w.activity = .idle)) :
    Keeps (fun t => JobsLawful t ∧ s.FrozenAs t) := by
  refine Keeps.ofLayout jobsLawful_keeps (fun t u k h => h.sameLayout k) ?_ ?_ ?_ ?_ ?_ ?_ ?_ ?_ ?_ ?_
  case refine_1 => exact fun t p i b l pol x y _ ho h => absurd ho (State.layoutChecks_frozen h.1 _ _)
  case refine_2 => exact fun t p i sel pol x y _ ho h => absurd ho (State.layoutChecks_frozen h.1 _ _)
  case refine_3 => exact fun t p i _ ho h => absurd ho (State.layoutChecks_frozen h.1 _ _)
  case refine_4 => exact fun t p i l key _ ho h => by simp [setKeyOutcome, firstFail, h.1] at ho
  case refine_5 => exact fun t p i _ ho h => by simp [clearKeyOutcome, firstFail, h.1] at ho
  case refine_6 => exact fun t key _ hf h => absurd h.1 (by rw [hf]; exact Bool.false_ne_true)
  case refine_7 => exact fun t b _ h => h
  case refine_8 => exact fun t p _ _ h => ⟨rfl, h.2⟩
  case refine_9 =>
    exact fun t p tag i w _ _ _ hf _ h => absurd h.1 (by rw [hf]; exact Bool.false_ne_true)
  case refine_10 =>
    intro t c d hj hfl h
    obtain ⟨j, hjob, hk⟩ := hj.1 c _ hfl
    obtain ⟨-, w, hw, ha⟩ := hj.2.2.1 c j hjob hk
    exact absurd ha (h.not_wiping hi hw)

/-- Settles O60: what a frozen part keeps holds of the part itself, and every command but a reset
keeps it. -/
theorem freezeFixesLayoutAndKeys : Obligations.FreezeFixesLayoutAndKeys :=
  fun _ _ _ hj hf hi h1 h2 h3 h =>
    ((State.FrozenAs.keeps hi).exec ⟨hj, hf, rfl, fun _ => rfl⟩ h1 h2 h3 h).2

end Sys2Proof.Machine

/-! What the takings share: the command that needs no array at its taking, its checks beside the words of
the statements, and what a calm change leaves of the part. -/

namespace Sys2Proof.Machine

/-! ### The command carried out at its taking -/

/-- A command that needs no array is carried out in the event of its taking, and no request arrives at
the arbiter (R97, R174). -/
theorem exec_taking_of_not_usesArray {s : State} {p : Port} {tag : Byte} {c : Command}
    {rest : List Entry} (h : s.takes p tag c rest) (hc : CommandKind.usesArray c.kind = false) :
    exec (CommandKind.taking p c.kind) s =
      .next (carryOut (s.beginTake p) p tag (s.preparedFor p) c) := by
  rw [exec_taking h, ((State.Calm.beginTake s p).restful.trans (carryOut_restful ..)).arrive]
  exact hc

/-- A command with ordered checks whose effect is made inside its taking. -/
theorem State.Shadows.finishWith {s effect e : State} {p : Port} (h : State.Shadows p effect e)
    (tag : Byte) (k : CommandKind) (o : OutcomeCode) :
    (s.beginTake p).finishWith p tag k o e = s.answersWith p tag k o effect := by
  unfold State.finishWith State.answersWith
  split
  · next ho => rw [ho, h.finish]
  · rw [State.finish_beginTake]

/-! ### What a calm change leaves, in the words of the statements -/

section Calm

variable {s t : State}

theorem State.Calm.sameArray (h : s.Calm t) : SameArray s t :=
  ⟨fun _ => by rw [h.mem], h.flips, h.poisoned, h.suspects, h.remap, h.spares, h.correctedTotal,
    h.retirementsTotal⟩

theorem State.Calm.sameDevice (h : s.Calm t) : SameDevice s t :=
  ⟨h.phase, h.layoutPort, h.msCount, h.usCount, h.sweepPointer, h.pending⟩

theorem State.Calm.sameKeys (h : s.Calm t) : SameKeys s t := ⟨h.masterKey, h.masterAttempts, h.frozen⟩

theorem State.Calm.sameScrub (h : s.Calm t) : SameScrub s t :=
  ⟨h.scrubEnabled, h.scrubInterval, h.scrubTimer, h.scrubPointer⟩

theorem State.Calm.sameArbiter (h : s.Calm t) : SameArbiter s t :=
  ⟨h.rotation, h.scrubDue, h.postponed, h.inFlight⟩

theorem State.Calm.sameJobs (h : s.Calm t) : SameJobs s t := ⟨h.c0, h.c1⟩

end Calm

/-! ### Jobs that name a window -/

/-- A job names a window as its source or its destination (R133). -/
theorem Job.names_iff (j : Job) (i : Nat) :
    j.names i = true ↔ j.dest.window = i ∨ ∃ x, j.source = some x ∧ x.window = i := by
  simp only [Job.names, Bool.or_eq_true, beq_iff_eq, Option.any_eq_true]

/-- The jobs on both channels, one after the other. -/
theorem State.forall_job_iff {s : State} {P : Job → Prop} :
    (∀ c j, s.job c = some j → P j) ↔ (∀ j, s.c0 = some j → P j) ∧ ∀ j, s.c1 = some j → P j :=
  ⟨fun h => ⟨h .c0, h .c1⟩, fun ⟨h0, h1⟩ c => match c with
    | .c0 => h0
    | .c1 => h1⟩

/-- No job on either channel names a window (R19, check 6). -/
theorem State.jobNames_eq_false {s : State} {i : Nat} :
    s.jobNames i = false ↔ ∀ c j, s.job c = some j →
      j.dest.window ≠ i ∧ ∀ x, j.source = some x → x.window ≠ i := by
  have names : ∀ j : Job, j.names i = false ↔
      j.dest.window ≠ i ∧ ∀ x, j.source = some x → x.window ≠ i := fun j => by
    rw [← Bool.not_eq_true, Job.names_iff, not_or, not_exists]
    simp only [not_and, ne_eq]
  simp only [State.jobNames, Bool.or_eq_false_iff, Option.any_eq_false, names,
    State.forall_job_iff]

end Sys2Proof.Machine

/-! DELETE WINDOW and the revocation: the checks as a verdict, and what becomes of each port (R19, R20,
R48). -/

namespace Sys2Proof.Machine

/-- The checks of DELETE WINDOW, in the words of the statement (R19). -/
def DeleteChecks (s : State) (p : Port) (i : Byte) : List (Prop × OutcomeCode) :=
  [ (s.layoutPort = p, .notLayoutPort),
    (s.frozen = false, .frozen),
    (i.toNat < 32, .badParameter),
    (s.window? i.toNat ≠ none, .noWindow),
    (∀ w, s.window? i.toNat = some w → w.guard.key = none, .keyed),
    ((∀ w, s.window? i.toNat = some w → w.activity = .idle) ∧
      ∀ c j, s.job c = some j → j.dest.window ≠ i.toNat ∧
        ∀ x, j.source = some x → x.window ≠ i.toNat, .busyWindow) ]

/-- The outcome that DELETE WINDOW computes is the verdict of its checks (R19). -/
theorem eq_deleteOutcome_of_verdict {s : State} {p : Port} {i : Byte} {o : OutcomeCode}
    (h : Verdict (DeleteChecks s p i) o) : o = deleteOutcome s p i :=
  h.firstFail_layoutChecks fun h =>
    h.firstFail_cons decide_eq_true_iff.symm fun _ h =>
    h.firstFail_cons Option.isSome_iff_ne_none.symm fun hdef h =>
    h.firstFail_cons (by simp only [any_iff_of_defined hdef, Option.isNone_iff_eq_none]) fun _ h =>
    h.firstFail_cons (by rw [Bool.and_eq_true, any_iff_of_defined hdef, Bool.not_eq_true',
      State.jobNames_eq_false]; simp only [beq_iff_eq]) fun _ h => h

/-- A holder of a window with a lawful claim part does not wait for it (R24). -/
theorem Window.ClaimsLawful.not_waits {w : Window} (h : w.ClaimsLawful) {q : Port}
    (hq : w.holds q = true) : w.waits q = false := by
  obtain ⟨-, -, -, hapart, -⟩ := h
  rw [Window.waits, List.any_eq_false]
  intro x hx hxq
  have := hapart x hx
  rw [beq_iff_eq.1 hxq, hq] at this
  cases this

/-- Settles O18: the effect is made inside the taking, which shadows it; and a revocation is a calm
change whose PCUs are known port by port. -/
theorem deleteWindowRevokesAndRemoves : Obligations.DeleteWindowRevokesAndRemoves := by
  refine ⟨fun s p tag i rest o ht (hv : Verdict (DeleteChecks s p i) o) => ?_,
    fun s i w hw hlaw => ?_⟩
  · rw [show exec (.deleteWindow p) s = .next (doDeleteWindow (s.beginTake p) p tag i) from
      exec_taking_of_not_usesArray ht rfl, eq_deleteOutcome_of_verdict hv]
    exact congrArg _ ((((State.Shadows.beginTake s p).revoke i.toNat).setWindow i.toNat none).finishWith
      tag _ _)
  · have calm := State.Calm.revoke s i
    obtain ⟨-, -, hnodup, hapart, -⟩ := id hlaw
    refine ⟨?_, fun j hj => ?_, fun q hq => State.pcu_revoke_holder hw hq (hlaw.not_waits hq),
      fun x hx => State.pcu_revoke_waiter hw hnodup hx (hapart x hx),
      fun q h1 h2 => State.pcu_revoke_other hw h1 h2, calm.links, calm.sameArray, calm.sameDevice,
      calm.sameKeys, calm.sameScrub, calm.sameArbiter, calm.sameJobs⟩
    · rw [State.window?_revoke, if_pos rfl, hw]
      rfl
    · rw [State.window?_revoke, if_neg hj]

end Sys2Proof.Machine

/-! CLAIM and RELEASE at their takings: the checks as a verdict, when a claim is grantable, and the end of
a claim or of a wait (R27 to R29, R36 to R39). -/

namespace Sys2Proof.Machine

/-! ### CLAIM -/

/-- The checks of CLAIM, in the words of the statement (R27). -/
def ClaimChecks (s : State) (p : Port) (i kind wait : Byte) : List (Prop × OutcomeCode) :=
  [ (s.window? i.toNat ≠ none, .noWindow),
    (∀ w, s.window? i.toNat = some w → w.activity = .idle, .busyWindow),
    (∀ w, s.window? i.toNat = some w → w.policy ≠ .free, .notClaimable),
    (∀ w, s.window? i.toNat = some w →
      w.guard.key = none ∨ w.guard.unlocked.get p = true, .locked),
    (∀ w, s.window? i.toNat = some w → w.holds p = false ∧ ∀ x ∈ w.waiters, x.port ≠ p,
      .alreadyHeld),
    ((kind = 1#8 ∨ kind = 2#8) ∧ (wait = 0#8 ∨ wait = 1#8), .badParameter) ]

theorem claimKindOf_isSome (b : Byte) : (claimKindOf b).isSome = true ↔ b = 1#8 ∨ b = 2#8 := by
  unfold claimKindOf
  by_cases h1 : b = 1#8
  · simp [h1]
  · by_cases h2 : b = 2#8 <;> simp [h1, h2]

theorem waitChoiceOf_isSome (b : Byte) : (waitChoiceOf b).isSome = true ↔ b = 0#8 ∨ b = 1#8 := by
  unfold waitChoiceOf
  by_cases h1 : b = 0#8
  · simp [h1]
  · by_cases h2 : b = 1#8 <;> simp [h1, h2]

/-- The claim kind of a code, in the words of the statement (12.3). -/
theorem claimKindOf_eq_some {b : Byte} {k : ClaimKind}
    (h : b = 1#8 ∧ k = .read ∨ b = 2#8 ∧ k = .write) : claimKindOf b = some k := by
  rcases h with ⟨rfl, rfl⟩ | ⟨rfl, rfl⟩ <;> rfl

theorem Window.waits_eq_false {w : Window} {p : Port} :
    w.waits p = false ↔ ∀ x ∈ w.waiters, x.port ≠ p := by
  simp only [Window.waits, List.any_eq_false, beq_iff_eq, ne_eq]

theorem Window.port_of_find? {w : Window} {p : Port} {x : Waiter}
    (h : w.waiters.find? (fun y => y.port == p) = some x) : x.port = p := by
  have := List.find?_some h
  exact beq_iff_eq.1 this

/-- The guard check of a window (R53). -/
theorem Window.guardPasses_iff {w : Window} {p : Port} :
    w.guardPasses p = true ↔ w.guard.key = none ∨ w.guard.unlocked.get p = true := by
  rw [Window.guardPasses, Bool.or_eq_true, Option.isNone_iff_eq_none]

/-- The outcome that CLAIM computes is the verdict of its checks (R27). -/
theorem eq_claimOutcome_of_verdict {s : State} {p : Port} {i kind wait : Byte} {o : OutcomeCode}
    (h : Verdict (ClaimChecks s p i kind wait) o) : o = claimOutcome s p i kind wait :=
  h.firstFail_cons Option.isSome_iff_ne_none.symm fun hdef h =>
    h.firstFail_cons (by simp only [any_iff_of_defined hdef, beq_iff_eq]) fun _ h =>
    h.firstFail_cons (by simp only [any_iff_of_defined hdef, bne_iff_ne]) fun _ h =>
    h.firstFail_cons (by simp only [any_iff_of_defined hdef, Window.guardPasses_iff]) fun _ h =>
    h.firstFail_cons (by simp only [any_iff_of_defined hdef, Bool.and_eq_true, Bool.not_eq_true',
      Window.waits_eq_false]) fun _ h =>
    h.firstFail_cons (by rw [Bool.and_eq_true, claimKindOf_isSome, waitChoiceOf_isSome]) fun _ h => h

/-- A claim is grantable where nobody waits and the holders allow it (R28). -/
theorem Window.grantable_iff {w : Window} {k : ClaimKind} :
    w.grantable k = true ↔ w.waiters = [] ∧
      (k = .read ∧ w.claimState ≠ .writeHeld ∨ k = .write ∧ ∀ q, w.holds q = false) := by
  cases k with
  | read => simp [Window.grantable, and_comm]
  | write => simp [Window.grantable, Window.noHolders_iff, and_comm]

/-- A CLAIM that passes its checks is granted, completes WOULD_WAIT, or waits (R28, R29). -/
theorem doClaim_of_ok {s : State} {p : Port} {i kind wait : Byte} {w : Window} {k : ClaimKind}
    {c : Bool} (h : claimOutcome s p i kind wait = .ok) (hw : s.window? i.toNat = some w)
    (hk : claimKindOf kind = some k) (hc : waitChoiceOf wait = some c) (tag : Byte) :
    doClaim s p tag i kind wait = claimDecide s p tag i k c w := by
  simp only [doClaim, h, if_true, hw, hk, hc]

/-- Settles O19, by the outcome of the checks and then by whether the claim is grantable: the first
steps of the taking leave the windows and the tick count. -/
theorem claimIsRefusedGrantedOrWaits : Obligations.ClaimIsRefusedGrantedOrWaits := by
  intro s p tag i kind wait rest o ht (hv : Verdict (ClaimChecks s p i kind wait) o)
  have ho : claimOutcome (s.beginTake p) p i kind wait = o := (eq_claimOutcome_of_verdict hv).symm
  rw [show exec (.claim p) s = .next (doClaim (s.beginTake p) p tag i kind wait) from
    exec_taking_of_not_usesArray ht rfl]
  refine ⟨fun hne => ?_, ?_⟩
  · rw [doClaim, if_neg (ho ▸ hne), ho, State.finish_beginTake]
  · rintro rfl w k hw hkind grantable hg
    have hw' : (s.beginTake p).window? i.toNat = some w := hw
    have decided : ∀ c, waitChoiceOf wait = some c → doClaim (s.beginTake p) p tag i kind wait =
        claimDecide (s.beginTake p) p tag i k c w := fun c hc =>
      doClaim_of_ok ho hw' (claimKindOf_eq_some hkind) hc tag
    rw [← Window.grantable_iff] at hg
    refine ⟨fun hgr => ?_, fun hgr h0 => ?_, fun hgr h1 => ?_⟩
    · obtain ⟨c, hc⟩ := Option.isSome_iff_exists.1 <| (waitChoiceOf_isSome wait).2 <| by
        have hall := hv.holds_of_ok (by simp [ClaimChecks])
        simp only [ClaimChecks, List.forall_mem_cons] at hall
        obtain ⟨-, -, -, -, -, ⟨-, hwait⟩, -⟩ := hall
        exact hwait
      rw [decided c hc, claimDecide, if_pos (hg.1 hgr), State.finish_beginTake_setWindow,
        Window.grantClaim_eq]
      rfl
    · rw [decided false (by rw [h0]; rfl), claimDecide, if_neg (hgr ∘ hg.2), if_neg Bool.false_ne_true,
        State.finish_beginTake]
    · rw [decided true (by rw [h1]; rfl), claimDecide, if_neg (hgr ∘ hg.2), if_pos rfl,
        State.leaveQueue_beginTake_setWindow]
      rfl

/-! ### RELEASE -/

/-- RELEASE from a holder ends its claim (R36). -/
theorem doRelease_of_holds {s : State} {p : Port} {i : Byte} {w : Window}
    (hw : s.window? i.toNat = some w) (hp : w.holds p = true) (tag : Byte) :
    doRelease s p tag i =
      ((s.setWindow i.toNat (some (w.removeHolder p))).finish p tag .release .ok).grantPass i.toNat := by
  simp only [doRelease, hw, hp, if_true]

/-- RELEASE from a waiter cancels its wait (R37). -/
theorem doRelease_of_waits {s : State} {p : Port} {i : Byte} {w : Window} {x : Waiter}
    (hw : s.window? i.toNat = some w) (hp : w.holds p = false)
    (hx : w.waiters.find? (fun y => y.port == p) = some x) (tag : Byte) :
    doRelease s p tag i =
      (((s.setWindow i.toNat (some (w.removeWaiter p))).completeWait x .cancelled).finish p tag
        .release .ok).grantPass i.toNat := by
  simp only [doRelease, hw, hp, hx, Bool.false_eq_true, if_false]

/-- RELEASE from any other port completes NOT_HELD (R38). -/
theorem doRelease_of_neither {s : State} {p : Port} {i : Byte}
    (h : ∀ w, s.window? i.toNat = some w → w.holds p = false ∧ ∀ x ∈ w.waiters, x.port ≠ p)
    (tag : Byte) : doRelease s p tag i = s.finish p tag .release .notHeld := by
  cases hw : s.window? i.toNat with
  | none => simp only [doRelease, hw]
  | some w =>
    obtain ⟨hp, hx⟩ := h w hw
    have hnone : w.waiters.find? (fun y => y.port == p) = none := by
      simpa only [List.find?_eq_none, beq_iff_eq] using hx
    simp only [doRelease, hw, hp, hnone, Bool.false_eq_true, if_false]

/-- Settles O20, by whether the port holds, waits or neither: what is done inside the taking is what is
done outside it. -/
theorem releaseEndsAClaimOrAWait : Obligations.ReleaseEndsAClaimOrAWait := by
  refine ⟨fun s p tag i rest ht => ?_, fun s p c => rfl⟩
  rw [show exec (.release p) s = .next (doRelease (s.beginTake p) p tag i) from
    exec_taking_of_not_usesArray ht rfl]
  refine ⟨fun w hw hp => ?_, fun w x hw hp hx => ?_, fun h => ?_⟩
  · rw [doRelease_of_holds (s := s.beginTake p) hw hp, State.finish_beginTake_setWindow,
      Window.removeHolder_eq]
  · have hport := Window.port_of_find? hx
    have inside := ((State.Shadows.beginTake s p).setWindow i.toNat (some (w.removeWaiter p))).complete p
      ⟨x.tag, .claim, .cancelled, .none⟩
    rw [doRelease_of_waits (s := s.beginTake p) hw hp hx, State.completeWait, hport, inside.finish]
    rfl
  · rw [doRelease_of_neither (s := s.beginTake p) h, State.finish_beginTake]

end Sys2Proof.Machine

/-! The grant pass (R31 to R33) and the timer events of a window (R34, R42, R43). -/

namespace Sys2Proof.Machine

/-! ### The grant pass -/

/-- A grant pass on a defined window, written out. -/
theorem State.grantPass_of_window {s : State} {i : Nat} {w : Window} (hw : s.window? i = some w) :
    s.grantPass i = w.passGrants.foldl (fun t x => t.completeWait x .ok)
      (s.setWindow i (some (w.afterPass s.msCount))) := by
  simp only [State.grantPass, hw]

/-- Where readers are granted, they are granted up to the first waiting writer (R32). -/
theorem Window.head_left_of_readers {w : Window} (h : w.passGrants =
    w.waiters.takeWhile (fun x => x.kind == .read)) {x : Waiter} {l : List Waiter}
    (hx : w.waiters.drop w.passGrants.length = x :: l) : x.kind = .write := by
  have hdrop : w.waiters.dropWhile (fun x => x.kind == .read) = x :: l := by
    have happ := w.passGrants_append
    rw [hx, h] at happ
    exact List.append_cancel_left ((List.takeWhile_append_dropWhile).trans happ.symm)
  have := List.head?_dropWhile_not (fun x : Waiter => x.kind == .read) w.waiters
  rw [hdrop] at this
  cases hk : x.kind with
  | write => rfl
  | read => simp [hk] at this

/-- A pass grants the waiting readers where only readers hold or the window is unclaimed with a reader
at the head (R32). -/
theorem Window.passGrants_readers {w : Window}
    (h : (w.claimState = .unclaimed ∧ ∀ x l, w.waiters = x :: l → x.kind = .read) ∨
      w.claimState = .readHeld) :
    w.passGrants = w.waiters.takeWhile (fun x => x.kind == .read) := by
  unfold Window.passGrants
  rcases h with ⟨hc, hx⟩ | hc
  · simp only [hc]
    cases hw : w.waiters with
    | nil => rfl
    | cons x l => simp [hx x l hw]
  · simp only [hc]

/-- The claim state after a pass is that of the kind granted (R33). -/
theorem Window.afterPass_claimState_of_mem {w : Window} {x : Waiter} (hx : x ∈ w.passGrants)
    (now : Tick) :
    (w.afterPass now).claimState = if x.kind = .read then .readHeld else .writeHeld := by
  obtain ⟨k, hk, -⟩ := w.passGrants_kind
  rw [Window.afterPass_claimState w now k hk, if_neg (List.ne_nil_of_mem hx), hk x hx]
  cases k <;> rfl

/-- A pass that grants nobody leaves the window as it was. -/
theorem Window.afterPass_of_passGrants_nil {w : Window} (h : w.passGrants = []) (now : Tick) :
    w.afterPass now = w := by
  rw [Window.afterPass, h]
  rfl

/-- After a pass nobody waits, a writer holds, or readers hold and a writer waits first: no further
grant is possible (R32). -/
theorem Window.afterPass_done (w : Window) (now : Tick) :
    w.waiters.drop w.passGrants.length = [] ∨ (w.afterPass now).claimState = .writeHeld ∨
      ((w.afterPass now).claimState = .readHeld ∧
        ∃ x l, w.waiters.drop w.passGrants.length = x :: l ∧ x.kind = .write) := by
  obtain ⟨k, hk, hwrite, hread, hfree⟩ := w.passGrants_kind
  have hstate := w.afterPass_claimState now k hk
  cases hleft : w.waiters.drop w.passGrants.length with
  | nil => exact Or.inl rfl
  | cons x l =>
    refine Or.inr ?_
    cases hc : w.claimState with
    | writeHeld => exact Or.inl (by rw [hstate, if_pos (hwrite hc), hc])
    | readHeld =>
      refine Or.inr ⟨?_, x, l, rfl, Window.head_left_of_readers
        (Window.passGrants_readers (Or.inr hc)) hleft⟩
      rw [hstate, hread hc, hc]
      split <;> rfl
    | unclaimed =>
      cases hw : w.waiters with
      | nil => rw [hw, List.drop_nil] at hleft; cases hleft
      | cons y m =>
        obtain ⟨hy, hne, -⟩ := hfree hc y m hw
        rw [hstate, if_neg hne]
        cases k with
        | write => exact Or.inl rfl
        | read =>
          refine Or.inr ⟨rfl, x, l, rfl, Window.head_left_of_readers
            (Window.passGrants_readers (Or.inl ⟨hc, fun z n hz => ?_⟩)) hleft⟩
          rw [hw] at hz
          cases hz
          exact hy

/-- Settles O22: the waiters granted are the head of the queue that `passGrants` names, and the window is
the one after their grants. -/
theorem grantPassHandsTheWindowOn : Obligations.GrantPassHandsTheWindowOn := by
  intro s i w hw _ hnodup _
  have heq := w.afterPass_eq s.msCount
  have hwaiters : (w.afterPass s.msCount).waiters = w.waiters.drop w.passGrants.length :=
    congrArg Window.waiters heq
  obtain ⟨k, hk, hwrite, hread, hfree⟩ := w.passGrants_kind
  have hgn : (w.passGrants.map Waiter.port).Nodup := by
    obtain ⟨r, hr⟩ := w.passGrants_prefix
    rw [← hr, List.map_append] at hnodup
    exact (List.nodup_append.1 hnodup).1
  refine ⟨w.passGrants, w.afterPass s.msCount, ?_, ?_, hwrite,
    fun h => Window.afterPass_of_passGrants_nil h _, fun hc x l hx hxw => ?_, fun h => ?_,
    fun x hx => ⟨?_, Window.afterPass_claimState_of_mem hx _, ?_⟩, fun q hq => ⟨?_, ?_⟩, ?_, ?_, ?_, ?_⟩
  · rw [hwaiters, Window.passGrants_append]
  · rw [State.window?_grantPass, if_pos rfl, hw]
    rfl
  · obtain ⟨hxk, -, hone⟩ := hfree hc x l hx
    exact hone (hxk.symm.trans hxw)
  · have hg := Window.passGrants_readers h
    refine ⟨fun x hx => ?_, fun x l hx => Window.head_left_of_readers hg (hwaiters ▸ hx)⟩
    rw [hg] at hx
    have := List.mem_takeWhile_imp hx
    exact beq_iff_eq.1 this
  · rw [Window.afterPass_holders, if_pos ⟨x, hx, rfl⟩, newLease_eq]
  · rw [State.grantPass_of_window hw, State.pcu_foldl_completeWait _ hgn _ _ x hx]
    rfl
  · rw [Window.afterPass_holders, if_neg fun ⟨x, hx, hxq⟩ => hq x hx hxq]
  · rw [State.grantPass_of_window hw, State.pcu_foldl_completeWait_ne _ _ _ _ hq]
    rfl
  · rw [hwaiters]
    exact Window.afterPass_done w s.msCount
  · rw [hwaiters]
    exact heq
  · intro j hj
    rw [State.window?_grantPass, if_neg hj]
  · exact (State.Calm.grantPass s i).frame

/-! ### Timer events -/

/-- A lease-low point is due where the remaining time is the low point and no notice was sent in the
term (R42). -/
theorem Lease.lowDue_iff {l : Lease} {now : Tick} :
    l.lowDue now = true ↔ l.lowSent = false ∧
      ∃ d q, l.deadline = some d ∧ l.lowPoint = some q ∧ (d - now).toNat = q := by
  unfold Lease.lowDue remainingMs
  cases l.deadline with
  | none => simp
  | some d =>
    cases l.lowPoint with
    | none => simp
    | some q =>
      simp only [Bool.and_eq_true, beq_iff_eq, Bool.not_eq_true']
      rw [and_comm]
      refine and_congr_right fun _ => ⟨fun h => ⟨d, q, rfl, rfl, h⟩, ?_⟩
      rintro ⟨_, _, ⟨⟩, ⟨⟩, h⟩
      exact h

theorem reached_iff {d : Option Tick} {now : Tick} : reached d now = true ↔ d = some now := by
  rw [reached, beq_iff_eq]

theorem State.leaseLow_of_holder {s : State} {i : Nat} {p : Port} {w : Window} {l : Lease}
    (hw : s.window? i = some w) (hl : w.holders.get p = some l) :
    s.leaseLow i p = if l.lowDue s.msCount then
      (s.setWindow i (some { w with holders := w.holders.set p (some { l with lowSent := true }) })).post
        p (.leaseLow i) else s := by
  simp only [State.leaseLow, hw, hl]

theorem State.leaseExpire_of_holder {s : State} {i : Nat} {p : Port} {w : Window} {l : Lease}
    (hw : s.window? i = some w) (hl : w.holders.get p = some l) :
    s.leaseExpire i p = if reached l.deadline s.msCount then
      ((s.setWindow i (some (w.removeHolder p))).post p (.leaseExpired i)).grantPass i else s := by
  simp only [State.leaseExpire, hw, hl]

theorem State.waitExpire_of_waiter {s : State} {i : Nat} {p : Port} {w : Window} {x : Waiter}
    (hw : s.window? i = some w) (hx : w.waiters.find? (fun y => y.port == p) = some x) :
    s.waitExpire i p = if reached x.deadline s.msCount then
      ((s.setWindow i (some (w.removeWaiter p))).completeWait x .timedOut).grantPass i else s := by
  simp only [State.waitExpire, hw, hx]

/-- Settles O23: each row acts where its holder or waiter stands and its point of time is reached, and
leaves the state otherwise. -/
theorem timerEventsOfAWindow : Obligations.TimerEventsOfAWindow := by
  refine ⟨fun s p i hw => ?_, fun s p i w hw => ⟨fun hl => ?_, fun l hl hne => ?_, fun l hl hne => ?_,
    fun hx => ?_, fun x hx hne => ?_, fun l d q hl hd hq hs hr => ?_, fun l hl hs => ?_,
    fun l hl hd => ?_, fun x hx hd => ?_⟩⟩
  · simp only [exec, execLeaseLowPoint, execLeaseExpiry, execWaitExpiry, State.leaseLow,
      State.leaseExpire, State.waitExpire, hw, and_self]
  · simp only [exec, execLeaseLowPoint, execLeaseExpiry, State.leaseLow, State.leaseExpire, hw, hl,
      and_self]
  · have hdue : ¬ l.lowDue s.msCount = true := fun h => by
      obtain ⟨-, d, q, hd, hq, hr⟩ := Lease.lowDue_iff.1 h
      exact hne d q hd hq hr
    rw [exec, execLeaseLowPoint, State.leaseLow_of_holder hw hl, if_neg hdue]
  · rw [exec, execLeaseExpiry, State.leaseExpire_of_holder hw hl, if_neg (hne ∘ reached_iff.1)]
  · have hnone : w.waiters.find? (fun y => y.port == p) = none := by
      simpa only [List.find?_eq_none, beq_iff_eq] using hx
    simp only [exec, execWaitExpiry, State.waitExpire, hw, hnone]
  · rw [exec, execWaitExpiry, State.waitExpire_of_waiter hw hx, if_neg (hne ∘ reached_iff.1)]
  · rw [exec, execLeaseLowPoint, State.leaseLow_of_holder hw hl,
      if_pos (Lease.lowDue_iff.2 ⟨hs, d, q, hd, hq, hr⟩)]
    rfl
  · have hdue : ¬ l.lowDue s.msCount = true := fun h => by
      rw [(Lease.lowDue_iff.1 h).1] at hs
      cases hs
    rw [exec, execLeaseLowPoint, State.leaseLow_of_holder hw hl, if_neg hdue]
  · rw [exec, execLeaseExpiry, State.leaseExpire_of_holder hw hl, if_pos (reached_iff.2 hd),
      Window.removeHolder_eq]
    rfl
  · have hport := Window.port_of_find? hx
    rw [exec, execWaitExpiry, State.waitExpire_of_waiter hw hx, if_pos (reached_iff.2 hd),
      State.completeWait, hport]
    rfl

end Sys2Proof.Machine

/-! The guard unit's commands at their takings: SET KEY, CLEAR KEY, UNLOCK, LOCK, SET MASTER KEY and
FREEZE (R54 to R63). -/

namespace Sys2Proof.Machine

/-! ### The guard record of a window -/

/-- Storing the record that stands changes nothing. -/
theorem State.setWindow_window? (s : State) (i : Nat) : s.setWindow i (s.window? i) = s := by
  have : s.windows.setIfInBounds i (s.window? i) = s.windows := by
    apply Vector.ext
    intro j hj
    rw [Vector.getElem_setIfInBounds]
    split
    · next h =>
      subst h
      simp only [State.window?, Vector.getElem?_eq_getElem hj, Option.join_some]
    · rfl
  rw [State.setWindow, this]

/-- A change of a guard record, defined or absent, as a change of the window record. -/
theorem State.setGuard_eq_setWindow (s : State) (i : Nat) (f : Guard → Guard) :
    s.setGuard i f = s.setWindow i ((s.window? i).map (fun w => { w with guard := f w.guard })) := by
  cases hw : s.window? i with
  | none => rw [Option.map_none, ← hw, State.setWindow_window?, State.setGuard, hw]
  | some w => rw [State.setGuard_some hw, Option.map_some]

/-- Two changes of one guard record, one after the other. -/
theorem State.setGuard_setGuard (s : State) (i : Nat) (f g : Guard → Guard) :
    (s.setGuard i f).setGuard i g = s.setGuard i (fun x => g (f x)) := by
  rw [State.setGuard_eq_setWindow (s.setGuard i f), State.window?_setGuard, if_pos rfl,
    State.setGuard_eq_setWindow s, State.setGuard_eq_setWindow s, State.setWindow_setWindow,
    Option.map_map]
  rfl

theorem State.Shadows.setGuard {p : Port} {s t : State} (h : State.Shadows p s t) (i : Nat)
    (f : Guard → Guard) : State.Shadows p (s.setGuard i f) (t.setGuard i f) := by
  rw [State.setGuard_eq_setWindow, State.setGuard_eq_setWindow, h.window?]
  exact h.setWindow i _

theorem State.pcus_setGuard (s : State) (i : Nat) (f : Guard → Guard) :
    (s.setGuard i f).pcus = s.pcus := by
  rw [State.setGuard_eq_setWindow]
  rfl

/-! ### SET KEY and CLEAR KEY -/

/-- The write claim of a window (R23). -/
theorem Window.holdsWrite_iff {w : Window} {p : Port} :
    w.holdsWrite p = true ↔ w.claimState = .writeHeld ∧ w.holds p = true := by
  rw [Window.holdsWrite, Bool.and_eq_true, beq_iff_eq]

theorem levelOf_isSome (b : Byte) : (levelOf b).isSome = true ↔ b = 0#8 ∨ b = 1#8 := by
  unfold levelOf
  by_cases h1 : b = 0#8
  · simp [h1]
  · by_cases h2 : b = 1#8 <;> simp [h1, h2]

/-- The level of a defined code, in the words of the statement (12.3). -/
theorem levelOf_getD {b : Byte} (h : b = 0#8 ∨ b = 1#8) :
    (levelOf b).getD .standard = if b = 0#8 then .standard else .strict := by
  rcases h with rfl | rfl <;> rfl

/-- The checks of SET KEY, in the words of the statement (R54). -/
def SetKeyChecks (s : State) (p : Port) (i level : Byte) : List (Prop × OutcomeCode) :=
  [ (s.frozen = false, .frozen),
    (s.window? i.toNat ≠ none, .noWindow),
    (∀ w, s.window? i.toNat = some w → w.activity = .idle, .busyWindow),
    (∀ w, s.window? i.toNat = some w → w.claimState = .writeHeld ∧ w.holds p = true, .notHeld),
    (∀ w, s.window? i.toNat = some w → w.guard.key = none, .keyed),
    (level = 0#8 ∨ level = 1#8, .badParameter) ]

/-- The outcome that SET KEY computes is the verdict of its checks (R54). -/
theorem eq_setKeyOutcome_of_verdict {s : State} {p : Port} {i level : Byte} {o : OutcomeCode}
    (h : Verdict (SetKeyChecks s p i level) o) : o = setKeyOutcome s p i level :=
  h.firstFail_cons (iff_of_eq (Bool.not_eq_true' _)).symm fun _ h =>
    h.firstFail_cons Option.isSome_iff_ne_none.symm fun hdef h =>
    h.firstFail_cons (by simp only [any_iff_of_defined hdef, beq_iff_eq]) fun _ h =>
    h.firstFail_cons (by simp only [any_iff_of_defined hdef, Window.holdsWrite_iff]) fun _ h =>
    h.firstFail_cons (by simp only [any_iff_of_defined hdef, Option.isNone_iff_eq_none]) fun _ h =>
    h.firstFail_cons (levelOf_isSome level).symm fun _ h => h

/-- SET KEY passes its checks with a defined level code alone (R54, check 6). -/
theorem levelDefined_of_setKeyChecks {s : State} {p : Port} {i level : Byte}
    (h : Verdict (SetKeyChecks s p i level) .ok) : level = 0#8 ∨ level = 1#8 := by
  have hall := h.holds_of_ok (by simp [SetKeyChecks])
  simp only [SetKeyChecks, List.forall_mem_cons] at hall
  obtain ⟨-, -, -, -, -, hlevel, -⟩ := hall
  exact hlevel

/-- The checks of CLEAR KEY, in the words of the statement (R55). -/
def ClearKeyChecks (s : State) (p : Port) (i : Byte) : List (Prop × OutcomeCode) :=
  [ (s.frozen = false, .frozen),
    (s.window? i.toNat ≠ none, .noWindow),
    (∀ w, s.window? i.toNat = some w → w.claimState = .writeHeld ∧ w.holds p = true, .notHeld),
    (∀ w, s.window? i.toNat = some w → w.guard.key ≠ none, .notKeyed),
    (∀ w, s.window? i.toNat = some w → w.guard.attempts ≠ 0, .barred),
    (∀ w, s.window? i.toNat = some w → w.guard.unlocked.get p = true, .locked) ]

/-- The outcome that CLEAR KEY computes is the verdict of its checks (R55). -/
theorem eq_clearKeyOutcome_of_verdict {s : State} {p : Port} {i : Byte} {o : OutcomeCode}
    (h : Verdict (ClearKeyChecks s p i) o) : o = clearKeyOutcome s p i :=
  h.firstFail_cons (iff_of_eq (Bool.not_eq_true' _)).symm fun _ h =>
    h.firstFail_cons Option.isSome_iff_ne_none.symm fun hdef h =>
    h.firstFail_cons (by simp only [any_iff_of_defined hdef, Window.holdsWrite_iff]) fun _ h =>
    h.firstFail_cons (by simp only [any_iff_of_defined hdef, Option.isSome_iff_ne_none]) fun hkey h =>
    h.firstFail_cons (by simp only [any_iff_of_defined hdef, bne_iff_ne]) fun _ h =>
    h.firstFail_cons (by
      simp only [any_iff_of_defined hdef, Window.guardPasses_iff]
      exact forall₂_congr fun w hw => (or_iff_right (hkey w hw)).symm) fun _ h => h

/-- Settles O24: each effect leaves the PCUs alone and makes the guard record written out. -/
theorem keyingAWindow : Obligations.KeyingAWindow := by
  refine ⟨fun s p tag i level key rest o ht (hv : Verdict (SetKeyChecks s p i level) o) => ?_,
    fun s p tag i rest o ht (hv : Verdict (ClearKeyChecks s p i) o) => ?_⟩
  · rw [show exec (.setKey p) s = .next (doSetKey (s.beginTake p) p tag i level key) from
      exec_taking_of_not_usesArray ht rfl]
    refine congrArg _ (State.finishWith_beginTake (eq_setKeyOutcome_of_verdict hv)
      (State.pcus_setGuard _ _ _) ?_)
    rintro rfl
    rw [levelOf_getD (levelDefined_of_setKeyChecks hv), State.setGuard_eq_setWindow]
    rfl
  · rw [show exec (.clearKey p) s = .next (doClearKey (s.beginTake p) p tag i) from
      exec_taking_of_not_usesArray ht rfl]
    refine congrArg _ (State.finishWith_beginTake (eq_clearKeyOutcome_of_verdict hv)
      (State.pcus_setGuard _ _ _) fun _ => ?_)
    rw [State.setGuard_eq_setWindow]
    rfl

/-! ### UNLOCK and LOCK -/

theorem unlockSelectorOf_isSome (b : Byte) :
    (unlockSelectorOf b).isSome = true ↔ b = 1#8 ∨ b = 2#8 := by
  unfold unlockSelectorOf
  by_cases h1 : b = 1#8
  · simp [h1]
  · by_cases h2 : b = 2#8 <;> simp [h1, h2]

theorem unlockSelectorOf_eq_master (b : Byte) : unlockSelectorOf b = some .master ↔ b = 2#8 := by
  unfold unlockSelectorOf
  by_cases h1 : b = 1#8
  · simp [h1]
  · by_cases h2 : b = 2#8 <;> simp [h1, h2]

/-- The checks of UNLOCK, in the words of the statement (R56, R58). -/
def UnlockChecks (s : State) (i sel : Byte) : List (Prop × OutcomeCode) :=
  [ (s.window? i.toNat ≠ none, .noWindow),
    (sel = 1#8 ∨ sel = 2#8, .badParameter),
    (∀ w, s.window? i.toNat = some w → w.activity = .idle, .busyWindow),
    (∀ w, s.window? i.toNat = some w → w.guard.key ≠ none, .notKeyed),
    (∀ w, s.window? i.toNat = some w → w.guard.attempts ≠ 0, .barred) ] ++
  if sel = 2#8 then
    [ (∀ w, s.window? i.toNat = some w → w.guard.level = .standard, .barred),
      (s.masterKey ≠ none, .noMasterKey),
      (s.masterAttempts ≠ 0, .barred) ]
  else []

/-- The outcome that UNLOCK computes is the verdict of its checks (R56, R58). -/
theorem eq_unlockOutcome_of_verdict {s : State} {i sel : Byte} {o : OutcomeCode}
    (h : Verdict (UnlockChecks s i sel) o) : o = unlockOutcome s i sel := by
  unfold UnlockChecks at h
  unfold unlockOutcome
  simp only [unlockSelectorOf_eq_master]
  by_cases hsel : sel = 2#8
  · rw [if_pos hsel] at h ⊢
    exact h.firstFail_cons Option.isSome_iff_ne_none.symm fun hdef h =>
      h.firstFail_cons (unlockSelectorOf_isSome sel).symm fun _ h =>
      h.firstFail_cons (by simp only [any_iff_of_defined hdef, beq_iff_eq]) fun _ h =>
      h.firstFail_cons (by simp only [any_iff_of_defined hdef, Option.isSome_iff_ne_none]) fun _ h =>
      h.firstFail_cons (by simp only [any_iff_of_defined hdef, bne_iff_ne]) fun _ h =>
      h.firstFail_cons (by simp only [any_iff_of_defined hdef, beq_iff_eq]) fun _ h =>
      h.firstFail_cons Option.isSome_iff_ne_none.symm fun _ h =>
      h.firstFail_cons bne_iff_ne.symm fun _ h => h
  · rw [if_neg hsel] at h ⊢
    exact h.firstFail_cons Option.isSome_iff_ne_none.symm fun hdef h =>
      h.firstFail_cons (unlockSelectorOf_isSome sel).symm fun _ h =>
      h.firstFail_cons (by simp only [any_iff_of_defined hdef, beq_iff_eq]) fun _ h =>
      h.firstFail_cons (by simp only [any_iff_of_defined hdef, Option.isSome_iff_ne_none]) fun _ h =>
      h.firstFail_cons (by simp only [any_iff_of_defined hdef, bne_iff_ne]) fun _ h => h

/-- An UNLOCK that passes its checks makes its comparison (R57, R58). -/
theorem doUnlock_of_ok {s : State} {p : Port} {i sel : Byte} {w : Window} {x : Selector}
    (h : unlockOutcome s i sel = .ok) (hw : s.window? i.toNat = some w)
    (hx : unlockSelectorOf sel = some x) (tag : Byte) (key : Key) :
    doUnlock s p tag i sel key = unlockCompare s p tag i x key w := by
  simp only [doUnlock, h, if_true, hw, hx]

section UnlockCompare

variable {s : State} {w : Window} {key : Key} (p : Port) (tag i : Byte)

/-- The key carried is the window's: the port joins the unlocked set and the counter is restored
(R57). -/
theorem unlockCompare_window_match (h : w.guard.key = some key) :
    unlockCompare s p tag i .window key w =
      (s.setGuard i.toNat (fun g => { g with unlocked := g.unlocked.set p true, attempts := 4 })).finish
        p tag .unlock .ok := by
  simp only [unlockCompare, h, if_true, State.joinUnlocked, State.compareWindow,
    State.setGuard_setGuard]

/-- The key carried is not the window's: its counter is lowered (R57). -/
theorem unlockCompare_window_mismatch (h : w.guard.key ≠ some key) :
    unlockCompare s p tag i .window key w =
      (s.setGuard i.toNat (fun g => { g with attempts := g.attempts - 1 })).finish p tag .unlock
        .keyMismatch := by
  simp only [unlockCompare, h, if_false, State.compareWindow, Bool.false_eq_true]

/-- The key carried is the master key: the port joins the unlocked set and the master counter is
restored (R58). -/
theorem unlockCompare_master_match (h : s.masterKey = some key) :
    unlockCompare s p tag i .master key w =
      ((s.setGuard i.toNat (fun g => { g with unlocked := g.unlocked.set p true })).compareMaster
        true).finish p tag .unlock .ok := by
  simp only [unlockCompare, h, if_true, State.joinUnlocked]

/-- The key carried is not the master key: the master counter is lowered (R58). -/
theorem unlockCompare_master_mismatch (h : s.masterKey ≠ some key) :
    unlockCompare s p tag i .master key w =
      (s.compareMaster false).finish p tag .unlock .keyMismatch := by
  simp only [unlockCompare, h, if_false]

end UnlockCompare

/-- Settles O25: UNLOCK by the selector and the comparison, each a change of the one guard record or of
the master attempts counter inside the taking; LOCK by whether the window is defined. -/
theorem unlockComparesOnceAndLockLeaves : Obligations.UnlockComparesOnceAndLockLeaves := by
  refine ⟨fun s p tag i sel key rest o ht (hv : Verdict (UnlockChecks s i sel) o) => ?_,
    fun s p tag i rest ht => ⟨fun hw => ?_, fun w hw => ⟨_, rfl, ?_, fun hkey => ?_⟩⟩⟩
  · have ho : unlockOutcome (s.beginTake p) i sel = o := (eq_unlockOutcome_of_verdict hv).symm
    have inside := State.Shadows.beginTake s p
    rw [show exec (.unlock p) s = .next (doUnlock (s.beginTake p) p tag i sel key) from
      exec_taking_of_not_usesArray ht rfl]
    refine ⟨fun hne => ?_, ?_⟩
    · rw [doUnlock, if_neg (ho ▸ hne), ho, State.finish_beginTake]
    rintro rfl w hw
    refine ⟨?_, ?_, ?_, ?_⟩
    · rintro rfl hkey
      rw [doUnlock_of_ok (w := w) (x := .window) ho hw rfl, unlockCompare_window_match p tag i hkey,
        (inside.setGuard i.toNat _).finish, State.setGuard_some hw]
    · rintro rfl hkey
      rw [doUnlock_of_ok (w := w) (x := .window) ho hw rfl, unlockCompare_window_mismatch p tag i hkey,
        (inside.setGuard i.toNat _).finish, State.setGuard_some hw]
    · rintro rfl hkey
      rw [doUnlock_of_ok (w := w) (x := .master) ho hw rfl,
        unlockCompare_master_match (s := s.beginTake p) p tag i hkey,
        State.setGuard_some (s := s.beginTake p) hw]
      exact congrArg _ (State.finish_of_pcus (s := s) (by rfl) ..)
    · rintro rfl hkey
      rw [doUnlock_of_ok (w := w) (x := .master) ho hw rfl,
        unlockCompare_master_mismatch (s := s.beginTake p) p tag i hkey]
      exact congrArg _ (State.finish_of_pcus (s := s) (by rfl) ..)
  · rw [show exec (.lock p) s = .next (doLock (s.beginTake p) p tag i) from
      exec_taking_of_not_usesArray ht rfl, doLock,
      show (s.beginTake p).window? i.toNat = none from hw]
    exact congrArg _ (State.finish_beginTake ..)
  · rw [show exec (.lock p) s = .next (doLock (s.beginTake p) p tag i) from
      exec_taking_of_not_usesArray ht rfl, doLock,
      show (s.beginTake p).window? i.toNat = some w from hw]
    exact congrArg _ (by rw [((State.Shadows.beginTake s p).setGuard i.toNat _).finish,
      State.setGuard_some hw])
  · rw [← Bool.not_eq_true, Window.guardPasses_iff, PerPort.get_set_same]
    exact not_or.2 ⟨hkey, Bool.false_ne_true⟩

/-! ### SET MASTER KEY and FREEZE -/

/-- The two layout checks answer OK from the layout port of a part that is not frozen (R10). -/
theorem State.layoutChecks_ok {s : State} {p : Port} (hp : s.layoutPort = p) (hf : s.frozen = false) :
    firstFail (s.layoutChecks p) = .ok := by
  simp [State.layoutChecks, firstFail, hp, hf]

section SetMasterKey

variable {s : State} {p : Port} (h : firstFail (s.layoutChecks p) = .ok) {k : Key} (tag : Byte)
  (oldKey newKey : Key)
include h

/-- With no master key present the new key is stored unexamined (R61). -/
theorem doSetMasterKey_absent (hk : s.masterKey = none) : doSetMasterKey s p tag oldKey newKey =
    State.finish { s with masterKey := some newKey, masterAttempts := 4 } p tag .setMasterKey .ok := by
  simp only [doSetMasterKey, h, if_true, hk]

/-- A barred master key refuses the command (R61). -/
theorem doSetMasterKey_barred (hk : s.masterKey = some k) (h0 : s.masterAttempts = 0) :
    doSetMasterKey s p tag oldKey newKey = s.finish p tag .setMasterKey .barred := by
  simp only [doSetMasterKey, h, if_true, hk, h0]

/-- The old key matches the master key (R61). -/
theorem doSetMasterKey_match (hk : s.masterKey = some oldKey) (h0 : s.masterAttempts ≠ 0) :
    doSetMasterKey s p tag oldKey newKey =
      State.finish { s with masterKey := some newKey, masterAttempts := 4 } p tag .setMasterKey .ok := by
  simp only [doSetMasterKey, h, if_true, hk, h0, if_false]

/-- The old key does not match the master key (R61). -/
theorem doSetMasterKey_mismatch (hk : s.masterKey = some k) (h0 : s.masterAttempts ≠ 0)
    (he : k ≠ oldKey) : doSetMasterKey s p tag oldKey newKey =
      (s.compareMaster false).finish p tag .setMasterKey .keyMismatch := by
  simp only [doSetMasterKey, h, if_true, hk, h0, he, if_false]

end SetMasterKey

/-- No window is WIPING exactly when every defined one is IDLE (R6). -/
theorem State.anyWiping_eq_false {s : State} :
    s.anyWiping = false ↔ ∀ i w, s.window? i = some w → w.activity = .idle := by
  simp only [State.anyWiping, List.any_eq_false, List.mem_range, Option.any_eq_true, beq_iff_eq,
    not_exists, not_and]
  refine ⟨fun h i w hw => ?_, fun h i _ w hw ha => ?_⟩
  · cases ha : w.activity with
    | idle => rfl
    | wiping => exact absurd ha (h i (State.window?_eq_some_lt hw) w hw)
  · rw [h i w hw] at ha
    cases ha

/-- The outcome that FREEZE computes is the verdict of its checks (R63). -/
theorem eq_freezeOutcome_of_verdict {s : State} {p : Port} {o : OutcomeCode}
    (h : Verdict [ (s.layoutPort = p, .notLayoutPort),
      (s.frozen = true ∨ ∀ i w, s.window? i = some w → w.activity = .idle, .busyWindow) ] o) :
    o = freezeOutcome s p :=
  h.firstFail_cons beq_iff_eq.symm fun _ h =>
    h.firstFail_cons (by rw [Bool.or_eq_true, Bool.not_eq_true', State.anyWiping_eq_false]) fun _ h => h

/-- Settles O27: SET MASTER KEY by its layout checks and then by the master key that stands; FREEZE by
the verdict of its checks. -/
theorem masterKeyAndFreeze : Obligations.MasterKeyAndFreeze := by
  refine ⟨fun s p tag oldKey newKey rest ht => ?_, fun s p tag rest o ht hv => ?_⟩
  · rw [show exec (.setMasterKey p) s = .next (doSetMasterKey (s.beginTake p) p tag oldKey newKey) from
      exec_taking_of_not_usesArray ht rfl]
    have hlayout : (s.beginTake p).layoutChecks p = s.layoutChecks p := rfl
    refine ⟨fun hp => ?_, fun hp hf => ?_, fun hp hf => ?_⟩
    · have ho : firstFail (s.layoutChecks p) = .notLayoutPort := by
        simp [State.layoutChecks, firstFail, hp]
      rw [doSetMasterKey, hlayout, ho, if_neg OutcomeCode.noConfusion, State.finish_beginTake]
    · have ho : firstFail (s.layoutChecks p) = .frozen := by
        simp [State.layoutChecks, firstFail, hp, hf]
      rw [doSetMasterKey, hlayout, ho, if_neg OutcomeCode.noConfusion, State.finish_beginTake]
    · have hl : firstFail ((s.beginTake p).layoutChecks p) = .ok := State.layoutChecks_ok hp hf
      refine ⟨fun hk => ?_, fun k hk h0 => ?_, fun k hk h0 he => ?_, fun k hk h0 he => ?_⟩
      · rw [doSetMasterKey_absent hl tag oldKey newKey hk]
        exact congrArg _ (State.finish_of_pcus (s := s) (by rfl) ..)
      · rw [doSetMasterKey_barred hl tag oldKey newKey hk h0, State.finish_beginTake]
      · rw [doSetMasterKey_match hl tag oldKey newKey (he ▸ hk) h0]
        exact congrArg _ (State.finish_of_pcus (s := s) (by rfl) ..)
      · rw [doSetMasterKey_mismatch hl tag oldKey newKey hk h0 he]
        exact congrArg _ (State.finish_of_pcus (s := s) (by rfl) ..)
  · rw [show exec (.freeze p) s = .next (doFreeze (s.beginTake p) p tag) from
      exec_taking_of_not_usesArray ht rfl]
    exact congrArg _ (State.finishWith_beginTake (eq_freezeOutcome_of_verdict hv) rfl fun _ => rfl)

end Sys2Proof.Machine

/-! The takings of READ, WRITE, INJECT, SCRUB SETTINGS, COPY, FILL and CANCEL JOB, and the taking in the
event that makes it possible (R77 to R79, R91, R126, R135 to R138, R147, R173). -/

namespace Sys2Proof.Machine

/-! ### The taking that an event makes possible -/

/-- Settles O38: by whether the PCU could take a command before the event and can after it. -/
theorem freedHeadIsTaken : Obligations.FreedHeadIsTaken := fun s t p =>
  ⟨takeIfDue_none, fun tag c rest hs ht => by rw [takeIfDue_takes hs ht, exec_taking ht]⟩

/-! ### READ, WRITE and INJECT -/

theorem injectKindOf_isSome (b : Byte) : (injectKindOf b).isSome = true ↔ b = 1#8 ∨ b = 2#8 := by
  unfold injectKindOf
  by_cases h1 : b = 1#8
  · simp [h1]
  · by_cases h2 : b = 2#8 <;> simp [h1, h2]

/-- The kind of a defined code, in the words of the statement (12.3). -/
theorem injectKindOf_eq {b : Byte} (h : b = 1#8 ∨ b = 2#8) :
    injectKindOf b = some (if b = 1#8 then .one else .two) := by
  rcases h with rfl | rfl <;> rfl

/-- The checks of INJECT, in the words of the statement (R91). -/
def InjectChecks (s : State) (p : Port) (line : BitVec 16) (kind : Byte) :
    List (Prop × OutcomeCode) :=
  [ (s.layoutPort = p, .notLayoutPort),
    (s.frozen = false, .frozen),
    (line.toNat ≤ 16383 ∧ (kind = 1#8 ∨ kind = 2#8), .badParameter) ]

/-- The outcome that INJECT computes is the verdict of its checks (R91). -/
theorem eq_injectOutcome_of_verdict {s : State} {p : Port} {line : BitVec 16} {kind : Byte}
    {o : OutcomeCode} (h : Verdict (InjectChecks s p line kind) o) :
    o = injectOutcome s p line kind :=
  h.firstFail_layoutChecks fun h =>
    h.firstFail_cons (by rw [Bool.and_eq_true, decide_eq_true_iff, injectKindOf_isSome]) fun _ h => h

/-- INJECT passes its checks with a defined kind alone (R91). -/
theorem kindDefined_of_injectChecks {s : State} {p : Port} {line : BitVec 16} {kind : Byte}
    (h : Verdict (InjectChecks s p line kind) .ok) : kind = 1#8 ∨ kind = 2#8 := by
  have hall := h.holds_of_ok (by simp [InjectChecks])
  simp only [InjectChecks, List.forall_mem_cons] at hall
  obtain ⟨-, -, ⟨-, hkind⟩, -⟩ := hall
  exact hkind

/-- Settles O31: each command answers in its taking or stays at the queue head as the pending access. -/
theorem accessCommandsFormAccesses : Obligations.AccessCommandsFormAccesses := by
  refine ⟨fun s p tag i o n rest ht => ?_, fun s p tag i o data rest ht => ?_,
    fun s p tag line kind rest o ht (hv : Verdict (InjectChecks s p line kind) o) => ?_⟩
  · rw [show exec (.read p) s = .next (arrive s (doRead (s.beginTake p) p tag i o n)) from
      exec_taking ht]
    refine ⟨fun h => ?_, fun h => ?_⟩
    · rw [doRead, if_neg h, State.finish_beginTake, State.arrive_answers]
    · rw [doRead, if_pos h, State.formAccess_beginTake ht]
  · rw [show exec (.write p) s = .next (arrive s (doWrite (s.beginTake p) p tag i o data)) from
      exec_taking ht, doWrite, State.formAccess_beginTake ht]
  · rw [show exec (.inject p) s = .next (arrive s (doInject (s.beginTake p) p tag line kind)) from
      exec_taking ht]
    have ho : injectOutcome (s.beginTake p) p line kind = o := (eq_injectOutcome_of_verdict hv).symm
    refine ⟨fun hne => ?_, ?_⟩
    · rw [doInject, ho, if_neg hne, State.finish_beginTake, State.arrive_answers]
    · rintro rfl
      rw [doInject, ho, if_pos rfl, injectKindOf_eq (kindDefined_of_injectChecks hv)]
      exact congrArg (fun t => Host.Outcome.next (arrive s t)) (State.formAccess_beginTake ht _)

/-! ### SCRUB SETTINGS -/

/-- Check 3 of SCRUB SETTINGS: a defined enable code, and an interval where it is ENABLED (R126). -/
theorem enableOf_any_iff {b : Byte} {n : Nat} :
    (enableOf b).any (fun e => !e || decide (1 ≤ n)) = true ↔ b = 0#8 ∨ (b = 1#8 ∧ 1 ≤ n) := by
  unfold enableOf
  by_cases h0 : b = 0#8
  · simp [h0]
  · by_cases h1 : b = 1#8 <;> simp [h0, h1]

/-- The outcome that SCRUB SETTINGS computes is the verdict of its checks (R126). -/
theorem eq_scrubOutcome_of_verdict {s : State} {p : Port} {enable : Byte} {interval : BitVec 16}
    {o : OutcomeCode} (h : Verdict
      [ (s.layoutPort = p, .notLayoutPort),
        (s.frozen = false, .frozen),
        (enable = 0#8 ∨ (enable = 1#8 ∧ 1 ≤ interval.toNat), .badParameter) ] o) :
    o = scrubOutcome s p enable interval :=
  h.firstFail_layoutChecks fun h => h.firstFail_cons enableOf_any_iff.symm fun _ h => h

/-- The new scrub settings, by the enable byte of the frame (R126). -/
theorem State.applyScrub_eq (s : State) (enable : Byte) (n : Nat) :
    s.applyScrub (enable == 1#8) n =
      if enable = 1#8 then
        { s with scrubEnabled := true, scrubInterval := n, scrubTimer := some n }
      else
        { s with scrubEnabled := false, scrubTimer := none, scrubDue := false, postponed := 0 } := by
  simp only [State.applyScrub, beq_iff_eq]

/-- Settles O32: the outcome computed is the verdict of the checks, and the settings are made by the
enable byte. -/
theorem scrubSettingsTakeEffect : Obligations.ScrubSettingsTakeEffect := by
  intro s p tag enable interval rest o ht hv
  rw [show exec (.scrubSettings p) s =
      .next (doScrubSettings (s.beginTake p) p tag enable interval) from
    exec_taking_of_not_usesArray ht rfl]
  refine congrArg _ (State.finishWith_beginTake (eq_scrubOutcome_of_verdict hv) ?_ fun _ => ?_)
  all_goals
    rw [State.applyScrub_eq]
    split <;> rfl

/-! ### COPY and FILL -/

/-- A job started at a taking whose checks found a free channel, its command handed over (R137). -/
theorem State.startJob_leaveQueue {s : State} (p : Port) (h : s.c0 = none ∨ s.c1 = none) (j : Job) :
    ((s.beginTake p).startJob j).leaveQueue p =
      (s.setJob (if s.c0 = none then .c0 else .c1) (some j)).handsOver p := by
  rw [State.startJob_eq (s := s.beginTake p) h]
  by_cases h0 : s.c0 = none
  · rw [if_pos (show (s.beginTake p).c0 = none from h0), if_pos h0]
    exact State.leaveQueue_of_pcus (s := s) (by rfl)
  · rw [if_neg (show ¬ (s.beginTake p).c0 = none from h0), if_neg h0]
    exact State.leaveQueue_of_pcus (s := s) (by rfl)

/-- The checks of COPY, in the words of the statement (R135). -/
def CopyStartChecks (s : State) (si : Byte) (so : BitVec 24) (di : Byte) (dof n : BitVec 24) :
    List (Prop × OutcomeCode) :=
  [ (1 ≤ n.toNat ∧ n.toNat ≤ 65536, .badParameter),
    (s.window? si.toNat ≠ none, .noWindow),
    (∀ w, s.window? si.toNat = some w → so.toNat + n.toNat ≤ 64 * w.length, .outOfRange),
    (s.window? di.toNat ≠ none, .noWindow),
    (∀ w, s.window? di.toNat = some w → dof.toNat + n.toNat ≤ 64 * w.length, .outOfRange),
    (s.c0 = none ∨ s.c1 = none, .noChannel) ]

/-- The outcome that COPY computes is the verdict of its checks (R135). -/
theorem eq_copyStartOutcome_of_verdict {s : State} {si di : Byte} {so dof n : BitVec 24}
    {o : OutcomeCode} (h : Verdict (CopyStartChecks s si so di dof n) o) :
    o = copyStartOutcome s ⟨si.toNat, so.toNat⟩ ⟨di.toNat, dof.toNat⟩ n.toNat :=
  h.firstFail_cons decide_eq_true_iff.symm fun _ h =>
    h.firstFail_cons Option.isSome_iff_ne_none.symm fun hs h =>
    h.firstFail_cons (State.runFits_iff _ _ hs).symm fun _ h =>
    h.firstFail_cons Option.isSome_iff_ne_none.symm fun hd h =>
    h.firstFail_cons (State.runFits_iff _ _ hd).symm fun _ h =>
    h.firstFail_cons State.freeChannel?_isSome.symm fun _ h => h

/-- COPY passes its checks with a free channel alone (R135, check 6). -/
theorem channelFree_of_copyStartChecks {s : State} {si di : Byte} {so dof n : BitVec 24}
    (h : Verdict (CopyStartChecks s si so di dof n) .ok) : s.c0 = none ∨ s.c1 = none := by
  have hall := h.holds_of_ok (by simp [CopyStartChecks])
  simp only [CopyStartChecks, List.forall_mem_cons] at hall
  obtain ⟨-, -, -, -, -, hfree, -⟩ := hall
  exact hfree

/-- The checks of FILL, in the words of the statement (R136). -/
def FillStartChecks (s : State) (di : Byte) (dof n : BitVec 24) : List (Prop × OutcomeCode) :=
  [ (1 ≤ n.toNat ∧ n.toNat ≤ 65536, .badParameter),
    (s.window? di.toNat ≠ none, .noWindow),
    (∀ w, s.window? di.toNat = some w → dof.toNat + n.toNat ≤ 64 * w.length, .outOfRange),
    (s.c0 = none ∨ s.c1 = none, .noChannel) ]

/-- The outcome that FILL computes is the verdict of its checks (R136). -/
theorem eq_fillStartOutcome_of_verdict {s : State} {di : Byte} {dof n : BitVec 24}
    {o : OutcomeCode} (h : Verdict (FillStartChecks s di dof n) o) :
    o = fillStartOutcome s ⟨di.toNat, dof.toNat⟩ n.toNat :=
  h.firstFail_cons decide_eq_true_iff.symm fun _ h =>
    h.firstFail_cons Option.isSome_iff_ne_none.symm fun hd h =>
    h.firstFail_cons (State.runFits_iff _ _ hd).symm fun _ h =>
    h.firstFail_cons State.freeChannel?_isSome.symm fun _ h => h

/-- FILL passes its checks with a free channel alone (R136, check 4). -/
theorem channelFree_of_fillStartChecks {s : State} {di : Byte} {dof n : BitVec 24}
    (h : Verdict (FillStartChecks s di dof n) .ok) : s.c0 = none ∨ s.c1 = none := by
  have hall := h.holds_of_ok (by simp [FillStartChecks])
  simp only [FillStartChecks, List.forall_mem_cons] at hall
  obtain ⟨-, -, -, hfree, -⟩ := hall
  exact hfree

/-- Settles O33: the outcome computed is the verdict of the checks, and a job that starts stands on the
lowest-numbered free channel. -/
theorem transferCommandsStartJobs : Obligations.TransferCommandsStartJobs := by
  refine ⟨fun s p tag si so di dof n rest o ht (hv : Verdict (CopyStartChecks s si so di dof n) o) => ?_,
    fun s p tag di dof n pat rest o ht (hv : Verdict (FillStartChecks s di dof n) o) => ?_⟩
  · have ho : copyStartOutcome (s.beginTake p) ⟨si.toNat, so.toNat⟩ ⟨di.toNat, dof.toNat⟩ n.toNat = o :=
      (eq_copyStartOutcome_of_verdict hv).symm
    rw [show exec (.copy p) s = .next (arrive s (doCopy (s.beginTake p) p tag si so di dof n)) from
      exec_taking ht, doCopy]
    refine ⟨fun hne => ?_, ?_⟩
    · simp only [ho, if_neg hne, State.finish_beginTake, State.arrive_answers]
    · rintro rfl
      simp only [ho, if_true, State.startJob_leaveQueue p (channelFree_of_copyStartChecks hv)]
      rfl
  · have ho : fillStartOutcome (s.beginTake p) ⟨di.toNat, dof.toNat⟩ n.toNat = o :=
      (eq_fillStartOutcome_of_verdict hv).symm
    rw [show exec (.fill p) s = .next (arrive s (doFill (s.beginTake p) p tag di dof n pat)) from
      exec_taking ht, doFill]
    refine ⟨fun hne => ?_, ?_⟩
    · simp only [ho, if_neg hne, State.finish_beginTake, State.arrive_answers]
    · rintro rfl
      simp only [ho, if_true, State.startJob_leaveQueue p (channelFree_of_fillStartChecks hv)]
      rfl

/-! ### CANCEL JOB -/

/-- No channel holds a job of the port under the tag (R147). -/
theorem State.findJob_eq_none {s : State} {p : Port} {tag : Byte}
    (h : ∀ c j, s.job c = some j → ¬ (j.owner = p ∧ j.tag = tag)) : s.findJob p tag = none := by
  rw [State.findJob, List.find?_eq_none]
  intro c _
  rw [Option.any_eq_true]
  rintro ⟨j, hj, hm⟩
  rw [Bool.and_eq_true, beq_iff_eq, beq_iff_eq] at hm
  exact h c j hj hm

/-- One channel alone holds a job of the port under the tag (R147). -/
theorem State.findJob_eq_some {s : State} {p : Port} {tag : Byte} {c : Channel} {j : Job}
    (hj : s.job c = some j) (hp : j.owner = p) (ht : j.tag = tag)
    (h : ∀ d k, s.job d = some k → k.owner = p → k.tag = tag → d = c) :
    s.findJob p tag = some c := by
  have hc : (s.job c).any (fun j => j.owner == p && j.tag == tag) = true := by
    rw [hj, Option.any_some, hp, ht, beq_self_eq_true, beq_self_eq_true, Bool.and_self]
  have hone : ∀ d, (s.job d).any (fun j => j.owner == p && j.tag == tag) = true → d = c := by
    intro d hd
    obtain ⟨k, hk, hm⟩ := (Option.any_eq_true ..).1 hd
    rw [Bool.and_eq_true, beq_iff_eq, beq_iff_eq] at hm
    exact h d k hk hm.1 hm.2
  cases hf : s.findJob p tag with
  | none =>
    rw [State.findJob, List.find?_eq_none] at hf
    exact absurd hc (hf c (by cases c <;> simp))
  | some d => exact congrArg some (hone d (by simpa using List.find?_some hf))

section CancelJob

variable {s : State} {p : Port} {tag job : Byte} {c : Channel} {j : Job}
  (hf : s.findJob p job = some c) (hj : s.job c = some j)
include hf hj

/-- A WIPE is not cancelled (R147). -/
theorem doCancelJob_wipe (hk : j.kind = .wipe) :
    doCancelJob s p tag job = s.finish p tag .cancelJob .badParameter := by
  simp only [doCancelJob, hf, hj, hk, if_true]

/-- A job that is ENDING already stays as it is (R147). -/
theorem doCancelJob_ending (hk : j.kind ≠ .wipe) (hr : j.state ≠ .running) :
    doCancelJob s p tag job = s.finish p tag .cancelJob .ok := by
  simp only [doCancelJob, hf, hj, hk, if_false, ne_eq, hr, not_false_eq_true, if_true]

/-- A RUNNING job with its step in flight becomes ENDING (R147). -/
theorem doCancelJob_stepping (hk : j.kind ≠ .wipe) (hr : j.state = .running)
    (hs : s.stepInFlight c = true) : doCancelJob s p tag job =
      (s.setJob c (some { j with state := .ending .cancelled })).finish p tag .cancelJob .ok := by
  simp only [doCancelJob, hf, hj, hk, if_false, ne_eq, hr, not_true_eq_false, hs, if_true]

/-- A RUNNING job with no step in flight ends at once (R146, R147). -/
theorem doCancelJob_ends (hk : j.kind ≠ .wipe) (hr : j.state = .running)
    (hs : s.stepInFlight c = false) :
    doCancelJob s p tag job = (s.endJob c .cancelled).finish p tag .cancelJob .ok := by
  simp only [doCancelJob, hf, hj, hk, if_false, ne_eq, hr, not_true_eq_false, hs, Bool.false_eq_true]

end CancelJob

theorem State.Shadows.setJob {p : Port} {s t : State} (h : State.Shadows p s t) (c : Channel)
    (j : Option Job) : State.Shadows p (s.setJob c j) (t.setJob c j) := by
  obtain ⟨r, hr, rfl⟩ := h
  exact ⟨r, by cases c <;> exact hr, by cases c <;> rfl⟩

/-- Settles O34: by the channel that holds the job, if one does, and the state of the job there. -/
theorem cancelJobEndsTheJob : Obligations.CancelJobEndsTheJob := by
  intro s p tag job rest ht
  have inside := State.Shadows.beginTake s p
  rw [show exec (.cancelJob p) s = .next (doCancelJob (s.beginTake p) p tag job) from
    exec_taking_of_not_usesArray ht rfl]
  refine ⟨fun h => ?_, fun c j hj hp htag hone => ?_⟩
  · rw [doCancelJob, State.findJob_eq_none (by exact h), State.finish_beginTake]
  · have hj' : (s.beginTake p).job c = some j := hj
    have hf : (s.beginTake p).findJob p job = some c := State.findJob_eq_some hj' hp htag hone
    refine ⟨fun hk => ?_, fun hk hr => ?_, fun hk hr hs => ?_, fun hk hr hs hd => ?_⟩
    · rw [doCancelJob_wipe hf hj' hk, State.finish_beginTake]
    · rw [doCancelJob_ending hf hj' hk hr, State.finish_beginTake]
    · rw [doCancelJob_stepping hf hj' hk hr hs, (inside.setJob c _).finish]
    · rw [doCancelJob_ends hf hj' hk hr hs, State.endJob_deliver hj' hd, hp, htag,
        ((inside.setJob c none).complete p _).finish]

end Sys2Proof.Machine

/-! WIPE at its taking: its checks, the authority to wipe, and the refusals (R67 to R70). -/

namespace Sys2Proof.Machine

/-! ### The checks of WIPE -/

/-- The checks of WIPE, in the words of the statement (R67, R68). -/
def WipeChecks (s : State) (p : Port) (i : Byte) : List (Prop × OutcomeCode) :=
  [ ((s.pcu p).wipePrepared = some i.toNat, .notPrepared),
    (s.frozen = false, .frozen),
    (s.window? i.toNat ≠ none, .noWindow),
    (∀ w, s.window? i.toNat = some w → w.activity = .idle, .busyWindow) ]

/-- The outcome of the checks of WIPE is their verdict (R67, R68). -/
theorem eq_wipeOutcome_of_verdict {s : State} {p : Port} {i : Byte} {o : OutcomeCode}
    (h : Verdict (WipeChecks s p i) o) : o = wipeOutcome s i (s.preparedFor p i) :=
  h.firstFail_cons beq_iff_eq.symm fun _ h =>
    h.firstFail_cons (iff_of_eq (Bool.not_eq_true' _)).symm fun _ h =>
    h.firstFail_cons Option.isSome_iff_ne_none.symm fun hdef h =>
    h.firstFail_cons (by simp only [any_iff_of_defined hdef, beq_iff_eq]) fun _ h => h

/-! ### The authority to wipe (R69, R70) -/

theorem wipeSelectorOf_eq_none_iff (b : Byte) : wipeSelectorOf b = some .none ↔ b = 0#8 := by
  unfold wipeSelectorOf
  by_cases h0 : b = 0#8
  · simp [h0]
  · by_cases h1 : b = 1#8
    · simp [h1]
    · by_cases h2 : b = 2#8 <;> simp [h0, h1, h2]

section WipeAuthority

variable {s : State} {p : Port} {i sel : Byte} {key k : Key} {w : Window}

/-- On a window without a key any selector but NONE is refused (R69). -/
theorem wipeAuthority_unkeyed_selector (hk : w.guard.key = none) (hs : sel ≠ 0#8) :
    wipeAuthority s p i sel key w = (.badParameter, s) := by
  simp only [wipeAuthority, hk, wipeSelectorOf_eq_none_iff, hs, if_false]

/-- On a window without a key the write claim is the authority (R69). -/
theorem wipeAuthority_unkeyed (hk : w.guard.key = none) :
    wipeAuthority s p i 0#8 key w = (if w.holdsWrite p then .ok else .notHeld, s) := by
  simp only [wipeAuthority, hk, wipeSelectorOf_eq_none_iff, if_true]

/-- On a window with a key a selector that names no key is refused (R70). -/
theorem wipeAuthority_keyed_selector (hk : w.guard.key = some k) (h1 : sel ≠ 1#8) (h2 : sel ≠ 2#8) :
    wipeAuthority s p i sel key w = (.badParameter, s) := by
  have hsel : wipeSelectorOf sel = some .none ∨ wipeSelectorOf sel = none := by
    simp only [wipeSelectorOf, h1, h2, if_false]
    split
    · exact Or.inl rfl
    · exact Or.inr rfl
  rcases hsel with hsel | hsel <;> simp only [wipeAuthority, hk, hsel]

/-- A barred window key refuses the command (R70). -/
theorem wipeAuthority_window_barred (hk : w.guard.key = some k) (h0 : w.guard.attempts = 0) :
    wipeAuthority s p i 1#8 key w = (.barred, s) := by
  simp only [wipeAuthority, hk, show wipeSelectorOf 1#8 = some .window from rfl, h0, if_true]

/-- The key carried is the window's (R70). -/
theorem wipeAuthority_window_match (hk : w.guard.key = some key) (h0 : w.guard.attempts ≠ 0) :
    wipeAuthority s p i 1#8 key w = (.ok, s.compareWindow i.toNat true) := by
  simp only [wipeAuthority, hk, show wipeSelectorOf 1#8 = some .window from rfl, h0, if_true, if_false]

/-- The key carried is not the window's (R70). -/
theorem wipeAuthority_window_mismatch (hk : w.guard.key = some k) (h0 : w.guard.attempts ≠ 0)
    (he : k ≠ key) :
    wipeAuthority s p i 1#8 key w = (.keyMismatch, s.compareWindow i.toNat false) := by
  simp only [wipeAuthority, hk, show wipeSelectorOf 1#8 = some .window from rfl, h0, he, if_false]

/-- There is no master key (R70). -/
theorem wipeAuthority_no_master (hk : w.guard.key = some k) (hm : s.masterKey = none) :
    wipeAuthority s p i 2#8 key w = (.noMasterKey, s) := by
  simp only [wipeAuthority, hk, show wipeSelectorOf 2#8 = some .master from rfl, hm]

/-- A barred master key refuses the command (R70). -/
theorem wipeAuthority_master_barred (hk : w.guard.key = some k) (hm : s.masterKey ≠ none)
    (h0 : s.masterAttempts = 0) : wipeAuthority s p i 2#8 key w = (.barred, s) := by
  obtain ⟨m, hm⟩ := Option.ne_none_iff_exists'.1 hm
  simp only [wipeAuthority, hk, show wipeSelectorOf 2#8 = some .master from rfl, hm, h0, if_true]

/-- The key carried is the master key (R70). -/
theorem wipeAuthority_master_match (hk : w.guard.key = some k) (hm : s.masterKey = some key)
    (h0 : s.masterAttempts ≠ 0) :
    wipeAuthority s p i 2#8 key w = (.ok, s.compareMaster true) := by
  simp only [wipeAuthority, hk, show wipeSelectorOf 2#8 = some .master from rfl, hm, h0, if_true,
    if_false]

/-- The key carried is not the master key (R70). -/
theorem wipeAuthority_master_mismatch (hk : w.guard.key = some k) (hm : s.masterKey ≠ none)
    (h0 : s.masterAttempts ≠ 0) (he : s.masterKey ≠ some key) :
    wipeAuthority s p i 2#8 key w = (.keyMismatch, s.compareMaster false) := by
  obtain ⟨m, hm⟩ := Option.ne_none_iff_exists'.1 hm
  have hne : m ≠ key := fun e => he (e ▸ hm)
  simp only [wipeAuthority, hk, show wipeSelectorOf 2#8 = some .master from rfl, hm, h0, hne, if_false]

end WipeAuthority

/-! ### What WIPE does, by its checks and its authority -/

section DoWipe

variable {s u : State} {p : Port} {tag i sel : Byte} {key : Key} {b : Bool} {w v : Window}
  {o : OutcomeCode} (h : wipeOutcome s i b = .ok) (hw : s.window? i.toNat = some w)

theorem doWipe_refused (h : wipeOutcome s i b = o) (ho : o ≠ .ok) :
    doWipe s p tag i sel key b = s.finish p tag .wipe o := by
  rw [doWipe, h, if_neg ho]

include h hw

theorem doWipe_unauthorized (ha : wipeAuthority s p i sel key w = (o, u)) (ho : o ≠ .ok) :
    doWipe s p tag i sel key b = u.finish p tag .wipe o := by
  simp only [doWipe, h, if_true, hw, ha, ho, if_false]

theorem doWipe_no_channel (ha : wipeAuthority s p i sel key w = (.ok, u)) (h0 : s.c0 ≠ none)
    (h1 : s.c1 ≠ none) : doWipe s p tag i sel key b = u.finish p tag .wipe .noChannel := by
  have hfree : s.freeChannel?.isSome = false := by
    rw [← Bool.not_eq_true, State.freeChannel?_isSome]
    exact not_or.2 ⟨h0, h1⟩
  simp only [doWipe, h, if_true, hw, ha, hfree, Bool.false_eq_true, if_false]

theorem doWipe_starts (ha : wipeAuthority s p i sel key w = (.ok, u))
    (hc : s.c0 = none ∨ s.c1 = none) (hv : u.window? i.toNat = some v) :
    doWipe s p tag i sel key b = u.wipeStart p tag i.toNat v := by
  simp only [doWipe, h, if_true, hw, ha, State.freeChannel?_isSome.2 hc, hv]

end DoWipe

/-! ### The refusals of WIPE -/

/-- A command that answers, after a change that makes no request, brings no request to the arbiter
(R97). -/
theorem State.Restful.arrive_answers {s e : State} (h : s.Restful e) (p : Port) (tag : Byte)
    (k : CommandKind) (o : OutcomeCode) :
    Machine.arrive s (e.answers p tag k o) = e.answers p tag k o := by
  have answered : e.Restful (e.answers p tag k o) := by
    unfold State.answers
    exact State.Restful.setPcu rfl
  exact (h.trans answered).arrive

theorem State.Shadows.compareWindow {p : Port} {s t : State} (h : State.Shadows p s t) (i : Nat)
    (b : Bool) : State.Shadows p (s.compareWindow i b) (t.compareWindow i b) := h.setGuard i _

theorem State.Shadows.compareMaster {p : Port} {s t : State} (h : State.Shadows p s t) (b : Bool) :
    State.Shadows p (s.compareMaster b) (t.compareMaster b) := by
  obtain ⟨r, hr, rfl⟩ := h
  exact ⟨r, hr, rfl⟩

theorem State.Restful.compareMaster (s : State) (b : Bool) : s.Restful (s.compareMaster b) :=
  .of_eq rfl rfl rfl rfl id

theorem State.compareWindow_some {s : State} {i : Nat} {w : Window} (hw : s.window? i = some w)
    (b : Bool) : s.compareWindow i b = s.setWindow i (some
      { w with guard := { w.guard with attempts := if b then 4 else w.guard.attempts - 1 } }) :=
  State.setGuard_some hw _

/-- A WIPE that is refused inside its taking, after the comparison it made. -/
theorem arrive_finish_of_shadows {s e t : State} {p : Port} (h : State.Shadows p e t)
    (hr : s.Restful e) (tag : Byte) (o : OutcomeCode) :
    arrive s (t.finish p tag .wipe o) = e.answers p tag .wipe o := by
  rw [h.finish, hr.arrive_answers]

/-- Settles O29: the first four checks, then the authority case by case, each comparison a change of
one guard record or of the master attempts counter inside the taking. -/
theorem wipeRefusals : Obligations.WipeRefusals := by
  intro s p tag i sel key rest o ht (hv : Verdict (WipeChecks s p i) o)
  have ho : wipeOutcome (s.beginTake p) i (s.preparedFor p i) = o := (eq_wipeOutcome_of_verdict hv).symm
  have inside := State.Shadows.beginTake s p
  rw [show exec (.wipe p) s =
    .next (arrive s (doWipe (s.beginTake p) p tag i sel key (s.preparedFor p i))) from exec_taking ht]
  refine ⟨fun hne => ?_, ?_⟩
  · rw [doWipe_refused ho hne, arrive_finish_of_shadows inside (.refl s)]
  rintro rfl w hw
  have hw' : (s.beginTake p).window? i.toNat = some w := hw
  have refuse : ∀ {o}, wipeAuthority (s.beginTake p) p i sel key w = (o, s.beginTake p) → o ≠ .ok →
      arrive s (doWipe (s.beginTake p) p tag i sel key (s.preparedFor p i)) = s.answers p tag .wipe o :=
    fun ha hne => by rw [doWipe_unauthorized ho hw' ha hne, arrive_finish_of_shadows inside (.refl s)]
  refine ⟨fun hk hs => ?_, ?_, ?_, fun k hk => ⟨fun h1 h2 => ?_, ?_, ?_, ?_, ?_, ?_, ?_, ?_⟩⟩
  · rw [refuse (wipeAuthority_unkeyed_selector hk hs) OutcomeCode.noConfusion]
  · rintro hk rfl hh
    rw [← Window.holdsWrite_iff] at hh
    have ha := wipeAuthority_unkeyed (s := s.beginTake p) (p := p) (i := i) (key := key) hk
    rw [if_neg hh] at ha
    rw [refuse ha OutcomeCode.noConfusion]
  · rintro hk rfl hh h0 h1
    rw [← Window.holdsWrite_iff] at hh
    have ha := wipeAuthority_unkeyed (s := s.beginTake p) (p := p) (i := i) (key := key) hk
    rw [if_pos hh] at ha
    rw [doWipe_no_channel ho hw' ha h0 h1, arrive_finish_of_shadows inside (.refl s)]
  · rw [refuse (wipeAuthority_keyed_selector hk h1 h2) OutcomeCode.noConfusion]
  · rintro rfl h0
    rw [refuse (wipeAuthority_window_barred hk h0) OutcomeCode.noConfusion]
  · rintro rfl h0 he
    rw [doWipe_unauthorized ho hw' (wipeAuthority_window_mismatch hk h0 he) OutcomeCode.noConfusion,
      arrive_finish_of_shadows (inside.compareWindow i.toNat false) (State.Calm.setGuard ..).restful,
      State.compareWindow_some hw]
    rfl
  · rintro rfl h0 rfl hc0 hc1
    rw [doWipe_no_channel ho hw' (wipeAuthority_window_match hk h0) hc0 hc1,
      arrive_finish_of_shadows (inside.compareWindow i.toNat true) (State.Calm.setGuard ..).restful,
      State.compareWindow_some hw]
    rfl
  · rintro rfl hm
    rw [refuse (wipeAuthority_no_master hk hm) OutcomeCode.noConfusion]
  · rintro rfl hm h0
    rw [refuse (wipeAuthority_master_barred hk hm h0) OutcomeCode.noConfusion]
  · rintro rfl hm h0 he
    rw [doWipe_unauthorized ho hw' (wipeAuthority_master_mismatch hk hm h0 he) OutcomeCode.noConfusion,
      arrive_finish_of_shadows (inside.compareMaster false) (.compareMaster s _)]
    rfl
  · rintro rfl h0 hm hc0 hc1
    rw [doWipe_no_channel ho hw' (wipeAuthority_master_match hk hm h0) hc0 hc1,
      arrive_finish_of_shadows (inside.compareMaster true) (.compareMaster s _)]
    rfl

end Sys2Proof.Machine

/-! The wipe start: the jobs it ends, the revocation it makes, and the channel of the WIPE job (R71, R72,
R133, R146). -/

namespace Sys2Proof.Machine

/-! ### The end of a job that writes no completion (R146, R195, R196) -/

/-- With report DISCARD a wipe's tag is free, and no completion is written (R196). -/
theorem State.endJob_discard_wipe {s : State} {c : Channel} {j : Job} (h : s.job c = some j)
    (hd : j.deliver = false) (hk : j.kind = .wipe) (o : OutcomeCode) :
    s.endJob c o = (s.setJob c none).setPcu j.owner
      { s.pcu j.owner with outstanding := (s.pcu j.owner).outstanding.erase j.tag } := by
  simp only [State.endJob, h, hd, Bool.false_eq_true, if_false, hk, if_true, State.pcu_setJob]

/-- With report DISCARD the jobs that the owner's teardown awaits fall by 1 (R195). -/
theorem State.endJob_discard {s : State} {c : Channel} {j : Job} (h : s.job c = some j)
    (hd : j.deliver = false) (hk : j.kind ≠ .wipe) (o : OutcomeCode) :
    s.endJob c o = (s.setJob c none).setPcu j.owner
      ({ s.pcu j.owner with jobsAwaited := (s.pcu j.owner).jobsAwaited - 1 } : Pcu).endTeardown := by
  simp only [State.endJob, h, hd, Bool.false_eq_true, if_false, hk, State.pcu_setJob]

theorem Pcu.endTeardown_completions (u : Pcu) :
    u.endTeardown.completions = u.completions ∧ u.endTeardown.outstanding = u.outstanding := by
  unfold Pcu.endTeardown
  split <;> exact ⟨rfl, rfl⟩

/-- The completions of the owner of a job stand through its end. -/
theorem State.completions_endJob {s : State} {c : Channel} {j : Job} (h : s.job c = some j)
    (o : OutcomeCode) :
    (s.pcu j.owner).completions <+: ((s.endJob c o).pcu j.owner).completions := by
  cases hd : j.deliver
  · by_cases hk : j.kind = .wipe
    · rw [State.endJob_discard_wipe h hd hk, State.pcu_setPcu_same]
    · rw [State.endJob_discard h hd hk, State.pcu_setPcu_same, (Pcu.endTeardown_completions _).1]
  · rw [(State.endJob_reports h hd o).2.2]
    exact List.prefix_append ..

/-- The end of a job frees no tag but its own. -/
theorem State.outstanding_endJob {s : State} {c : Channel} {j : Job} (h : s.job c = some j)
    (o : OutcomeCode) {tag : Byte} (ht : tag ∈ (s.pcu j.owner).outstanding) (hne : j.tag ≠ tag) :
    tag ∈ ((s.endJob c o).pcu j.owner).outstanding := by
  have herase := (List.mem_erase_of_ne hne.symm).2 ht
  cases hd : j.deliver
  · by_cases hk : j.kind = .wipe
    · rw [State.endJob_discard_wipe h hd hk, State.pcu_setPcu_same]
      exact herase
    · rw [State.endJob_discard h hd hk, State.pcu_setPcu_same, (Pcu.endTeardown_completions _).2]
      exact ht
  · rw [(State.endJob_reports h hd o).2.2]
    exact herase

/-! ### The jobs that a wipe start ends (R72) -/

section RevokedJob

variable {s : State} {i : Nat} {c : Channel} {j : Job}

theorem State.revokedJob_of_free (h : s.job c = none) : s.revokedJob i c = none := by
  simp only [State.revokedJob, h]

/-- A WIPE job, and a job that does not name the window, stay (R72). -/
theorem State.revokedJob_of_kept (h : s.job c = some j) (hk : j.kind = .wipe ∨ j.names i = false) :
    s.revokedJob i c = some j := by
  have hc : (j.names i && j.kind != .wipe) = false := by
    rcases hk with hk | hk
    · rw [hk, Bool.and_comm]; rfl
    · rw [hk]; rfl
  simp only [State.revokedJob, h, hc, Bool.false_eq_true, if_false]

/-- A COPY or FILL job that names the window ends, or is ENDING while its step is in flight (R72). -/
theorem State.revokedJob_of_named (h : s.job c = some j) (hk : j.kind ≠ .wipe)
    (hn : j.names i = true) : s.revokedJob i c = if s.stepInFlight c then
      some { j with state := if j.state = .running then .ending .revoked else j.state } else none := by
  simp only [State.revokedJob, h, hn, Bool.true_and, bne_iff_ne, ne_eq, hk, not_false_eq_true, if_true]
  split
  · split <;> rfl
  · rfl

end RevokedJob

/-- What the jobs a wipe start ends leave of the PCUs and of the other jobs (R72). -/
structure State.RevokesJobs (s t : State) (i : Nat) : Prop where
  pcu : ∀ q, t.pcu q =
    { s.pcu q with
      state := (t.pcu q).state, completions := (t.pcu q).completions
      reservations := (t.pcu q).reservations, outstanding := (t.pcu q).outstanding
      jobsAwaited := (t.pcu q).jobsAwaited }
  completions : ∀ q, (s.pcu q).completions <+: (t.pcu q).completions
  outstanding : ∀ q tag, tag ∈ (s.pcu q).outstanding →
    (∀ c j, s.job c = some j → j.owner = q → j.tag ≠ tag) → tag ∈ (t.pcu q).outstanding
  untouched : ∀ q,
    (∀ c j, s.job c = some j → j.owner = q → j.kind = .wipe ∨ j.names i = false) →
      t.pcu q = s.pcu q
  job : ∀ c j, t.job c = some j → ∃ k, s.job c = some k ∧ j = { k with state := j.state }

theorem State.RevokesJobs.refl (s : State) (i : Nat) : s.RevokesJobs s i :=
  ⟨fun _ => rfl, fun _ => List.prefix_refl _, fun _ _ h _ => h, fun _ _ => rfl, fun _ j h => ⟨j, h, rfl⟩⟩

theorem State.RevokesJobs.trans {s t u : State} {i : Nat} (h : s.RevokesJobs t i)
    (k : t.RevokesJobs u i) : s.RevokesJobs u i where
  pcu q := by rw [k.pcu q, h.pcu q]
  completions q := (h.completions q).trans (k.completions q)
  outstanding q tag ht hj := k.outstanding q tag (h.outstanding q tag ht hj) fun c j hc hq => by
    obtain ⟨l, hl, e⟩ := h.job c j hc
    rw [e] at hq ⊢
    exact hj c l hl hq
  untouched q hj := by
    rw [k.untouched q fun c j hc hq => ?_, h.untouched q hj]
    obtain ⟨l, hl, e⟩ := h.job c j hc
    rw [e] at hq ⊢
    exact hj c l hl hq
  job c j hj := by
    obtain ⟨l, hl, e⟩ := k.job c j hj
    obtain ⟨m, hm, e'⟩ := h.job c l hl
    exact ⟨m, hm, e.trans (by rw [e'])⟩

/-- A change of one job's state leaves every PCU. -/
theorem State.RevokesJobs.setJob {s : State} {c : Channel} {j : Job} (h : s.job c = some j) (i : Nat)
    (x : JobState) : s.RevokesJobs (s.setJob c (some { j with state := x })) i where
  pcu q := by rw [State.pcu_setJob]
  completions q := by rw [State.pcu_setJob]
  outstanding q tag ht _ := by rwa [State.pcu_setJob]
  untouched q _ := State.pcu_setJob ..
  job d k hk := by
    rw [State.job_setJob] at hk
    split at hk
    · next e =>
      cases hk
      exact ⟨j, e ▸ h, rfl⟩
    · exact ⟨k, hk, rfl⟩

/-- The end of a job that names the window. -/
theorem State.RevokesJobs.endJob {s : State} {c : Channel} {j : Job} {i : Nat} (h : s.job c = some j)
    (hk : j.kind ≠ .wipe) (hn : j.names i = true) (o : OutcomeCode) :
    s.RevokesJobs (s.endJob c o) i := by
  obtain ⟨other, owner⟩ := SamePcusBut.endJob h o
  refine ⟨fun q => ?_, fun q => ?_, fun q tag ht hj => ?_, fun q hj => other q ?_, fun d k hd => ?_⟩
  · by_cases e : q = j.owner
    · rw [e]; exact owner
    · rw [other q e]
  · by_cases e : q = j.owner
    · rw [e]; exact State.completions_endJob h o
    · rw [other q e]
  · by_cases e : q = j.owner
    · subst e; exact State.outstanding_endJob h o ht (hj c j h rfl)
    · rwa [other q e]
  · rintro rfl
    rcases hj c j h rfl with hw | hf
    · exact hk hw
    · rw [hn] at hf
      cases hf
  · rw [State.job_endJob] at hd
    split at hd
    · cases hd
    · exact ⟨k, hd, rfl⟩

theorem State.RevokesJobs.revokeJob (s : State) (i : Nat) (c : Channel) :
    s.RevokesJobs (s.revokeJob i c) i := by
  unfold State.revokeJob
  split
  · exact .refl s i
  · next j hj =>
    split
    · next hn =>
      rw [Bool.and_eq_true, bne_iff_ne] at hn
      split
      · split
        · exact .setJob hj i _
        · exact .refl s i
      · exact .endJob hj hn.2 hn.1 _
    · exact .refl s i

/-- A job ended by a wipe start reports REVOKED with its bytes done (R72, R146). -/
theorem State.revokeJob_reports {s : State} {c : Channel} {j : Job} {i : Nat} (h : s.job c = some j)
    (hk : j.kind ≠ .wipe) (hn : j.names i = true) (hs : s.stepInFlight c = false)
    (hd : j.deliver = true) :
    ⟨j.tag, j.kind.command, .revoked, .count j.bytesDone⟩ ∈
      ((s.revokeJob i c).pcu j.owner).completions := by
  have hend : s.revokeJob i c = s.endJob c .revoked := by
    simp only [State.revokeJob, h, hn, Bool.true_and, bne_iff_ne, ne_eq, hk, not_false_eq_true, if_true,
      hs, Bool.false_eq_true, if_false]
  rw [hend, (State.endJob_reports h hd _).2.2]
  exact List.mem_append_right _ (List.mem_singleton_self _)

/-! ### The steps of the wipe start (R71) -/

/-- The window WIPING, with every claim and wait on it revoked (R71, steps 1 to 3). -/
def State.wipeRevoked (s : State) (i : Nat) (w : Window) : State :=
  (s.setWindow i (some w.startWiping)).revoke i

/-- And every job that names the window ended, or ENDING (R71, step 4). -/
def State.wipeJobsRevoked (s : State) (i : Nat) (w : Window) : State :=
  ((s.wipeRevoked i w).revokeJob i .c0).revokeJob i .c1

theorem State.wipeStart_eq (s : State) (p : Port) (tag : Byte) (i : Nat) (w : Window) :
    s.wipeStart p tag i w = ((s.wipeJobsRevoked i w).startJob (w.wipeJob i p tag)).leaveQueue p := rfl

theorem State.Calm.wipeRevoked (s : State) (i : Nat) (w : Window) : s.Calm (s.wipeRevoked i w) :=
  (State.Calm.setWindow s i _).trans (State.Calm.revoke _ i)

theorem State.RevokesJobs.wipeJobsRevoked (s : State) (i : Nat) (w : Window) :
    (s.wipeRevoked i w).RevokesJobs (s.wipeJobsRevoked i w) i :=
  (State.RevokesJobs.revokeJob _ i .c0).trans (.revokeJob _ i .c1)

section WipeRevoked

variable {s : State} {i : Nat} (hi : i < 32) (w : Window) {q : Port}
include hi

/-- A holder that does not wait gets the notice of the revocation (R48). -/
theorem State.pcu_wipeRevoked_holder (h1 : w.holds q = true) (h2 : w.waits q = false) :
    (s.wipeRevoked i w).pcu q = (s.pcu q).post (.claimRevoked i) := by
  rw [State.wipeRevoked, State.pcu_revoke_holder (w := w.startWiping)
    (State.window?_setWindow_same _ hi) h1 h2, State.pcu_setWindow]

/-- A waiter that does not hold completes REVOKED (R48). -/
theorem State.pcu_wipeRevoked_waiter (hn : (w.waiters.map Waiter.port).Nodup) {x : Waiter}
    (hx : x ∈ w.waiters) (h : w.holds x.port = false) :
    (s.wipeRevoked i w).pcu x.port = (s.pcu x.port).complete ⟨x.tag, .claim, .revoked, .none⟩ := by
  rw [State.wipeRevoked, State.pcu_revoke_waiter (w := w.startWiping)
    (State.window?_setWindow_same _ hi) hn hx h, State.pcu_setWindow]

/-- Every other port is left alone (R48). -/
theorem State.pcu_wipeRevoked_other (h1 : w.holds q = false) (h2 : w.waits q = false) :
    (s.wipeRevoked i w).pcu q = s.pcu q := by
  rw [State.wipeRevoked, State.pcu_revoke_other (w := w.startWiping)
    (State.window?_setWindow_same _ hi) h1 h2, State.pcu_setWindow]

end WipeRevoked

theorem State.revokedJob_congr {s t : State} {c : Channel} (hj : t.job c = s.job c)
    (hf : t.inFlight = s.inFlight) (i : Nat) : t.revokedJob i c = s.revokedJob i c := by
  unfold State.revokedJob State.stepInFlight
  rw [hj, hf]

theorem State.revokedJob_wipeRevoked (s : State) (i : Nat) (w : Window) (c : Channel) :
    (s.wipeRevoked i w).revokedJob i c = s.revokedJob i c :=
  have calm := State.Calm.wipeRevoked s i w
  State.revokedJob_congr (calm.job c) calm.inFlight i

theorem State.job_wipeJobsRevoked (s : State) (i : Nat) (w : Window) (c : Channel) :
    (s.wipeJobsRevoked i w).job c = s.revokedJob i c := by
  have second : ((s.wipeRevoked i w).revokeJob i .c0).revokedJob i .c1 = s.revokedJob i .c1 :=
    (State.revokedJob_congr (State.job_revokeJob ..) (State.inFlight_revokeJob ..) i).trans
      (State.revokedJob_wipeRevoked ..)
  rw [State.wipeJobsRevoked, State.job_revokeJob, second, State.job_revokeJob,
    State.revokedJob_wipeRevoked]
  cases c <;> rfl

/-- The WIPE job stands on the lowest-numbered channel free once the revoked jobs have ended (R71,
log 15). -/
theorem State.job_wipeStart {s : State} (hc : s.c0 = none ∨ s.c1 = none) (p : Port) (tag : Byte)
    (i : Nat) (w : Window) : ∃ c, s.revokedJob i c = none ∧
      (c = .c1 → s.revokedJob i .c0 ≠ none) ∧
      ∀ d, (s.wipeStart p tag i w).job d =
        if d = c then some (w.wipeJob i p tag) else s.revokedJob i d := by
  have started : ∀ d, (s.wipeStart p tag i w).job d =
      ((s.wipeJobsRevoked i w).startJob (w.wipeJob i p tag)).job d :=
    fun d => (State.Calm.leaveQueue _ p).job d
  have h0 : (s.wipeJobsRevoked i w).c0 = s.revokedJob i .c0 := s.job_wipeJobsRevoked i w .c0
  have h1 : (s.wipeJobsRevoked i w).c1 = s.revokedJob i .c1 := s.job_wipeJobsRevoked i w .c1
  have hfree : s.revokedJob i .c0 = none ∨ s.revokedJob i .c1 = none :=
    hc.imp (State.revokedJob_of_free (c := .c0)) (State.revokedJob_of_free (c := .c1))
  by_cases hn : s.revokedJob i .c0 = none
  · refine ⟨.c0, hn, Channel.noConfusion, fun d => ?_⟩
    rw [started, State.startJob_eq (by rwa [h0, h1]), h0, if_pos hn, State.job_setJob,
      s.job_wipeJobsRevoked]
  · refine ⟨.c1, hfree.resolve_left hn, fun _ => hn, fun d => ?_⟩
    rw [started, State.startJob_eq (by rwa [h0, h1]), h0, if_neg hn, State.job_setJob,
      s.job_wipeJobsRevoked]

theorem State.pcus_startJob (s : State) (j : Job) : (s.startJob j).pcus = s.pcus := by
  unfold State.startJob
  split
  · exact State.pcus_setJob ..
  · rfl

/-- The command that started the wipe leaves the queue (R71, step 6). -/
theorem State.pcu_wipeStart (s : State) (p : Port) (tag : Byte) (i : Nat) (w : Window) (q : Port) :
    (s.wipeStart p tag i w).pcu q =
      if q = p then ((s.wipeJobsRevoked i w).pcu p).popHead else (s.wipeJobsRevoked i w).pcu q := by
  have hp : ∀ q, ((s.wipeJobsRevoked i w).startJob (w.wipeJob i p tag)).pcu q =
      (s.wipeJobsRevoked i w).pcu q := fun q => by
    rw [State.pcu, State.pcus_startJob]
    rfl
  rw [State.wipeStart_eq, State.leaveQueue, State.pcu_setPcu, hp, hp]

/-- A change of windows, PCUs and channels alone. -/
def State.KeepsRest (s t : State) : Prop :=
  t = { s with windows := t.windows, pcus := t.pcus, c0 := t.c0, c1 := t.c1 }

theorem State.KeepsRest.trans {s t u : State} (h : s.KeepsRest t) (k : t.KeepsRest u) :
    s.KeepsRest u :=
  Eq.trans k (by conv_lhs => rw [h])

theorem State.Calm.keepsRest {s t : State} (h : s.Calm t) : s.KeepsRest t := by
  unfold State.KeepsRest
  rw [h.c0, h.c1]
  exact h.frame

theorem State.KeepsRest.endJob (s : State) (c : Channel) (o : OutcomeCode) :
    s.KeepsRest (s.endJob c o) := by
  unfold State.KeepsRest
  rw [State.windows_endJob]
  exact State.endJob_frame s c o

theorem State.KeepsRest.revokeJob (s : State) (i : Nat) (c : Channel) :
    s.KeepsRest (s.revokeJob i c) := by
  unfold State.revokeJob
  split
  · rfl
  · split
    · split
      · split
        · cases c <;> rfl
        · rfl
      · exact .endJob ..
    · rfl

theorem State.KeepsRest.startJob (s : State) (j : Job) : s.KeepsRest (s.startJob j) := by
  unfold State.startJob
  split
  · next c _ => cases c <;> rfl
  · rfl

/-- A wipe start changes windows, PCUs and channels alone (R71). -/
theorem State.KeepsRest.wipeStart (s : State) (p : Port) (tag : Byte) (i : Nat) (w : Window) :
    s.KeepsRest (s.wipeStart p tag i w) :=
  (State.Calm.wipeRevoked s i w).keepsRest.trans <| (revokeJob _ i .c0).trans <|
    (revokeJob _ i .c1).trans <| (startJob _ _).trans (State.Calm.leaveQueue _ p).keepsRest

end Sys2Proof.Machine

/-! WIPE at its taking where every check passes: the authority, the ports and the channels after the wipe
start (R69 to R72, R97). -/

namespace Sys2Proof.Machine

/-! ### The authority to wipe, given -/

/-- The window after the comparison that the authority to wipe makes by its selector (R70). -/
def Window.compared (w : Window) (sel : Byte) : Window :=
  { w with guard := { w.guard with attempts := if sel = 1#8 then 4 else w.guard.attempts } }

/-- The authority to wipe is given by the write claim or by a match, which restores one counter (R69,
R70). -/
theorem wipeAuthority_of_authorized {s : State} {p : Port} {i sel : Byte} {key : Key} {w : Window}
    (hw : s.window? i.toNat = some w)
    (h : (w.guard.key = none ∧ sel = 0#8 ∧ w.claimState = .writeHeld ∧ w.holds p = true) ∨
      (sel = 1#8 ∧ w.guard.key = some key ∧ w.guard.attempts ≠ 0) ∨
      (sel = 2#8 ∧ w.guard.key ≠ none ∧ s.masterKey = some key ∧ s.masterAttempts ≠ 0)) :
    wipeAuthority s p i sel key w = (.ok,
      State.setWindow { s with masterAttempts := if sel = 2#8 then 4 else s.masterAttempts } i.toNat
        (some (w.compared sel))) := by
  have same : s.setWindow i.toNat (some w) = s := hw ▸ s.setWindow_window? i.toNat
  rcases h with ⟨hk, rfl, hh⟩ | ⟨rfl, hk, h0⟩ | ⟨rfl, hk, hm, h0⟩
  · rw [wipeAuthority_unkeyed hk, if_pos (Window.holdsWrite_iff.2 hh)]
    exact congrArg _ same.symm
  · rw [wipeAuthority_window_match hk h0, State.compareWindow_some hw]
    rfl
  · obtain ⟨k, hk⟩ := Option.ne_none_iff_exists'.1 hk
    rw [wipeAuthority_master_match hk hm h0]
    exact congrArg _ (congrArg (fun t => State.compareMaster t true) same.symm)

/-! ### The ports after the revocation and the end of the jobs -/

/-- A CLAIM_REVOKED that reaches a READY port is queued or lost (R185, R187). -/
theorem Pcu.claimRevoked_post {u : Pcu} (h : u.state = .ready) (i : Nat) :
    Notice.claimRevoked i ∈ (u.post (.claimRevoked i)).notices ∨
      (u.post (.claimRevoked i)).noticeLost = true := by
  have hpost : u.post (.claimRevoked i) = u.store (.claimRevoked i) := by
    rw [Pcu.post, if_pos h]
    rfl
  rw [hpost, Pcu.store]
  split
  · next hany =>
    obtain ⟨m, hm, hk⟩ := List.any_eq_true.1 hany
    have hmi : m = .claimRevoked i := by
      cases m <;> simp_all [Notice.sameKey]
    exact Or.inl (List.mem_map.2 ⟨m, hm, by rw [if_pos hk, hmi]; rfl⟩)
  · split
    · exact Or.inl (List.mem_append_right _ (List.mem_singleton_self _))
    · exact Or.inr rfl

section WipeStart

variable {s : State} {i : Nat} (hi : i < 32) {w : Window} (hl : w.ClaimsLawful)

include hi hl in
/-- The PCU of a port after the revocation, by its part in the claims (R48). -/
theorem State.pcu_wipeRevoked_cases (q : Port) :
    (w.holds q = true ∧ (s.wipeRevoked i w).pcu q = (s.pcu q).post (.claimRevoked i)) ∨
    (∃ x ∈ w.waiters, x.port = q ∧
      (s.wipeRevoked i w).pcu q = (s.pcu q).complete ⟨x.tag, .claim, .revoked, .none⟩) ∨
    (s.wipeRevoked i w).pcu q = s.pcu q := by
  cases hh : w.holds q
  · cases hw : w.waits q
    · exact Or.inr (Or.inr (State.pcu_wipeRevoked_other hi w hh hw))
    · obtain ⟨x, hx, hq⟩ := List.any_eq_true.1 hw
      rw [beq_iff_eq] at hq
      subst hq
      obtain ⟨-, -, hnodup, hapart, -⟩ := hl
      exact Or.inr (Or.inl ⟨x, hx, rfl, State.pcu_wipeRevoked_waiter hi w hnodup hx (hapart x hx)⟩)
  · exact Or.inl ⟨rfl, State.pcu_wipeRevoked_holder hi w hh (hl.not_waits hh)⟩

include hi hl in
/-- A port that waits for nothing there keeps its work through the revocation (R48). -/
theorem State.sameWork_wipeRevoked {q : Port} (hq : ∀ x ∈ w.waiters, x.port ≠ q) :
    (s.pcu q).SameWork ((s.wipeRevoked i w).pcu q) := by
  rcases State.pcu_wipeRevoked_cases (s := s) hi hl q with ⟨-, e⟩ | ⟨x, hx, hp, -⟩ | e
  · rw [e]; exact .post _ _
  · exact absurd hp (hq x hx)
  · rw [e]; exact .refl _

include hi hl in
/-- Neither the queue nor the wipe-prepared record of a port changes before its command leaves. -/
theorem State.queue_wipeJobsRevoked (q : Port) :
    ((s.wipeJobsRevoked i w).pcu q).queue = (s.pcu q).queue ∧
      ((s.wipeJobsRevoked i w).pcu q).wipePrepared = (s.pcu q).wipePrepared := by
  rw [(State.RevokesJobs.wipeJobsRevoked s i w).pcu q]
  rcases State.pcu_wipeRevoked_cases (s := s) hi hl q with ⟨-, e⟩ | ⟨x, -, -, e⟩ | e
  · rw [e, Pcu.post_fields]
    exact ⟨rfl, rfl⟩
  · rw [e]
    exact ⟨rfl, rfl⟩
  · rw [e]
    exact ⟨rfl, rfl⟩

include hi hl in
/-- A waiting CLAIM has completed REVOKED (R48). -/
theorem State.revoked_wipeJobsRevoked {x : Waiter} (hx : x ∈ w.waiters) :
    ⟨x.tag, .claim, .revoked, .none⟩ ∈ ((s.wipeJobsRevoked i w).pcu x.port).completions := by
  obtain ⟨-, -, hnodup, hapart, -⟩ := hl
  apply ((State.RevokesJobs.wipeJobsRevoked s i w).completions x.port).subset
  rw [State.pcu_wipeRevoked_waiter hi w hnodup hx (hapart x hx)]
  exact List.mem_append_right _ (List.mem_singleton_self _)

include hi hl in
/-- A READY holder has the notice of the revocation, or has lost it (R48). -/
theorem State.notified_wipeJobsRevoked {q : Port} (hh : w.holds q = true)
    (hr : (s.pcu q).state = .ready) :
    Notice.claimRevoked i ∈ ((s.wipeJobsRevoked i w).pcu q).notices ∨
      ((s.wipeJobsRevoked i w).pcu q).noticeLost = true := by
  rw [(State.RevokesJobs.wipeJobsRevoked s i w).pcu q,
    State.pcu_wipeRevoked_holder hi w hh (hl.not_waits hh)]
  exact Pcu.claimRevoked_post hr i

include hi hl in
/-- A tag that no revoked wait and no job of the port carries stays outstanding (R161). -/
theorem State.outstanding_wipeJobsRevoked {q : Port} {tag : Byte} (ht : tag ∈ (s.pcu q).outstanding)
    (hw : ∀ x ∈ w.waiters, x.port = q → x.tag ≠ tag)
    (hj : ∀ c j, s.job c = some j → j.owner = q → j.tag ≠ tag) :
    tag ∈ ((s.wipeJobsRevoked i w).pcu q).outstanding := by
  refine (State.RevokesJobs.wipeJobsRevoked s i w).outstanding q tag ?_ fun c j hc =>
    hj c j ((State.Calm.wipeRevoked s i w).job c ▸ hc)
  rcases State.pcu_wipeRevoked_cases (s := s) hi hl q with ⟨-, e⟩ | ⟨x, hx, hp, e⟩ | e
  · rw [e, Pcu.post_fields]
    exact ht
  · rw [e]
    exact (List.mem_erase_of_ne (hw x hx hp).symm).2 ht
  · rwa [e]

/-- A port without a job so ended is as the revocation left it (R71). -/
theorem State.pcu_wipeJobsRevoked_of_no_job {q : Port}
    (hj : ∀ c j, s.job c = some j → j.owner = q → j.kind = .wipe ∨ j.names i = false) :
    (s.wipeJobsRevoked i w).pcu q = (s.wipeRevoked i w).pcu q :=
  (State.RevokesJobs.wipeJobsRevoked s i w).untouched q fun c j hc =>
    hj c j ((State.Calm.wipeRevoked s i w).job c ▸ hc)

/-- A job that the wipe start ended has reported REVOKED (R72, R146). -/
theorem State.reported_wipeJobsRevoked {c : Channel} {j : Job} (h : s.job c = some j)
    (hk : j.kind ≠ .wipe) (hn : j.names i = true) (hs : s.stepInFlight c = false)
    (hd : j.deliver = true) :
    ⟨j.tag, j.kind.command, .revoked, .count j.bytesDone⟩ ∈
      ((s.wipeJobsRevoked i w).pcu j.owner).completions := by
  have calm := State.Calm.wipeRevoked s i w
  have h' : (s.wipeRevoked i w).job c = some j := (calm.job c).trans h
  have hs' : (s.wipeRevoked i w).stepInFlight c = false := (calm.stepInFlight c).trans hs
  cases c with
  | c0 =>
    exact ((State.RevokesJobs.revokeJob _ i .c1).completions j.owner).subset
      (State.revokeJob_reports h' hk hn hs' hd)
  | c1 =>
    refine State.revokeJob_reports (c := .c1) ?_ hk hn ?_ hd
    · rw [State.job_revokeJob, if_neg Channel.noConfusion, h']
    · rw [State.stepInFlight, State.inFlight_revokeJob]
      exact hs'

/-- The completions, notices and tags of a port stand as its command leaves the queue (R71). -/
theorem State.pcu_wipeStart_fields (s : State) (p : Port) (tag : Byte) (i : Nat) (w : Window)
    (q : Port) : (s.wipeStart p tag i w).pcu q = { (s.wipeJobsRevoked i w).pcu q with
      queue := ((s.wipeStart p tag i w).pcu q).queue } := by
  rw [State.pcu_wipeStart]
  split
  · next e => rw [e]; rfl
  · rfl

end WipeStart

/-! ### WIPE at its taking, every check passed -/

/-- The state in which the wipe starts: inside the taking, with the counter of a match restored. -/
def State.wipeBegins (s : State) (p : Port) (i : Nat) (sel : Byte) (w : Window) : State :=
  State.setWindow
    { s.beginTake p with masterAttempts := if sel = 2#8 then 4 else s.masterAttempts } i
    (some (w.compared sel))

section WipeBegins

variable (s : State) (p : Port) (i : Nat) (sel : Byte) (w : Window)

theorem State.pcu_wipeBegins (q : Port) : (s.wipeBegins p i sel w).pcu q = if q = p then
    { s.pcu p with reservations := (s.pcu p).reservations + 1, wipePrepared := none } else s.pcu q :=
  State.pcu_setPcu ..

/-- The taking changes no completion, notice or tag, and no state. -/
theorem State.pcu_wipeBegins_fields (q : Port) : (s.wipeBegins p i sel w).pcu q =
    { s.pcu q with
      reservations := ((s.wipeBegins p i sel w).pcu q).reservations
      wipePrepared := ((s.wipeBegins p i sel w).pcu q).wipePrepared } := by
  rw [State.pcu_wipeBegins]
  split
  · next e => rw [e]
  · rfl

theorem State.job_wipeBegins (c : Channel) : (s.wipeBegins p i sel w).job c = s.job c := by
  cases c <;> rfl

end WipeBegins

/-- Settles O30: the WIPE is the wipe start made inside the taking on the compared window; its ports,
its channels and its window are those of the lemmas above, and the rest stands. -/
theorem wipeStarts : Obligations.WipeStarts := by
  refine ⟨Job.names_iff, fun s p tag i sel key rest w ht hprep hfrozen hw hidle hl hauth hc _ => ?_⟩
  have hi : i.toNat < 32 := State.window?_eq_some_lt hw
  have hcmp : (w.compared sel).ClaimsLawful := hl
  obtain ⟨b, hb⟩ : ∃ b, b = s.wipeBegins p i.toNat sel w := ⟨_, rfl⟩
  have hpass : wipeOutcome (s.beginTake p) i (s.preparedFor p i) = .ok :=
    (eq_wipeOutcome_of_verdict (s := s) (p := p) (.pass hprep (.pass hfrozen (.pass (by
      rw [hw]; exact Option.some_ne_none w) (.pass (fun v hv => by
      rw [hw] at hv; cases hv; exact hidle) rfl))))).symm
  have hexec : exec (.wipe p) s =
      .next (arrive s (b.wipeStart p tag i.toNat (w.compared sel))) := by
    rw [show exec (.wipe p) s =
      .next (arrive s (doWipe (s.beginTake p) p tag i sel key (s.preparedFor p i))) from exec_taking ht,
      doWipe_starts (s := s.beginTake p) hpass hw
        (wipeAuthority_of_authorized (s := s.beginTake p) hw hauth) hc (v := w.compared sel)
        (State.window?_setWindow_same _ hi), hb]
    rfl
  have hjob : ∀ c, b.job c = s.job c := fun c => hb ▸ s.job_wipeBegins p i.toNat sel w c
  have hstep : ∀ c, b.stepInFlight c = s.stepInFlight c := fun c => hb ▸ rfl
  have hpcu := fun q => hb ▸ s.pcu_wipeBegins p i.toNat sel w q
  have hfields := fun q => hb ▸ s.pcu_wipeBegins_fields p i.toNat sel w q
  have hfield := b.pcu_wipeStart_fields p tag i.toNat (w.compared sel)
  obtain ⟨c, hfree, hlow, hjobs⟩ := State.job_wipeStart (s := b) (hb ▸ hc) p tag i.toNat (w.compared sel)
  have frame : b.wipeStart p tag i.toNat (w.compared sel) = { s with
      masterAttempts := if sel = 2#8 then 4 else s.masterAttempts
      windows := (b.wipeStart p tag i.toNat (w.compared sel)).windows
      pcus := (b.wipeStart p tag i.toNat (w.compared sel)).pcus
      c0 := (b.wipeStart p tag i.toNat (w.compared sel)).c0
      c1 := (b.wipeStart p tag i.toNat (w.compared sel)).c1 } :=
    Eq.trans (State.KeepsRest.wipeStart b p tag i.toNat (w.compared sel)) (by rw [hb]; rfl)
  have hwin := State.window?_wipeStart (s := b) p tag (w.compared sel) hi
  have hqueue := State.queue_wipeJobsRevoked (s := b) hi hcmp p
  have hpop := (b.pcu_wipeStart p tag i.toNat (w.compared sel) p).trans (if_pos rfl)
  have hother := fun q (hq : q ≠ p) =>
    (b.pcu_wipeStart p tag i.toNat (w.compared sel) q).trans (if_neg hq)
  generalize b.wipeStart p tag i.toNat (w.compared sel) = t at *
  refine ⟨t, hexec, ?_, fun j hj => ?_, ?_, ?_, ?_, ⟨c, ?_, fun d hd h0 => ?_, (hjobs c).trans (if_pos rfl)⟩,
    fun d j hj hk => ?_, fun d j hj hk hn => ?_, fun x hx => ?_, fun q hh hr => ?_, ?_, ?_,
    fun hx hj => ?_, fun ht hx hj => ?_, fun q hq hh hx hj => ?_, ?_, ?_, ?_, ?_, ?_, ?_⟩
  · rw [hwin, if_pos rfl]
    rfl
  · rw [hwin, if_neg hj, hb]
    exact State.window?_setWindow_ne _ _ hj
  · rw [frame]
  · rw [frame]
  · rw [frame]
  · rintro rfl
    rw [show t.c0 = _ from hjobs .c0]
    exact hlow rfl
  · rw [hjobs, if_neg hd, State.revokedJob_of_free ((hjob d).trans h0)]
  · have hkept := State.revokedJob_of_kept ((hjob d).trans hj) hk
    rw [hjobs, if_neg (by rintro rfl; rw [hfree] at hkept; cases hkept), hkept]
  · have hnamed := State.revokedJob_of_named ((hjob d).trans hj) hk hn
    rw [hstep] at hnamed
    refine ⟨fun hs => ?_, fun hs => ⟨?_, fun hd => ?_⟩⟩
    · rw [hs, if_pos rfl] at hnamed
      rw [hjobs, if_neg (by rintro rfl; rw [hfree] at hnamed; cases hnamed), hnamed]
    · rw [hs, if_neg Bool.false_ne_true] at hnamed
      rw [hjobs, hnamed]
      split
      · rintro ⟨⟩
        exact hk rfl
      · exact (Option.some_ne_none j).symm
    · rw [hfield]
      exact State.reported_wipeJobsRevoked ((hjob d).trans hj) hk hn ((hstep d).trans hs) hd
  · rw [hfield]
    exact State.revoked_wipeJobsRevoked (w := w.compared sel) hi hcmp hx
  · rw [hfield]
    exact State.notified_wipeJobsRevoked (w := w.compared sel) hi hcmp hh (by rw [hfields]; exact hr)
  · obtain ⟨-, hq, -⟩ := ht
    rw [hpop, Pcu.popHead, hqueue.1, hfields, hq]
    rfl
  · rw [hpop, Pcu.popHead, hqueue.2, hpcu, if_pos rfl]
  · obtain ⟨hcompletions, -, -, -, houtstanding, hreservations, -⟩ :=
      State.sameWork_wipeRevoked (s := b) (w := w.compared sel) hi hcmp hx
    rw [hfield, State.pcu_wipeJobsRevoked_of_no_job fun d j hd => hj d j ((hjob d).symm.trans hd)]
    refine ⟨hreservations.trans ?_, houtstanding.trans ?_, hcompletions.trans ?_⟩
    all_goals rw [hpcu, if_pos rfl]
  · rw [hfield]
    exact State.outstanding_wipeJobsRevoked (w := w.compared sel) hi hcmp (by rw [hfields]; exact ht) hx
      fun d j hd => hj d j ((hjob d).symm.trans hd)
  · rw [hother q hq, State.pcu_wipeJobsRevoked_of_no_job fun d j hd => hj d j ((hjob d).symm.trans hd),
      State.pcu_wipeRevoked_other hi (w.compared sel) hh, hpcu, if_neg hq]
    rw [Window.waits_eq_false]
    exact hx
  · rw [frame]
  · rw [frame]
  · rw [frame]
    exact ⟨fun _ => rfl, rfl, rfl, rfl, rfl, rfl, rfl, rfl⟩
  · rw [frame]
    exact ⟨rfl, rfl, rfl, rfl, rfl, rfl⟩
  · rw [frame]
    exact ⟨rfl, rfl, rfl, rfl⟩
  · rw [frame]
    exact ⟨rfl, rfl, rfl, rfl⟩

end Sys2Proof.Machine

/-! Grants and arrivals: what a grant leaves unchanged, and what the arrival of one port's request brings
(R95 to R100). -/

namespace Sys2Proof.Machine

/-! ### What a grant can do -/

theorem State.endAccess_eq_setPcu (s : State) (p : Port) (k : CommandKind) (o : OutcomeCode) (e : Extra) :
    ∃ u, s.endAccess p k o e = s.setPcu p u := by
  unfold State.endAccess
  simp only
  split
  · exact ⟨_, rfl⟩
  · split
    · exact ⟨s.pcu p, (State.setPcu_pcu s p).symm⟩
    · exact ⟨_, rfl⟩

/-- A grant to a port starts its access or ends it, or finds none (R80, R99). -/
theorem State.grantPort_cases (s : State) (p : Port) : s.grantPort p = s ∨
    (∃ work, s.grantPort p = s.startAccess (.port p) work) ∨ ∃ u, s.grantPort p = s.setPcu p u := by
  unfold State.grantPort
  split
  · exact Or.inl rfl
  · split
    · dsimp only
      split
      · exact Or.inr (Or.inl ⟨_, rfl⟩)
      · exact Or.inr (Or.inr (State.endAccess_eq_setPcu ..))
    · dsimp only
      split
      · exact Or.inr (Or.inl ⟨_, rfl⟩)
      · exact Or.inr (Or.inr (State.endAccess_eq_setPcu ..))
    · exact Or.inr (Or.inl ⟨_, rfl⟩)

/-- A grant to a channel starts the step or ends the job, or finds none (R140, R141). -/
theorem State.grantChannel_cases (s : State) (c : Channel) : s.grantChannel c = s ∨
    (∃ work, s.grantChannel c = s.startAccess (.channel c) work) ∨
      ∃ o, s.grantChannel c = s.endJob c o := by
  unfold State.grantChannel
  split
  · exact Or.inl rfl
  · dsimp only
    split
    · split
      · exact Or.inr (Or.inl ⟨_, rfl⟩)
      · exact Or.inr (Or.inr ⟨_, rfl⟩)
    · split
      · exact Or.inr (Or.inl ⟨_, rfl⟩)
      · exact Or.inr (Or.inr ⟨_, rfl⟩)
    · exact Or.inr (Or.inl ⟨_, rfl⟩)
    · exact Or.inr (Or.inr ⟨_, rfl⟩)

/-- What a grant in the rotation leaves unchanged (R99 to R102). -/
structure State.Grants (s t : State) (x : Slot) : Prop where
  frame : t = { s with
    rotation := t.rotation, postponed := t.postponed, inFlight := t.inFlight, pcus := t.pcus
    c0 := t.c0, c1 := t.c1 }
  postponed : s.scrubDue = false → t.postponed = s.postponed
  port : ∀ p, x = .port p → (∀ q, q ≠ p → t.pcu q = s.pcu q) ∧ ∀ c, t.job c = s.job c
  channel : ∀ c, x = .channel c → (∀ d, d ≠ c → t.job d = s.job d) ∧
    ∀ q, (∀ j, s.job c = some j → j.owner ≠ q) → t.pcu q = s.pcu q

theorem State.Grants.refl (s : State) (x : Slot) : s.Grants s x :=
  ⟨rfl, fun _ => rfl, fun _ _ => ⟨fun _ _ => rfl, fun _ => rfl⟩,
    fun _ _ => ⟨fun _ _ => rfl, fun _ _ => rfl⟩⟩

theorem State.Grants.startAccess (s : State) (x y : Slot) (work : Work) :
    s.Grants (s.startAccess y work) x where
  frame := rfl
  postponed h := by rw [State.startAccess, h]; rfl
  port _ _ := ⟨fun _ _ => rfl, fun c => by cases c <;> rfl⟩
  channel _ _ := ⟨fun d _ => by cases d <;> rfl, fun _ _ => rfl⟩

theorem State.Grants.setPcu (s : State) (p : Port) (u : Pcu) : s.Grants (s.setPcu p u) (.port p) where
  frame := rfl
  postponed _ := rfl
  port q hq := by
    cases hq
    exact ⟨fun q hq => State.pcu_setPcu_ne s u hq, fun c => State.job_setPcu ..⟩
  channel _ h := by cases h

theorem State.Grants.endJob (s : State) (c : Channel) (o : OutcomeCode) :
    s.Grants (s.endJob c o) (.channel c) where
  frame := by
    have h := State.endJob_frame s c o
    rw [show (s.endJob c o).rotation = s.rotation from (congrArg State.rotation h).trans rfl,
      show (s.endJob c o).postponed = s.postponed from (congrArg State.postponed h).trans rfl,
      State.inFlight_endJob]
    exact h
  postponed _ := by rw [State.endJob_frame]
  port _ h := by cases h
  channel d hd := by
    cases hd
    refine ⟨fun d hd => by rw [State.job_endJob, if_neg hd], fun q hq => ?_⟩
    cases hj : s.job c with
    | none => simp only [State.endJob, hj]
    | some j => exact (SamePcusBut.endJob hj o).1 q fun e => hq j hj e.symm

/-- The pointer moves first, and nothing else of the grant reads it (R100). -/
theorem State.Grants.rotate {s t : State} {x : Slot} (y : Slot)
    (h : State.Grants { s with rotation := y } t x) : s.Grants t x :=
  ⟨h.frame, h.postponed, h.port, h.channel⟩

theorem State.Grants.grantTo (s : State) (x : Slot) : s.Grants (s.grantTo (.slot x)) x := by
  cases x with
  | port p =>
    refine .rotate (Slot.port p).next ?_
    rcases State.grantPort_cases { s with rotation := (Slot.port p).next } p with e | ⟨_, e⟩ | ⟨_, e⟩
    · rw [State.grantTo, e]; exact .refl _ _
    · rw [State.grantTo, e]; exact .startAccess ..
    · rw [State.grantTo, e]; exact .setPcu ..
  | channel c =>
    refine .rotate (Slot.channel c).next ?_
    rcases State.grantChannel_cases { s with rotation := (Slot.channel c).next } c with
      e | ⟨_, e⟩ | ⟨_, e⟩
    · rw [State.grantTo, e]; exact .refl _ _
    · rw [State.grantTo, e]; exact .startAccess ..
    · rw [State.grantTo, e]; exact .endJob ..

/-! ### The arrival of one port's request -/

/-- A change after which only one port can have a new request: its access, or a job of its own (R96). -/
structure State.Raises (p : Port) (s t : State) : Prop where
  inFlight : t.inFlight = s.inFlight
  scrubDue : t.scrubDue = s.scrubDue
  access : ∀ q, q ≠ p → (t.pcu q).access = (s.pcu q).access
  running : ∀ c j, t.job c = some j → j.state = .running →
    (∃ k, s.job c = some k ∧ k.state = .running) ∨ j.owner = p

theorem State.Restful.raises {s t : State} (h : s.Restful t) (hd : t.scrubDue = s.scrubDue) (p : Port) :
    State.Raises p s t :=
  ⟨h.inFlight, hd, fun q _ => h.access q, fun c j hj hr => Or.inl (h.running c j hj hr)⟩

/-- What the arrival leaves of the state after the change (R97, R100). -/
structure State.Arrived (p : Port) (s t u : State) : Prop where
  frame : u = { t with
    rotation := u.rotation, inFlight := u.inFlight, pcus := u.pcus, c0 := u.c0, c1 := u.c1 }
  pcu : ∀ q, q ≠ p → u.pcu q = t.pcu q
  job : ∀ c, t.job c = s.job c → u.job c = t.job c
  busy : s.inFlight ≠ none ∨ s.choose ≠ none → u = t

theorem State.requests_port_of_free {s : State} (h : s.inFlight = none) (p : Port) :
    s.requests (.port p) = true ↔ (s.pcu p).access.isSome = true := by
  simp only [State.requests, State.accessInFlight, h, Option.any_none, Bool.not_false, Bool.and_true]

theorem State.requests_channel_of_free {s : State} (h : s.inFlight = none) (c : Channel) :
    s.requests (.channel c) = true ↔ ∃ j, s.job c = some j ∧ j.state = .running := by
  simp only [State.requests, State.stepInFlight, h, Option.any_none, Bool.not_false, Bool.and_true,
    Option.any_eq_true, beq_iff_eq]

/-- The requests after the change of one port, where there was none before. -/
theorem State.Raises.requests {p : Port} {s t : State} (h : State.Raises p s t)
    (hf : s.inFlight = none) (hn : ∀ x, s.requests x = false) {x : Slot} (hx : t.requests x = true) :
    x = .port p ∨ ∃ c j, x = .channel c ∧ t.job c = some j ∧ j.owner = p ∧ t.job c ≠ s.job c := by
  have hf' : t.inFlight = none := h.inFlight.trans hf
  cases x with
  | port q =>
    refine Or.inl (congrArg Slot.port (by_contra fun hq => ?_))
    rw [State.requests_port_of_free hf', h.access q hq, ← State.requests_port_of_free hf, hn] at hx
    cases hx
  | channel c =>
    obtain ⟨j, hj, hr⟩ := (State.requests_channel_of_free hf' c).1 hx
    have quiet : ∀ k, s.job c = some k → k.state ≠ .running := fun k hk hkr => by
      have := (State.requests_channel_of_free hf c).2 ⟨k, hk, hkr⟩
      rw [hn] at this
      cases this
    refine Or.inr ⟨c, j, rfl, hj, ?_, fun e => quiet j (e ▸ hj) hr⟩
    rcases h.running c j hj hr with ⟨k, hk, hkr⟩ | ho
    · exact absurd hkr (quiet k hk)
    · exact ho

theorem State.Raises.arrived {p : Port} {s t : State} (h : State.Raises p s t) :
    State.Arrived p s t (arrive s t) := by
  have still : State.Arrived p s t t := ⟨rfl, fun _ _ => rfl, fun _ _ => rfl, fun _ => rfl⟩
  unfold arrive
  split
  · next hidle =>
    rw [Bool.and_eq_true, Option.isNone_iff_eq_none, Option.isNone_iff_eq_none] at hidle
    obtain ⟨hf, hc⟩ := hidle
    obtain ⟨hdue, hn⟩ := State.choose_eq_none.1 hc
    have hdue' : t.scrubDue = false := h.scrubDue.trans hdue
    unfold State.grantNow
    split
    · next r hr =>
      cases r with
      | scrub =>
        have hscrub : t.scrubDue = true := by
          unfold State.choose at hr
          rw [hdue'] at hr
          simp only [Bool.false_and, Bool.false_eq_true, if_false] at hr
          split at hr <;> cases hr
        rw [hdue'] at hscrub
        cases hscrub
      | slot x =>
        have grants := State.Grants.grantTo t x
        have only := h.requests hf hn (State.choose_slot hr).2
        refine ⟨?_, fun q hq => ?_, fun c hc' => ?_, fun hbusy => ?_⟩
        · have := grants.frame
          rwa [grants.postponed hdue'] at this
        · rcases only with rfl | ⟨c, j, rfl, hj, ho, -⟩
          · exact (grants.port p rfl).1 q hq
          · refine (grants.channel c rfl).2 q fun k hk => ?_
            rw [hj] at hk
            cases hk
            rw [ho]
            exact hq.symm
        · rcases only with rfl | ⟨d, j, rfl, hj, -, hne⟩
          · exact (grants.port p rfl).2 c
          · exact (grants.channel d rfl).1 c fun e => hne (e ▸ hc')
        · exact absurd hbusy (not_or.2 ⟨not_not.2 hf, not_not.2 hc⟩)
    · exact still
  · exact still

end Sys2Proof.Machine

/-! What each taking leaves unchanged, command by command (R95, R97, R174). -/

namespace Sys2Proof.Machine

/-! ### The takings that need no array -/

/-- The commands whose taking may change a window record. -/
def CommandKind.changesWindows : List CommandKind :=
  [.claim, .release, .renew, .deleteWindow, .defineWindow, .setWindowParams, .setKey, .clearKey,
    .unlock, .lock]

/-- The commands whose taking may change the master key, its counter or the freeze flag. -/
def CommandKind.changesKeys : List CommandKind := [.unlock, .setMasterKey, .freeze]

/-- The commands whose taking may change the PCUs of other ports. -/
def CommandKind.reachesPorts : List CommandKind := [.release, .deleteWindow]

/-- What the taking of a command of a kind by a port leaves unchanged, where it needs no array. -/
structure State.TakenAs (k : CommandKind) (p : Port) (s t : State) : Prop where
  frame : t = { s with
    windows := t.windows, pcus := t.pcus, masterKey := t.masterKey
    masterAttempts := t.masterAttempts, frozen := t.frozen, c0 := t.c0, c1 := t.c1
    scrubEnabled := t.scrubEnabled, scrubInterval := t.scrubInterval, scrubTimer := t.scrubTimer
    scrubDue := t.scrubDue, postponed := t.postponed }
  jobs : k ≠ .cancelJob → SameJobs s t
  scrub : k ≠ .scrubSettings → SameScrub s t ∧ SameArbiter s t
  keys : k ∉ CommandKind.changesKeys → SameKeys s t
  windows : k ∉ CommandKind.changesWindows → t.windows = s.windows
  pcu : k ∉ CommandKind.reachesPorts → ∀ q, q ≠ p → t.pcu q = s.pcu q

/-- The job that CANCEL JOB finds is the port's own (R147). -/
theorem State.owner_of_findJob {s : State} {p : Port} {tag : Byte} {c : Channel} {j : Job}
    (h : s.findJob p tag = some c) (hj : s.job c = some j) : j.owner = p := by
  have := List.find?_some h
  rw [hj, Option.any_some, Bool.and_eq_true, beq_iff_eq] at this
  exact this.1

namespace State.TakenAs

variable {k : CommandKind} {p : Port} {s t u : State}

theorem refl (k : CommandKind) (p : Port) (s : State) : State.TakenAs k p s s :=
  ⟨rfl, fun _ => ⟨rfl, rfl⟩, fun _ => ⟨⟨rfl, rfl, rfl, rfl⟩, rfl, rfl, rfl, rfl⟩,
    fun _ => ⟨rfl, rfl, rfl⟩, fun _ => rfl, fun _ _ _ => rfl⟩

theorem trans (h : State.TakenAs k p s t) (g : State.TakenAs k p t u) : State.TakenAs k p s u where
  frame := Eq.trans g.frame (by conv_lhs => rw [h.frame])
  jobs hk := by
    obtain ⟨h0, h1⟩ := h.jobs hk
    obtain ⟨g0, g1⟩ := g.jobs hk
    exact ⟨g0.trans h0, g1.trans h1⟩
  scrub hk := by
    obtain ⟨⟨h1, h2, h3, h4⟩, h5, h6, h7, h8⟩ := h.scrub hk
    obtain ⟨⟨g1, g2, g3, g4⟩, g5, g6, g7, g8⟩ := g.scrub hk
    exact ⟨⟨g1.trans h1, g2.trans h2, g3.trans h3, g4.trans h4⟩, g5.trans h5, g6.trans h6,
      g7.trans h7, g8.trans h8⟩
  keys hk := by
    obtain ⟨h1, h2, h3⟩ := h.keys hk
    obtain ⟨g1, g2, g3⟩ := g.keys hk
    exact ⟨g1.trans h1, g2.trans h2, g3.trans h3⟩
  windows hk := (g.windows hk).trans (h.windows hk)
  pcu hk q hq := (g.pcu hk q hq).trans (h.pcu hk q hq)

/-- A calm change, for a command that may make it. -/
theorem calm (h : s.Calm t) (hw : k ∈ CommandKind.changesWindows ∨ t.windows = s.windows)
    (hp : k ∈ CommandKind.reachesPorts ∨ ∀ q, q ≠ p → t.pcu q = s.pcu q) :
    State.TakenAs k p s t where
  frame := by
    rw [h.masterKey, h.masterAttempts, h.frozen, h.c0, h.c1, h.scrubEnabled, h.scrubInterval,
      h.scrubTimer, h.scrubDue, h.postponed]
    exact h.frame
  jobs _ := h.sameJobs
  scrub _ := ⟨h.sameScrub, h.sameArbiter⟩
  keys _ := h.sameKeys
  windows hk := hw.resolve_left hk
  pcu hk := hp.resolve_left hk

/-- A change of the port's own PCU. -/
theorem setPcu (s : State) (v : Pcu) : State.TakenAs k p s (s.setPcu p v) :=
  ⟨rfl, fun _ => ⟨rfl, rfl⟩, fun _ => ⟨⟨rfl, rfl, rfl, rfl⟩, rfl, rfl, rfl, rfl⟩,
    fun _ => ⟨rfl, rfl, rfl⟩, fun _ => rfl, fun _ _ hq => State.pcu_setPcu_ne s v hq⟩

theorem beginTake (s : State) : State.TakenAs k p s (s.beginTake p) := setPcu s _

theorem finish (s : State) (tag : Byte) (c : CommandKind) (o : OutcomeCode) :
    State.TakenAs k p s (s.finish p tag c o) := setPcu s _

theorem leaveQueue (s : State) : State.TakenAs k p s (s.leaveQueue p) := setPcu s _

theorem finishWith (h : State.TakenAs k p s t) (tag : Byte) (c : CommandKind) (o : OutcomeCode) :
    State.TakenAs k p s (s.finishWith p tag c o t) := by
  unfold State.finishWith
  split
  · exact h.trans (finish t ..)
  · exact finish s ..

/-- A change of a window record, by a command that may make it. -/
theorem setWindow (hk : k ∈ CommandKind.changesWindows) (s : State) (i : Nat) (w : Option Window) :
    State.TakenAs k p s (s.setWindow i w) :=
  calm (State.Calm.setWindow s i w) (Or.inl hk) (Or.inr fun _ _ => rfl)

theorem setGuard (hk : k ∈ CommandKind.changesWindows) (s : State) (i : Nat) (f : Guard → Guard) :
    State.TakenAs k p s (s.setGuard i f) := by
  rw [State.setGuard_eq_setWindow]
  exact setWindow hk s i _

/-- A change of the master key, its counter or the freeze flag, by a command that may make it. -/
theorem setKeys (hk : k ∈ CommandKind.changesKeys) (s : State) (m : Option Key) (n : Nat) (f : Bool) :
    State.TakenAs k p s { s with masterKey := m, masterAttempts := n, frozen := f } :=
  ⟨rfl, fun _ => ⟨rfl, rfl⟩, fun _ => ⟨⟨rfl, rfl, rfl, rfl⟩, rfl, rfl, rfl, rfl⟩,
    fun h => absurd hk h, fun _ => rfl, fun _ _ _ => rfl⟩

/-- The end of a job of the port, or a change of it, by CANCEL JOB. -/
theorem keepsRest (h : s.KeepsRest t) (hw : t.windows = s.windows)
    (hp : ∀ q, q ≠ p → t.pcu q = s.pcu q) : State.TakenAs .cancelJob p s t := by
  have frame : t = { s with pcus := t.pcus, c0 := t.c0, c1 := t.c1 } := by
    conv_lhs => rw [h, hw]
  refine ⟨?_, fun hk => absurd rfl hk, fun _ => ?_, fun _ => ?_, fun _ => hw, fun _ => hp⟩
  · rw [frame]
  · rw [frame]
    exact ⟨⟨rfl, rfl, rfl, rfl⟩, rfl, rfl, rfl, rfl⟩
  · rw [frame]
    exact ⟨rfl, rfl, rfl⟩

/-- The new scrub settings. -/
theorem applyScrub (s : State) (e : Bool) (n : Nat) :
    State.TakenAs .scrubSettings p s (s.applyScrub e n) := by
  unfold State.applyScrub
  split <;> exact ⟨rfl, fun _ => ⟨rfl, rfl⟩, fun hk => absurd rfl hk, fun _ => ⟨rfl, rfl, rfl⟩,
    fun _ => rfl, fun _ _ _ => rfl⟩

/-! #### Command by command -/

theorem doClaim (s : State) (tag i kind wait : Byte) :
    State.TakenAs .claim p s (doClaim s p tag i kind wait) := by
  have hk : CommandKind.claim ∈ CommandKind.changesWindows := by decide
  unfold Machine.doClaim
  split
  · split
    · unfold claimDecide
      split
      · exact (setWindow hk s _ _).trans (finish _ ..)
      · split
        · exact (setWindow hk s _ _).trans (leaveQueue _)
        · exact finish ..
    · exact refl ..
  · exact finish ..

theorem doRelease (s : State) (tag i : Byte) : State.TakenAs .release p s (doRelease s p tag i) := by
  have hw : CommandKind.release ∈ CommandKind.changesWindows := by decide
  have hp : CommandKind.release ∈ CommandKind.reachesPorts := by decide
  have reach : ∀ {t u : State}, t.Calm u → State.TakenAs .release p t u := fun h =>
    calm h (Or.inl hw) (Or.inl hp)
  unfold Machine.doRelease
  dsimp only
  split
  · exact finish ..
  · split
    · exact ((setWindow hw s _ _).trans (finish _ ..)).trans (reach (State.Calm.grantPass ..))
    · split
      · exact (((setWindow hw s _ _).trans (reach (State.Calm.completeWait ..))).trans
          (finish _ ..)).trans (reach (State.Calm.grantPass ..))
      · exact finish ..

theorem doRenew (s : State) (tag i : Byte) : State.TakenAs .renew p s (doRenew s p tag i) := by
  have hk : CommandKind.renew ∈ CommandKind.changesWindows := by decide
  unfold Machine.doRenew
  split
  · exact finish ..
  · split
    · exact (setWindow hk s _ _).trans (finish _ ..)
    · exact finish ..

theorem doUnlock (s : State) (tag i sel : Byte) (key : Key) :
    State.TakenAs .unlock p s (doUnlock s p tag i sel key) := by
  have hk : CommandKind.unlock ∈ CommandKind.changesWindows := by decide
  have master : ∀ (t : State) b, State.TakenAs .unlock p t (t.compareMaster b) := fun t b =>
    setKeys (by decide) t t.masterKey _ t.frozen
  unfold Machine.doUnlock
  split
  · split
    · unfold unlockCompare
      dsimp only
      split
      · split
        · exact ((setGuard hk s _ _).trans (master _ _)).trans (finish _ ..)
        · exact (master s _).trans (finish _ ..)
      · split
        · exact ((setGuard hk s _ _).trans (setGuard hk _ _ _)).trans (finish _ ..)
        · exact (setGuard hk s _ _).trans (finish _ ..)
    · exact refl ..
  · exact finish ..

theorem doLock (s : State) (tag i : Byte) : State.TakenAs .lock p s (doLock s p tag i) := by
  unfold Machine.doLock
  split
  · exact finish ..
  · exact (setGuard (by decide) s _ _).trans (finish _ ..)

theorem doSetMasterKey (s : State) (tag : Byte) (a b : Key) :
    State.TakenAs .setMasterKey p s (doSetMasterKey s p tag a b) := by
  have hk : CommandKind.setMasterKey ∈ CommandKind.changesKeys := by decide
  unfold Machine.doSetMasterKey
  dsimp only
  split
  · split
    · exact (setKeys hk s _ _ s.frozen).trans (finish _ ..)
    · split
      · exact finish ..
      · split
        · exact (setKeys hk s _ _ s.frozen).trans (finish _ ..)
        · exact (setKeys hk s s.masterKey _ s.frozen).trans (finish (s.compareMaster false) ..)
  · exact finish ..

theorem doCancelJob (s : State) (tag job : Byte) :
    State.TakenAs .cancelJob p s (doCancelJob s p tag job) := by
  unfold Machine.doCancelJob
  split
  · exact finish ..
  · next c hc =>
    split
    · exact refl ..
    · next j hj =>
      split
      · exact finish ..
      · split
        · exact finish ..
        · split
          · refine (keepsRest ?_ (State.windows_setJob ..) fun q _ => State.pcu_setJob ..).trans
              (finish _ ..)
            cases c <;> rfl
          · refine (keepsRest (.endJob ..) (State.windows_endJob ..) fun q hq => ?_).trans (finish _ ..)
            exact (SamePcusBut.endJob hj _).1 q (State.owner_of_findJob hc hj ▸ hq)

/-- Every command that needs no array, carried out. -/
theorem carryOut (s : State) (tag : Byte) (prep : Byte → Bool) (c : Command)
    (h : CommandKind.usesArray c.kind = false) :
    State.TakenAs c.kind p s (carryOut s p tag prep c) := by
  cases c
  case inject | wipe | read | write | copy | fill => cases h
  case defineWindow => exact (setWindow (k := .defineWindow) (by decide) s _ _).finishWith ..
  case setWindowParams => exact (setWindow (k := .setWindowParams) (by decide) s _ _).finishWith ..
  case deleteWindow =>
    exact (calm (k := .deleteWindow) ((State.Calm.revoke s _).trans (State.Calm.setWindow _ _ _))
      (Or.inl (by decide)) (Or.inl (by decide))).finishWith ..
  case freeze => exact (setKeys (by decide) s s.masterKey s.masterAttempts true).finishWith ..
  case setMasterKey => exact doSetMasterKey ..
  case scrubSettings => exact (applyScrub s _ _).finishWith ..
  case claim => exact doClaim ..
  case release => exact doRelease ..
  case renew => exact doRenew ..
  case setKey => exact (setGuard (k := .setKey) (by decide) s _ _).finishWith ..
  case clearKey => exact (setGuard (k := .clearKey) (by decide) s _ _).finishWith ..
  case unlock => exact doUnlock ..
  case lock => exact doLock ..
  case wipePrepare => exact (setPcu s _).finishWith ..
  case cancelJob => exact doCancelJob ..

end State.TakenAs

/-! ### The takings that use the array -/

/-- What the taking of a command by a port leaves unchanged, before its request arrives, where it uses
the array (R71, R77 to R79, R91, R137). -/
structure State.Requested (k : CommandKind) (p : Port) (s t : State) : Prop where
  frame : t = { s with
    windows := t.windows, pcus := t.pcus, masterAttempts := t.masterAttempts, c0 := t.c0, c1 := t.c1 }
  raises : State.Raises p s t
  own : k ≠ .wipe → t.windows = s.windows ∧ t.masterAttempts = s.masterAttempts ∧
    ∀ q, q ≠ p → t.pcu q = s.pcu q
  apart : ∀ q, q ≠ p → (∀ i w, s.window? i = some w → w.holds q = false ∧ w.waits q = false) →
    (∀ c j, s.job c = some j → j.owner ≠ q) → t.pcu q = s.pcu q
  stand : k ∈ [.read, .write, .inject] → ∀ c, t.job c = s.job c
  start : k ∈ [.copy, .fill] → ∀ c j, s.job c = some j → t.job c = some j

theorem State.requestFrame_trans {s t u : State}
    (h : t = { s with
      windows := t.windows, pcus := t.pcus, masterAttempts := t.masterAttempts, c0 := t.c0, c1 := t.c1 })
    (k : u = { t with
      windows := u.windows, pcus := u.pcus, masterAttempts := u.masterAttempts, c0 := u.c0, c1 := u.c1 }) :
    u = { s with
      windows := u.windows, pcus := u.pcus, masterAttempts := u.masterAttempts, c0 := u.c0, c1 := u.c1 } :=
  Eq.trans k (by conv_lhs => rw [h])

namespace State.Requested

variable {k : CommandKind} {p : Port} {s : State}

/-- A change of the port's own PCU. -/
theorem setPcu (s : State) (u : Pcu) : State.Requested k p s (s.setPcu p u) where
  frame := rfl
  raises := ⟨rfl, rfl, fun _ hq => by rw [State.pcu_setPcu_ne s u hq], fun c j hj hr =>
    Or.inl ⟨j, State.job_setPcu s p u c ▸ hj, hr⟩⟩
  own _ := ⟨rfl, rfl, fun _ hq => State.pcu_setPcu_ne s u hq⟩
  apart _ hq _ _ := State.pcu_setPcu_ne s u hq
  stand _ c := State.job_setPcu s p u c
  start _ c j hj := (State.job_setPcu s p u c).trans hj

theorem finish (s : State) (tag : Byte) (c : CommandKind) (o : OutcomeCode) :
    State.Requested k p s ((s.beginTake p).finish p tag c o) := by
  rw [State.finish_beginTake]
  exact setPcu s _

theorem formAccess (s : State) (tag : Byte) (b : AccessBody) :
    State.Requested k p s ((s.beginTake p).formAccess p tag b) := by
  rw [State.formAccess, State.beginTake, State.setPcu_setPcu]
  exact setPcu s _

/-- A COPY or FILL job of the port on a free channel. -/
theorem startJob (hk : k ∈ [CommandKind.copy, .fill]) (s : State) (j : Job) (hj : j.owner = p)
    (hc : s.c0 = none ∨ s.c1 = none) :
    State.Requested k p s (((s.beginTake p).startJob j).leaveQueue p) := by
  obtain ⟨c, hfree⟩ : ∃ c, c = (if s.c0 = none then Channel.c0 else .c1) ∧ s.job c = none := by
    by_cases h0 : s.c0 = none
    · exact ⟨_, rfl, by rw [if_pos h0]; exact h0⟩
    · exact ⟨_, rfl, by rw [if_neg h0]; exact hc.resolve_left h0⟩
  obtain ⟨hcx, hfree⟩ := hfree
  rw [State.startJob_leaveQueue p hc, ← hcx]
  have hother : ∀ q, q ≠ p → ((s.setJob c (some j)).handsOver p).pcu q = s.pcu q := fun q hq => by
    rw [State.handsOver, State.pcu_setPcu_ne _ _ hq, State.pcu_setJob]
  have hjob : ∀ d, ((s.setJob c (some j)).handsOver p).job d = if d = c then some j else s.job d :=
    fun d => by rw [State.handsOver, State.job_setPcu, State.job_setJob]
  have keep : (s.setJob c (some j)).handsOver p = { s with
      pcus := ((s.setJob c (some j)).handsOver p).pcus
      c0 := ((s.setJob c (some j)).handsOver p).c0, c1 := ((s.setJob c (some j)).handsOver p).c1 } := by
    cases c <;> rfl
  generalize (s.setJob c (some j)).handsOver p = t at *
  refine ⟨?_, ⟨?_, ?_, fun q hq => by rw [hother q hq], fun d l hl hr => ?_⟩,
    fun _ => ⟨?_, ?_, hother⟩, fun q hq _ _ => hother q hq, fun h => ?_, fun _ d l hl => ?_⟩
  · rw [keep]
  · rw [keep]
  · rw [keep]
  · rw [hjob] at hl
    split at hl
    · cases hl
      exact Or.inr hj
    · exact Or.inl ⟨l, hl, hr⟩
  · rw [keep]
  · rw [keep]
  · simp only [List.mem_cons, List.not_mem_nil, or_false] at hk h
    rcases hk with rfl | rfl <;> simp at h
  · rw [hjob, if_neg (by rintro rfl; rw [hfree] at hl; cases hl), hl]

end State.Requested

/-! ### WIPE -/

/-- The authority to wipe makes one comparison, or none (R69, R70). -/
theorem wipeAuthority_cases (s : State) (p : Port) (i sel : Byte) (key : Key) (w : Window) :
    (wipeAuthority s p i sel key w).2 = s ∨
      (∃ b, (wipeAuthority s p i sel key w).2 = s.compareWindow i.toNat b) ∨
      ∃ b, (wipeAuthority s p i sel key w).2 = s.compareMaster b := by
  unfold wipeAuthority
  split
  · split <;> exact Or.inl rfl
  · split
    · split
      · exact Or.inl rfl
      · split <;> exact Or.inr (Or.inl ⟨_, rfl⟩)
    · split
      · exact Or.inl rfl
      · split
        · exact Or.inl rfl
        · split <;> exact Or.inr (Or.inr ⟨_, rfl⟩)
    · exact Or.inl rfl

/-- What a key comparison inside a taking leaves unchanged: everything but the guard records and the
master attempts counter. -/
structure State.Compared (s t : State) : Prop where
  frame : t = { s with windows := t.windows, masterAttempts := t.masterAttempts }
  claims : ∀ i v, t.window? i = some v →
    ∃ w, s.window? i = some w ∧ v.holders = w.holders ∧ v.waiters = w.waiters

theorem State.Compared.wipeAuthority (s : State) (p : Port) (i sel : Byte) (key : Key) (w : Window) :
    s.Compared (wipeAuthority s p i sel key w).2 := by
  rcases wipeAuthority_cases s p i sel key w with e | ⟨b, e⟩ | ⟨b, e⟩
  · rw [e]
    exact ⟨rfl, fun _ v hv => ⟨v, hv, rfl, rfl⟩⟩
  · rw [e]
    refine ⟨?_, fun j v hv => ?_⟩
    · rw [State.compareWindow, State.setGuard_eq_setWindow]
      rfl
    · rw [State.compareWindow, State.window?_setGuard] at hv
      split at hv
      · next e =>
        obtain ⟨x, hx, rfl⟩ := Option.map_eq_some_iff.1 hv
        exact ⟨x, e ▸ hx, rfl, rfl⟩
      · exact ⟨v, hv, rfl, rfl⟩
  · rw [e]
    exact ⟨rfl, fun _ v hv => ⟨v, hv, rfl, rfl⟩⟩

/-- A job that runs on after a wipe start ran before it (R72). -/
theorem State.running_of_revokedJob {s : State} {i : Nat} {c : Channel} {j : Job}
    (h : s.revokedJob i c = some j) (hr : j.state = .running) : s.job c = some j := by
  unfold State.revokedJob at h
  split at h
  · cases h
  · next k hk =>
    split at h
    · split at h
      · split at h
        · cases h
          cases hr
        · next hne =>
          cases h
          exact absurd hr hne
      · cases h
    · exact hk.trans h

/-- A wipe start forms no access (R71). -/
theorem State.access_wipeStart (s : State) (p : Port) (tag : Byte) (i : Nat) (w : Window) (q : Port) :
    ((s.wipeStart p tag i w).pcu q).access = (s.pcu q).access := by
  rw [s.pcu_wipeStart_fields, (State.RevokesJobs.wipeJobsRevoked s i w).pcu q]
  exact ((State.Calm.wipeRevoked s i w).pcu q).access

namespace State.Requested

variable {p : Port} {s : State}

/-- A key comparison inside the taking of WIPE. -/
theorem compared {u : State} (h : (s.beginTake p).Compared u) : State.Requested .wipe p s u where
  frame := by
    rw [show u.pcus = (s.beginTake p).pcus from (congrArg State.pcus h.frame).trans rfl,
      show u.c0 = s.c0 from (congrArg State.c0 h.frame).trans rfl,
      show u.c1 = s.c1 from (congrArg State.c1 h.frame).trans rfl]
    exact h.frame
  raises := by
    rw [h.frame]
    exact ⟨rfl, rfl, fun q hq => congrArg _ (State.pcu_setPcu_ne s _ hq),
      fun c j hj hr => Or.inl ⟨j, by cases c <;> exact hj, hr⟩⟩
  own hk := absurd rfl hk
  apart q hq _ _ := by
    rw [h.frame]
    exact State.pcu_setPcu_ne s _ hq
  stand hk := by simp at hk
  start hk := by simp at hk

/-- A WIPE refused after its key comparison. -/
theorem finishCompared {u : State} (h : (s.beginTake p).Compared u) (tag : Byte) (o : OutcomeCode) :
    State.Requested .wipe p s (u.finish p tag .wipe o) := by
  have r := compared h
  refine ⟨?_, ⟨r.raises.inFlight, r.raises.scrubDue, fun q hq => ?_, fun c j hj hr => ?_⟩,
    fun hk => absurd rfl hk, fun q hq hw hj => ?_, fun hk => by simp at hk, fun hk => by simp at hk⟩
  · exact State.requestFrame_trans r.frame rfl
  · rw [State.finish, State.pcu_setPcu_ne _ _ hq, r.raises.access q hq]
  · exact r.raises.running c j (State.job_setPcu u p _ c ▸ hj) hr
  · rw [State.finish, State.pcu_setPcu_ne _ _ hq, r.apart q hq hw hj]

/-- The wipe start inside the taking of WIPE (R71). -/
theorem wipeStart {u : State} (h : (s.beginTake p).Compared u) (hc : s.c0 = none ∨ s.c1 = none)
    {i : Nat} {v : Window} (hv : u.window? i = some v) (tag : Byte) :
    State.Requested .wipe p s (u.wipeStart p tag i v) := by
  have r := compared h
  have hjob : ∀ c, u.job c = s.job c := fun c => by
    rw [h.frame]
    cases c <;> rfl
  have keep := State.KeepsRest.wipeStart u p tag i v
  have attempts : (u.wipeStart p tag i v).masterAttempts = u.masterAttempts :=
    (congrArg State.masterAttempts keep).trans rfl
  refine ⟨State.requestFrame_trans r.frame (attempts ▸ keep), ⟨?_, ?_, fun q hq => ?_, fun d j hj hr => ?_⟩,
    fun hk => absurd rfl hk, fun q hq hw hj => ?_, fun hk => by simp at hk, fun hk => by simp at hk⟩
  · rw [State.inFlight_wipeStart, r.raises.inFlight]
  · rw [show (u.wipeStart p tag i v).scrubDue = u.scrubDue from (congrArg State.scrubDue keep).trans rfl,
      r.raises.scrubDue]
  · rw [State.access_wipeStart, r.raises.access q hq]
  · have hc' : u.c0 = none ∨ u.c1 = none := by rwa [show u.c0 = _ from hjob .c0, show u.c1 = _ from hjob .c1]
    obtain ⟨c, -, -, hjobs⟩ := State.job_wipeStart hc' p tag i v
    rw [hjobs] at hj
    split at hj
    · cases hj
      exact Or.inr rfl
    · exact Or.inl ⟨j, hjob d ▸ State.running_of_revokedJob hj hr, hr⟩
  · obtain ⟨w, hws, hholders, hwaiters⟩ := h.claims i v hv
    obtain ⟨hh, hx⟩ := hw i w hws
    have hother := (u.pcu_wipeStart p tag i v q).trans (if_neg hq)
    rw [hother, State.pcu_wipeJobsRevoked_of_no_job fun c j hcj ho =>
        absurd ho (hj c j (hjob c ▸ hcj)),
      State.pcu_wipeRevoked_other (State.window?_eq_some_lt hv), r.apart q hq hw hj]
    · rw [Window.holds, hholders]
      exact hh
    · rw [Window.waits, hwaiters]
      exact hx

theorem doWipe (s : State) (tag i sel : Byte) (key : Key) (b : Bool) :
    State.Requested .wipe p s (doWipe (s.beginTake p) p tag i sel key b) := by
  unfold Machine.doWipe
  split
  · split
    · exact setPcu s _
    · next w hw =>
      have hcmp := State.Compared.wipeAuthority (s.beginTake p) p i sel key w
      dsimp only
      split
      · split
        · next hfree =>
          split
          · next v hv => exact wipeStart hcmp (State.freeChannel?_isSome.1 hfree) hv tag
          · exact compared hcmp
        · exact finishCompared hcmp ..
      · exact finishCompared hcmp ..
  · exact finish ..

end State.Requested

/-- COPY passes its checks with a free channel alone (R135, check 6). -/
theorem channelFree_of_copyStartOutcome {s : State} {a b : Place} {n : Nat}
    (h : copyStartOutcome s a b n = .ok) : s.c0 = none ∨ s.c1 = none := by
  have hall := (firstFail_eq_ok (by simp)).1 h
  simp only [List.forall_mem_cons] at hall
  obtain ⟨-, -, -, -, -, hfree, -⟩ := hall
  exact State.freeChannel?_isSome.1 hfree

/-- FILL passes its checks with a free channel alone (R136, check 4). -/
theorem channelFree_of_fillStartOutcome {s : State} {b : Place} {n : Nat}
    (h : fillStartOutcome s b n = .ok) : s.c0 = none ∨ s.c1 = none := by
  have hall := (firstFail_eq_ok (by simp)).1 h
  simp only [List.forall_mem_cons] at hall
  obtain ⟨-, -, -, hfree, -⟩ := hall
  exact State.freeChannel?_isSome.1 hfree

namespace State.Requested

variable {p : Port}

/-- Every command that uses the array, carried out at its taking. -/
theorem carryOut (s : State) (tag : Byte) (prep : Byte → Bool) (c : Command)
    (h : CommandKind.usesArray c.kind = true) :
    State.Requested c.kind p s (carryOut (s.beginTake p) p tag prep c) := by
  cases c
  case inject line kind =>
    show State.Requested _ _ _ (doInject ..)
    unfold doInject
    split
    · split
      · exact formAccess ..
      · exact setPcu s _
    · exact finish ..
  case wipe => exact doWipe ..
  case read i o n =>
    show State.Requested _ _ _ (doRead ..)
    unfold doRead
    split
    · exact formAccess ..
    · exact finish ..
  case write => exact formAccess ..
  case copy si so di d n =>
    show State.Requested _ _ _ (doCopy ..)
    unfold doCopy
    dsimp only
    split
    · next hok => exact startJob (by simp [Command.kind]) s _ rfl (channelFree_of_copyStartOutcome hok)
    · exact finish ..
  case fill di d n pat =>
    show State.Requested _ _ _ (doFill ..)
    unfold doFill
    dsimp only
    split
    · next hok => exact startJob (by simp [Command.kind]) s _ rfl (channelFree_of_fillStartOutcome hok)
    · exact finish ..
  all_goals cases h

end State.Requested

/-! ### The frame of every taking -/

theorem SameArray.of_eq {s t : State} (h : t.mem = s.mem) (h1 : t.flips = s.flips)
    (h2 : t.poisoned = s.poisoned) (h3 : t.suspects = s.suspects) (h4 : t.remap = s.remap)
    (h5 : t.spares = s.spares) (h6 : t.correctedTotal = s.correctedTotal)
    (h7 : t.retirementsTotal = s.retirementsTotal) : SameArray s t :=
  ⟨fun _ => by rw [h], h1, h2, h3, h4, h5, h6, h7⟩

theorem arrivedFrame_trans {s t u : State}
    (h : t = { s with
      windows := t.windows, pcus := t.pcus, masterAttempts := t.masterAttempts, c0 := t.c0, c1 := t.c1 })
    (k : u = { t with
      rotation := u.rotation, inFlight := u.inFlight, pcus := u.pcus, c0 := u.c0, c1 := u.c1 }) :
    u = { s with
      windows := t.windows, pcus := u.pcus, masterAttempts := t.masterAttempts, c0 := u.c0, c1 := u.c1
      rotation := u.rotation, inFlight := u.inFlight } :=
  Eq.trans k (by conv_lhs => rw [h])

/-- Settles O50: what the command's own effect leaves, and, where it uses the array, what the arrival of
its request leaves of that. -/
theorem takingsLeaveTheRest : Obligations.TakingsLeaveTheRest := by
  refine ⟨fun s t p k hk h => ?_, fun s t p k hk h => ?_⟩
  · have taken : State.TakenAs k p s t := by
      rcases exec_taking_cases h with rfl | ⟨tag, c, rest, ht, rfl, rfl⟩
      · exact .refl ..
      · have harray : CommandKind.usesArray c.kind = false := by
          cases c <;> simp_all [Command.kind, CommandKind.usesArray]
        have hexec := exec_taking_of_not_usesArray ht harray
        rw [exec_taking ht] at hexec
        injection hexec with e
        rw [e]
        exact (State.TakenAs.beginTake s).trans (.carryOut _ tag _ c harray)
    have frame := taken.frame
    refine ⟨?_, ?_, ?_, ?_, taken.jobs, taken.scrub, taken.keys, taken.windows, taken.pcu⟩
    · rw [frame]; exact .of_eq rfl rfl rfl rfl rfl rfl rfl rfl
    · rw [frame]; exact ⟨rfl, rfl, rfl, rfl, rfl, rfl⟩
    · rw [frame]
    · rw [frame]
  · have requested : ∃ u, State.Requested k p s u ∧ State.Arrived p s u t := by
      rcases exec_taking_cases h with rfl | ⟨tag, c, rest, ht, rfl, rfl⟩
      · exact ⟨t, cast (congrArg _ (State.setPcu_pcu t p)) (State.Requested.setPcu (k := k) t (t.pcu p)),
          ⟨rfl, fun _ _ => rfl, fun _ _ => rfl, fun _ => rfl⟩⟩
      · have harray : CommandKind.usesArray c.kind = true := by
          cases c <;> simp_all [Command.kind, CommandKind.usesArray]
        have requested := State.Requested.carryOut (p := p) s tag (s.preparedFor p) c harray
        exact ⟨_, requested, requested.raises.arrived⟩
    obtain ⟨u, requested, arrived⟩ := requested
    have frame : t = { s with
        windows := u.windows, pcus := t.pcus, masterAttempts := u.masterAttempts, c0 := t.c0, c1 := t.c1
        rotation := t.rotation, inFlight := t.inFlight } :=
      arrivedFrame_trans requested.frame arrived.frame
    refine ⟨?_, ?_, ?_, ?_, ?_, ?_, fun hw => ?_, fun q hq hclaims hjobs => ?_, fun hr => ?_,
      fun hc c j hj => ?_, ?_, ?_, fun hb => ?_, ?_⟩
    · rw [frame]; exact .of_eq rfl rfl rfl rfl rfl rfl rfl rfl
    · rw [frame]; exact ⟨rfl, rfl, rfl, rfl, rfl, rfl⟩
    · rw [frame]
    · rw [frame]
    · rw [frame]
    · rw [frame]
    · obtain ⟨hwindows, hattempts, hpcu⟩ := requested.own hw
      refine ⟨?_, ?_, fun q hq => (arrived.pcu q hq).trans (hpcu q hq)⟩
      · rw [frame]; exact hwindows
      · rw [frame]; exact hattempts
    · rw [arrived.pcu q hq, requested.apart q hq hclaims hjobs]
    · have hjob := requested.stand hr
      exact ⟨(arrived.job .c0 (hjob .c0)).trans (hjob .c0), (arrived.job .c1 (hjob .c1)).trans (hjob .c1)⟩
    · have hjob := requested.start hc c j hj
      rw [arrived.job c (hjob.trans hj.symm), hjob]
    · rw [frame]
    · rw [frame]
    · rw [arrived.busy hb, requested.frame]
      exact ⟨rfl, rfl, rfl, rfl⟩
    · rw [frame]; exact ⟨rfl, rfl, rfl, rfl⟩

end Sys2Proof.Machine


/-! PROOFS. The step, the resets, the sweep and the start of a frame: O1 to O5. -/

namespace Sys2Proof.Machine

/-! ### The step and the resets -/

/-- Settles O1, by the two cases of the queue of commands. -/
theorem stepRunsFrontCommand : Obligations.StepRunsFrontCommand := by
  refine ⟨fun _ _ => rfl, fun s h => ?_⟩
  unfold step
  rw [h]

theorem State.requests_reset (x : Slot) : State.reset.requests x = false := by
  rcases x with p | c
  · cases p <;> rfl
  · cases c <;> rfl

/-- Settles O2: every field of the state after power-on, read off. -/
theorem resetStateHoldsResetValues : Obligations.ResetStateHoldsResetValues := by
  have windows (i : Nat) : State.reset.window? i = none := by
    rw [State.reset_eq_afterReset]
    exact State.window?_afterReset ..
  have jobs (c : Channel) : State.reset.job c = none := by cases c <;> rfl
  have spares (k : Nat) (hk : k < 16) : State.reset.spares[k]? = some .free := by
    rw [State.reset, Vector.getElem?_replicate, if_pos hk]
  have ports (p : Port) : State.reset.link p = { decoder := .idle, reject := none } ∧
      State.reset.pcu p = Pcu.reset ∧ State.reset.attention p = false := by
    cases p <;> exact ⟨rfl, rfl, rfl⟩
  exact ⟨rfl, rfl, rfl, rfl, windows, rfl, rfl, rfl, rfl, rfl, rfl, rfl, State.requests_reset, jobs,
    rfl, rfl, rfl, rfl, rfl, rfl, rfl, spares, rfl, rfl, ports⟩

/-- Settles O3. -/
theorem resetsSetEveryBlock : Obligations.ResetsSetEveryBlock := by
  refine ⟨fun _ _ _ => rfl, fun s h => ?_, fun l s h => ?_, fun l => ⟨fun h => ?_, fun h => ?_⟩,
    rfl, rfl, rfl, rfl⟩
  · exact if_neg h
  · exact if_pos h
  · rw [Link.afterReset, if_pos h]
  · rw [Link.afterReset, if_neg h]

/-! ### The sweep -/

theorem State.pcu_sweepEnd (s : State) (p : Port) :
    s.sweepEnd.pcu p = { s.pcu p with state := .ready } := by cases p <;> rfl

/-- Settles O4: the line is overwritten with zeros at its present place, and the pointer alone decides
between the next line and the end of the sweep. -/
theorem sweepWriteZeroesOneLine : Obligations.SweepWriteZeroesOneLine := by
  intro s hp hm
  have written : exec .sweepLineWrite s = .next
      (if s.sweepPointer = 16383 then
        (s.overwriteLine (s.lineRef s.sweepPointer) (List.replicate 64 0#8)).sweepEnd
      else
        { s.overwriteLine (s.lineRef s.sweepPointer) (List.replicate 64 0#8) with
          sweepPointer := s.sweepPointer + 1 }) := if_pos hp
  have bytes := State.read_overwriteLine_zeros hm (s.lineRef s.sweepPointer)
  have frame := State.overwriteLine_eq s (s.lineRef s.sweepPointer) (List.replicate 64 0#8)
  generalize s.overwriteLine (s.lineRef s.sweepPointer) (List.replicate 64 0#8) = x at *
  have flips := congrArg State.flips frame
  have poisoned := congrArg State.poisoned frame
  have suspects := congrArg State.suspects frame
  have remap := congrArg State.remap frame
  have spares := congrArg State.spares frame
  have corrected := congrArg State.correctedTotal frame
  have retirements := congrArg State.retirementsTotal frame
  have pcus := congrArg State.pcus frame
  have interval := congrArg State.scrubInterval frame
  have phase := congrArg State.phase frame
  rw [written]
  refine ⟨_, rfl, ?_⟩
  split
  · next h =>
    exact ⟨bytes, flips, poisoned, suspects, remap, spares, corrected, retirements,
      fun hn => absurd h hn, fun _ => ⟨rfl, congrArg some interval, fun p => by
        rw [State.pcu_sweepEnd, State.pcu, pcus]
        rfl⟩⟩
  · next h =>
    exact ⟨bytes, flips, poisoned, suspects, remap, spares, corrected, retirements,
      fun _ => ⟨phase.trans hp, rfl, pcus⟩, fun he => absurd he h⟩

/-! ### The start of a frame -/

/-- Each bit of a status byte (12.4). -/
theorem StatusFlags.getLsbD_byte (f : StatusFlags) :
    f.byte.getLsbD 7 = (f.state == .ready) ∧ f.byte.getLsbD 6 = (f.state == .init) ∧
      f.byte.getLsbD 5 = (f.state == .teardown) ∧ f.byte.getLsbD 4 = f.cqFull ∧
      f.byte.getLsbD 3 = f.comp ∧ f.byte.getLsbD 2 = f.note ∧ f.byte.getLsbD 1 = f.lost ∧
      f.byte.getLsbD 0 = f.rej := by
  obtain ⟨state, cqFull, comp, note, lost, rej⟩ := f
  revert cqFull comp note lost rej
  cases state <;> decide

theorem execFrameStart_of_idle {s : State} {p : Port} (h : (s.link p).decoder = .idle) :
    exec (.frameStart p) s = .next (s.setDecoder p
      (if s.phase = .held then .waitRelease
      else .frame
        { start := s.statusFlags p, bitCount := 0, bytes := [], bits := [], snapshot := none })) := by
  show execFrameStart p s = _
  unfold execFrameStart
  rw [h]
  dsimp only
  split <;> rfl

theorem State.clockBits_of_waitRelease {s : State} {p : Port} (h : (s.link p).decoder = .waitRelease)
    (bits : List Bool) : s.clockBits p bits = s := by
  have clockBit (b : Bool) : s.clockBit p b = s := by
    unfold State.clockBit
    rw [h]
  induction bits with
  | nil => rfl
  | cons b bits ih =>
    show (s.clockBit p b).clockBits p bits = s
    rw [clockBit b]
    exact ih

theorem State.onRelease_of_waitRelease {s : State} {p : Port}
    (h : (s.link p).decoder = .waitRelease) (k : FrameSort) (ends : Frame → State) :
    s.onRelease p k ends = s.setDecoder p .idle := by
  unfold State.onRelease
  rw [h]

/-- Settles O5. -/
theorem frameStartSamplesStatus : Obligations.FrameStartSamplesStatus := by
  refine ⟨⟨fun s p hp hd => ?_, fun s p => ?_⟩, fun s p => ⟨fun hp hd => ?_, fun hd => ⟨?_, ?_, ?_⟩⟩,
    fun s p => ?_⟩
  · rw [execFrameStart_of_idle hd, if_neg hp]
    rfl
  · obtain ⟨h7, h6, h5, h4, h3, h2, h1, h0⟩ := (s.statusFlags p).getLsbD_byte
    rw [h7, h6, h5, h4, h3, h2, h1, h0]
    simp [State.statusFlags, Option.isSome_iff_ne_none]
  · rw [execFrameStart_of_idle hd, if_pos hp]
    rfl
  · unfold State.sdo
    rw [hd]
  · exact fun bits => congrArg _ (State.clockBits_of_waitRelease hd bits)
  · exact congrArg _ (State.onRelease_of_waitRelease hd ..)
  · simp [State.attention, or_assoc]

end Sys2Proof.Machine


/-! PROOFS. Frames and records as bytes: O6 and O7. -/

namespace Sys2Proof

/-! ### Numbers most significant byte first -/

theorem beBytes_one (n : Nat) : beBytes 1 n = [BitVec.ofNat 8 n] := by simp [beBytes]

theorem beBytes_two (n : Nat) : beBytes 2 n = Machine.be2 n := by simp [beBytes, Machine.be2]

theorem beBytes_three (n : Nat) : beBytes 3 n = Machine.be3 n := by
  simp [beBytes, Machine.be3, Machine.be2]

theorem beBytes_four (n : Nat) : beBytes 4 n = Machine.be2 (n / 65536) ++ Machine.be2 n := by
  simp [beBytes, Machine.be2, Nat.div_div_eq_div_mul]

theorem bytes16_eq (x : BitVec 16) : bytes16 x = Machine.be2 x.toNat := by
  simp [bytes16, Machine.be2, BitVec.extractLsb', Nat.shiftRight_eq_div_pow]

theorem bytes24_eq (x : BitVec 24) : bytes24 x = Machine.be3 x.toNat := by
  simp [bytes24, Machine.be3, Machine.be2, BitVec.extractLsb', Nat.shiftRight_eq_div_pow]

theorem be2_mod (n : Nat) : Machine.be2 (n % 65536) = Machine.be2 n := by
  rw [Machine.be2, Machine.be2, List.cons.injEq, List.cons.injEq]
  refine ⟨BitVec.eq_of_toNat_eq ?_, BitVec.eq_of_toNat_eq ?_, rfl⟩ <;>
    simp only [BitVec.toNat_ofNat] <;> omega

theorem bytesOfKey_eq (k : Key) : bytesOfKey k = Machine.keyBytes k := by
  simp [bytesOfKey, beBytes, Machine.keyBytes, List.range_succ]

theorem commandKindOf_eq_some {b : Byte} {k : CommandKind} : commandKindOf b = some k ↔ k.opcode = b := by
  refine ⟨fun h => ?_, ?_⟩
  · have found : CommandKind.all.find? (fun k => k.opcode == b) = some k := h
    simpa using List.find?_some found
  · rintro rfl
    exact commandKindOf_opcode k

namespace Machine

/-- Settles O6. The bytes are the argument bytes of the frame, field by field; the decoder inverts the
encoder, and a frame that is no immediate frame is only received. -/
theorem commandFrameIsReceivedAndDecodes : Obligations.CommandFrameIsReceivedAndDecodes := by
  refine ⟨?_, commandOfFrame_frame, fun bytes tag c h => ?_, fun s p tag c f hf h0 hb hi hs => ?_⟩
  · intros
    simp [Command.frame, Command.args, Command.kind, CommandKind.opcode, bytes16_eq, bytes24_eq,
      be2_mod, bytesOfKey_eq]
  · cases bytes with
    | nil => cases h
    | cons op args =>
      obtain ⟨k, hk, hargs⟩ := Option.bind_eq_some_iff.1 h
      obtain ⟨rfl, rfl, hw⟩ := Command.args_of_ofArgs hargs
      exact ⟨by rw [Command.frame, commandKindOf_eq_some.1 hk], hw⟩
  · show Host.Outcome.next _ = _
    rw [State.clockBits_received hf hs hi _ fun b hbyte => ?_]
    · rw [hb, h0]
      simp [State.setDecoder]
    · rw [hb] at hbyte
      cases hbyte
      exact immediateOf_opcode _

/-! ### The records -/

theorem immediateOf_eq_some (b : Byte) (k : ImmediateKind) : immediateOf b = some k ↔
    (b, k) ∈ [(0x01#8, ImmediateKind.status), (0x02#8, .collect), (0x03#8, .fetchNotice),
      (0x04#8, .windowInfo), (0x05#8, .deviceInfo), (0x0F#8, .portReset)] := by
  revert b
  cases k <;> decide

/-- The last byte of a STATUS record and the flags byte of DEVICE INFO hold their flags alone. -/
theorem getLsbD_flagBits (a b c : Bool) :
    (flagBit a 0 ||| flagBit b 1 ||| flagBit c 2).getLsbD 0 = a ∧
      (flagBit a 0 ||| flagBit b 1 ||| flagBit c 2).getLsbD 1 = b ∧
      (flagBit a 0 ||| flagBit b 1 ||| flagBit c 2).getLsbD 2 = c ∧
      ∀ k, 3 ≤ k → (flagBit a 0 ||| flagBit b 1 ||| flagBit c 2).getLsbD k = false := by
  have low : ∀ k : Fin 8, 3 ≤ k.val →
      (flagBit a 0 ||| flagBit b 1 ||| flagBit c 2).getLsbD k.val = false := by
    revert a b c
    decide
  refine ⟨by revert a b c; decide, by revert a b c; decide, by revert a b c; decide, fun k hk => ?_⟩
  by_cases h : k < 8
  · exact low ⟨k, h⟩ hk
  · exact BitVec.getLsbD_of_ge _ _ (by omega)

theorem unlockedByte_eq (u : PerPort Bool) : unlockedByte u = BitVec.ofNat 8
    ((if u.p0 then 1 else 0) + (if u.p1 then 2 else 0) + (if u.p2 then 4 else 0) +
      (if u.p3 then 8 else 0)) := by
  obtain ⟨a, b, c, d⟩ := u
  revert a b c d
  decide

theorem remainingBytes_map (d : Option Tick) (now : Tick) :
    remainingBytes (d.map (remainingMs now)) =
      match d with
      | none => [0xFF#8, 0xFF#8]
      | some d => be2 (d - now).toNat := by
  cases d with
  | none => rfl
  | some d => exact beBytes_two _

theorem flagBit_zero (b : Bool) : flagBit b 0 = if b then 1#8 else 0#8 := by cases b <;> rfl

theorem Window.length_holderInfos (w : Window) (now : Tick) :
    (w.holderInfos now).length = w.holderCount := by
  unfold Window.holderInfos Window.holderCount
  rw [← List.countP_eq_length_filter, List.length_filterMap_eq_countP]
  congr 1
  funext p
  simp [Window.holds]

theorem flatMap_filterMap {α β γ : Type} (f : α → Option β) (g : β → List γ) (l : List α) :
    (l.filterMap f).flatMap g = l.flatMap (fun x => (f x).elim [] g) := by
  induction l with
  | nil => rfl
  | cons x l ih => cases h : f x <;> simp [h, ih]

theorem Window.bytes_holderInfos (w : Window) (now : Tick) :
    (w.holderInfos now).flatMap HolderInfo.bytes = Port.all.flatMap (fun q =>
      match w.holders.get q with
      | none => []
      | some l =>
        [portByte q] ++
          (match l.deadline with
            | none => [0xFF#8, 0xFF#8]
            | some d => be2 (d - now).toNat) ++
          [if l.lowSent then 1#8 else 0#8]) := by
  unfold Window.holderInfos
  rw [flatMap_filterMap]
  congr 1
  funext q
  cases w.holders.get q with
  | none => rfl
  | some l => simp [HolderInfo.bytes, remainingBytes_map, flagBit_zero]

/-- A channel as DEVICE INFO shows it (R209). -/
theorem channelBytes_job (s : State) (c : Channel) :
    (s.job c = none → channelBytes (s.channelInfo c) = [0#8, 0#8, 0#8, 0#8, 0#8]) ∧
      ∀ j, s.job c = some j → channelBytes (s.channelInfo c) =
        [match j.kind with
          | .copy => 0x60#8
          | .fill => 0x61#8
          | .wipe => 0x45#8,
         portByte j.owner, BitVec.ofNat 8 (j.bytesDone / 65536)] ++ be2 j.bytesDone := by
  refine ⟨fun h => ?_, fun j h => ?_⟩
  · rw [State.channelInfo, h]
    rfl
  · rw [State.channelInfo, h, Option.map_some, channelBytes, beBytes_three]
    cases j.kind <;> rfl

/-- Settles O7: each record, field by field. -/
theorem recordsHaveTheirLayouts : Obligations.RecordsHaveTheirLayouts := by
  refine ⟨by decide, by decide, fun _ _ => commandKindOf_eq_some, immediateOf_eq_some, by decide,
    ⟨rfl, rfl, rfl, rfl⟩, fun s p => ?_, fun tag k o => ⟨rfl, fun _ => rfl, fun n => ?_⟩, rfl,
    fun w line count => ⟨rfl, rfl, rfl, ?_⟩, rfl, rfl, fun _ => rfl, fun i w now => ?_, fun s => ?_⟩
  · obtain ⟨lost, layout, frozen, rest⟩ :=
      getLsbD_flagBits (s.pcu p).noticeLost (s.layoutPort == p) s.frozen
    exact ⟨_, rfl, lost, (congrArg (· = true) layout).to_iff.trans beq_iff_eq, frozen, rest⟩
  · simp [Snapshot.bytes, collectBytes, Completion.bytes, Extra.bytes, beBytes_three, be3, be2]
  · simp [Snapshot.bytes, fetchBytes, Notice.bytes, beBytes_two]
  · have waiters : (w.info now).waiters.flatMap WaiterInfo.bytes = w.waiters.flatMap (fun x =>
        [portByte x.port,
          match x.kind with
            | .read => 0x01#8
            | .write => 0x02#8] ++
          (match x.deadline with
            | none => [0xFF#8, 0xFF#8]
            | some d => be2 (d - now).toNat) ++
          [x.tag]) := by
      rw [Window.info, List.flatMap_map]
      congr 1
      funext x
      rw [WaiterInfo.bytes, remainingBytes_map]
      cases x.kind <;> rfl
    have key : boolByte w.guard.key.isSome = if w.guard.key = none then 0#8 else 1#8 := by
      cases w.guard.key <;> rfl
    show [i, 1#8] ++ (w.info now).bytes = _
    unfold WindowInfo.bytes
    rw [waiters]
    simp only [Window.info, beBytes_two, beBytes_one, Window.bytes_holderInfos, Window.length_holderInfos,
      unlockedByte_eq, key, List.length_map, List.append_assoc, List.cons_append, List.nil_append]
    rfl
  · have flags : flagBit s.frozen 0 ||| flagBit s.masterKey.isSome 1 =
        flagBit s.frozen 0 ||| flagBit s.masterKey.isSome 1 ||| flagBit false 2 := BitVec.or_zero.symm
    obtain ⟨frozen, keyed, high, rest⟩ := getLsbD_flagBits s.frozen s.masterKey.isSome false
    rw [← flags] at frozen keyed high rest
    refine ⟨flagBit s.frozen 0 ||| flagBit s.masterKey.isSome 1,
      channelBytes (s.channelInfo .c0), channelBytes (s.channelInfo .c1), ?_, frozen, ?_, fun k hk => ?_, ?_⟩
    · show s.deviceInfo.bytes = _
      simp only [DeviceInfo.bytes, State.deviceInfo, beBytes_two, beBytes_one, beBytes_four, List.append_assoc,
        List.cons_append, List.nil_append]
      rfl
    · rw [keyed, Option.isSome_iff_ne_none]
    · rcases Nat.lt_or_eq_of_le hk with h | rfl
      · exact rest k h
      · exact high
    · simp only [List.forall_mem_cons, List.not_mem_nil, false_implies, implies_true, and_true]
      exact ⟨channelBytes_job s .c0, channelBytes_job s .c1⟩

end Machine

end Sys2Proof


/-! PROOFS. Frames: what a header brings, what is shifted out, and what each frame's end does, O8 to
O14. -/

namespace Sys2Proof.Machine

/-! ### The sort of a frame and its release -/

section SortOfFrame

variable {f : Frame}

theorem Frame.sort_immediate (h0 : f.bitCount ≠ 0) {op : Byte} {k : ImmediateKind}
    (ho : f.bytes.head? = some op) (hk : immediateOf op = some k) : f.sort = .immediate k := by
  rw [Frame.sort, if_neg h0, ho, Option.bind_some, hk]

theorem Frame.sort_command (h0 : f.bitCount ≠ 0) (hk : f.bytes.head?.bind immediateOf = none) :
    f.sort = .command := by
  rw [Frame.sort, if_neg h0, hk]

theorem Frame.ready_iff : f.ready = true ↔ f.start.state = .ready := beq_iff_eq

theorem Frame.ready_eq_false : f.ready = false ↔ f.start.state ≠ .ready := beq_eq_false_iff_ne

end SortOfFrame

theorem State.onRelease_of_sort {s : State} {p : Port} {f : Frame} {k : FrameSort}
    (h : (s.link p).decoder = .frame f) (hk : f.sort = k) (ends : Frame → State) :
    s.onRelease p k ends = ends f := by
  unfold State.onRelease
  rw [h]
  exact if_pos hk

/-! ### The end of a command frame -/

/-- The six checks of a command frame's end (R157). -/
def RejectChecks (s : State) (p : Port) (f : Frame) : List (Prop × RejectReason) :=
  [ (f.start.state = .ready, .notReady),
    (f.bitCount % 8 = 0, .partialByte),
    (f.bytes.head?.bind commandKindOf ≠ none, .unknownOpcode),
    (f.start.cqFull = false, .queueFull),
    (commandOfFrame f.bytes ≠ none, .badLength),
    (f.bytes.getD 1 0#8 ∉ (s.pcu p).outstanding, .dupTag) ]

theorem rejectReason_of_verdict {s : State} {p : Port} {f : Frame} {r : Option RejectReason}
    (h : RejectVerdict (RejectChecks s p f) r) : s.rejectReason p f = r := by
  have notReady : (!f.ready) = true ↔ ¬ f.start.state = .ready := by
    rw [Bool.not_eq_true', Frame.ready_eq_false]
  have unknown : (f.bytes.head?.bind commandKindOf).isNone = true ↔
      ¬ f.bytes.head?.bind commandKindOf ≠ none := by
    rw [Option.isNone_iff_eq_none, not_not]
  have full : f.start.cqFull = true ↔ ¬ f.start.cqFull = false := (Bool.not_eq_false _).to_iff.symm
  have length : (commandOfFrame f.bytes).isNone = true ↔ ¬ commandOfFrame f.bytes ≠ none := by
    rw [Option.isNone_iff_eq_none, not_not]
  have dup : (s.pcu p).outstanding.contains f.tag = true ↔
      ¬ f.bytes.getD 1 0#8 ∉ (s.pcu p).outstanding := by
    rw [List.contains_iff_mem, not_not]
    rfl
  unfold State.rejectReason
  simp only [notReady, unknown, full, length, dup]
  rcases h with ⟨h, rfl⟩ | ⟨h1, ⟨h, rfl⟩ | ⟨h2, ⟨h, rfl⟩ | ⟨h3, ⟨h, rfl⟩ | ⟨h4, ⟨h, rfl⟩ | ⟨h5, ⟨h, rfl⟩ |
    ⟨h6, rfl⟩⟩⟩⟩⟩⟩
  · exact if_pos h
  · rw [if_neg (not_not_intro h1), if_pos h]
  · rw [if_neg (not_not_intro h1), if_neg (not_not_intro h2), if_pos h]
  · rw [if_neg (not_not_intro h1), if_neg (not_not_intro h2), if_neg (not_not_intro h3), if_pos h]
  · rw [if_neg (not_not_intro h1), if_neg (not_not_intro h2), if_neg (not_not_intro h3),
      if_neg (not_not_intro h4), if_pos h]
  · rw [if_neg (not_not_intro h1), if_neg (not_not_intro h2), if_neg (not_not_intro h3),
      if_neg (not_not_intro h4), if_neg (not_not_intro h5), if_pos h]
  · rw [if_neg (not_not_intro h1), if_neg (not_not_intro h2), if_neg (not_not_intro h3),
      if_neg (not_not_intro h4), if_neg (not_not_intro h5), if_neg (not_not_intro h6)]

theorem State.endCommandFrame_rejected {s : State} {p : Port} {f : Frame} {r : RejectReason}
    (h : s.rejectReason p f = some r) : s.endCommandFrame p f = s.rejectFrame p r := by
  unfold State.endCommandFrame
  rw [h]

theorem State.endCommandFrame_admitted {s : State} {p : Port} {f : Frame} {tag : Byte} {c : Command}
    (h : s.rejectReason p f = none) (hc : commandOfFrame f.bytes = some (tag, c)) :
    s.endCommandFrame p f = arrive s (takeIfDue s (s.admitCommand p tag c) p) := by
  unfold State.endCommandFrame
  rw [h, hc]

/-- Settles O9. -/
theorem rejectedFrameLeavesOnlyTheReason : Obligations.RejectedFrameLeavesOnlyTheReason := by
  intro s p f r hf h0 hi hv
  have release : exec (.commandFrame p .release) s = .next (s.endCommandFrame p f) :=
    congrArg _ (State.onRelease_of_sort hf (Frame.sort_command h0 hi) _)
  rw [release, State.endCommandFrame_rejected (rejectReason_of_verdict hv)]
  rfl

/-! ### A change of one port's PCU and link, after which the PCU may take its head -/

section Back

variable {s t : State} {p : Port} (h : s.Restful t)
include h

theorem arrive_takeIfDue_none
    (hn : (∃ tag c rest, s.takes p tag c rest) ∨ ∀ tag c rest, ¬ t.takes p tag c rest) :
    arrive s (takeIfDue s t p) = t := by
  rw [takeIfDue_none hn, h.arrive]

theorem arrive_takeIfDue_takes (k : t.Restful s) (hs : ∀ tag c rest, ¬ s.takes p tag c rest)
    {tag : Byte} {c : Command} {rest : List Entry} (ht : t.takes p tag c rest) :
    Host.Outcome.next (arrive s (takeIfDue s t p)) = exec (CommandKind.taking p c.kind) t := by
  rw [takeIfDue_takes hs ht, exec_taking ht, h.arrive_congr k]

end Back

section Admission

variable {s : State} {p : Port} {tag : Byte} {c : Command} {f : Frame}

/-- A whole frame of a new command, begun at a READY port with room in its queue, is admitted (R157,
R159). -/
theorem exec_commandFrame_admitted (hf : (s.link p).decoder = .frame f) (hr : f.start.state = .ready)
    (hq : f.start.cqFull = false) (hb : f.bytes = Command.frame tag c)
    (hn : f.bitCount = 8 * (Command.frame tag c).length) (hw : c.wellFormed = true)
    (ht : tag ∉ (s.pcu p).outstanding) :
    exec (.commandFrame p .release) s =
      .next (arrive s (takeIfDue s (s.admitCommand p tag c) p)) := by
  have hc : commandOfFrame f.bytes = some (tag, c) := hb ▸ commandOfFrame_frame tag c hw
  have hkind : f.bytes.head?.bind commandKindOf ≠ none := by
    rw [hb]
    exact Option.ne_none_iff_exists'.2 ⟨c.kind, commandKindOf_opcode c.kind⟩
  have himm : f.bytes.head?.bind immediateOf = none := hb ▸ immediateOf_opcode c.kind
  have passes : RejectVerdict (RejectChecks s p f) none :=
    .inr ⟨hr, .inr ⟨by omega, .inr ⟨hkind, .inr ⟨hq, .inr ⟨by rw [hc]; exact Option.some_ne_none _,
      .inr ⟨by rw [hb]; exact ht, rfl⟩⟩⟩⟩⟩⟩
  have h0 : f.bitCount ≠ 0 := by
    rw [hn, Command.frame, List.length_cons]
    omega
  have release : exec (.commandFrame p .release) s = .next (s.endCommandFrame p f) :=
    congrArg _ (State.onRelease_of_sort hf (Frame.sort_command h0 himm) _)
  rw [release, State.endCommandFrame_admitted (rejectReason_of_verdict passes) hc]

theorem State.restful_admitCommand : s.Restful (s.admitCommand p tag c) :=
  (State.Restful.setPcu (by rfl)).trans (.setLink ..)

theorem State.restful_admitCommand_back : (s.admitCommand p tag c).Restful s :=
  State.Restful.back rfl

theorem State.pcu_admitCommand : (s.admitCommand p tag c).pcu p =
    { s.pcu p with
      queue := (s.pcu p).queue ++ [⟨tag, c, false⟩]
      outstanding := (s.pcu p).outstanding ++ [tag] } := by
  unfold State.admitCommand
  rw [State.pcu_setLink, State.pcu_setPcu_same]

/-- Behind another command, at a port not READY or without room for a completion, the admitted command
lets nothing be taken that could not be taken before (R173). -/
theorem State.takes_of_takes_admitted
    (h : (s.pcu p).queue ≠ [] ∨ (s.pcu p).state ≠ .ready ∨
      8 ≤ (s.pcu p).completions.length + (s.pcu p).reservations)
    {tag' : Byte} {c' : Command} {rest : List Entry}
    (ht : (s.admitCommand p tag c).takes p tag' c' rest) : ∃ tag c rest, s.takes p tag c rest := by
  obtain ⟨hready, hqueue, hroom⟩ := ht
  rw [State.pcu_admitCommand] at hready hqueue hroom
  cases hq : (s.pcu p).queue with
  | nil =>
    rcases h with h | h | h
    · exact absurd hq h
    · exact absurd hready h
    · exact absurd hroom (Nat.not_lt.2 h)
  | cons e l =>
    have head : e = ⟨tag', c', false⟩ := by
      rw [hq] at hqueue
      exact (List.cons.inj hqueue).1
    exact ⟨tag', c', l, hready, by rw [hq, head], hroom⟩

end Admission

/-- Settles O8, by whether the admission lets the PCU take its head. -/
theorem admissionQueuesTheCommandAndMayTakeIt : Obligations.AdmissionQueuesTheCommandAndMayTakeIt := by
  refine ⟨fun s p tag c f hf hr hq hb hn hw ht hbusy => ?_,
    fun s p tag c f hf hr hq hb hn hw ht hempty hready hroom => ?_⟩
  · have none : (∃ tag c rest, s.takes p tag c rest) ∨
        ∀ tag' c' rest, ¬ (s.admitCommand p tag c).takes p tag' c' rest :=
      or_iff_not_imp_left.2 fun hs _ _ _ h => hs (State.takes_of_takes_admitted hbusy h)
    rw [exec_commandFrame_admitted hf hr hq hb hn hw ht,
      arrive_takeIfDue_none State.restful_admitCommand none]
    rfl
  · have takes : (s.admitCommand p tag c).takes p tag c [] := by
      rw [State.takes, State.pcu_admitCommand]
      exact ⟨hready, by rw [hempty]; rfl, hroom⟩
    have admitted : s.admitCommand p tag c = (s.setPcu p
        { s.pcu p with
          queue := [⟨tag, c, false⟩]
          outstanding := (s.pcu p).outstanding ++ [tag] }).setLink p
        { decoder := .idle, reject := none } := by
      have queued : [(⟨tag, c, false⟩ : Entry)] = (s.pcu p).queue ++ [⟨tag, c, false⟩] := by
        rw [hempty]
        rfl
      rw [queued]
      rfl
    rw [exec_commandFrame_admitted hf hr hq hb hn hw ht,
      arrive_takeIfDue_takes State.restful_admitCommand State.restful_admitCommand_back
        (fun _ _ _ h => by obtain ⟨-, hqueue, -⟩ := h; rw [hempty] at hqueue; cases hqueue) takes,
      ← admitted]

end Sys2Proof.Machine


/-! PROOFS. Frames: what a header brings, what is shifted out, and the ends of the immediate frames, O10 to
O14. -/

namespace Sys2Proof.Machine

/-! ### Snapshots -/

/-- The snapshot falls due with the last byte of a served header (R156, R162). -/
theorem Frame.snapshotDue_some {f : Frame} {k : ImmediateKind} (hs : f.snapshot = none) (hb : f.bits = [])
    (hk : f.bytes.head?.bind immediateOf = some k) (hp : k ≠ .portReset)
    (hl : f.bytes.length = headerLength k) (hr : f.ready = true ∨ k = .status) : f.snapshotDue = some k := by
  unfold Frame.snapshotDue
  rw [if_neg (by rw [hs, hb]; exact Bool.false_ne_true), hk]
  cases k with
  | portReset => exact absurd rfl hp
  | _ => exact if_pos (And.intro hl hr)

theorem State.afterByte_none {s : State} {p : Port} {g : Frame} (h : g.snapshotDue = none) :
    s.afterByte p g = s.setDecoder p (.frame g) := by
  unfold State.afterByte
  rw [h]

theorem State.afterByte_some {s : State} {p : Port} {g : Frame} {k : ImmediateKind}
    (h : g.snapshotDue = some k) (hk : k ≠ .fetchNotice) :
    s.afterByte p g = s.setDecoder p (.frame { g with snapshot := some (s.snapshotOf p g k) }) := by
  unfold State.afterByte
  rw [h]
  exact if_neg hk

theorem State.afterByte_fetchNotice {s : State} {p : Port} {g : Frame}
    (h : g.snapshotDue = some .fetchNotice) : s.afterByte p g =
      (s.setDecoder p (.frame { g with
        snapshot := some (.fetchNotice (s.pcu p).notices.head?) })).setPcu p (s.pcu p).markFetch := by
  unfold State.afterByte
  rw [h]
  rfl

section Header

variable {s : State} {p : Port} {f : Frame} (hf : (s.link p).decoder = .frame f) (h0 : f.bitCount = 0)
  (hb : f.bytes = []) (hi : f.bits = []) (hs : f.snapshot = none)
include hf h0 hb hi hs

/-- The first byte of a frame. -/
theorem State.clockBits_first (op : Byte) : s.clockBits p (bitsOfByte op) =
    s.afterByte p { f with bitCount := 8, bytes := [op], bits := [] } := by
  rw [State.clockBits_byte hf hs hi, h0, hb]
  rfl

omit hf h0 hb hi in
/-- The header of every immediate frame but WINDOW INFO and PORT RESET is its opcode. -/
theorem Frame.snapshotDue_opcode {op : Byte} {k : ImmediateKind} (hk : immediateOf op = some k)
    (hp : k ≠ .portReset) (hl : headerLength k = 1) (hr : f.start.state = .ready ∨ k = .status) :
    Frame.snapshotDue { f with bitCount := 8, bytes := [op], bits := [] } = some k :=
  Frame.snapshotDue_some hs rfl hk hp hl.symm (hr.imp_left Frame.ready_iff.2)

theorem State.clockBits_status : s.clockBits p (bitsOfByte 0x01#8) = s.setDecoder p (.frame
    { f with bitCount := 8, bytes := [0x01#8], snapshot := some (.status (s.statusRecord p)) }) := by
  rw [State.clockBits_first hf h0 hb hi hs,
    State.afterByte_some (Frame.snapshotDue_opcode hs rfl (by decide) rfl (.inr rfl)) (by decide), ← hi]
  rfl

theorem State.clockBits_collect (hr : f.start.state = .ready) :
    s.clockBits p (bitsOfByte 0x02#8) = s.setDecoder p (.frame
      { f with
        bitCount := 8, bytes := [0x02#8], snapshot := some (.collect (s.pcu p).completions.head?) }) := by
  rw [State.clockBits_first hf h0 hb hi hs,
    State.afterByte_some (Frame.snapshotDue_opcode hs rfl (by decide) rfl (.inl hr)) (by decide), ← hi]
  rfl

theorem State.clockBits_fetchNotice (hr : f.start.state = .ready) :
    s.clockBits p (bitsOfByte 0x03#8) = (s.setDecoder p (.frame
      { f with
        bitCount := 8, bytes := [0x03#8]
        snapshot := some (.fetchNotice (s.pcu p).notices.head?) })).setPcu p (s.pcu p).markFetch := by
  rw [State.clockBits_first hf h0 hb hi hs,
    State.afterByte_fetchNotice (Frame.snapshotDue_opcode hs rfl (by decide) rfl (.inl hr)), ← hi]

theorem State.clockBits_deviceInfo (hr : f.start.state = .ready) :
    s.clockBits p (bitsOfByte 0x05#8) = s.setDecoder p (.frame
      { f with bitCount := 8, bytes := [0x05#8], snapshot := some (.deviceInfo s.deviceInfo) }) := by
  rw [State.clockBits_first hf h0 hb hi hs,
    State.afterByte_some (Frame.snapshotDue_opcode hs rfl (by decide) rfl (.inl hr)) (by decide), ← hi]
  rfl

/-- The header of WINDOW INFO takes two bytes (R162). -/
theorem State.clockBits_windowInfo (hr : f.start.state = .ready) (i : Byte) :
    s.clockBits p (bitsOfBytes [0x04#8, i]) = s.setDecoder p (.frame
      { f with
        bitCount := 16, bytes := [0x04#8, i]
        snapshot := some (.windowInfo i ((s.window? i.toNat).map (fun w => w.info s.msCount))) }) := by
  have opcode : s.clockBits p (bitsOfByte 0x04#8) =
      s.setDecoder p (.frame { f with bitCount := 8, bytes := [0x04#8], bits := [] }) := by
    rw [State.clockBits_first hf h0 hb hi hs]
    refine State.afterByte_none ?_
    unfold Frame.snapshotDue
    rw [hs]
    rfl
  have bits : bitsOfBytes [0x04#8, i] = bitsOfByte 0x04#8 ++ bitsOfByte i := by
    simp [bitsOfBytes]
  rw [bits, State.clockBits, List.foldl_append]
  show (s.clockBits p _).clockBits p _ = _
  have due : Frame.snapshotDue { f with bitCount := 8 + 8, bytes := [0x04#8] ++ [i], bits := [] } =
      some .windowInfo :=
    Frame.snapshotDue_some hs rfl rfl (by decide) rfl (.inl (Frame.ready_iff.2 hr))
  have index := State.clockBits_byte
    (State.decoder_setDecoder s p (.frame { f with bitCount := 8, bytes := [0x04#8], bits := [] })) hs rfl i
  rw [opcode, index, State.afterByte_setDecoder, State.afterByte_some due (by decide), ← hi]
  rfl

end Header

/-! ### After the snapshot, and without one -/

/-- After the snapshot bits are only counted (R162). -/
theorem State.clockBits_after_snapshot (bits : List Bool) {s : State} {p : Port} {f : Frame}
    {sn : Snapshot} (hf : (s.link p).decoder = .frame f) (hs : f.snapshot = some sn) :
    s.clockBits p bits = s.setDecoder p (.frame { f with bitCount := f.bitCount + bits.length }) := by
  induction bits generalizing s f with
  | nil => exact (State.setDecoder_of_decoder hf).symm
  | cons b bits ih =>
    have clock : f.clock b = { f with bitCount := f.bitCount + 1 } := by
      unfold Frame.clock
      rw [hs]
      rfl
    have due : (f.clock b).snapshotDue = none := by
      rw [clock]
      unfold Frame.snapshotDue
      rw [hs]
      rfl
    have first : s.clockBit p b = s.setDecoder p (.frame (f.clock b)) := by
      rw [State.clockBit_frame hf, State.afterByte_none due]
    show (s.clockBit p b).clockBits p bits = _
    rw [first, ih (State.decoder_setDecoder ..) (by rw [clock]; exact hs), State.setDecoder_setDecoder,
      clock, List.length_cons, Nat.add_assoc, Nat.add_comm 1]

theorem headerLength_eq (k : ImmediateKind) :
    headerLength k = if k = .windowInfo ∨ k = .portReset then 2 else 1 := by
  cases k <;> rfl

theorem State.sdo_frame {s : State} {p : Port} {f : Frame} (hf : (s.link p).decoder = .frame f) :
    s.sdo p = some ((f.shownByte (f.bitCount / 8)).getLsbD (7 - f.bitCount % 8)) := by
  unfold State.sdo
  rw [hf]

theorem Frame.shownByte_record {f : Frame} {sn : Snapshot} {k : ImmediateKind} (hs : f.snapshot = some sn)
    (hk : f.bytes.head?.bind immediateOf = some k) (n : Nat) :
    f.shownByte (headerLength k + n) = sn.bytes.getD n 0#8 := by
  unfold Frame.shownByte
  rw [hs, hk]
  exact (if_neg (by omega)).trans (by rw [Nat.add_sub_cancel_left])

theorem Frame.shownByte_without_snapshot {f : Frame} (hs : f.snapshot = none) (n : Nat) :
    f.shownByte n = f.start.byte := by
  unfold Frame.shownByte
  rw [hs]

/-- A bit of a frame with no immediate opcode brings no snapshot (R155). -/
theorem State.clockBit_not_immediate {s : State} {p : Port} {f : Frame}
    (hf : (s.link p).decoder = .frame f) (hs : f.snapshot = none) (hb : f.bytes ≠ [])
    (hi : f.bytes.head?.bind immediateOf = none) (b : Bool) :
    s.clockBit p b = s.setDecoder p (.frame (f.clock b)) ∧ (f.clock b).start = f.start ∧
      (f.clock b).snapshot = none ∧ (f.clock b).bitCount = f.bitCount + 1 ∧
      (f.clock b).bytes.head? = f.bytes.head? := by
  have fields : (f.clock b).start = f.start ∧ (f.clock b).snapshot = none ∧
      (f.clock b).bitCount = f.bitCount + 1 ∧ (f.clock b).bytes.head? = f.bytes.head? := by
    unfold Frame.clock
    rw [hs]
    simp only [Option.isSome_none, Bool.false_eq_true, if_false]
    split
    · exact ⟨rfl, rfl, rfl, List.head?_append_of_ne_nil _ hb⟩
    · exact ⟨rfl, rfl, rfl, rfl⟩
  obtain ⟨hstart, hsnap, hcount, hhead⟩ := fields
  refine ⟨?_, hstart, hsnap, hcount, hhead⟩
  have due : (f.clock b).snapshotDue = none := by
    unfold Frame.snapshotDue
    split
    · rfl
    · rw [hhead, hi]
  rw [State.clockBit_frame hf, State.afterByte_none due]

/-- Clock pulses act alike under every frame row (log 5). -/
theorem exec_clock {s : State} {p : Port} {row : FrameEvent → Instr}
    (h : row ∈ [Instr.commandFrame p, Instr.status p, Instr.collect p, Instr.fetchNotice p,
      Instr.windowInfo p, Instr.deviceInfo p, Instr.portReset p]) (bits : List Bool) :
    exec (row (.clock bits)) s = .next (s.clockBits p bits) := by
  simp only [List.mem_cons, List.not_mem_nil, or_false] at h
  rcases h with rfl | rfl | rfl | rfl | rfl | rfl | rfl <;> rfl

/-- The whole of a frame that takes no snapshot, from its opcode on (R155, R156, R162). -/
theorem State.clockBits_unserved {s : State} {p : Port} {f : Frame} {op : Byte} {k : ImmediateKind}
    (hf : (s.link p).decoder = .frame f) (h0 : f.bitCount = 0) (hb : f.bytes = []) (hi : f.bits = [])
    (hs : f.snapshot = none) (hk : immediateOf op = some k)
    (h : (f.ready = false ∧ k ≠ .status) ∨ k = .portReset) (bits : List Bool) :
    ∃ g, s.clockBits p (bitsOfByte op ++ bits) = s.setDecoder p (.frame g) ∧ g.start = f.start ∧
      g.snapshot = none ∧ g.bitCount = 8 + bits.length ∧ g.bytes.head? = some op := by
  have opcode : s.clockBits p (bitsOfByte op) =
      s.setDecoder p (.frame { f with bitCount := 8, bytes := [op], bits := [] }) := by
    rw [State.clockBits_first hf h0 hb hi hs]
    exact State.afterByte_none (Frame.snapshotDue_none (k := k) hk h)
  obtain ⟨g, hg, hrest⟩ := State.clockBits_without_snapshot bits
    (State.decoder_setDecoder s p (.frame { f with bitCount := 8, bytes := [op], bits := [] }))
    hs rfl hk h
  refine ⟨g, ?_, hrest⟩
  rw [State.clockBits, List.foldl_append]
  show (s.clockBits p _).clockBits p _ = _
  rw [opcode, hg, State.setDecoder_setDecoder]

/-- Settles O10. -/
theorem headerTakesTheSnapshotAndShiftsItOut : Obligations.HeaderTakesTheSnapshotAndShiftsItOut := by
  refine ⟨fun s p f hf h0 hb hi hs => ⟨?_, fun hr => ⟨?_, ?_, fun i => ?_, ?_⟩⟩,
    fun s p f sn k hf hs hk => ⟨fun row hrow bits => ?_, fun n hn => ?_⟩,
    fun s p f hf hs => ⟨?_, fun hb hi b => ?_⟩, fun s p f op bits hf h0 hb hi hs h row hrow => ?_⟩
  · exact congrArg _ (State.clockBits_status hf h0 hb hi hs)
  · exact congrArg _ (State.clockBits_collect hf h0 hb hi hs hr)
  · exact congrArg _ (State.clockBits_fetchNotice hf h0 hb hi hs hr)
  · exact congrArg _ (State.clockBits_windowInfo hf h0 hb hi hs hr i)
  · exact congrArg _ (State.clockBits_deviceInfo hf h0 hb hi hs hr)
  · rw [exec_clock hrow, State.clockBits_after_snapshot bits hf hs]
    rfl
  · have header : f.bitCount = 8 * headerLength k + n := by
      rw [hn, headerLength_eq]
      split <;> rfl
    have byte : f.bitCount / 8 = headerLength k + n / 8 := by omega
    have bit : f.bitCount % 8 = n % 8 := by omega
    rw [State.sdo_frame hf, byte, bit, Frame.shownByte_record hs hk]
  · rw [State.sdo_frame hf, Frame.shownByte_without_snapshot hs]
  · obtain ⟨hbit, hstart, hsnap, hcount, hhead⟩ := State.clockBit_not_immediate hf hs hb hi b
    exact ⟨f.clock b, congrArg _ hbit, hstart, hsnap, hcount, hhead⟩
  · obtain ⟨k, hk, hkind⟩ : ∃ k, immediateOf op = some k ∧
        ((f.ready = false ∧ k ≠ .status) ∨ k = .portReset) := by
      rcases h with ⟨hop, hr⟩ | rfl
      · simp only [List.mem_cons, List.not_mem_nil, or_false] at hop
        have unready := Frame.ready_eq_false.2 hr
        rcases hop with rfl | rfl | rfl | rfl
        · exact ⟨.collect, rfl, .inl ⟨unready, by decide⟩⟩
        · exact ⟨.fetchNotice, rfl, .inl ⟨unready, by decide⟩⟩
        · exact ⟨.windowInfo, rfl, .inl ⟨unready, by decide⟩⟩
        · exact ⟨.deviceInfo, rfl, .inl ⟨unready, by decide⟩⟩
      · exact ⟨.portReset, rfl, .inr rfl⟩
    obtain ⟨g, hg, hrest⟩ := State.clockBits_unserved hf h0 hb hi hs hk hkind bits
    exact ⟨g, by rw [exec_clock hrow, hg]; rfl, hrest⟩

/-! ### The ends of the immediate frames -/

section Ends

variable {s : State} {p : Port} {f : Frame} {op : Byte} (hf : (s.link p).decoder = .frame f)
  (h8 : 8 ≤ f.bitCount) (ho : f.bytes.head? = some op)
include hf h8 ho

/-- The release under the row of the frame's opcode ends the frame. -/
theorem State.onRelease_of_opcode {k : ImmediateKind} (hk : immediateOf op = some k)
    (ends : Frame → State) : s.onRelease p (.immediate k) ends = ends f :=
  State.onRelease_of_sort hf (Frame.sort_immediate (by omega) ho hk) ends

theorem exec_status_release (h : op = 0x01#8) :
    exec (.status p .release) s = .next (s.endStatus p f) :=
  congrArg _ (State.onRelease_of_opcode hf h8 ho (by rw [h]; rfl) _)

theorem exec_collect_release (h : op = 0x02#8) :
    exec (.collect p .release) s = .next (s.endCollect p f) :=
  congrArg _ (State.onRelease_of_opcode hf h8 ho (by rw [h]; rfl) _)

theorem exec_fetchNotice_release (h : op = 0x03#8) :
    exec (.fetchNotice p .release) s = .next (s.endFetchNotice p f) :=
  congrArg _ (State.onRelease_of_opcode hf h8 ho (by rw [h]; rfl) _)

theorem exec_windowInfo_release (h : op = 0x04#8) :
    exec (.windowInfo p .release) s = .next (s.endWindowInfo p f) :=
  congrArg _ (State.onRelease_of_opcode hf h8 ho (by rw [h]; rfl) _)

theorem exec_deviceInfo_release (h : op = 0x05#8) :
    exec (.deviceInfo p .release) s = .next (s.endDeviceInfo p f) :=
  congrArg _ (State.onRelease_of_opcode hf h8 ho (by rw [h]; rfl) _)

theorem exec_portReset_release (h : op = 0x0F#8) :
    exec (.portReset p .release) s = .next (s.endPortReset p f) :=
  congrArg _ (State.onRelease_of_opcode hf h8 ho (by rw [h]; rfl) _)

end Ends

/-- A record is read whole with the last bit of its last byte (R162). -/
theorem Frame.readWhole_iff {f : Frame} {sn : Snapshot} (hs : f.snapshot = some sn) (k : ImmediateKind) :
    f.readWhole k = true ↔ 8 * (headerLength k + sn.bytes.length) ≤ f.bitCount := by
  unfold Frame.readWhole
  rw [hs]
  exact decide_eq_true_iff

theorem Frame.not_ready_iff {f : Frame} : (!f.ready) = true ↔ f.start.state ≠ .ready := by
  rw [Bool.not_eq_true', Frame.ready_eq_false]

/-- Settles O11. -/
theorem statusFrameEnd : Obligations.StatusFrameEnd := by
  intro s p f r hf hb hs
  have whole : f.readWhole .status = true ↔ 64 ≤ f.bitCount := Frame.readWhole_iff hs .status
  have lost : f.sawLost = r.noticeLost := by
    unfold Frame.sawLost
    rw [hs]
  have ends (h8 : 8 ≤ f.bitCount) := exec_status_release hf h8 (by rw [hb]; rfl) rfl
  refine ⟨fun h => ?_, fun h8 h => ?_⟩
  · rw [ends (by omega), State.endStatus, if_pos (whole.2 h), lost]
    cases r.noticeLost with
    | true => rfl
    | false =>
      show Host.Outcome.next _ = .next ((s.setPcu p (s.pcu p)).setLink p _)
      rw [State.setPcu_pcu]
      rfl
  · rw [ends h8, State.endStatus, if_neg (fun hw => absurd (whole.1 hw) (by omega))]
    rfl

/-- Settles O12, by whether the removal lets the PCU take its head. -/
theorem collectFrameEnd : Obligations.CollectFrameEnd := by
  intro s p f c hf hb hr hs h8
  have ends := exec_collect_release hf h8 (by rw [hb]; rfl) rfl
  have ready : ¬ (!f.ready) = true := fun h => Frame.not_ready_iff.1 h hr
  have saw : f.sawCompletion = c.isSome := by
    unfold Frame.sawCompletion
    rw [hs]
    cases c <;> rfl
  have whole := Frame.readWhole_iff hs .collect
  refine ⟨fun h => ?_, fun d hd hread t ht => ?_⟩
  · have none : ¬ (f.readWhole .collect && f.sawCompletion) = true := by
      rw [Bool.and_eq_true, saw, whole]
      rintro ⟨hw, hc⟩
      rcases h with rfl | ⟨d, rfl, hd⟩
      · cases hc
      · exact absurd hw (Nat.not_le.2 hd)
    rw [ends, State.endCollect, if_neg ready, if_neg none]
    rfl
  · have all : (f.readWhole .collect && f.sawCompletion) = true := by
      rw [Bool.and_eq_true, saw, whole, hd]
      exact ⟨hread, rfl⟩
    have removed : exec (.collect p .release) s = .next (arrive s (takeIfDue s t p)) := by
      rw [ends, State.endCollect, if_neg ready, if_pos all, ht]
      rfl
    have rest : s.Restful t := ht ▸ (State.Restful.setPcu (by rfl)).trans (.setLink ..)
    have back : t.Restful s := ht ▸ State.Restful.back rfl
    refine ⟨fun hn => ?_, fun tag c rest' htakes hn => ?_⟩
    · rw [removed, arrive_takeIfDue_none rest hn.symm]
    · rw [removed, arrive_takeIfDue_takes rest back hn htakes]

/-- What the end of a FETCH NOTICE frame leaves of the notices (R165). -/
def Pcu.noticesFetched (u : Pcu) (whole : Bool) : List Notice :=
  if whole then u.fetched.notices else u.notices

theorem State.endFetchNotice_ready {s : State} {p : Port} {f : Frame} (hr : f.start.state = .ready) :
    s.endFetchNotice p f = (s.setPcu p
      { s.pcu p with
        notices := (s.pcu p).noticesFetched (f.readWhole .fetchNotice), fetchMark := none }).setLink p
      { decoder := .idle, reject := (s.link p).reject } := by
  have fetched (u : Pcu) : u.fetched = { u with notices := u.fetched.notices, fetchMark := none } := by
    unfold Pcu.fetched
    split
    · next h => rw [← h]
    · split <;> rfl
  unfold State.endFetchNotice Pcu.noticesFetched
  rw [if_neg (fun h => Frame.not_ready_iff.1 h hr)]
  cases f.readWhole .fetchNotice with
  | true => exact congrArg (fun u => (s.setDecoder p .idle).setPcu p u) (fetched (s.pcu p))
  | false => rfl

/-- Settles O13. -/
theorem fetchNoticeFrameEnd : Obligations.FetchNoticeFrameEnd := by
  intro s p f n hf hb hr hs h8
  have length : (Snapshot.fetchNotice n).bytes.length = 5 := by
    cases n with
    | none => rfl
    | some n => cases n <;> rfl
  have whole : f.readWhole .fetchNotice = true ↔ 48 ≤ f.bitCount := by
    rw [Frame.readWhole_iff hs, length]
    rfl
  refine ⟨_, exec_fetchNotice_release hf h8 (by rw [hb]; rfl) rfl,
    (s.pcu p).noticesFetched (f.readWhole .fetchNotice), State.endFetchNotice_ready hr, fun h => ?_,
    fun h => ?_⟩
  · exact if_neg (fun hw => absurd (whole.1 hw) (by omega))
  · rw [Pcu.noticesFetched, if_pos (whole.2 h)]
    refine ⟨fun hm => ?_, fun m hm h0 => ?_, fun m hm h1 => ?_⟩
    · unfold Pcu.fetched
      rw [hm]
    · unfold Pcu.fetched
      rw [hm]
      exact congrArg Pcu.notices (if_pos h0)
    · unfold Pcu.fetched
      rw [hm]
      refine (congrArg Pcu.notices (if_neg (by omega))).trans ?_
      refine List.map_congr_left fun x _ => ?_
      cases x <;> rfl

end Sys2Proof.Machine


/-! PROOFS. The information frames and the rejected immediate frames, and the teardown of a port: O14 and
O15. -/

namespace Sys2Proof.Machine

/-! ### Frames without an effect and rejected frames -/

section Ends

variable {s : State} {p : Port} {f : Frame}

section Unready

variable (h : f.start.state ≠ .ready)
include h

theorem State.endCollect_unready : s.endCollect p f = s.rejectFrame p .notReady :=
  if_pos (Frame.not_ready_iff.2 h)

theorem State.endFetchNotice_unready : s.endFetchNotice p f = s.rejectFrame p .notReady :=
  if_pos (Frame.not_ready_iff.2 h)

theorem State.endWindowInfo_unready : s.endWindowInfo p f = s.rejectFrame p .notReady :=
  if_pos (Frame.not_ready_iff.2 h)

theorem State.endDeviceInfo_unready : s.endDeviceInfo p f = s.rejectFrame p .notReady :=
  if_pos (Frame.not_ready_iff.2 h)

theorem portResetReason_unready : portResetReason f = some .notReady :=
  if_pos (Frame.not_ready_iff.2 h)

end Unready

section Ready

variable (h : f.start.state = .ready)
include h

theorem Frame.not_not_ready : ¬ (!f.ready) = true := fun hn => Frame.not_ready_iff.1 hn h

theorem State.endWindowInfo_served {sn : Snapshot} (hs : f.snapshot = some sn) :
    s.endWindowInfo p f = s.setDecoder p .idle := by
  rw [State.endWindowInfo, if_neg (Frame.not_not_ready h), hs]
  rfl

theorem State.endWindowInfo_cut (hs : f.snapshot = none) : s.endWindowInfo p f =
    s.rejectFrame p (if f.bitCount % 8 ≠ 0 then .partialByte else .badLength) := by
  rw [State.endWindowInfo, if_neg (Frame.not_not_ready h), hs]
  exact (apply_ite (s.rejectFrame p) ..).symm

theorem State.endDeviceInfo_ready : s.endDeviceInfo p f = s.setDecoder p .idle :=
  if_neg (Frame.not_not_ready h)

theorem portResetReason_partial (h0 : f.bitCount % 8 ≠ 0) : portResetReason f = some .partialByte := by
  rw [portResetReason, if_neg (Frame.not_not_ready h), if_pos h0]

theorem portResetReason_badLength (h0 : f.bitCount % 8 = 0) (ho : f.bytes.head? = some 0x0F#8)
    (hb : f.bytes ≠ [0x0F#8, 0x5A#8]) : portResetReason f = some .badLength := by
  rw [portResetReason, if_neg (Frame.not_not_ready h), if_neg (not_not_intro h0), if_neg]
  rintro ⟨hl, h1⟩
  obtain ⟨a, b, hab⟩ := List.length_eq_two.1 hl
  rw [hab] at ho h1 hb
  cases ho
  cases h1
  exact hb rfl

theorem portResetReason_accepted (h0 : f.bitCount % 8 = 0) (hb : f.bytes = [0x0F#8, 0x5A#8]) :
    portResetReason f = none := by
  rw [portResetReason, if_neg (Frame.not_not_ready h), if_neg (not_not_intro h0), hb]
  rfl

end Ready

theorem State.endPortReset_rejected {r : RejectReason} (h : portResetReason f = some r) :
    s.endPortReset p f = s.rejectFrame p r := by
  unfold State.endPortReset
  rw [h]

theorem State.endPortReset_accepted (h : portResetReason f = none) :
    s.endPortReset p f = s.teardownStart p := by
  unfold State.endPortReset
  rw [h]

end Ends

/-- Settles O14: each frame's end, by the first check that decides it. -/
theorem informationFramesAndRejections : Obligations.InformationFramesAndRejections := by
  refine ⟨fun s p f sn hf => ⟨fun i hb hr hs h16 => ?_, fun hb hr hs h8 => ?_, fun h0 => ?_⟩,
    fun s p f op hf h8 ho => ⟨fun hr => ⟨fun h => ?_, fun h => ?_, fun h => ?_, fun h => ?_, fun h => ?_⟩,
      fun hr => ⟨fun h hs h0 => ?_, fun h hs h0 => ?_, fun h h0 => ?_, fun h h0 hb => ?_⟩⟩⟩
  · rw [exec_windowInfo_release hf (by omega) (by rw [hb]; rfl) rfl, State.endWindowInfo_served hr hs]
    rfl
  · rw [exec_deviceInfo_release hf h8 (by rw [hb]; rfl) rfl, State.endDeviceInfo_ready hr]
    rfl
  · exact congrArg _ (State.onRelease_of_sort hf (if_pos h0) _)
  · rw [exec_collect_release hf h8 ho h, State.endCollect_unready hr]
    rfl
  · rw [exec_fetchNotice_release hf h8 ho h, State.endFetchNotice_unready hr]
    rfl
  · rw [exec_windowInfo_release hf h8 ho h, State.endWindowInfo_unready hr]
    rfl
  · rw [exec_deviceInfo_release hf h8 ho h, State.endDeviceInfo_unready hr]
    rfl
  · rw [exec_portReset_release hf h8 ho h, State.endPortReset_rejected (portResetReason_unready hr)]
    rfl
  · rw [exec_windowInfo_release hf h8 ho h, State.endWindowInfo_cut hr hs, if_pos h0]
    rfl
  · rw [exec_windowInfo_release hf h8 ho h, State.endWindowInfo_cut hr hs, if_neg (not_not_intro h0)]
    rfl
  · rw [exec_portReset_release hf h8 ho h, State.endPortReset_rejected (portResetReason_partial hr h0)]
    rfl
  · rw [exec_portReset_release hf h8 ho h,
      State.endPortReset_rejected (portResetReason_badLength hr h0 (h ▸ ho) hb)]
    rfl

end Sys2Proof.Machine


/-! PROOFS. The teardown of a port (R168, R190 to R196): O15. -/

namespace Sys2Proof.Machine

/-! ### The jobs of the port -/

/-- Whether the teardown of a port awaits the end of a channel's job (R193). -/
def State.awaits (s : State) (p : Port) (c : Channel) : Bool :=
  (s.job c).any (fun j => j.owner == p && j.kind != .wipe && (j.state != .running || s.stepInFlight c))

/-- What the teardown of a port leaves of a channel's job (R193). -/
def State.tornJob (s : State) (p : Port) (c : Channel) : Option Job :=
  (s.job c).bind (fun j =>
    if j.owner = p then
      if j.kind = .wipe ∨ j.state ≠ .running then some { j with deliver := false }
      else if s.stepInFlight c then some { j with state := .ending .cancelled, deliver := false }
      else none
    else some j)

theorem State.setJob_job (s : State) (c : Channel) : s.setJob c (s.job c) = s := by cases c <;> rfl

theorem State.teardownJob_eq (s : State) (p : Port) (c : Channel) : s.teardownJob p c =
    if s.awaits p c then (s.setJob c (s.tornJob p c)).awaitJob p else s.setJob c (s.tornJob p c) := by
  unfold State.teardownJob State.awaits State.tornJob
  cases hj : s.job c with
  | none =>
    have same := s.setJob_job c
    rw [hj] at same
    exact same.symm
  | some j =>
    have same := s.setJob_job c
    rw [hj] at same
    by_cases ho : j.owner = p
    · by_cases hk : j.kind = .wipe
      · simp [ho, hk]
      · cases hs : j.state with
        | running => cases s.stepInFlight c <;> simp [ho, hk, hs]
        | ending o => simp [ho, hk, hs]
    · simp [ho, same]

theorem State.job_teardownJob (s : State) (p : Port) (c d : Channel) :
    (s.teardownJob p c).job d = if d = c then s.tornJob p c else s.job d := by
  rw [State.teardownJob_eq, ← State.job_setJob]
  split
  · exact State.job_setPcu ..
  · rfl

theorem State.pcu_teardownJob (s : State) (p : Port) (c : Channel) (q : Port) :
    (s.teardownJob p c).pcu q =
      if q = p ∧ s.awaits p c = true then { s.pcu q with jobsAwaited := (s.pcu q).jobsAwaited + 1 }
      else s.pcu q := by
  rw [State.teardownJob_eq]
  by_cases ha : s.awaits p c = true
  · rw [if_pos ha, State.awaitJob, State.pcu_setPcu]
    by_cases hq : q = p
    · rw [if_pos hq, if_pos ⟨hq, ha⟩, hq, State.pcu_setJob]
    · rw [if_neg hq, if_neg (fun h => hq h.1), State.pcu_setJob]
  · rw [if_neg ha, if_neg (fun h => ha h.2), State.pcu_setJob]

/-- The teardown of jobs changes channels and PCUs alone. -/
theorem State.teardownJob_frame (s : State) (p : Port) (c : Channel) : s.teardownJob p c =
    { s with
      pcus := (s.teardownJob p c).pcus, c0 := (s.teardownJob p c).c0, c1 := (s.teardownJob p c).c1 } := by
  rw [State.teardownJob_eq]
  split <;> cases c <;> rfl

theorem State.tornJob_congr {s t : State} {c : Channel} (hj : t.job c = s.job c)
    (hf : t.inFlight = s.inFlight) (p : Port) : t.tornJob p c = s.tornJob p c := by
  unfold State.tornJob State.stepInFlight
  rw [hj, hf]

theorem State.awaits_congr {s t : State} {c : Channel} (hj : t.job c = s.job c)
    (hf : t.inFlight = s.inFlight) (p : Port) : t.awaits p c = s.awaits p c := by
  unfold State.awaits State.stepInFlight
  rw [hj, hf]

/-- A job that the teardown of its owner leaves reports DISCARD, and is a WIPE or on its way to its end
(R191, R193). -/
theorem State.tornJob_owner {s : State} {p : Port} {c : Channel} {j : Job} (h : s.tornJob p c = some j)
    (ho : j.owner = p) : j.deliver = false ∧ (j.kind = .wipe ∨ j.state ≠ .running) := by
  obtain ⟨k, -, hk⟩ := Option.bind_eq_some_iff.1 h
  split at hk
  · split at hk
    · next hw => cases hk; exact ⟨rfl, hw⟩
    · split at hk
      · cases hk
        exact ⟨rfl, .inr JobState.noConfusion⟩
      · cases hk
  · next hne =>
    cases hk
    exact absurd ho hne

theorem State.tornJob_other {s : State} {p : Port} {c : Channel} {j : Job} (h : s.job c = some j)
    (ho : j.owner ≠ p) : s.tornJob p c = some j := by
  rw [State.tornJob, h]
  exact if_neg ho

/-! ### The claims of the port -/

/-- The windows without the port, before the grant passes (R49, R192). -/
def State.withoutPort (s : State) (p : Port) : State :=
  { s with windows := s.windows.map (fun w => w.map (fun v => v.removePort p)) }

theorem State.teardownClaims_eq (s : State) (p : Port) : s.teardownClaims p =
    ((List.range 32).filter (s.claimsOn p)).foldl (fun t i => t.grantPass i) (s.withoutPort p) := rfl

theorem State.window?_withoutPort (s : State) (p : Port) (i : Nat) :
    (s.withoutPort p).window? i = (s.window? i).map (fun w => w.removePort p) := by
  unfold State.withoutPort State.window?
  rw [Vector.getElem?_map]
  cases s.windows[i]? with
  | none => rfl
  | some w => cases w <;> rfl

section RemovePort

variable (w : Window) (p : Port)

theorem Window.holds_removePort (q : Port) :
    (w.removePort p).holds q = if q = p then false else w.holds q := w.holds_removeHolder p q

theorem Window.waiters_removePort :
    (w.removePort p).waiters = w.waiters.filter (fun x => x.port != p) := rfl

theorem Window.waits_removePort : (w.removePort p).waits p = false := by
  rw [Window.waits_eq_false, Window.waiters_removePort]
  intro x hx
  exact ne_of_beq_false (by simpa using (List.mem_filter.1 hx).2)

theorem Window.unlocked_removePort (q : Port) :
    (w.removePort p).guard.unlocked.get q = if q = p then false else w.guard.unlocked.get q :=
  PerPort.get_set ..

theorem Window.noHolders_without : Window.noHolders { w with holders := w.holders.set p none } = true ↔
    ∀ q ∈ Port.all, q ≠ p → w.holds q = false := by
  rw [Window.noHolders_iff]
  refine ⟨fun h q _ hq => ?_, fun h q => ?_⟩
  · have hq' := h q
    rwa [Window.holds, PerPort.get_set_ne _ _ hq] at hq'
  · rw [Window.holds, PerPort.get_set]
    split
    · rfl
    · next hq => exact h q (Port.mem_all q) hq

end RemovePort

section AfterPass

variable {w : Window} {p : Port}

theorem Window.holds_afterPass_of_not_waits (h : w.waits p = false) (now : Tick) :
    (w.afterPass now).holds p = w.holds p := by
  rw [Window.afterPass_holds, decide_eq_false, Bool.false_or]
  rintro ⟨x, hx, hp⟩
  exact Window.waits_eq_false.1 h x (w.passGrants_prefix.subset hx) hp

theorem Window.waits_afterPass_of_not_waits (h : w.waits p = false) (now : Tick) :
    (w.afterPass now).waits p = false := by
  rw [Window.waits_eq_false] at h ⊢
  rw [Window.afterPass_eq]
  exact fun x hx => h x (List.mem_of_mem_drop hx)

theorem Window.holds_afterPass_of_holds (h : w.holds p = true) (now : Tick) :
    (w.afterPass now).holds p = true := by
  rw [Window.afterPass_holds, h, Bool.or_true]

end AfterPass

theorem Window.afterPass_fields (w : Window) (now : Tick) :
    (w.afterPass now).leasePeriod = w.leasePeriod ∧ (w.afterPass now).waitLimit = w.waitLimit ∧
      (w.afterPass now).guard = w.guard ∧ (w.afterPass now).faults = w.faults := by
  rw [Window.afterPass_eq]
  exact ⟨rfl, rfl, rfl, rfl⟩

theorem State.pcu_grantPass_of_not_waits {s : State} {p : Port}
    (h : ∀ i w, s.window? i = some w → w.waits p = false) (i : Nat) : (s.grantPass i).pcu p = s.pcu p := by
  cases hw : s.window? i with
  | none =>
    unfold State.grantPass
    rw [hw]
  | some w =>
    rw [State.grantPass_of_window hw, State.pcu_foldl_completeWait_ne]
    · rfl
    · exact fun x hx => Window.waits_eq_false.1 (h i w hw) x (w.passGrants_prefix.subset hx)

/-- Grant passes leave the PCU of a port that waits on no window. -/
theorem State.pcu_foldl_grantPass_of_not_waits {p : Port} (l : List Nat) {s : State}
    (h : ∀ i w, s.window? i = some w → w.waits p = false) :
    (l.foldl (fun t i => t.grantPass i) s).pcu p = s.pcu p := by
  induction l generalizing s with
  | nil => rfl
  | cons i l ih =>
    rw [List.foldl_cons, ih, State.pcu_grantPass_of_not_waits h]
    intro j w hw
    rw [State.window?_grantPass] at hw
    split at hw
    · obtain ⟨v, hv, rfl⟩ := Option.map_eq_some_iff.1 hw
      exact Window.waits_afterPass_of_not_waits (h i v hv) _
    · exact h j w hw

theorem State.pcu_teardownClaims (s : State) (p : Port) : (s.teardownClaims p).pcu p = s.pcu p := by
  rw [State.teardownClaims_eq, State.pcu_foldl_grantPass_of_not_waits]
  · rfl
  · intro i w hw
    rw [State.window?_withoutPort] at hw
    obtain ⟨v, -, rfl⟩ := Option.map_eq_some_iff.1 hw
    exact Window.waits_removePort v p

/-- What the teardown of a port leaves of a window (R49, R192). -/
theorem State.window?_torn {s : State} {p : Port} {i : Nat} {w : Window} (hw : s.window? i = some w) :
    ∃ v, (s.teardownClaims p).window? i = some v ∧
      v.holds p = false ∧ v.waits p = false ∧ v.guard.unlocked.get p = false ∧
      v.base = w.base ∧ v.length = w.length ∧ v.policy = w.policy ∧
      v.leasePeriod = w.leasePeriod ∧ v.waitLimit = w.waitLimit ∧ v.activity = w.activity ∧
      v.guard.key = w.guard.key ∧ v.guard.level = w.guard.level ∧
      v.guard.attempts = w.guard.attempts ∧ v.faults = w.faults ∧
      ∀ q, q ≠ p → v.guard.unlocked.get q = w.guard.unlocked.get q ∧
        (w.holds q = true → v.holds q = true) := by
  have holds : (w.removePort p).holds p = false := by rw [w.holds_removePort, if_pos rfl]
  have unlocked : (w.removePort p).guard.unlocked.get p = false := by
    rw [w.unlocked_removePort, if_pos rfl]
  have others (q : Port) (hq : q ≠ p) :
      (w.removePort p).guard.unlocked.get q = w.guard.unlocked.get q := by
    rw [w.unlocked_removePort, if_neg hq]
  have kept (q : Port) (hq : q ≠ p) (h : w.holds q = true) : (w.removePort p).holds q = true := by
    rw [w.holds_removePort, if_neg hq, h]
  have waits := w.waits_removePort p
  rw [State.window?_teardownClaims, hw, Option.map_some]
  refine ⟨_, rfl, ?_⟩
  split
  · obtain ⟨hlease, hlimit, hguard, hfaults⟩ := (w.removePort p).afterPass_fields s.msCount
    obtain ⟨hbase, hlength, hpolicy, -, hactivity⟩ := Window.SamePlace.afterPass (w.removePort p) s.msCount
    rw [Window.holds_afterPass_of_not_waits waits, Window.waits_afterPass_of_not_waits waits, hguard]
    exact ⟨holds, rfl, unlocked, hbase, hlength, hpolicy, hlease, hlimit, hactivity, rfl, rfl, rfl, hfaults,
      fun q hq => ⟨others q hq, fun h => Window.holds_afterPass_of_holds (kept q hq h) _⟩⟩
  · exact ⟨holds, waits, unlocked, rfl, rfl, rfl, rfl, rfl, rfl, rfl, rfl, rfl, rfl,
      fun q hq => ⟨others q hq, kept q hq⟩⟩

/-! ### The whole teardown -/

/-- The teardown of a port up to its claims (R191, R192). -/
def State.tornClaims (s : State) (p : Port) : State :=
  ((s.teardownPcu p).setLink p Link.reset).teardownClaims p

theorem State.teardownStart_eq (s : State) (p : Port) :
    s.teardownStart p = ((s.tornClaims p).teardownJob p .c0).teardownJob p .c1 := rfl

theorem State.teardownFrame_trans {a b c d : State} {l : PerPort Link}
    (h : b = { a with links := l, pcus := b.pcus, windows := b.windows, c0 := b.c0, c1 := b.c1 })
    (h0 : c = { b with pcus := c.pcus, c0 := c.c0, c1 := c.c1 })
    (h1 : d = { c with pcus := d.pcus, c0 := d.c0, c1 := d.c1 }) :
    d = { a with links := l, pcus := d.pcus, windows := d.windows, c0 := d.c0, c1 := d.c1 } := by
  have first : c.windows = b.windows := (congrArg State.windows h0).trans rfl
  have second : d.windows = c.windows := (congrArg State.windows h1).trans rfl
  conv_lhs => rw [h1, h0, h]
  rw [second, first]

section Teardown

variable (s : State) (p : Port)

theorem State.Calm.tornClaims :
    ((s.teardownPcu p).setLink p Link.reset).Calm (s.tornClaims p) := State.Calm.teardownClaims ..

theorem State.job_tornClaims (c : Channel) : (s.tornClaims p).job c = s.job c :=
  ((State.Calm.tornClaims s p).job c).trans (by cases c <;> rfl)

theorem State.inFlight_tornClaims : (s.tornClaims p).inFlight = s.inFlight :=
  (State.Calm.tornClaims s p).inFlight

theorem State.job_teardownStart (c : Channel) : (s.teardownStart p).job c = s.tornJob p c := by
  have first := State.job_teardownJob (s.tornClaims p) p .c0
  have flight : ((s.tornClaims p).teardownJob p .c0).inFlight = s.inFlight :=
    (congrArg State.inFlight ((s.tornClaims p).teardownJob_frame p .c0)).trans (s.inFlight_tornClaims p)
  have second : ((s.tornClaims p).teardownJob p .c0).tornJob p .c1 = s.tornJob p .c1 :=
    State.tornJob_congr ((first .c1).trans (s.job_tornClaims p .c1)) flight p
  rw [State.teardownStart_eq, State.job_teardownJob, second, first,
    State.tornJob_congr (s.job_tornClaims p .c0) (s.inFlight_tornClaims p)]
  cases c <;> rfl

theorem State.awaits_teardownStart :
    (s.tornClaims p).awaits p .c0 = s.awaits p .c0 ∧
      ((s.tornClaims p).teardownJob p .c0).awaits p .c1 = s.awaits p .c1 := by
  have flight : ((s.tornClaims p).teardownJob p .c0).inFlight = s.inFlight :=
    (congrArg State.inFlight ((s.tornClaims p).teardownJob_frame p .c0)).trans (s.inFlight_tornClaims p)
  exact ⟨State.awaits_congr (s.job_tornClaims p .c0) (s.inFlight_tornClaims p) p,
    State.awaits_congr ((State.job_teardownJob _ p .c0 .c1).trans (s.job_tornClaims p .c1)) flight p⟩

theorem State.pcu_teardownStart_ne {q : Port} (hq : q ≠ p) :
    (s.teardownStart p).pcu q = (s.tornClaims p).pcu q := by
  rw [State.teardownStart_eq, State.pcu_teardownJob, if_neg (fun h => hq h.1), State.pcu_teardownJob,
    if_neg (fun h => hq h.1)]

theorem State.wipeTags_eq : s.wipeTags p = Channel.all.filterMap (fun c => (s.job c).bind (fun j =>
    if j.owner = p ∧ j.kind = .wipe then some j.tag else none)) := by
  unfold State.wipeTags
  congr 1
  funext c
  cases s.job c <;> rfl

/-- The emptied PCU (R191, R193). -/
theorem State.pcu_teardownStart : (s.teardownStart p).pcu p =
    { state := .teardown, queue := [], access := none, completions := [], reservations := 0,
      notices := [], noticeLost := false, wipePrepared := none, fetchMark := none,
      accessAwaited := s.accessInFlight p
      jobsAwaited := (Channel.all.filter (s.awaits p)).length
      outstanding := s.wipeTags p } := by
  have claims : (s.tornClaims p).pcu p = (s.teardownPcu p).pcu p := State.pcu_teardownClaims ..
  obtain ⟨h0, h1⟩ := s.awaits_teardownStart p
  rw [State.teardownStart_eq, State.pcu_teardownJob, h1, State.pcu_teardownJob, h0, claims,
    State.teardownPcu, State.pcu_setPcu_same]
  cases e0 : s.awaits p .c0 <;> cases e1 : s.awaits p .c1 <;>
    simp [Channel.all, e0, e1]

/-- The teardown changes the port's link, the PCUs, the windows and the channels alone. -/
theorem State.teardownStart_frame : s.teardownStart p =
    { s with
      links := s.links.set p Link.reset
      pcus := (s.teardownStart p).pcus, windows := (s.teardownStart p).windows
      c0 := (s.teardownStart p).c0, c1 := (s.teardownStart p).c1 } := by
  refine State.teardownFrame_trans ?_ ((s.tornClaims p).teardownJob_frame p .c0) (State.teardownJob_frame _ p .c1)
  have calm := State.Calm.tornClaims s p
  rw [show (s.tornClaims p).c0 = s.c0 from calm.c0, show (s.tornClaims p).c1 = s.c1 from calm.c1]
  exact calm.frame

end Teardown

theorem State.windows_teardownStart (s : State) (p : Port) :
    (s.teardownStart p).windows = (s.tornClaims p).windows := by
  rw [State.teardownStart_eq, State.windows_teardownJob, State.windows_teardownJob]

/-- Settles O15. -/
theorem teardownOfAPort : Obligations.TeardownOfAPort := by
  refine ⟨fun s p f hf hb hr hn => ?_, fun s p hs ha hj => ?_⟩
  · have ends : exec (.portReset p .release) s = .next (s.teardownStart p) := by
      rw [exec_portReset_release hf (by omega) (by rw [hb]; rfl) rfl,
        State.endPortReset_accepted (portResetReason_accepted hr (by omega) hb)]
    have frame := s.teardownStart_frame p
    have links : (s.teardownStart p).links = s.links.set p Link.reset := congrArg State.links frame
    have window (i : Nat) : (s.teardownStart p).window? i = (s.tornClaims p).window? i :=
      State.window?_of_windows (s.windows_teardownStart p) i
    refine ⟨s.teardownStart p, ends, ?_, fun q hq => ?_, (congrArg State.draw frame).trans rfl, ?_,
      fun i w hw => ?_, fun i hw => ?_, fun c j hc ho => ?_, fun c j hc ho => ?_,
      ⟨((s.teardownPcu p).setLink p Link.reset).withoutPort p, s.tornClaims p, fun i => ?_, fun q hq => ?_,
        rfl, ?_, window, fun q hq => s.pcu_teardownStart_ne p hq⟩, ?_, ?_, ?_, ?_, ?_⟩
    · rw [State.link, links, PerPort.get_set_same]
      rfl
    · rw [State.link, links, PerPort.get_set_ne _ _ hq]
      rfl
    · rw [s.pcu_teardownStart, s.wipeTags_eq]
      rfl
    · rw [window]
      exact State.window?_torn (s := (s.teardownPcu p).setLink p Link.reset) hw
    · rw [window]
      exact (State.window?_teardownClaims ..).trans (congrArg (Option.map _) hw)
    · rw [s.job_teardownStart] at hc
      exact State.tornJob_owner hc ho
    · rw [s.job_teardownStart]
      exact State.tornJob_other hc ho
    · rw [State.window?_withoutPort]
      congr 1
      funext w
      simp only [Window.removePort, Window.removeHolder, Window.removeWaiter, w.noHolders_without]
    · exact State.pcu_setPcu_ne _ _ hq
    · exact State.teardownClaims_eq ..
    · rw [frame]
      exact .of_eq rfl rfl rfl rfl rfl rfl rfl rfl
    · rw [frame]
      exact ⟨rfl, rfl, rfl, rfl, rfl, rfl⟩
    · rw [frame]
      exact ⟨rfl, rfl, rfl⟩
    · rw [frame]
      exact ⟨rfl, rfl, rfl, rfl⟩
    · rw [frame]
      exact ⟨rfl, rfl, rfl, rfl⟩
  · exact congrArg (fun u => Host.Outcome.next (s.setPcu p u)) (if_pos ⟨hs, ha, hj⟩)

end Sys2Proof.Machine


/-! PROOFS. The arbiter's choice and its grants (chapter 5): O35 to O37. -/

namespace Sys2Proof.Machine

/-! ### Requests and the choice -/

theorem State.accessInFlight_iff {s : State} {p : Port} :
    s.accessInFlight p = true ↔ ∃ work, s.inFlight = some ⟨.slot (.port p), work⟩ := by
  unfold State.accessInFlight
  rw [Option.any_eq_true]
  refine ⟨fun ⟨⟨r, work⟩, hf, hr⟩ => ⟨work, ?_⟩, fun ⟨work, hf⟩ => ⟨_, hf, beq_self_eq_true _⟩⟩
  rw [hf, show r = .slot (.port p) from eq_of_beq hr]

theorem State.requests_port_iff {s : State} {p : Port} : s.requests (.port p) = true ↔
    (s.pcu p).access ≠ none ∧ ∀ work, s.inFlight ≠ some ⟨.slot (.port p), work⟩ := by
  have flight : (!s.accessInFlight p) = true ↔ ∀ work, s.inFlight ≠ some ⟨.slot (.port p), work⟩ := by
    rw [Bool.not_eq_true', ← Bool.not_eq_true, State.accessInFlight_iff, not_exists]
  unfold State.requests
  rw [Bool.and_eq_true, flight, Option.isSome_iff_ne_none]

theorem State.requests_channel_iff {s : State} {c : Channel} : s.requests (.channel c) = true ↔
    (∃ j, s.job c = some j ∧ j.state = .running) ∧
      ∀ work, s.inFlight ≠ some ⟨.slot (.channel c), work⟩ := by
  have flight : (!s.stepInFlight c) = true ↔ ∀ work, s.inFlight ≠ some ⟨.slot (.channel c), work⟩ := by
    rw [Bool.not_eq_true', ← Bool.not_eq_true, State.stepInFlight_iff, not_exists]
  unfold State.requests
  rw [Bool.and_eq_true, flight, Option.any_eq_true]
  simp only [beq_iff_eq]

theorem Slot.getElem_around (x : Slot) {n : Nat} (h : n < x.around.length) :
    x.around[n] = Slot.next^[n] x := by
  have h6 : n < 6 := h
  interval_cases n <;> rfl

section Choice

variable {s : State} (h : ¬ (s.scrubDue = true ∧ s.postponed = 4))
include h

theorem State.choose_of_not_overdue : s.choose =
    match s.rotation.around.find? s.requests with
    | some x => some (.slot x)
    | none => if s.scrubDue then some .scrub else none := by
  unfold State.choose
  rw [if_neg (by rwa [Bool.and_eq_true, beq_iff_eq])] <;> rfl

/-- The first request from the pointer onward (R98). -/
theorem State.choose_first {n : Nat} (hn : n < 6) (hr : s.requests (Slot.next^[n] s.rotation) = true)
    (hf : ∀ m, m < n → s.requests (Slot.next^[m] s.rotation) = false) :
    s.choose = some (.slot (Slot.next^[n] s.rotation)) := by
  have found : s.rotation.around.find? s.requests = some (Slot.next^[n] s.rotation) := by
    refine List.find?_eq_some_iff_getElem.2 ⟨hr, n, hn, Slot.getElem_around _ _, fun m hm => ?_⟩
    rw [Slot.getElem_around, hf m hm]
    rfl
  rw [State.choose_of_not_overdue h, found]

theorem State.choose_of_no_request (hn : ∀ x, s.requests x = false) :
    s.choose = if s.scrubDue then some .scrub else none := by
  have none : s.rotation.around.find? s.requests = none := by
    rw [List.find?_eq_none]
    exact fun x _ => by rw [hn x]; exact Bool.false_ne_true
  rw [State.choose_of_not_overdue h, none]

end Choice

theorem State.grantNow_of_choose {s : State} {r : Requestor} (hc : s.choose = some r) :
    s.grantNow = s.grantTo r := by
  unfold State.grantNow
  rw [hc]

section Grant

variable {s : State} (hp : s.phase = .running) (hf : s.inFlight = none)
include hp hf

/-- A grant to a port's pending access, and the taking it makes possible (R98, R173). -/
theorem exec_grant_port {p : Port} (hc : s.choose = some (.slot (.port p))) : exec .grant s =
    .next (takeIfDue s (State.grantPort { s with rotation := (Slot.port p).next } p) p) := by
  show execGrant s = _
  unfold execGrant
  rw [if_pos ⟨hp, hf⟩, hc, State.grantNow_of_choose hc]
  rfl

theorem exec_grant_channel {c : Channel} (hc : s.choose = some (.slot (.channel c))) : exec .grant s =
    .next (State.grantChannel { s with rotation := (Slot.channel c).next } c) := by
  show execGrant s = _
  unfold execGrant
  rw [if_pos ⟨hp, hf⟩, hc, State.grantNow_of_choose hc]
  rfl

theorem exec_grant_scrub (hc : s.choose = some .scrub) : exec .grant s = .next s.grantScrub := by
  show execGrant s = _
  unfold execGrant
  rw [if_pos ⟨hp, hf⟩, hc, State.grantNow_of_choose hc]
  rfl

end Grant

theorem arrive_of_busy {s : State} (h : s.inFlight ≠ none ∨ s.choose ≠ none) (t : State) :
    arrive s t = t := by
  refine if_neg fun hb => ?_
  rw [Bool.and_eq_true, Option.isNone_iff_eq_none, Option.isNone_iff_eq_none] at hb
  exact h.elim (fun h => h hb.1) (fun h => h hb.2)

theorem arrive_of_idle {s : State} (hf : s.inFlight = none) (hc : s.choose = none) (t : State) :
    arrive s t = match t.choose with
      | none => t
      | some r => t.grantTo r := by
  unfold arrive State.grantNow
  rw [hf, hc]
  cases t.choose <;> rfl

/-- Settles O35. -/
theorem arbiterChooses : Obligations.ArbiterChooses := by
  refine ⟨⟨rfl, rfl, rfl, rfl, rfl, rfl⟩, fun _ _ => State.requests_port_iff,
    fun _ _ => State.requests_channel_iff, fun _ _ => State.stepInFlight_iff, fun s hf => ?_,
    fun s hd h4 => ?_, fun s n h hn hr hm => State.choose_first h hn hr hm,
    fun s hn h => State.choose_of_no_request h hn,
    fun s t => ⟨fun h => arrive_of_busy h t, fun hf hc => arrive_of_idle hf hc t⟩, fun s hp hf hc => ?_⟩
  · exact if_neg fun h => hf h.2
  · unfold State.choose
    rw [hd, h4]
    rfl
  · exact exec_grant_scrub hp hf hc

/-! ### A grant to a port -/

section GrantPort

variable {s : State} {p : Port} {a : Access} (ha : (s.pcu p).access = some a)
include ha

theorem State.grantPort_inject {line : Nat} {k : InjectKind} (hb : a.body = .inject line k) :
    s.grantPort p = s.startAccess (.port p) (.inject (s.lineRef line) k) := by
  unfold State.grantPort
  rw [ha]
  dsimp only
  rw [hb]

theorem State.grantPort_read {i off n : Nat} (hb : a.body = .read i off n) : s.grantPort p =
    if s.runOutcome p false ⟨i, off, n⟩ = .ok then
      s.startAccess (.port p) (.read i (s.runRefs ⟨i, off, n⟩) (off % 64) n)
    else s.endAccess p .read (s.runOutcome p false ⟨i, off, n⟩) .none := by
  unfold State.grantPort
  rw [ha]
  dsimp only
  rw [hb]

theorem State.grantPort_write {i off : Nat} {data : List Byte} (hb : a.body = .write i off data) :
    s.grantPort p =
      if s.runOutcome p true ⟨i, off, data.length⟩ = .ok then
        s.startAccess (.port p) (.write i (s.runRefs ⟨i, off, data.length⟩) (off % 64) data)
      else s.endAccess p .write (s.runOutcome p true ⟨i, off, data.length⟩) .none := by
  unfold State.grantPort
  rw [ha]
  dsimp only
  rw [hb]

end GrantPort

/-- Settles O36, by the three kinds of access and the verdict of the checks. -/
theorem grantToAPort : Obligations.GrantToAPort := by
  intro s p a hp hf hc ha hw
  have granted := exec_grant_port hp hf hc
  have ha' : (State.pcu { s with rotation := (Slot.port p).next } p).access = some a := ha
  have hw' : (State.pcu { s with rotation := (Slot.port p).next } p).accessAwaited = false := hw
  refine ⟨fun line k hb => ?_, fun i off n o hb hv => ?_, fun i off data o hb hv => ?_⟩
  · rw [granted, State.grantPort_inject ha' hb]
    rfl
  · have outcome : o = State.runOutcome { s with rotation := (Slot.port p).next } p false ⟨i, off, n⟩ :=
      State.runOutcome_of_verdict hv
    refine ⟨fun ho => ?_, fun ho w hx => ?_⟩
    · rw [granted, State.grantPort_read ha' hb, ← outcome, if_neg ho, State.endAccess_eq ha' hw']
      rfl
    · rw [granted, State.grantPort_read ha' hb, ← outcome, if_pos ho, State.runRefs_eq (w := w) (by exact hx)]
      rfl
  · have outcome : o = State.runOutcome { s with rotation := (Slot.port p).next } p true
        ⟨i, off, data.length⟩ := State.runOutcome_of_verdict hv
    refine ⟨fun ho => ?_, fun ho w hx => ?_⟩
    · rw [granted, State.grantPort_write ha' hb, ← outcome, if_neg ho, State.endAccess_eq ha' hw']
      rfl
    · rw [granted, State.grantPort_write ha' hb, ← outcome, if_pos ho, State.runRefs_eq (w := w) (by exact hx)]
      rfl

/-! ### A grant to a channel -/

section GrantChannel

variable {s : State} {c : Channel} {j : Job} {w : Window} (hj : s.job c = some j)
  (hw : s.window? j.destRun.window = some w)
include hj hw

theorem State.grantChannel_copy {src : Run} (hk : j.kind = .copy) (hs : j.sourceRun = some src) :
    s.grantChannel c =
      if s.copyOutcome j.owner src j.destRun = .ok then
        s.startAccess (.channel c)
          (.copyStep (s.runRefs src) (src.offset % 64) (s.lineRef (w.base + j.destRun.offset / 64))
            (j.destRun.offset % 64) j.destRun.length)
      else s.endJob c (s.copyOutcome j.owner src j.destRun) := by
  unfold State.grantChannel
  rw [hj]
  dsimp only
  rw [hk, hs, hw]

theorem State.grantChannel_fill (hk : j.kind = .fill) : s.grantChannel c =
    if s.runOutcome j.owner true j.destRun = .ok then
      s.startAccess (.channel c)
        (.fillStep (s.lineRef (w.base + j.destRun.offset / 64)) (j.destRun.offset % 64) j.destRun.length
          (j.pattern.getD 0#8))
    else s.endJob c (s.runOutcome j.owner true j.destRun) := by
  unfold State.grantChannel
  rw [hj]
  dsimp only
  rw [hk, hw]

theorem State.grantChannel_wipe (hk : j.kind = .wipe) : s.grantChannel c =
    s.startAccess (.channel c) (.wipeStep (s.lineRef (w.base + j.destRun.offset / 64))) := by
  unfold State.grantChannel
  rw [hj]
  dsimp only
  rw [hk, hw]

end GrantChannel

/-! ### The steps of a job -/

section Steps

variable {j : Job}

theorem Job.window_destRun (j : Job) : j.destRun.window = j.dest.window := by
  unfold Job.destRun
  cases j.direction <;> rfl

theorem Job.destRun_ascending (h : j.direction = .ascending) :
    j.destRun.offset = j.dest.offset + j.bytesDone ∧
      j.destRun.length =
        min (j.total - j.bytesDone) (64 - (j.dest.offset + j.bytesDone) % 64) := by
  unfold Job.destRun
  rw [h]
  exact ⟨rfl, rfl⟩

theorem Job.destRun_descending (h : j.direction = .descending) :
    j.destRun.length =
        min (j.total - j.bytesDone) ((j.dest.offset + (j.total - j.bytesDone) - 1) % 64 + 1) ∧
      j.destRun.offset = j.dest.offset + (j.total - j.bytesDone) - j.destRun.length := by
  unfold Job.destRun
  rw [h]
  exact ⟨rfl, rfl⟩

/-- A step lies within one line, at an end of what remains (R139). -/
theorem Job.destRun_lies (h : j.bytesDone < j.total) :
    1 ≤ j.destRun.length ∧ j.destRun.length ≤ 64 ∧ j.bytesDone + j.destRun.length ≤ j.total ∧
      (j.destRun.offset + j.destRun.length - 1) / 64 = j.destRun.offset / 64 ∧
      (j.direction = .ascending → j.destRun.offset = j.dest.offset + j.bytesDone ∧
        (j.destRun.length = j.total - j.bytesDone ∨ (j.destRun.offset + j.destRun.length) % 64 = 0)) ∧
      (j.direction = .descending →
        j.destRun.offset + j.destRun.length = j.dest.offset + (j.total - j.bytesDone) ∧
        (j.destRun.length = j.total - j.bytesDone ∨ j.destRun.offset % 64 = 0)) := by
  cases hd : j.direction with
  | ascending =>
    obtain ⟨ho, hl⟩ := Job.destRun_ascending hd
    rw [ho, hl]
    refine ⟨by omega, by omega, by omega, by omega, fun _ => ⟨rfl, by omega⟩, Direction.noConfusion⟩
  | descending =>
    obtain ⟨hl, ho⟩ := Job.destRun_descending hd
    rw [ho, hl]
    refine ⟨by omega, by omega, by omega, by omega, Direction.noConfusion, fun _ => ⟨by omega, by omega⟩⟩

end Steps

theorem State.job_rotated {s : State} {c : Channel} {j : Job} (h : s.job c = some j) (x : Slot) :
    State.job { s with rotation := x } c = some j := by cases c <;> exact h

/-- The teardown record lowered by one job: the last thing awaited ends the teardown (R195). -/
theorem Pcu.endTeardown_lowered (u : Pcu) :
    ({ u with jobsAwaited := u.jobsAwaited - 1 } : Pcu).endTeardown =
      { u with
        jobsAwaited := u.jobsAwaited - 1
        state :=
          if u.state = .teardown ∧ u.accessAwaited = false ∧ u.jobsAwaited ≤ 1 then .ready
          else u.state } := by
  have last : u.jobsAwaited - 1 = 0 ↔ u.jobsAwaited ≤ 1 := Nat.sub_eq_zero_iff_le
  unfold Pcu.endTeardown
  simp only [last]
  split <;> rfl

/-- Settles O37, by the kind of the job, the direction of its walk, and its report. -/
theorem grantToAChannelStartsOneStep : Obligations.GrantToAChannelStartsOneStep := by
  refine ⟨fun s c j hp hf hc hj => ⟨fun src w o hk hs hw hv => ⟨fun ho => ?_, fun ho => ?_⟩,
    fun w o hk hw hv => ⟨fun ho => ?_, fun ho => ?_⟩, fun w hk hw => ?_⟩,
    fun j h => ?_, fun s c j o hj => ⟨fun hd => ?_, fun hd hk => ?_, fun hd hk => ?_⟩⟩
  · have hw' : State.window? { s with rotation := (Slot.channel c).next } j.destRun.window = some w := hw
    have outcome : o = State.copyOutcome { s with rotation := (Slot.channel c).next } j.owner src j.destRun :=
      State.copyOutcome_of_verdict hv
    refine ⟨_, s.runRefs src, ?_, rfl, fun v hx => State.runRefs_eq hx⟩
    have hj' := State.job_rotated hj (Slot.channel c).next
    rw [exec_grant_channel hp hf hc, State.grantChannel_copy hj' hw' hk hs, ← outcome,
      if_pos ho]
    rfl
  · have hw' : State.window? { s with rotation := (Slot.channel c).next } j.destRun.window = some w := hw
    have outcome : o = State.copyOutcome { s with rotation := (Slot.channel c).next } j.owner src j.destRun :=
      State.copyOutcome_of_verdict hv
    have hj' := State.job_rotated hj (Slot.channel c).next
    rw [exec_grant_channel hp hf hc, State.grantChannel_copy hj' hw' hk hs, ← outcome,
      if_neg ho]
  · have hw' : State.window? { s with rotation := (Slot.channel c).next } j.destRun.window = some w := hw
    have outcome : o = State.runOutcome { s with rotation := (Slot.channel c).next } j.owner true j.destRun :=
      State.runOutcome_of_verdict hv
    have hj' := State.job_rotated hj (Slot.channel c).next
    rw [exec_grant_channel hp hf hc, State.grantChannel_fill hj' hw' hk, ← outcome,
      if_pos ho]
    rfl
  · have hw' : State.window? { s with rotation := (Slot.channel c).next } j.destRun.window = some w := hw
    have outcome : o = State.runOutcome { s with rotation := (Slot.channel c).next } j.owner true j.destRun :=
      State.runOutcome_of_verdict hv
    have hj' := State.job_rotated hj (Slot.channel c).next
    rw [exec_grant_channel hp hf hc, State.grantChannel_fill hj' hw' hk, ← outcome,
      if_neg ho]
  · have hw' : State.window? { s with rotation := (Slot.channel c).next } j.destRun.window = some w := hw
    have hj' := State.job_rotated hj (Slot.channel c).next
    rw [exec_grant_channel hp hf hc, State.grantChannel_wipe hj' hw' hk]
    rfl
  · obtain ⟨hmin, hmax, hfits, hline, hasc, hdesc⟩ := Job.destRun_lies h
    refine ⟨hmin, hmax, hfits, hline, j.window_destRun, hasc, hdesc, fun x hx => ?_⟩
    rw [Job.sourceRun, hx]
    rfl
  · rw [State.endJob_deliver hj hd, State.complete, State.pcu_setJob]
    rfl
  · exact State.endJob_discard_wipe hj hd hk o
  · rw [State.endJob_discard hj hd hk, Pcu.endTeardown_lowered]

end Sys2Proof.Machine


/-! PROOFS. The completions of READ, WRITE and INJECT (chapters 4 and 6): O39 to O41. -/

namespace Sys2Proof.Machine

/-! ### What the array's part of a completion leaves -/

/-- A change by the integrity unit alone: beside what `Mends` allows, a PCU gets notices at most, and one
that is not READY nothing (R111, R187). -/
structure State.Handles (s u : State) : Prop where
  mends : s.Mends u
  work : ∀ q, (s.pcu q).SameWork (u.pcu q)
  idle : ∀ q, (s.pcu q).state ≠ .ready → u.pcu q = s.pcu q

namespace State.Handles

theorem trans {s t u : State} (h : s.Handles t) (k : t.Handles u) : s.Handles u where
  mends := h.mends.trans k.mends
  work q := (h.work q).trans (k.work q)
  idle q hq := (k.idle q (by rw [h.idle q hq]; exact hq)).trans (h.idle q hq)

theorem handleReads (s : State) (rs : List LineRead) (m : LineRef → Option (List Byte)) :
    s.Handles (s.handleReads rs m) :=
  ⟨.handleReads s rs m, s.sameWork_handleReads rs m, s.pcu_handleReads_of_not_ready rs m⟩

theorem handlesLines (s : State) (lines : List LineRef) (m : LineRef → Option (List Byte)) :
    s.Handles (s.handlesLines lines m) := State.handlesLines_eq s lines m ▸ handleReads ..

theorem overwriteLine (s : State) (r : LineRef) (b : List Byte) : s.Handles (s.overwriteLine r b) :=
  ⟨.overwriteLine s r b, fun _ => .refl _, fun _ _ => rfl⟩

theorem writeLines (s : State) (lines : List LineRef) (first : Nat) (data : List Byte) :
    s.Handles (s.writeLines lines first data).1 := by
  unfold State.writeLines
  split
  · split
    · exact overwriteLine ..
    · exact handleReads ..
  · exact handleReads ..

theorem fillLines (s : State) (dest : LineRef) (first n : Nat) (pat : Byte) :
    s.Handles (s.fillLines dest first n pat).1 := by
  unfold State.fillLines
  dsimp only
  rw [apply_ite Prod.fst]
  dsimp only
  split
  · exact overwriteLine ..
  · exact handleReads ..

theorem copyLines (s : State) (source : List LineRef) (sourceFirst : Nat) (dest : LineRef) (first n : Nat) :
    s.Handles (s.copyLines source sourceFirst dest first n).1 := by
  have store {t : State} (h : s.Handles t) (c : Bool) (b : List Byte) :
      s.Handles (if c then t.overwriteLine dest b else t) := by
    cases c
    · exact h
    · exact h.trans (overwriteLine ..)
  unfold State.copyLines
  dsimp only
  rw [apply_ite Prod.fst]
  dsimp only
  exact store (handleReads ..) _ _

variable {s u : State} {p : Port} {a : Access}

theorem access (h : s.Handles u) (q : Port) : (u.pcu q).access = (s.pcu q).access := by
  obtain ⟨-, -, haccess, -⟩ := h.work q
  exact haccess

theorem accessAwaited (h : s.Handles u) (q : Port) :
    (u.pcu q).accessAwaited = (s.pcu q).accessAwaited := by
  obtain ⟨-, -, -, hawaited, -⟩ := h.work q
  exact hawaited

theorem endFlight (h : s.Handles u) : u.endFlight = { u with inFlight := none, draw := s.draw + 1 } := by
  rw [State.endFlight, h.mends.draw]

/-- The end of an access after its lines were handled (R89). -/
theorem endAccess (h : s.Handles u) (ha : (s.pcu p).access = some a)
    (hw : (s.pcu p).accessAwaited = false) (k : CommandKind) (o : OutcomeCode) (e : Extra) :
    u.endFlight.endAccess p k o e =
      State.setPcu { u with inFlight := none, draw := s.draw + 1 } p ((u.pcu p).accessEnds a k o e) := by
  have ha' : (u.endFlight.pcu p).access = some a := (h.access p).trans ha
  have hw' : (u.endFlight.pcu p).accessAwaited = false := (h.accessAwaited p).trans hw
  rw [State.endAccess_eq ha' hw', h.endFlight]
  rfl

theorem holders (h : s.Handles u) {i : Nat} {w : Window} (hw : s.window? i = some w) :
    ∃ v, u.window? i = some v ∧ v.holders = w.holders := by
  obtain ⟨v, hv⟩ := Option.ne_none_iff_exists'.1 (mt (h.mends.absent i).1 (by rw [hw]; exact Option.some_ne_none _))
  have same : w.SameButFaults v := h.mends.present i w v hw hv
  exact ⟨v, hv, (congrArg Window.holders same).trans rfl⟩

end State.Handles

/-- Where no line is correctable and nothing is stored, only marks, counts and notices change (R120). -/
theorem State.handleReads_marks {s : State} (l : List LineRef) (t : State)
    (h : ∀ r ∈ l, s.lineClass r.phys ≠ .correctable) :
    (t.handleReads (l.map s.readLine) (fun _ => none)).suspects = t.suspects ∧
      (t.handleReads (l.map s.readLine) (fun _ => none)).remap = t.remap ∧
      (t.handleReads (l.map s.readLine) (fun _ => none)).spares = t.spares := by
  induction l generalizing t with
  | nil => exact ⟨rfl, rfl, rfl⟩
  | cons r l ih =>
    have first : (t.handleRead (s.readLine r) none).suspects = t.suspects ∧
        (t.handleRead (s.readLine r) none).remap = t.remap ∧
        (t.handleRead (s.readLine r) none).spares = t.spares := by
      unfold State.handleRead State.readLine
      cases hc : s.lineClass r.phys with
      | correctable => exact absurd hc (h r (List.mem_cons_self ..))
      | clean => exact ⟨rfl, rfl, rfl⟩
      | uncorrectable =>
        dsimp only
        rw [State.poisonLine_eq]
        exact ⟨rfl, rfl, rfl⟩
    obtain ⟨hsuspects, hremap, hspares⟩ := first
    obtain ⟨ksuspects, kremap, kspares⟩ :=
      ih (t.handleRead (s.readLine r) none) (fun x hx => h x (List.mem_cons_of_mem _ hx))
    exact ⟨ksuspects.trans hsuspects, kremap.trans hremap, kspares.trans hspares⟩

/-! ### READ -/

section Read

variable {s : State} {p : Port} {i first n : Nat} {lines : List LineRef} {a : Access}
  (hf : s.inFlight = some ⟨.slot (.port p), .read i lines first n⟩)

include hf in
theorem exec_readCompletion :
    exec .readCompletion s = .next (takeIfDue s (s.readDone p i lines first n) p) := by
  show execReadCompletion s = _
  unfold execReadCompletion
  rw [hf]

variable (ha : (s.pcu p).access = some a) (hw : (s.pcu p).accessAwaited = false)
include ha hw

theorem State.readDone_good (hg : AllReadable s lines) : s.readDone p i lines first n =
    (State.setPcu { s.handlesLines lines (fun _ => none) with inFlight := none, draw := s.draw + 1 } p
      (((s.handlesLines lines (fun _ => none)).pcu p).accessEnds a .read .ok
        (.data (((s.correctedBytes lines).drop first).take n)))).touch p i := by
  rw [← (State.Handles.handlesLines s lines _).endAccess ha hw, State.readDone, State.handlesLines_eq,
    State.readBytes_eq, (allReadable_iff s lines).1 hg]
  rfl

theorem State.readDone_lost (hg : ¬ AllReadable s lines) : s.readDone p i lines first n =
    State.setPcu { s.handlesLines lines (fun _ => none) with inFlight := none, draw := s.draw + 1 } p
      (((s.handlesLines lines (fun _ => none)).pcu p).accessEnds a .read .dataLost .none) := by
  rw [← (State.Handles.handlesLines s lines _).endAccess ha hw, State.readDone, State.handlesLines_eq,
    (allReadable_not_iff s lines).1 hg]
  rfl

end Read

theorem allReadable_of_clean {s : State} {lines : List LineRef}
    (h : ∀ r ∈ lines, s.lineClass r.phys = .clean) : AllReadable s lines := fun r hr => by
  rw [h r hr]
  exact LineClass.noConfusion

theorem State.touch_of_holds {s : State} {p : Port} {i : Nat} {w : Window} (hw : s.window? i = some w)
    (h : w.holds p = true) : s.touch p i = s.setWindow i
      (some { w with holders := w.holders.set p (some (termLease w.leasePeriod s.msCount)) }) := by
  unfold State.touch
  rw [hw, ← newLease_eq]
  exact if_pos h

theorem State.touch_of_not_holds {s : State} {p : Port} {i : Nat}
    (h : ∀ w, s.window? i = some w → w.holds p = false) : s.touch p i = s := by
  unfold State.touch
  split
  · rfl
  · next w hw => exact if_neg (by rw [h w hw]; exact Bool.false_ne_true)

/-- Settles O39: the readable and the unreadable lines, and the touch of a holder and of any other port. -/
theorem readReturnsItsBytesOrPoisons : Obligations.ReadReturnsItsBytesOrPoisons := by
  refine ⟨fun s p i lines first n a hf ha hw hc hn => ?_, fun s p i lines first n a hf ha hw hl hc => ?_,
    fun s p i lines first n a u hf ha hw hu => ?_, fun s p i => ⟨fun w hw h => ?_, State.touch_of_not_holds⟩⟩
  · have same : s.handlesLines lines (fun _ => none) = s := by
      rw [State.handlesLines_eq, State.handleReads_clean hc]
    rw [exec_readCompletion hf, State.readDone_good ha hw (allReadable_of_clean hc), same, ← State.readBytes_eq,
      State.run_readBytes hc hn]
    rfl
  · obtain ⟨r, hr, hbad⟩ := hl
    have handles := State.Handles.handlesLines s lines (fun _ => none)
    obtain ⟨hcompletions, hqueue, -⟩ := handles.work p
    have stores := s.handleReads_stores_nothing lines s hc
    have marks := State.handleReads_marks lines s hc
    have poisoned := s.poisoned_handleReads (fun _ => none) lines s
    rw [← State.handlesLines_eq] at stores marks
    simp only [← State.handlesLines_eq] at poisoned
    obtain ⟨hmem, hflips⟩ := stores
    obtain ⟨hsuspects, hremap, hspares⟩ := marks
    have lost := State.readDone_lost (i := i) (first := first) (n := n) ha hw (fun hg => hg r hr hbad)
    refine ⟨_, (exec_readCompletion hf).trans (congrArg (fun t => Host.Outcome.next (takeIfDue s t p)) lost),
      ?_, ?_, ?_, rfl, poisoned, fun j w hj => handles.holders hj, fun b => congrArg (Memory.read · b) hmem, hflips,
      hsuspects, hremap, hspares⟩
    · rw [State.pcu_setPcu_same]
      exact congrArg (· ++ _) hcompletions
    · rw [State.pcu_setPcu_same]
      exact congrArg List.tail hqueue
    · rw [State.pcu_setPcu_same]
      rfl
  · subst hu
    refine ⟨fun hg => ?_, fun hg => ?_⟩
    · rw [exec_readCompletion hf, State.readDone_good ha hw hg]
    · rw [exec_readCompletion hf, State.readDone_lost ha hw hg]
  · rw [State.touch_of_holds hw h]
    exact ⟨State.window?_setWindow_same _ (State.window?_eq_some_lt hw),
      fun k hk => State.window?_setWindow_ne _ _ hk, rfl⟩

end Sys2Proof.Machine


/-! PROOFS. The completions of WRITE and INJECT (R87 to R92): O40 and O41. -/

namespace Sys2Proof.Machine

/-! ### What a WRITE of clean lines, or of one whole line, stores -/

/-- The array after a WRITE that stores its data bytes, and what it leaves (R87, R110, R122). -/
structure State.Stores (s x : State) (lines : List LineRef) (first : Nat) (data : List Byte) : Prop where
  frame : x = { s with mem := x.mem, flips := x.flips, poisoned := x.poisoned }
  stored : ∀ k, k < data.length → Memory.read x.mem (runAddress lines (first + k)) = data.getD k 0#8
  kept : ∀ b, (∀ k, k < data.length → b ≠ runAddress lines (first + k)) →
    Memory.read x.mem b = Memory.read s.mem b
  flips : x.flips = s.flips.filter (fun f => !(lines.map LineRef.phys).contains f.phys)
  poisoned : x.poisoned = if lines.length = 1 ∧ data.length = 64 then
    s.poisoned.filter (fun l => !(lines.map LineRef.line).contains l) else s.poisoned

theorem runAddress_singleton (r : LineRef) {k : Nat} (hk : k < 64) : runAddress [r] k = 64 * r.phys + k := by
  have h := runAddress_getElem (lines := [r]) (j := 0) (by simp) hk
  simpa using h

theorem State.Stores.overwriteLine {s : State} (hm : Memory.wf s.mem = true) (r : LineRef)
    {data : List Byte} (hd : data.length = 64) : s.Stores (s.overwriteLine r data) [r] 0 data where
  frame := rfl
  stored k hk := by
    rw [Nat.zero_add, runAddress_singleton r (by omega), State.read_overwriteLine hm, if_pos (by omega),
      Nat.add_sub_cancel_left]
  kept b hb := by
    rw [State.read_overwriteLine hm, if_neg]
    rintro ⟨hlow, hhigh⟩
    refine hb (b - 64 * r.phys) (by omega) ?_
    rw [Nat.zero_add, runAddress_singleton r (by omega)]
    omega
  flips := by
    show s.flips.filter (fun f => f.phys != r.phys) = _
    congr 1
    funext f
    rw [Bool.eq_iff_iff]
    simp
  poisoned := by
    rw [if_pos ⟨rfl, hd⟩]
    show s.poisoned.filter (fun l => l != r.line) = _
    congr 1
    funext l
    rw [Bool.eq_iff_iff]
    simp

theorem State.writeLines_merged {s : State} {lines : List LineRef} {first : Nat} {data : List Byte}
    (hn : ¬ (lines.length = 1 ∧ data.length = 64)) : s.writeLines lines first data =
      (s.handleReads (lines.map s.readLine) (writeMerge (lines.map s.readLine) first data),
        readsGood (lines.map s.readLine)) := by
  unfold State.writeLines
  split
  · exact if_neg fun h => hn ⟨rfl, h.2⟩
  · rfl

section Merged

variable {s : State} {lines : List LineRef} {first : Nat} {data : List Byte}
  (hc : ∀ r ∈ lines, s.lineClass r.phys = .clean)

/-- The index of a line among the lines read. -/
theorem findIdx_readLine (hl : (lines.map LineRef.phys).Nodup) {j : Nat} (hj : j < lines.length) :
    (lines.map s.readLine).findIdx (fun x => x.ref == lines[j]) = j := by
  have nodup : lines.Nodup := hl.of_map
  rw [List.findIdx_map]
  exact nodup.idxOf_getElem j hj

include hc in
theorem writeMerge_getElem (hl : (lines.map LineRef.phys).Nodup) {j : Nat} (hj : j < lines.length) :
    writeMerge (lines.map s.readLine) first data lines[j] =
      some (lineChunk (splice (readBytes (lines.map s.readLine)) first data) j) := by
  rw [writeMerge, if_pos ((allReadable_iff s lines).1 (allReadable_of_clean hc)), findIdx_readLine hl hj]
  rfl

variable (hl : RunLies lines first data.length)
include hc hl

/-- A byte of the lines of a WRITE, merged (R87). -/
theorem State.read_writeMerged (hm : Memory.wf s.mem = true) {i : Nat} (hi : i < 64 * lines.length) :
    Memory.read (s.storeLines lines (writeMerge (lines.map s.readLine) first data)).mem (runAddress lines i) =
      if first ≤ i ∧ i < first + data.length then data.getD (i - first) 0#8
      else Memory.read s.mem (runAddress lines i) := by
  obtain ⟨hnodup, hfits⟩ := hl
  have hj : i / 64 < lines.length := by omega
  have ho : i % 64 < 64 := by omega
  have address : runAddress lines i = 64 * lines[i / 64].phys + i % 64 := by
    rw [← runAddress_getElem hj ho]
    congr 1
    omega
  have fits : first + data.length ≤ (readBytes (lines.map s.readLine)).length := by
    rw [State.length_readBytes]
    exact hfits
  have sizes : ∀ r ∈ lines, ∀ b, writeMerge (lines.map s.readLine) first data r = some b → b.length = 64 := by
    intro r hr b hb
    obtain ⟨j, hj, rfl⟩ := List.getElem_of_mem hr
    rw [writeMerge_getElem hc hnodup hj] at hb
    cases hb
    refine length_lineChunk _ _ ?_
    rw [length_splice _ _ _ fits, State.length_readBytes]
    omega
  rw [address, State.read_storeLines hm _ _ sizes hnodup (List.getElem_mem hj)
    (writeMerge_getElem hc hnodup hj) ho, getD_lineChunk _ _ _ ho, getD_splice _ _ _ _ fits, ← address,
    show 64 * (i / 64) + i % 64 = i by omega, State.getD_readBytes hc hi]

theorem State.Stores.merged (hm : Memory.wf s.mem = true) (hn : ¬ (lines.length = 1 ∧ data.length = 64)) :
    s.Stores (s.storeLines lines (writeMerge (lines.map s.readLine) first data)) lines first data where
  frame := by
    have h := s.storeLines_frame lines (writeMerge (lines.map s.readLine) first data)
    rw [show (s.storeLines lines (writeMerge (lines.map s.readLine) first data)).poisoned = s.poisoned from
      (congrArg State.poisoned h).trans rfl]
    exact h
  stored k hk := by
    obtain ⟨-, hfits⟩ := id hl
    rw [State.read_writeMerged hc hl hm (by omega), if_pos (by omega), Nat.add_sub_cancel_left]
  kept b hb := by
    by_cases hin : ∃ i, i < 64 * lines.length ∧ b = runAddress lines i
    · obtain ⟨i, hi, rfl⟩ := hin
      rw [State.read_writeMerged hc hl hm hi, if_neg]
      rintro ⟨hlow, hhigh⟩
      refine hb (i - first) (by omega) ?_
      rw [Nat.add_sub_cancel' hlow]
    · obtain ⟨hnodup, hfits⟩ := id hl
      have apart : ∀ r ∈ lines, r.phys ≠ b / 64 := by
        intro r hr hp
        obtain ⟨j, hj, rfl⟩ := List.getElem_of_mem hr
        refine hin ⟨64 * j + b % 64, by omega, ?_⟩
        rw [runAddress_getElem hj (by omega), hp]
        omega
      refine State.read_storeLines_ne hm _ _ (fun r hr c hc' => ?_) b fun r hr hp => absurd hp (apart r hr)
      obtain ⟨j, hj, rfl⟩ := List.getElem_of_mem hr
      rw [writeMerge_getElem hc hnodup hj] at hc'
      cases hc'
      refine length_lineChunk _ _ ?_
      rw [length_splice _ _ _ (by rw [State.length_readBytes]; exact hfits), State.length_readBytes]
      omega
  flips := by
    have good := (allReadable_iff s lines).1 (allReadable_of_clean hc)
    rw [State.flips_storeLines]
    congr 1
    funext f
    have all (r : LineRef) : (writeMerge (lines.map s.readLine) first data r).isSome = true := by
      rw [writeMerge, if_pos good]
      rfl
    simp only [all, Bool.and_true, List.contains_eq_any_beq, List.any_map, Function.comp_def]
    simp only [BEq.comm]
  poisoned := by
    rw [if_neg hn]
    exact (congrArg State.poisoned (s.storeLines_frame ..)).trans rfl

end Merged

/-- A WRITE of one whole line, or of clean lines, completes its array's part well (R87, R89). -/
theorem State.writeLines_stores {s : State} {lines : List LineRef} {first : Nat} {data : List Byte}
    (hm : Memory.wf s.mem = true) (hl : RunLies lines first data.length)
    (h : (lines.length = 1 ∧ data.length = 64) ∨ ∀ r ∈ lines, s.lineClass r.phys = .clean) :
    ∃ x, s.writeLines lines first data = (x, true) ∧ s.Stores x lines first data := by
  by_cases hn : lines.length = 1 ∧ data.length = 64
  · obtain ⟨hone, hd⟩ := hn
    obtain ⟨r, rfl⟩ := List.length_eq_one_iff.1 hone
    obtain ⟨-, hfits⟩ := hl
    have h0 : first = 0 := by
      rw [List.length_singleton] at hfits
      omega
    subst h0
    exact ⟨_, if_pos ⟨rfl, hd⟩, .overwriteLine hm r hd⟩
  · have hc := h.resolve_left hn
    refine ⟨_, ?_, .merged hc hl hm hn⟩
    rw [State.writeLines_merged hn, State.handleReads_eq_storeLines hc,
      (allReadable_iff s lines).1 (allReadable_of_clean hc)]

/-! ### WRITE -/

section Write

variable {s : State} {p : Port} {i first : Nat} {data : List Byte} {lines : List LineRef} {a : Access}
  (hf : s.inFlight = some ⟨.slot (.port p), .write i lines first data⟩)

include hf in
theorem exec_writeCompletion :
    exec .writeCompletion s = .next (takeIfDue s (s.writeDone p i lines first data) p) := by
  show execWriteCompletion s = _
  unfold execWriteCompletion
  rw [hf]

variable (ha : (s.pcu p).access = some a) (hw : (s.pcu p).accessAwaited = false) {u : State}
include ha hw

theorem State.writeDone_good (h : s.writeLines lines first data = (u, true)) :
    s.writeDone p i lines first data =
      (State.setPcu { u with inFlight := none, draw := s.draw + 1 } p
        ((u.pcu p).accessEnds a .write .ok .none)).touch p i := by
  have handles : s.Handles u := by
    have := State.Handles.writeLines s lines first data
    rwa [h] at this
  rw [← handles.endAccess ha hw, State.writeDone, h]
  rfl

theorem State.writeDone_lost (h : s.writeLines lines first data = (u, false)) :
    s.writeDone p i lines first data =
      State.setPcu { u with inFlight := none, draw := s.draw + 1 } p
        ((u.pcu p).accessEnds a .write .dataLost .none) := by
  have handles : s.Handles u := by
    have := State.Handles.writeLines s lines first data
    rwa [h] at this
  rw [← handles.endAccess ha hw, State.writeDone, h]
  rfl

end Write

/-- Settles O40: the stores of a WRITE of whole or clean lines, and the merge of any other. -/
theorem writeStoresItsBytes : Obligations.WriteStoresItsBytes := by
  refine ⟨fun s p i lines first data a hm hf ha hw hl h => ?_,
    fun s p i lines first data a u hf ha hw hl hn hu => ⟨fun hg => ?_, fun hg => ⟨?_, fun hc => ?_⟩⟩⟩
  · obtain ⟨x, hx, stores⟩ := State.writeLines_stores hm hl h
    have pcus : x.pcus = s.pcus := (congrArg State.pcus stores.frame).trans rfl
    refine ⟨State.setPcu { x with inFlight := none, draw := s.draw + 1 } p
        ((x.pcu p).accessEnds a .write .ok .none), ?_, stores.stored, stores.kept, stores.flips,
      stores.poisoned, ?_⟩
    · rw [exec_writeCompletion hf, State.writeDone_good ha hw hx]
    · rw [show x.pcu p = s.pcu p from congrArg (PerPort.get · p) pcus]
      conv_lhs => rw [stores.frame]
      rfl
  · have merged := hu.writeLines hn
    rw [(allReadable_iff s lines).1 hg] at merged
    rw [exec_writeCompletion hf, State.writeDone_good ha hw merged]
  · have merged := hu.writeLines hn
    rw [(allReadable_not_iff s lines).1 hg] at merged
    rw [exec_writeCompletion hf, State.writeDone_lost ha hw merged]
  · rw [hu.2 hg, State.handlesLines_eq]
    obtain ⟨hmem, hflips⟩ := s.handleReads_stores_nothing lines s hc
    exact ⟨fun b => congrArg (Memory.read · b) hmem, hflips, s.poisoned_handleReads (fun _ => none) lines s⟩

/-! ### INJECT -/

/-- The flips an INJECT leaves in word 0 of its line, and in every other word (R92). -/
theorem State.flipsIn_plant_same (s : State) (phys : Nat) (k : InjectKind) :
    (s.plant phys k).flipsIn phys 0 = (plantedFlips phys k).map Flip.bit := by
  have none : (s.flips.filter (fun f => !(f.phys == phys && f.word == 0))).filter
      (fun f => f.phys == phys && f.word == 0) = [] := by
    rw [List.filter_filter, List.filter_eq_nil_iff]
    exact fun f _ => by simp
  have all : (plantedFlips phys k).filter (fun f => f.phys == phys && f.word == 0) =
      plantedFlips phys k := by
    rw [List.filter_eq_self]
    cases k <;> simp [plantedFlips]
  rw [State.flipsIn, State.plant, List.filter_append, none, all, List.nil_append]

theorem State.flipsIn_plant_ne (s : State) {phys word n : Nat} (k : InjectKind)
    (h : phys ≠ n ∨ word ≠ 0) : (s.plant n k).flipsIn phys word = s.flipsIn phys word := by
  have kept : (s.flips.filter (fun f => !(f.phys == n && f.word == 0))).filter
      (fun f => f.phys == phys && f.word == word) =
        s.flips.filter (fun f => f.phys == phys && f.word == word) := by
    rw [List.filter_filter]
    refine List.filter_congr fun f _ => ?_
    rw [Bool.eq_iff_iff]
    simp only [Bool.and_eq_true, beq_iff_eq, Bool.not_eq_true', Bool.and_eq_false_iff, beq_eq_false_iff_ne]
    refine and_iff_left_of_imp ?_
    rintro ⟨rfl, rfl⟩
    exact h
  have none : (plantedFlips n k).filter (fun f => f.phys == phys && f.word == word) = [] := by
    have apart : ¬ (n = phys ∧ 0 = word) := fun ⟨h1, h2⟩ => h.elim (fun hp => hp h1.symm) (fun hw => hw h2.symm)
    rw [List.filter_eq_nil_iff]
    cases k <;> simpa [plantedFlips] using not_and.1 apart
  rw [State.flipsIn, State.plant, List.filter_append, kept, none, List.append_nil]
  rfl

/-- The bits an INJECT plants are bits of the code alone, none twice. -/
theorem plantedBits (phys : Nat) (k : InjectKind) :
    ((plantedFlips phys k).map Flip.bit).length = (if k = .one then 1 else 2) ∧
      ((plantedFlips phys k).map Flip.bit).Nodup ∧
      ∀ b ∈ (plantedFlips phys k).map Flip.bit, ∃ n, b = .code n := by
  cases k <;> simp [plantedFlips]

theorem State.flipsIn_of_flips {s t : State} (h : t.flips = s.flips) (phys word : Nat) :
    t.flipsIn phys word = s.flipsIn phys word := by
  unfold State.flipsIn
  rw [h]

theorem exec_injectCompletion {s : State} {p : Port} {r : LineRef} {k : InjectKind}
    (hf : s.inFlight = some ⟨.slot (.port p), .inject r k⟩) :
    exec .injectCompletion s = .next (takeIfDue s (s.injectDone p r k) p) := by
  show execInjectCompletion s = _
  unfold execInjectCompletion
  rw [hf]

/-- Settles O41. -/
theorem injectPlantsItsFlips : Obligations.InjectPlantsItsFlips := by
  intro s p r k a hf ha hw
  have ends : s.injectDone p r k = State.setPcu
      { s with inFlight := none, draw := s.draw + 1, flips := (s.plant r.phys k).flips } p
      ((s.pcu p).accessEnds a .inject .ok .none) :=
    (State.endAccess_eq (s := (s.plant r.phys k).endFlight) ha hw ..).trans rfl
  have flips : (s.injectDone p r k).flips = (s.plant r.phys k).flips :=
    (congrArg State.flips ends).trans rfl
  obtain ⟨hlength, hnodup, hcode⟩ := plantedBits r.phys k
  refine ⟨s.injectDone p r k, exec_injectCompletion hf, ?_, ?_, ?_, fun phys word h => ?_, ?_⟩
  · rw [State.flipsIn_of_flips flips, State.flipsIn_plant_same, hlength]
  · rw [State.flipsIn_of_flips flips, State.flipsIn_plant_same]
    exact hnodup
  · rw [State.flipsIn_of_flips flips, State.flipsIn_plant_same]
    exact hcode
  · rw [State.flipsIn_of_flips flips, State.flipsIn_plant_ne s k h]
  · rw [flips]
    exact ends

end Sys2Proof.Machine


/-! PROOFS. The end of the work that a teardown awaits (R195): O26. -/

namespace Sys2Proof.Machine

/-! ### The access awaited -/

/-- What the end of the access awaited leaves of its port's PCU (R195). -/
def Pcu.accessLeft (u : Pcu) : Pcu :=
  { u with accessAwaited := false, state := if u.jobsAwaited = 0 then .ready else .teardown }

section Awaited

variable {s u : State} {p : Port} (hs : (s.pcu p).state = .teardown)
  (ha : (s.pcu p).accessAwaited = true) (hq : (s.pcu p).queue = [])
include hs ha

theorem State.Handles.endAccess_awaited (h : s.Handles u) (k : CommandKind) (o : OutcomeCode) (e : Extra) :
    u.endFlight.endAccess p k o e =
      State.setPcu { u with inFlight := none, draw := s.draw + 1 } p (s.pcu p).accessLeft := by
  have same : u.endFlight.pcu p = s.pcu p := h.idle p (by rw [hs]; exact PortState.noConfusion)
  rw [State.endAccess_awaited (by rw [same, hs]) (by rw [same, ha]), same, h.endFlight]
  rfl

/-- An awaited access makes no touch, its port holding no window (R195). -/
theorem State.Handles.endAccess_awaited_touchIf (h : s.Handles u)
    (hc : ∀ i w, s.window? i = some w → w.holds p = false) (k : CommandKind) (o : OutcomeCode) (e : Extra)
    (good : Bool) (i : Nat) : (u.endFlight.endAccess p k o e).touchIf good p i =
      State.setPcu { u with inFlight := none, draw := s.draw + 1 } p (s.pcu p).accessLeft := by
  rw [h.endAccess_awaited hs ha]
  unfold State.touchIf
  split
  · refine State.touch_of_no_claim (fun j v hv => ?_) i
    have hw : ∃ w, s.window? j = some w := by
      refine Option.ne_none_iff_exists'.1 fun hn => ?_
      have hv' : u.window? j = some v := hv
      rw [(h.mends.absent j).2 hn] at hv'
      cases hv'
    obtain ⟨w, hw⟩ := hw
    have same : w.SameButFaults v := h.mends.present j w v hw hv
    have holders : v.holders = w.holders := (congrArg Window.holders same).trans rfl
    rw [Window.holds, holders]
    exact hc j w hw
  · rfl

omit hs ha in
include hq in
theorem takeIfDue_accessLeft (t : State) : takeIfDue s (t.setPcu p (s.pcu p).accessLeft) p =
    t.setPcu p (s.pcu p).accessLeft :=
  takeIfDue_of_empty s (by rw [State.pcu_setPcu_same]; exact hq)

end Awaited

/-! ### The last step of an awaited job -/

/-- A step's row hands its lines' part to its channel (R142, R143). -/
theorem exec_fillStepCompletion {s : State} {c : Channel} {dest : LineRef} {first n : Nat} {pat : Byte}
    (hf : s.inFlight = some ⟨.slot (.channel c), .fillStep dest first n pat⟩) :
    exec .fillStepCompletion s = .next ((s.fillLines dest first n pat).1.endFlight.stepDone c n
      (s.fillLines dest first n pat).2) := by
  show execFillStepCompletion s = _
  unfold execFillStepCompletion
  rw [hf]

theorem exec_copyStepCompletion {s : State} {c : Channel} {source : List LineRef} {dest : LineRef}
    {sourceFirst first n : Nat}
    (hf : s.inFlight = some ⟨.slot (.channel c), .copyStep source sourceFirst dest first n⟩) :
    exec .copyStepCompletion s = .next ((s.copyLines source sourceFirst dest first n).1.endFlight.stepDone
      c n (s.copyLines source sourceFirst dest first n).2) := by
  show execCopyStepCompletion s = _
  unfold execCopyStepCompletion
  rw [hf]

theorem State.Handles.job {s u : State} (h : s.Handles u) (c : Channel) : u.endFlight.job c = s.job c :=
  (h.mends.job c).symm ▸ by cases c <;> rfl

/-- The step of an ENDING job that reports DISCARD only lowers its owner's teardown record (R145, R195). -/
theorem State.stepDone_discarded {s : State} {c : Channel} {j : Job} {o : OutcomeCode}
    (hj : s.job c = some j) (hk : j.kind ≠ .wipe) (hd : j.deliver = false) (hs : j.state = .ending o)
    (n : Nat) (good : Bool) :
    (s.stepDone c n good).job c = none ∧ (s.stepDone c n good).inFlight = s.inFlight ∧
      (∀ q, q ≠ j.owner → (s.stepDone c n good).pcu q = s.pcu q) ∧
      (s.stepDone c n good).pcu j.owner =
        ({ s.pcu j.owner with jobsAwaited := (s.pcu j.owner).jobsAwaited - 1 } : Pcu).endTeardown := by
  obtain ⟨k, t, hend, hjob, hpcu, ho, hd', hk', hflight⟩ : ∃ k t,
      (∃ o, s.stepDone c n good = State.endJob t c o) ∧ t.job c = some k ∧ (∀ q, t.pcu q = s.pcu q) ∧
        k.owner = j.owner ∧ k.deliver = false ∧ k.kind ≠ .wipe ∧ t.inFlight = s.inFlight := by
    rw [State.stepDone_ending hj hs]
    cases good with
    | true =>
      refine ⟨{ j with bytesDone := j.bytesDone + n }, _, ⟨_, rfl⟩, ?_, fun q => ?_, rfl, hd, hk, ?_⟩
      · exact (State.job_touchStep ..).trans (State.job_setJob_same ..)
      · exact (State.pcu_touchStep ..).trans (State.pcu_setJob ..)
      · rw [State.touchStep_eq]
        exact State.inFlight_setJob ..
    | false =>
      exact ⟨j, _, ⟨_, rfl⟩, State.job_setJob_same .., fun q => State.pcu_setJob .., rfl, hd, hk,
        State.inFlight_setJob ..⟩
  obtain ⟨o', hend⟩ := hend
  rw [hend]
  refine ⟨by rw [State.job_endJob, if_pos rfl], (State.inFlight_endJob ..).trans hflight, fun q hq => ?_, ?_⟩
  · rw [State.endJob_discard hjob hd' hk', State.pcu_setPcu_ne _ _ (ho ▸ hq), State.pcu_setJob, hpcu]
  · rw [State.endJob_discard hjob hd' hk', ← ho, State.pcu_setPcu_same, hpcu]

/-- What a completed step of an awaited job leaves (R146, R195). -/
theorem awaitedStep {s u : State} {c : Channel} {j : Job} {o : OutcomeCode} (h : s.Handles u)
    (hj : s.job c = some j) (hk : j.kind ≠ .wipe) (hd : j.deliver = false) (hs : j.state = .ending o)
    (ht : (s.pcu j.owner).state = .teardown) (n : Nat) (good : Bool) :
    (u.endFlight.stepDone c n good).job c = none ∧ (u.endFlight.stepDone c n good).inFlight = none ∧
      (u.endFlight.stepDone c n good).pcu j.owner =
        { s.pcu j.owner with
          jobsAwaited := (s.pcu j.owner).jobsAwaited - 1
          state :=
            if (s.pcu j.owner).accessAwaited = false ∧ (s.pcu j.owner).jobsAwaited ≤ 1
            then .ready else .teardown } ∧
      ∀ q, ((u.endFlight.stepDone c n good).pcu q).completions = (s.pcu q).completions ∧
        ((u.endFlight.stepDone c n good).pcu q).reservations = (s.pcu q).reservations ∧
        ((u.endFlight.stepDone c n good).pcu q).outstanding = (s.pcu q).outstanding := by
  obtain ⟨hjob, hflight, hother, howner⟩ :=
    State.stepDone_discarded ((h.job c).trans hj) hk hd hs n good
  have same : u.endFlight.pcu j.owner = s.pcu j.owner := h.idle _ (by rw [ht]; exact PortState.noConfusion)
  have own : (u.endFlight.stepDone c n good).pcu j.owner =
      { s.pcu j.owner with
        jobsAwaited := (s.pcu j.owner).jobsAwaited - 1
        state :=
          if (s.pcu j.owner).accessAwaited = false ∧ (s.pcu j.owner).jobsAwaited ≤ 1
          then .ready else .teardown } := by
    rw [howner, same, Pcu.endTeardown_lowered]
    simp only [ht, true_and]
  refine ⟨hjob, hflight, own, fun q => ?_⟩
  by_cases hq : q = j.owner
  · rw [hq, own]
    exact ⟨rfl, rfl, rfl⟩
  · obtain ⟨hcompletions, -, -, -, houtstanding, hreservations, -⟩ := h.work q
    rw [hother q hq]
    exact ⟨hcompletions, hreservations, houtstanding⟩

/-- Settles O26: the three accesses and the two steps, each after its lines were handled. -/
theorem awaitedWorkEnds : Obligations.AwaitedWorkEnds := by
  refine ⟨fun s p v hs ha hq hc hv => ?_, fun s c work j o row hf hrow hj hk hd hst ht => ?_⟩
  · have left : v = (s.pcu p).accessLeft := hv
    subst left
    refine ⟨fun i lines first n hf => ?_, fun i lines first data hf hl => ⟨fun hn u hu => ?_, fun hm h => ?_⟩,
      fun r k hf => ?_⟩
    · have handles := State.Handles.handlesLines s lines (fun _ => none)
      have done : s.readDone p i lines first n = State.setPcu
          { s.handlesLines lines (fun _ => none) with inFlight := none, draw := s.draw + 1 } p
          (s.pcu p).accessLeft := by
        rw [State.readDone, ← State.handlesLines_eq]
        exact handles.endAccess_awaited_touchIf hs ha hc ..
      rw [exec_readCompletion hf, done, takeIfDue_accessLeft hq]
    · have merged := hu.writeLines hn
      have handles : s.Handles u := by
        have := State.Handles.writeLines s lines first data
        rwa [merged] at this
      have done : s.writeDone p i lines first data =
          State.setPcu { u with inFlight := none, draw := s.draw + 1 } p (s.pcu p).accessLeft := by
        rw [State.writeDone, merged]
        exact handles.endAccess_awaited_touchIf hs ha hc ..
      rw [exec_writeCompletion hf, done, takeIfDue_accessLeft hq]
    · obtain ⟨x, hx, stores⟩ := State.writeLines_stores hm hl h
      have handles : s.Handles x := by
        have := State.Handles.writeLines s lines first data
        rwa [hx] at this
      have done : s.writeDone p i lines first data =
          State.setPcu { x with inFlight := none, draw := s.draw + 1 } p (s.pcu p).accessLeft := by
        rw [State.writeDone, hx]
        exact handles.endAccess_awaited_touchIf hs ha hc ..
      refine ⟨State.setPcu { x with inFlight := none, draw := s.draw + 1 } p (s.pcu p).accessLeft,
        by rw [exec_writeCompletion hf, done, takeIfDue_accessLeft hq], ?_, stores.stored, stores.kept⟩
      conv_lhs => rw [stores.frame]
      rfl
    · have done : s.injectDone p r k = State.setPcu
          { s with inFlight := none, draw := s.draw + 1, flips := (s.plant r.phys k).flips } p
          (s.pcu p).accessLeft :=
        (State.endAccess_awaited (s := (s.plant r.phys k).endFlight) hs ha ..).trans rfl
      have flips : (s.injectDone p r k).flips = (s.plant r.phys k).flips :=
        (congrArg State.flips done).trans rfl
      obtain ⟨hlength, -, hcode⟩ := plantedBits r.phys k
      refine ⟨s.injectDone p r k, ?_, flips ▸ done, ?_, ?_, fun phys word h => ?_⟩
      · rw [exec_injectCompletion hf, done, takeIfDue_accessLeft hq]
      · rw [State.flipsIn_of_flips flips, State.flipsIn_plant_same, hlength]
      · rw [State.flipsIn_of_flips flips, State.flipsIn_plant_same]
        exact hcode
      · rw [State.flipsIn_of_flips flips, State.flipsIn_plant_ne s k h]
  · rcases hrow with ⟨dest, first, n, pat, rfl, rfl⟩ | ⟨source, sf, dest, first, n, rfl, rfl⟩
    · exact ⟨_, exec_fillStepCompletion hf, awaitedStep (.fillLines ..) hj hk hd hst ht ..⟩
    · exact ⟨_, exec_copyStepCompletion hf, awaitedStep (.copyLines ..) hj hk hd hst ht ..⟩

end Sys2Proof.Machine


/-! PROOFS. What the completion of a COPY or FILL step leaves, its lines handled (R144 to R146). -/

namespace Sys2Proof.Machine

/-! ### The touches -/

/-- A window without its fault counts, which no touch reads. -/
def Window.unfaulted (w : Window) : Window := { w with faults := ⟨0, 0, 0⟩ }

/-- Two states whose windows differ in their fault counts alone, at the same tick. -/
structure State.SameTerms (s u : State) : Prop where
  msCount : u.msCount = s.msCount
  window : ∀ i, (u.window? i).map Window.unfaulted = (s.window? i).map Window.unfaulted

theorem State.Mends.sameTerms {s u : State} (h : s.Mends u) : s.SameTerms u where
  msCount := h.msCount
  window i := by
    cases hs : s.window? i with
    | none => rw [(h.absent i).2 hs]
    | some w =>
      obtain ⟨v, hv⟩ := Option.ne_none_iff_exists'.1
        (mt (h.absent i).1 (by rw [hs]; exact Option.some_ne_none _))
      have same : v = { w with faults := v.faults } := h.present i w v hs hv
      rw [hv, same]
      rfl

theorem State.SameTerms.touch {s u : State} (h : s.SameTerms u) (p : Port) (i : Nat) :
    (s.touch p i).SameTerms (u.touch p i) where
  msCount := by
    rw [State.touch_eq, State.touch_eq s]
    exact h.msCount
  window k := by
    rw [State.window?_touch, State.window?_touch]
    split
    · have same := h.window i
      cases hu : u.window? i with
      | none =>
        rw [hu] at same
        rw [Option.map_eq_none_iff.1 same.symm]
        rfl
      | some v =>
        rw [hu] at same
        obtain ⟨w, hw, hvw⟩ := Option.map_eq_some_iff.1 same.symm
        have fields : v = { w with faults := v.faults } :=
          (congrArg (fun x : Window => { x with faults := v.faults }) hvw).symm
        have holds : v.holds p = w.holds p := by rw [fields]; rfl
        rw [hw, h.msCount, Option.map_some, Option.map_some, Option.map_some, Option.map_some, holds]
        split
        · rw [fields]
          rfl
        · rw [hvw]
    · exact h.window k

theorem State.SameTerms.sameHolders {s u : State} (h : s.SameTerms u) : SameHolders s u := fun i => by
  have same := congrArg (Option.map Window.holders) (h.window i)
  rwa [Option.map_map, Option.map_map] at same

theorem State.SameTerms.touchStep {s u : State} (h : s.SameTerms u) (j : Job) :
    (s.touchStep j).SameTerms (u.touchStep j) := by
  unfold State.touchStep
  cases j.source with
  | none => exact h.touch ..
  | some x => exact (h.touch ..).touch ..

/-! ### The job -/

/-- The end of a job that reports: its channel is free and its completion joins its owner's (R146). -/
structure State.EndsJob (s t : State) (c : Channel) (j : Job) (o : OutcomeCode) (n : Nat) : Prop where
  job : t.job c = none
  other : ∀ q, q ≠ j.owner → t.pcu q = s.pcu q
  owner : t.pcu j.owner = (s.pcu j.owner).complete ⟨j.tag, j.kind.command, o, .count n⟩

theorem State.EndsJob.endJob {s x : State} {c : Channel} {j : Job} {n : Nat} (hd : j.deliver = true)
    (hx : x.job c = some { j with bytesDone := n }) (hp : ∀ q, x.pcu q = s.pcu q) (o : OutcomeCode) :
    s.EndsJob (x.endJob c o) c j o n := by
  obtain ⟨hjob, hother, howner⟩ := State.endJob_reports hx hd o
  exact ⟨hjob, fun q hq => (hother q hq).trans (hp q), howner.trans (by rw [← hp])⟩

section StepDone

variable {s : State} {c : Channel} {j : Job} (hj : s.job c = some j) (n : Nat)
include hj

/-- A step that completed OK before its job ended or was finished: the next one is presented (R144). -/
theorem State.stepDone_next (hr : j.state = .running) (hn : j.bytesDone + n < j.total) :
    (s.stepDone c n true).job c = some { j with bytesDone := j.bytesDone + n } ∧
      ∀ q, (s.stepDone c n true).pcu q = s.pcu q := by
  rw [State.stepDone_goes_on hj hr hn]
  exact ⟨(State.job_touchStep ..).trans (State.job_setJob_same ..),
    fun q => (State.pcu_touchStep ..).trans (State.pcu_setJob ..)⟩

variable (hd : j.deliver = true)
include hd

theorem State.stepDone_finished (hr : j.state = .running) (hn : j.total ≤ j.bytesDone + n) :
    s.EndsJob (s.stepDone c n true) c j .ok (j.bytesDone + n) := by
  rw [State.stepDone_ends hj hr hn]
  exact .endJob hd ((State.job_touchStep ..).trans (State.job_setJob_same ..))
    (fun q => (State.pcu_touchStep ..).trans (State.pcu_setJob ..)) _

theorem State.stepDone_unreadable (hr : j.state = .running) :
    s.EndsJob (s.stepDone c n false) c j .dataLost j.bytesDone := by
  rw [State.stepDone_lost hj hr]
  exact .endJob hd (State.job_setJob_same ..) (fun q => State.pcu_setJob ..) _

theorem State.stepDone_ending_good {o : OutcomeCode} (hs : j.state = .ending o) :
    s.EndsJob (s.stepDone c n true) c j
      (endingOutcome o true (decide (j.total ≤ j.bytesDone + n))) (j.bytesDone + n) := by
  rw [State.stepDone_ending hj hs]
  exact .endJob hd ((State.job_touchStep ..).trans (State.job_setJob_same ..))
    (fun q => (State.pcu_touchStep ..).trans (State.pcu_setJob ..)) _

theorem State.stepDone_ending_unreadable {o : OutcomeCode} (hs : j.state = .ending o) :
    s.EndsJob (s.stepDone c n false) c j o j.bytesDone := by
  have outcome : endingOutcome o false (decide (j.total ≤ j.bytesDone)) = o :=
    if_neg (fun h => Bool.false_ne_true h.2.1)
  have ending : s.stepDone c n false =
      (s.setJob c (some j)).endJob c (endingOutcome o false (decide (j.total ≤ j.bytesDone))) :=
    State.stepDone_ending hj hs n false
  rw [outcome] at ending
  rw [ending]
  exact .endJob hd (State.job_setJob_same ..) (fun q => State.pcu_setJob ..) _

/-- What a completed step makes of a job that reports (R144, R145). -/
theorem State.stepDone_settles (hn : j.bytesDone + n ≤ j.total) (good : Bool) :
    StepSettles s (s.stepDone c n good) c j n (good = true) := by
  have ended {t : State} {o : OutcomeCode} {m : Nat} (h : s.EndsJob t c j o m) :
      t.job c = none ∧
        (t.pcu j.owner).completions =
          (s.pcu j.owner).completions ++ [⟨j.tag, j.kind.command, o, .count m⟩] ∧
        (t.pcu j.owner).reservations = (s.pcu j.owner).reservations - 1 ∧
        (t.pcu j.owner).outstanding = (s.pcu j.owner).outstanding.erase j.tag := by
    rw [h.owner]
    exact ⟨h.job, rfl, rfl, rfl⟩
  have rest : (∀ q, q ≠ j.owner → (s.stepDone c n good).pcu q = s.pcu q) ∧
      ((s.stepDone c n good).pcu j.owner).state = (s.pcu j.owner).state ∧
      ((s.stepDone c n good).pcu j.owner).jobsAwaited = (s.pcu j.owner).jobsAwaited := by
    have ends {o : OutcomeCode} {m : Nat} (h : s.EndsJob (s.stepDone c n good) c j o m) :=
      show (∀ q, q ≠ j.owner → (s.stepDone c n good).pcu q = s.pcu q) ∧
          ((s.stepDone c n good).pcu j.owner).state = (s.pcu j.owner).state ∧
          ((s.stepDone c n good).pcu j.owner).jobsAwaited = (s.pcu j.owner).jobsAwaited from
        ⟨h.other, by rw [h.owner]; rfl, by rw [h.owner]; rfl⟩
    cases hs : j.state with
    | running =>
      cases good with
      | true =>
        rcases Nat.lt_or_eq_of_le hn with hlt | heq
        · obtain ⟨-, hpcu⟩ := State.stepDone_next hj n hs hlt
          exact ⟨fun q _ => hpcu q, by rw [hpcu], by rw [hpcu]⟩
        · exact ends (State.stepDone_finished hj n hd hs heq.ge)
      | false => exact ends (State.stepDone_unreadable hj n hd hs)
    | ending o =>
      cases good with
      | true => exact ends (State.stepDone_ending_good hj n hd hs)
      | false => exact ends (State.stepDone_ending_unreadable hj n hd hs)
  obtain ⟨hother, hown⟩ := rest
  refine ⟨fun q hq => congrArg Pcu.completions (hother q hq), hown, fun hr hg hlt => ?_, fun hr hg heq => ?_,
    fun hr hg => ?_, fun o hs => ⟨fun hg ho heq => ?_, fun hg h => ?_, fun hg => ?_⟩⟩
  · subst hg
    obtain ⟨hjob, hpcu⟩ := State.stepDone_next hj n hr hlt
    rw [hpcu]
    exact ⟨hjob, rfl, rfl, rfl⟩
  · subst hg
    exact heq ▸ ended (State.stepDone_finished hj n hd hr heq.ge)
  · rw [Bool.not_eq_true] at hg
    subst hg
    exact ended (State.stepDone_unreadable hj n hd hr)
  · subst hg
    have finished := State.stepDone_ending_good hj n hd hs
    rw [endingOutcome, if_pos ⟨ho, rfl, by rw [heq]; exact decide_eq_true (Nat.le_refl _)⟩, heq] at finished
    exact ended finished
  · subst hg
    have stopped := State.stepDone_ending_good hj n hd hs
    rw [endingOutcome, if_neg] at stopped
    · exact ended stopped
    · rintro ⟨ho, -, hfin⟩
      have := of_decide_eq_true hfin
      exact h.elim (fun hne => hne ho) (fun hlt => absurd hlt (by omega))
  · rw [Bool.not_eq_true] at hg
    subst hg
    exact ended (State.stepDone_ending_unreadable hj n hd hs)

end StepDone

/-- What a step settles reads of the state before it only the work of its PCUs. -/
theorem StepSettles.congr {s u t : State} {c : Channel} {j : Job} {n : Nat} {p q : Prop}
    (h : StepSettles u t c j n p) (k : ∀ q, (s.pcu q).SameWork (u.pcu q)) (e : q ↔ p) :
    StepSettles s t c j n q := by
  obtain rfl : q = p := propext e
  obtain ⟨hcompletions, -, -, -, houtstanding, hreservations, hstate, hawaited⟩ := k j.owner
  have other (q : Port) : (u.pcu q).completions = (s.pcu q).completions := (k q).1
  unfold StepSettles at h ⊢
  simp only [other, houtstanding, hreservations, hstate, hawaited] at h
  exact h

/-! ### A completed step, its lines handled -/

section Completed

variable {s u : State} {c : Channel} {j : Job} (h : s.Handles u) (hj : s.job c = some j) (n : Nat)
  (good : Bool)

theorem State.inFlight_completed : (u.endFlight.stepDone c n good).inFlight = none :=
  State.inFlight_stepDone ..

include h hj

theorem State.Handles.leaves : SameIntegrity u (u.endFlight.stepDone c n good) ∧
    (u.endFlight.stepDone c n good).windows = (if good then u.touchStep j else u).windows := by
  obtain ⟨same, -, windows⟩ := State.stepDone_leaves ((h.job c).trans hj) n good
  refine ⟨same, windows.trans ?_⟩
  cases good with
  | true => exact State.windows_touchStep_congr (s := u.endFlight) (t := u) rfl rfl j
  | false => rfl

theorem State.Handles.settles (hd : j.deliver = true) (hn : j.bytesDone + n ≤ j.total) {p : Prop}
    (e : p ↔ good = true) : StepSettles s (u.endFlight.stepDone c n good) c j n p :=
  (State.stepDone_settles ((h.job c).trans hj) n hd hn good).congr h.work e

omit hj in
theorem State.Handles.outsideStep : SameOutsideStep s (u.endFlight.stepDone c n good) c :=
  ((SameOutsideStep.mends h.mends c).trans (t := u)
    (u := u.endFlight) ⟨fun d _ => by cases d <;> rfl, (SameOutsideStep.refl u c).2⟩).trans (.stepDone ..)

theorem State.Handles.pcusBut : SamePcusBut u (u.endFlight.stepDone c n good) j.owner :=
  SamePcusBut.stepDone ((h.job c).trans hj) n good

theorem State.Handles.windowsBut : SameWindowsButHolders u (u.endFlight.stepDone c n good) :=
  SameWindowsButHolders.stepDone ((h.job c).trans hj) n good

theorem State.Handles.touched : SameHolders (s.touchStep j) (u.endFlight.stepDone c n true) := fun i => by
  rw [State.window?_of_windows (h.leaves hj n true).2]
  exact (h.mends.sameTerms.touchStep j).sameHolders i

theorem State.Handles.untouched : SameHolders s (u.endFlight.stepDone c n false) := fun i => by
  rw [State.window?_of_windows (h.leaves hj n false).2]
  exact h.mends.sameHolders i

end Completed

end Sys2Proof.Machine


/-! PROOFS. The completion of a FILL step (R143 to R146): O42. -/

namespace Sys2Proof.Machine

/-! ### The array's part -/

/-- The bytes that a FILL step leaves in a line it covers in part (R143). -/
def State.filled (s : State) (dest : LineRef) (first n : Nat) (pat : Byte) : List Byte :=
  (s.lineBytes dest.phys).take first ++ List.replicate n pat ++ (s.lineBytes dest.phys).drop (first + n)

section Fill

variable (s : State) (dest : LineRef) {first n : Nat} (pat : Byte)

theorem State.fillLines_whole (hf : first + n ≤ 64) (hn : n = 64) :
    s.fillLines dest first n pat = (s.overwriteLine dest (List.replicate n pat), true) :=
  if_pos ⟨by omega, hn⟩

theorem State.fillLines_part (hn : n < 64) : s.fillLines dest first n pat =
    (s.handleRead ⟨dest, s.lineClass dest.phys, s.lineBytes dest.phys⟩
      (if s.lineClass dest.phys = .uncorrectable then none else some (s.filled dest first n pat)),
      decide (s.lineClass dest.phys ≠ .uncorrectable)) := by
  have whole : ¬ (first = 0 ∧ n = 64) := fun h => absurd h.2 (Nat.ne_of_lt hn)
  have good : readsGood [s.readLine dest] = decide (s.lineClass dest.phys ≠ .uncorrectable) := by
    rw [Bool.eq_iff_iff, decide_eq_true_iff]
    simpa using s.readsGood_iff [dest]
  unfold State.fillLines
  rw [if_neg whole]
  dsimp only
  rw [good]
  congr 1
  show s.handleRead (s.readLine dest) _ = _
  congr 1
  rw [State.filled, splice, List.length_replicate]
  by_cases h : s.lineClass dest.phys = .uncorrectable
  · rw [if_pos h, if_neg (by simpa using h)]
  · rw [if_neg h, if_pos (by simpa using h)]
    rfl

theorem State.fillLines_readable (hf : first + n ≤ 64) : (s.fillLines dest first n pat).2 = true ↔
    n = 64 ∨ s.lineClass dest.phys ≠ .uncorrectable := by
  rcases Nat.lt_or_eq_of_le (show n ≤ 64 by omega) with hn | hn
  · rw [State.fillLines_part s dest pat hn, decide_eq_true_iff]
    exact ⟨.inr, fun h => h.resolve_left (Nat.ne_of_lt hn)⟩
  · rw [State.fillLines_whole s dest pat hf hn]
    exact iff_of_true rfl (.inl hn)

variable {s dest}

theorem getD_filled (hc : s.lineClass dest.phys = .clean) (hf : first + n ≤ 64) {i : Nat} (hi : i < 64) :
    (s.filled dest first n pat).getD i 0#8 =
      if first ≤ i ∧ i < first + n then pat else Memory.read s.mem (64 * dest.phys + i) := by
  have fits : first + (List.replicate n pat).length ≤ (s.lineBytes dest.phys).length := by
    rw [List.length_replicate, State.length_lineBytes]
    exact hf
  have spliced := getD_splice (s.lineBytes dest.phys) (List.replicate n pat) first i fits
  rw [splice, List.length_replicate, State.getD_lineBytes hc hi] at spliced
  rw [State.filled, spliced]
  split
  · rw [List.getD_replicate]
    omega
  · rfl

/-- What a FILL step stores in a line it covers whole, or in a clean line (R110, R122, R143). -/
theorem State.fillLines_stores (hm : Memory.wf s.mem = true) (hf : first + n ≤ 64)
    (h : n = 64 ∨ s.lineClass dest.phys = .clean) : ∃ u, s.fillLines dest first n pat = (u, true) ∧
      u = { s with mem := u.mem, flips := u.flips, poisoned := u.poisoned } ∧
      (∀ b, Memory.read u.mem b =
        if 64 * dest.phys + first ≤ b ∧ b < 64 * dest.phys + first + n then pat
        else Memory.read s.mem b) ∧
      u.flips = s.flips.filter (fun f => f.phys != dest.phys) ∧
      u.poisoned = if n = 64 then s.poisoned.filter (fun l => l != dest.line) else s.poisoned := by
  rcases Nat.lt_or_eq_of_le (show n ≤ 64 by omega) with hn | hn
  · have hc := h.resolve_left (Nat.ne_of_lt hn)
    have part : s.fillLines dest first n pat = (s.writeLine dest.phys (s.filled dest first n pat), true) := by
      rw [State.fillLines_part s dest pat hn, hc]
      rfl
    refine ⟨_, part, rfl, fun b => ?_, rfl, (if_neg (Nat.ne_of_lt hn)).symm⟩
    have size : (s.filled dest first n pat).length = 64 := by
      simp only [State.filled, List.length_append, List.length_take, List.length_replicate, List.length_drop,
        State.length_lineBytes]
      omega
    rw [State.read_writeLine hm, size]
    by_cases hb : 64 * dest.phys ≤ b ∧ b < 64 * dest.phys + 64
    · obtain ⟨i, rfl⟩ := Nat.exists_eq_add_of_le hb.1
      rw [if_pos hb, Nat.add_sub_cancel_left, getD_filled pat hc hf (by omega)]
      exact if_congr (by omega) rfl rfl
    · rw [if_neg hb, if_neg (by omega)]
  · refine ⟨_, State.fillLines_whole s dest pat hf hn, rfl, fun b => ?_, rfl, (if_pos hn).symm⟩
    rw [State.read_overwriteLine hm, List.length_replicate]
    by_cases hb : 64 * dest.phys + first ≤ b ∧ b < 64 * dest.phys + first + n
    · rw [if_pos hb, if_pos (by omega), List.getD_replicate]
      omega
    · rw [if_neg hb, if_neg (by omega)]

end Fill

/-! ### The completion -/

theorem State.touchStep_of_no_source (s : State) {j : Job} (h : j.source = none) :
    s.touchStep j = s.touch j.owner j.dest.window := by
  unfold State.touchStep
  rw [h]

/-- A step that completed OK on an array's part that changed the array alone, its job RUNNING (R144). -/
theorem State.stepDone_of_stores {s u : State} {c : Channel} {j : Job}
    (h : u = { s with mem := u.mem, flips := u.flips, poisoned := u.poisoned }) (hj : s.job c = some j)
    (hr : j.state = .running) (hd : j.deliver = true) (n : Nat) :
    (j.bytesDone + n < j.total → (u.endFlight.stepDone c n true).job c =
        some { j with bytesDone := j.bytesDone + n } ∧ (u.endFlight.stepDone c n true).pcus = s.pcus) ∧
      (j.bytesDone + n = j.total → (u.endFlight.stepDone c n true).job c = none ∧
        ((u.endFlight.stepDone c n true).pcu j.owner).completions =
          (s.pcu j.owner).completions ++ [⟨j.tag, j.kind.command, .ok, .count j.total⟩]) := by
  have pcus : u.pcus = s.pcus := (congrArg State.pcus h).trans rfl
  have job : u.endFlight.job c = some j := by
    rw [← hj, h]
    cases c <;> rfl
  refine ⟨fun hn => ?_, fun hn => ?_⟩
  · obtain ⟨hjob, hpcu⟩ := State.stepDone_next job n hr hn
    exact ⟨hjob, (PerPort.ext_get hpcu).trans pcus⟩
  · have ended := State.stepDone_finished job n hd hr hn.ge
    refine ⟨ended.job, ?_⟩
    have same : u.pcu j.owner = s.pcu j.owner := congrArg (·.get j.owner) pcus
    rw [ended.owner, hn, ← same]
    rfl

/-- Settles O42: the step that stores its run, and any step after its line was handled. -/
theorem fillStepStoresThePatternOrEndsTheJob : Obligations.FillStepStoresThePatternOrEndsTheJob := by
  refine ⟨fun s c dest first n pat j hm hf hj hr hsrc hd hfit h htot => ?_,
    fun s c dest first n pat j hm hf hj hsrc hfit htot => ?_⟩
  · obtain ⟨u, part, frame, bytes, flips, poisoned⟩ := State.fillLines_stores pat hm hfit h
    have handles : s.Handles u := by
      have := State.Handles.fillLines s dest first n pat
      rwa [part] at this
    obtain ⟨⟨same, -⟩, windows⟩ := handles.leaves hj n true
    obtain ⟨hread, hflips, hpoisoned, -⟩ := same
    obtain ⟨goesOn, ends⟩ := State.stepDone_of_stores frame hj hr hd n
    refine ⟨_, by rw [exec_fillStepCompletion hf, part], State.inFlight_completed .., fun b => ?_,
      hflips.trans flips, hpoisoned.trans poisoned, ?_, goesOn, ends⟩
    · rw [hread, bytes]
    · rw [windows, if_pos rfl, State.touchStep_of_no_source _ hsrc]
      have hw : u.windows = s.windows := (congrArg State.windows frame).trans rfl
      have hms : u.msCount = s.msCount := (congrArg State.msCount frame).trans rfl
      exact State.windows_touch_congr hw hms ..
  · have readable := State.fillLines_readable s dest pat hfit (n := n)
    have handles := State.Handles.fillLines s dest first n pat
    generalize hgood : (s.fillLines dest first n pat).2 = good at readable
    have same : SameIntegrity (s.fillLines dest first n pat).1
      ((s.fillLines dest first n pat).1.endFlight.stepDone c n good) := (handles.leaves hj n good).1
    have partly (hn : n < 64) : (s.fillLines dest first n pat).1 =
        s.handleRead ⟨dest, s.lineClass dest.phys, s.lineBytes dest.phys⟩
          (if s.lineClass dest.phys = .uncorrectable then none else some (s.filled dest first n pat)) :=
      congrArg Prod.fst (State.fillLines_part s dest pat hn)
    have holders (h : good = true) := State.touchStep_of_no_source s hsrc ▸ h ▸ handles.touched hj n
    refine ⟨_, by rw [exec_fillStepCompletion hf, hgood], State.inFlight_completed .., fun hn => ?_,
      fun hn hc => ?_, fun hn hc => ?_, fun h => ?_, fun hn hc => ?_,
      fun hd => handles.settles hj n good hd htot readable.symm, handles.outsideStep .., fun u hu => ?_⟩
    · have whole := congrArg Prod.fst (State.fillLines_whole s dest pat hfit hn)
      obtain ⟨⟨hread, hflips, hpoisoned, -⟩, -⟩ := same
      refine ⟨fun b => ?_, hflips.trans (by rw [whole]; rfl), hpoisoned.trans (by rw [whole]; rfl)⟩
      rw [hread, whole, State.read_overwriteLine hm, List.length_replicate, hn]
      split
      · rw [List.getD_replicate]
        omega
      · rfl
    · have merged := (partly hn).trans (congrArg _ (if_neg hc))
      exact (congrArg (SameIntegrity · _) merged).mp same
    · have kept := (partly hn).trans (congrArg _ (if_pos hc))
      refine ⟨(congrArg (SameIntegrity · _) kept).mp same, fun b => ?_⟩
      obtain ⟨⟨hread, -⟩, -⟩ := same
      have mem : (s.poisonLine dest.line).mem = s.mem :=
        (congrArg State.mem (State.poisonLine_eq s dest.line)).trans rfl
      rw [hread, kept, hc]
      exact congrArg (Memory.read · b) mem
    · exact holders (readable.2 h)
    · have bad : good = false := Bool.eq_false_iff.2 fun h =>
        (readable.1 h).elim (Nat.ne_of_lt hn) fun k => k hc
      exact bad ▸ handles.untouched hj n
    · have frame : (∀ q, (s.fillLines dest first n pat).1.pcu q = u.pcu q) ∧
          (s.fillLines dest first n pat).1.windows = u.windows := by
        subst hu
        rcases Nat.lt_or_eq_of_le (show n ≤ 64 by omega) with hn | hn
        · rw [partly hn, if_neg (Nat.ne_of_lt hn)]
          exact ⟨fun _ => rfl, rfl⟩
        · rw [State.fillLines_whole s dest pat hfit hn, if_pos hn]
          exact ⟨fun _ => rfl, rfl⟩
      obtain ⟨hpcu, hwindows⟩ := frame
      exact ⟨(SamePcusBut.of_pcu hpcu _).trans (handles.pcusBut hj n good),
        (SameWindowsButHolders.of_windows hwindows).trans (handles.windowsBut hj n good)⟩

end Sys2Proof.Machine


/-! PROOFS. The completion of a COPY step (R142 to R146): O43. -/

namespace Sys2Proof.Machine

/-! ### The array's part -/

/-- The lines that a COPY step reads (R142). -/
def copyReads (source : List LineRef) (dest : LineRef) (n : Nat) : List LineRef :=
  if n = 64 ∨ dest ∈ source then source else source ++ [dest]

/-- The source bytes of a COPY step, as read and corrected (R142). -/
def State.copyBytes (s : State) (source : List LineRef) (sf n : Nat) : List Byte :=
  ((s.correctedBytes source).drop sf).take n

/-- What a COPY step stores into a line it read (R142). -/
def State.copyMerge (s : State) (dest : LineRef) (first n : Nat) (bytes : List Byte) (r : LineRef) :
    Option (List Byte) :=
  if r = dest then
    some ((s.lineBytes dest.phys).take first ++ bytes ++ (s.lineBytes dest.phys).drop (first + n))
  else none

theorem State.overwriteLine_frame {s u : State}
    (h : u = { s with mem := u.mem, flips := u.flips, poisoned := u.poisoned }) (r : LineRef) (b : List Byte) :
    u.overwriteLine r b =
      { s with
        mem := (u.overwriteLine r b).mem, flips := (u.overwriteLine r b).flips
        poisoned := (u.overwriteLine r b).poisoned } :=
  congrArg (fun x : State =>
    { x with
      mem := (u.overwriteLine r b).mem, flips := (u.overwriteLine r b).flips
      poisoned := (u.overwriteLine r b).poisoned }) h

theorem State.storeLines_memory (s : State) (reads : List LineRef) (merge : LineRef → Option (List Byte)) :
    s.storeLines reads merge = { s with
      mem := (s.storeLines reads merge).mem, flips := (s.storeLines reads merge).flips
      poisoned := (s.storeLines reads merge).poisoned } := by
  have h := s.storeLines_frame reads merge
  rwa [show (s.storeLines reads merge).poisoned = s.poisoned from (congrArg State.poisoned h).trans rfl]

section Copy

variable {s : State} {source : List LineRef} {sf : Nat} {dest : LineRef} {first n : Nat}

theorem State.length_copyBytes (h : sf + n ≤ 64 * source.length) : (s.copyBytes source sf n).length = n := by
  rw [State.copyBytes, List.length_take, List.length_drop, State.length_correctedBytes]
  omega

variable (hl : RunLies source sf n) (hf : first + n ≤ 64)
include hl hf

theorem State.copyLines_eq : s.copyLines source sf dest first n =
    (let good := readsGood ((copyReads source dest n).map s.readLine)
     let u := s.handlesLines (copyReads source dest n)
       (if good then s.copyMerge dest first n (s.copyBytes source sf n) else fun _ => none)
     (if n = 64 ∧ dest ∉ source ∧ good = true then u.overwriteLine dest (s.copyBytes source sf n) else u,
       good)) := by
  obtain ⟨-, hfits⟩ := hl
  have whole : (first == 0 && n == 64) = decide (n = 64) := by
    rw [Bool.eq_iff_iff, Bool.and_eq_true, beq_iff_eq, beq_iff_eq, decide_eq_true_iff]
    omega
  have reads : (if source.contains dest || decide (n = 64) then source.map s.readLine
      else source.map s.readLine ++ [s.readLine dest]) = (copyReads source dest n).map s.readLine := by
    rw [copyReads, apply_ite (List.map s.readLine), List.map_append]
    refine if_congr ?_ rfl rfl
    rw [Bool.or_eq_true, decide_eq_true_iff, List.contains_iff_mem, or_comm]
  unfold State.copyLines
  dsimp only
  rw [whole, reads, State.readBytes_eq, ← State.copyBytes, State.handlesLines_eq]
  generalize readsGood ((copyReads source dest n).map s.readLine) = good
  have merge : (fun r : LineRef => if (good && r == dest) = true then
      some (splice (s.lineBytes dest.phys) first (s.copyBytes source sf n)) else none) =
      if good then s.copyMerge dest first n (s.copyBytes source sf n) else fun _ => none := by
    funext r
    rw [splice, State.length_copyBytes hfits]
    cases good with
    | false => rfl
    | true => exact if_congr (by rw [Bool.true_and, beq_iff_eq]) rfl rfl
  rw [merge, ← apply_ite (fun x : State => (x, good))]
  congr 1
  refine if_congr ?_ rfl rfl
  rw [Bool.and_eq_true, Bool.and_eq_true, decide_eq_true_iff, Bool.not_eq_true', ← Bool.not_eq_true,
    List.contains_iff_mem, and_assoc]

variable (hm : Memory.wf s.mem = true) (hc : ∀ r ∈ source, s.lineClass r.phys = .clean)
  (hd : n = 64 ∨ s.lineClass dest.phys = .clean)
include hm hc hd

omit hl hf hm in
theorem copyReads_clean : ∀ r ∈ copyReads source dest n, s.lineClass r.phys = .clean := fun r hr => by
  unfold copyReads at hr
  split at hr
  · exact hc r hr
  · next h =>
    rcases List.mem_append.1 hr with h' | h'
    · exact hc r h'
    · rw [List.mem_singleton.1 h']
      exact hd.resolve_left fun hn => h (.inl hn)

omit hl hf hm hc hd in
theorem mem_copyReads (h : ¬ (n = 64 ∧ dest ∉ source)) : dest ∈ copyReads source dest n := by
  unfold copyReads
  split
  · next k => exact k.elim (fun hn => not_not.1 fun out => h ⟨hn, out⟩) id
  · exact List.mem_append_right _ (List.mem_singleton_self _)

omit hf hm hc hd in
theorem copyReads_phys_nodup (hs : dest ∈ source ∨ ∀ r ∈ source, r.phys ≠ dest.phys) :
    ((copyReads source dest n).map LineRef.phys).Nodup := by
  obtain ⟨hnodup, -⟩ := hl
  unfold copyReads
  split
  · exact hnodup
  · next h =>
    rw [List.map_append, List.nodup_append]
    refine ⟨hnodup, List.nodup_singleton _, fun a ha b hb => ?_⟩
    obtain ⟨r, hr, rfl⟩ := List.mem_map.1 ha
    rw [List.mem_singleton.1 hb]
    exact hs.resolve_left (fun k => h (.inr k)) r hr

omit hf hm hd in
/-- The bytes that a COPY step moves are the memory's (R142). -/
theorem State.getD_copyBytes {k : Nat} (hk : k < n) :
    (s.copyBytes source sf n).getD k 0#8 = Memory.read s.mem (runAddress source (sf + k)) := by
  obtain ⟨-, hfits⟩ := hl
  rw [State.copyBytes, ← State.readBytes_eq, State.run_readBytes hc hfits, List.getD_eq_getElem?_getD]
  simp [hk]

omit hl hf hm hc hd in
theorem State.copyMerge_of_phys_ne {bytes : List Byte} {r : LineRef} (h : r.phys ≠ dest.phys) :
    s.copyMerge dest first n bytes r = none :=
  if_neg fun e => h (congrArg LineRef.phys e)

omit hl hm hc hd in
theorem State.length_of_copyMerge {bytes : List Byte} (size : bytes.length = n) {r : LineRef} {b : List Byte}
    (h : s.copyMerge dest first n bytes r = some b) : b.length = 64 := by
  unfold State.copyMerge at h
  split at h
  · cases h
    simp only [List.length_append, List.length_take, List.length_drop, State.length_lineBytes, size]
    omega
  · cases h

omit hm in
/-- A COPY step whose lines are clean: the merging write, and the whole line that was not read. -/
theorem State.copyLines_of_clean : s.copyLines source sf dest first n =
    (let u := s.storeLines (copyReads source dest n) (s.copyMerge dest first n (s.copyBytes source sf n))
     if n = 64 ∧ dest ∉ source then u.overwriteLine dest (s.copyBytes source sf n) else u, true) := by
  have clean := copyReads_clean hc hd
  have good : readsGood ((copyReads source dest n).map s.readLine) = true :=
    (allReadable_iff ..).1 (allReadable_of_clean clean)
  rw [State.copyLines_eq hl hf, good]
  simp only [and_true, if_true]
  rw [State.handlesLines_eq, State.handleReads_eq_storeLines clean]

omit hl hm hc hd in
/-- What a merging write leaves in the destination line: the bytes moved, and its own around them. -/
theorem State.read_storeLines_copyMerge {bytes : List Byte} {reads : List LineRef} (hm : Memory.wf s.mem = true)
    (size : bytes.length = n) (clean : s.lineClass dest.phys = .clean)
    (apart : (reads.map LineRef.phys).Nodup) (mem : dest ∈ reads) {o : Nat} (ho : o < 64) :
    Memory.read (s.storeLines reads (s.copyMerge dest first n bytes)).mem (64 * dest.phys + o) =
      if first ≤ o ∧ o < first + n then bytes.getD (o - first) 0#8
      else Memory.read s.mem (64 * dest.phys + o) := by
  have spliced := getD_splice (s.lineBytes dest.phys) bytes first o
    (by rw [size, State.length_lineBytes]; exact hf)
  rw [size, State.getD_lineBytes clean ho, splice, size] at spliced
  rw [← spliced]
  exact State.read_storeLines hm reads (s.copyMerge dest first n bytes)
    (fun _ _ _ => State.length_of_copyMerge hf size) apart mem (if_pos rfl) ho

/-- What a COPY step stores where every line it reads is clean: the source bytes as they were (R142). -/
theorem State.copyLines_stores (hs : dest ∈ source ∨ ∀ r ∈ source, r.phys ≠ dest.phys) :
    ∃ u, s.copyLines source sf dest first n = (u, true) ∧
      u = { s with mem := u.mem, flips := u.flips, poisoned := u.poisoned } ∧
      (∀ k, k < n → Memory.read u.mem (64 * dest.phys + first + k) =
        Memory.read s.mem (runAddress source (sf + k))) ∧
      ∀ b, ¬ (64 * dest.phys + first ≤ b ∧ b < 64 * dest.phys + first + n) →
        Memory.read u.mem b = Memory.read s.mem b := by
  have parts := State.copyLines_of_clean hl hf hc hd
  have clean := copyReads_clean hc hd
  have apart := copyReads_phys_nodup (n := n) hl hs
  have size := State.length_copyBytes (s := s) hl.2
  have moved {k : Nat} (hk : k < n) := State.getD_copyBytes (s := s) hl hc hk
  have outside (hn : n = 64) (hout : dest ∉ source) {r : LineRef} (hr : r ∈ copyReads source dest n) :
      r.phys ≠ dest.phys := by
    rw [copyReads, if_pos (.inl hn)] at hr
    exact hs.resolve_left hout r hr
  generalize hbytes : s.copyBytes source sf n = bytes at *
  generalize hreads : copyReads source dest n = reads at *
  have stored {o : Nat} (mem : dest ∈ reads) (ho : o < 64) :=
    State.read_storeLines_copyMerge hf hm size (clean dest mem) apart mem ho
  have untouched {b : Nat} (h : ∀ r ∈ reads, r.phys = b / 64 → r.phys ≠ dest.phys) :=
    State.read_storeLines_ne hm reads (s.copyMerge dest first n bytes)
      (fun _ _ _ => State.length_of_copyMerge hf size) b fun r hr e => State.copyMerge_of_phys_ne (h r hr e)
  have wf := State.wf_storeLines hm reads (s.copyMerge dest first n bytes)
  have frame := State.storeLines_memory s reads (s.copyMerge dest first n bytes)
  generalize s.storeLines reads (s.copyMerge dest first n bytes) = w at *
  by_cases hn : n = 64 ∧ dest ∉ source
  · obtain ⟨whole, hout⟩ := id hn
    have same (b : Nat) := untouched (b := b) fun r hr _ => outside whole hout hr
    refine ⟨_, parts.trans (congrArg (·, true) (if_pos hn)), State.overwriteLine_frame frame ..,
      fun k hk => ?_, fun b hb => ?_⟩
    · rw [State.read_overwriteLine wf, size, if_pos (by omega), ← moved hk]
      congr 1
      omega
    · rw [State.read_overwriteLine wf, size, if_neg (by omega), same]
  · have mem : dest ∈ reads := hreads ▸ mem_copyReads hn
    refine ⟨_, parts.trans (congrArg (·, true) (if_neg hn)), frame, fun k hk => ?_, fun b hb => ?_⟩
    · rw [Nat.add_assoc, stored mem (by omega), if_pos (by omega), Nat.add_sub_cancel_left, moved hk]
    · by_cases h : b / 64 = dest.phys
      · have place : 64 * dest.phys + b % 64 = b := by omega
        rw [← place, stored mem (by omega), if_neg (by omega)]
      · exact untouched fun r _ e => e ▸ h

end Copy

/-! ### The completion -/

theorem State.touchStep_of_source (s : State) {j : Job} {x : Place} (h : j.source = some x) :
    s.touchStep j = (s.touch j.owner x.window).touch j.owner j.dest.window := by
  unfold State.touchStep
  rw [h]

/-- What the handling of a COPY step's lines leaves, in the words of the statement (R111, R142). -/
theorem State.handlesLines_copy {s u : State} {reads : List LineRef} {dest : LineRef} {first n : Nat}
    {bytes : List Byte} (hn : ¬ AllReadable s reads → u = s.handlesLines reads (fun _ => none))
    (hg : AllReadable s reads → u = s.handlesLines reads (s.copyMerge dest first n bytes)) :
    s.handlesLines reads (if readsGood (reads.map s.readLine) then s.copyMerge dest first n bytes
      else fun _ => none) = u := by
  by_cases h : AllReadable s reads
  · rw [if_pos ((allReadable_iff ..).1 h), hg h]
  · rw [if_neg (Bool.eq_false_iff.1 ((allReadable_not_iff ..).1 h)), hn h]

/-- Settles O43: the step whose lines are clean, and any step after its lines were handled. -/
theorem copyStepMovesItsBytesOrEndsTheJob : Obligations.CopyStepMovesItsBytesOrEndsTheJob := by
  refine ⟨fun s c source sf dest first n j hm hf hj hr hd hl hfit hc hdest hs htot => ?_,
    fun s c source sf dest first n j reads bytes u hm hf hj hl hfit htot hreads hbytes hn hg => ?_⟩
  · obtain ⟨u, part, frame, moved, kept⟩ := State.copyLines_stores hl hfit hm hc hdest hs
    have handles : s.Handles u := by
      have := State.Handles.copyLines s source sf dest first n
      rwa [part] at this
    obtain ⟨⟨⟨hread, -⟩, -⟩, -⟩ := handles.leaves hj n true
    obtain ⟨goesOn, ends⟩ := State.stepDone_of_stores frame hj hr hd n
    exact ⟨_, by rw [exec_copyStepCompletion hf, part], State.inFlight_completed ..,
      fun k hk => (hread _).trans (moved k hk), fun b hb => (hread _).trans (kept b hb), goesOn, ends⟩
  · have part := State.copyLines_eq (s := s) (dest := dest) hl hfit
    obtain rfl : reads = copyReads source dest n := hreads
    obtain rfl : bytes = s.copyBytes source sf n := hbytes
    dsimp only at part
    rw [State.handlesLines_copy hn hg] at part
    have readable := allReadable_iff s (copyReads source dest n)
    have handled := State.Handles.copyLines s source sf dest first n
    have wf : Memory.wf u.mem = true := by
      rw [← State.handlesLines_copy hn hg, State.handlesLines_eq]
      exact memoryCanonical_keeps.handleReads hm ..
    have size : (s.copyBytes source sf n).length = n := State.length_copyBytes hl.2
    generalize readsGood ((copyReads source dest n).map s.readLine) = good at part readable
    obtain ⟨x, hx⟩ : ∃ x, (s.copyLines source sf dest first n).1 = x := ⟨_, rfl⟩
    have stored : x = if n = 64 ∧ dest ∉ source ∧ good = true then
        u.overwriteLine dest (s.copyBytes source sf n) else u := by rw [← hx, part]
    have run := exec_copyStepCompletion hf
    rw [show (s.copyLines source sf dest first n).2 = good by rw [part], hx] at run
    rw [hx] at handled
    obtain ⟨same, -⟩ : SameIntegrity x (x.endFlight.stepDone c n good) ∧ _ := handled.leaves hj n good
    have frame : (∀ q, x.pcu q = u.pcu q) ∧ x.windows = u.windows := by
      rw [stored]
      split <;> exact ⟨fun _ => rfl, rfl⟩
    obtain ⟨hpcu, hwindows⟩ := frame
    have kept (h : ¬ AllReadable s (copyReads source dest n)) : x = u := by
      rw [stored, if_neg fun k => h (readable.2 k.2.2)]
    refine ⟨_, run, State.inFlight_completed .., fun h => ?_, fun h hw ho => ?_, fun h => ⟨?_, ?_, fun hc b => ?_⟩,
      fun h y hy => ?_, fun hd => handled.settles hj n good hd htot readable, handled.outsideStep ..,
      (SamePcusBut.of_pcu hpcu _).trans (handled.pcusBut hj n good),
      (SameWindowsButHolders.of_windows hwindows).trans (handled.windowsBut hj n good)⟩
    · have kept : x = u := by
        rw [stored, if_neg]
        rintro ⟨h64, hout, hgood⟩
        rcases h with h | h | h
        · exact h (readable.2 hgood)
        · exact Nat.ne_of_lt h h64
        · exact hout h
      exact (congrArg (SameIntegrity · _) kept).mp same
    · obtain rfl : x = u.overwriteLine dest (s.copyBytes source sf n) := by
        rw [stored, if_pos ⟨hw, ho, readable.1 h⟩]
      obtain ⟨⟨hread, hflips, hpoisoned, hsuspects, hremap, hspares, hcorrected, hretired⟩, -⟩ := same
      refine ⟨fun b => ?_, hflips, hpoisoned, hsuspects, hremap, hspares, hcorrected, hretired⟩
      rw [hread, State.read_overwriteLine wf, size, hw]
    · obtain ⟨⟨-, -, hpoisoned, -⟩, -⟩ := same
      rw [hpoisoned, kept h, hn h, State.handlesLines_eq]
      exact s.poisoned_handleReads _ _ s
    · have bad := Bool.eq_false_iff.2 (mt readable.2 h)
      exact bad ▸ handled.untouched hj n
    · obtain ⟨⟨hread, -⟩, -⟩ := same
      rw [hread, kept h, hn h, State.handlesLines_eq]
      exact congrArg (Memory.read · b) (s.handleReads_stores_nothing _ s hc).1
    · have touched := handled.touched hj n
      rw [State.touchStep_of_source s hy] at touched
      exact readable.1 h ▸ touched

end Sys2Proof.Machine


/-! PROOFS. The completions of a WIPE step and of a scrub read (R123 to R125, R149): O44 and O45. -/

namespace Sys2Proof.Machine

/-! ### The WIPE step -/

section Wipe

variable {s : State} {c : Channel} {j : Job} (hj : s.job c = some j)
include hj

theorem State.wipeStepDone_goes_on (hn : j.bytesDone + 64 < j.total) :
    s.wipeStepDone c = s.setJob c (some { j with bytesDone := j.bytesDone + 64 }) := by
  unfold State.wipeStepDone
  rw [hj]
  exact if_neg (Nat.not_le_of_lt hn)

theorem State.wipeStepDone_ends (hn : j.total ≤ j.bytesDone + 64) :
    s.wipeStepDone c = (s.setJob c (some { j with bytesDone := j.bytesDone + 64 })).wipeEnd c j.dest.window := by
  unfold State.wipeStepDone
  rw [hj]
  exact if_pos hn

theorem State.wipeStepDone_frame : s.wipeStepDone c =
    { s with
      c0 := (s.wipeStepDone c).c0, c1 := (s.wipeStepDone c).c1
      pcus := (s.wipeStepDone c).pcus, windows := (s.wipeStepDone c).windows } := by
  rcases Nat.lt_or_ge (j.bytesDone + 64) j.total with hn | hn
  · rw [State.wipeStepDone_goes_on hj hn]
    cases c <;> rfl
  · rw [State.wipeStepDone_ends hj hn, State.wipeEnd, State.endJob_frame]
    cases c <;> rfl

theorem State.wipeStepDone_outside : SameOutsideStep s (s.wipeStepDone c) c := by
  refine ⟨fun d hd => by rw [State.job_wipeStepDone hj, if_neg hd], ?_⟩
  rw [State.wipeStepDone_frame hj]
  exact (SameOutsideStep.refl s c).2

/-- The last step of a WIPE job changes its owner's PCU alone (R74, R75, R196). -/
theorem State.pcu_wipeStepDone (hk : j.kind = .wipe) (hn : j.total ≤ j.bytesDone + 64) :
    (∀ q, q ≠ j.owner → (s.wipeStepDone c).pcu q = s.pcu q) ∧
      (j.deliver = true → (s.wipeStepDone c).pcu j.owner =
        (s.pcu j.owner).complete ⟨j.tag, .wipe, .ok, .count (j.bytesDone + 64)⟩) ∧
      (j.deliver = false → (s.wipeStepDone c).pcu j.owner =
        { s.pcu j.owner with outstanding := (s.pcu j.owner).outstanding.erase j.tag }) := by
  rw [State.wipeStepDone_ends hj hn, State.wipeEnd]
  obtain ⟨x, hx⟩ : ∃ x, State.setWindow (s.setJob c (some { j with bytesDone := j.bytesDone + 64 })) j.dest.window
      ((State.window? (s.setJob c (some { j with bytesDone := j.bytesDone + 64 })) j.dest.window).map
        Window.wiped) = x := ⟨_, rfl⟩
  have job : x.job c = some { j with bytesDone := j.bytesDone + 64 } := by
    rw [← hx, State.job_setWindow, State.job_setJob_same]
  have pcu (q : Port) : x.pcu q = s.pcu q := by
    rw [← hx]
    exact State.pcu_setJob ..
  rw [hx]
  cases hd : j.deliver with
  | true =>
    obtain ⟨-, hother, howner⟩ := State.endJob_reports job hd .ok
    refine ⟨fun q hq => (hother q hq).trans (pcu q), fun _ => howner.trans ?_, fun h => Bool.noConfusion h⟩
    rw [pcu, hk]
    rfl
  | false =>
    rw [State.endJob_discard_wipe job hd hk]
    refine ⟨fun q hq => ?_, fun h => Bool.noConfusion h, fun _ => ?_⟩
    · rw [State.pcu_setPcu_ne _ _ hq, State.pcu_setJob, pcu]
    · rw [State.pcu_setPcu_same, pcu]

end Wipe

/-- A lawful WIPE job ends exactly with its last line (R149). -/
theorem WipeJobsLawful.last {s : State} (h : WipeJobsLawful s) {c : Channel} {j : Job}
    (hj : s.job c = some j) (hk : j.kind = .wipe) (hn : j.total ≤ j.bytesDone + 64) :
    j.bytesDone + 64 = j.total ∧ ∀ w, s.window? j.dest.window = some w → j.total = 64 * w.length := by
  obtain ⟨-, hdiv, hlt, w, hw, htotal⟩ := h c j hj hk
  refine ⟨by omega, fun v hv => ?_⟩
  rw [hw] at hv
  cases hv
  exact htotal

/-- Settles O44: the line is overwritten, and bytes done alone decide between the next step and the end. -/
theorem wipeStepAndWipeEnd : Obligations.WipeStepAndWipeEnd := by
  intro s c dest j hm hf hj hk
  have run : exec .wipeStepCompletion s =
      .next ((s.overwriteLine dest (List.replicate 64 0#8)).endFlight.wipeStepDone c) := by
    show execWipeStepCompletion s = _
    unfold execWipeStepCompletion
    rw [hf]
  have bytes := State.read_overwriteLine_zeros hm dest
  have frame := State.overwriteLine_eq s dest (List.replicate 64 0#8)
  generalize s.overwriteLine dest (List.replicate 64 0#8) = x at *
  have outside : SameOutsideStep s x.endFlight c := by
    rw [frame]
    exact ⟨fun d _ => by cases d <;> rfl, (SameOutsideStep.refl s c).2⟩
  have job : x.endFlight.job c = some j := by
    rw [← hj, frame]
    cases c <;> rfl
  have pcus : x.endFlight.pcus = s.pcus := (congrArg State.pcus frame).trans rfl
  have windows : x.endFlight.windows = s.windows := (congrArg State.windows frame).trans rfl
  have window (i : Nat) : x.endFlight.window? i = s.window? i := State.window?_of_windows windows i
  have pcu (q : Port) : x.endFlight.pcu q = s.pcu q := congrArg (·.get q) pcus
  have kept := State.wipeStepDone_frame job
  have after := State.window?_wipeStepDone job
  have jobAfter := State.job_wipeStepDone job c
  refine ⟨_, run, (congrArg State.inFlight kept).trans rfl, fun b => ?_,
    (congrArg State.poisoned kept).trans ((congrArg State.poisoned frame).trans rfl),
    (congrArg State.flips kept).trans ((congrArg State.flips frame).trans rfl),
    (congrArg State.suspects kept).trans ((congrArg State.suspects frame).trans rfl),
    (congrArg State.remap kept).trans ((congrArg State.remap frame).trans rfl),
    (congrArg State.spares kept).trans ((congrArg State.spares frame).trans rfl),
    (congrArg State.correctedTotal kept).trans ((congrArg State.correctedTotal frame).trans rfl),
    (congrArg State.retirementsTotal kept).trans ((congrArg State.retirementsTotal frame).trans rfl),
    outside.trans (State.wipeStepDone_outside job), fun i hi => ?_, fun q hq => ?_, fun hn => ?_, fun hn => ?_⟩
  · rw [show (x.endFlight.wipeStepDone c).mem = x.mem from (congrArg State.mem kept).trans rfl, bytes]
  · rw [after, if_neg fun h => hi h.1, window]
  · rcases Nat.lt_or_ge (j.bytesDone + 64) j.total with hn | hn
    · rw [State.wipeStepDone_goes_on job hn, State.pcu_setJob, pcu]
    · exact ((State.pcu_wipeStepDone job hk hn).1 q hq).trans (pcu q)
  · rw [State.wipeStepDone_goes_on job hn]
    refine ⟨State.job_setJob_same .., ?_, ?_⟩
    · rw [← windows]
      cases c <;> rfl
    · rw [← pcus]
      cases c <;> rfl
  · obtain ⟨-, hdeliver, hdiscard⟩ := State.pcu_wipeStepDone job hk hn
    rw [pcu] at hdeliver hdiscard
    refine ⟨?_, fun w hw => ?_, fun h => h.last hj hk hn, fun hd => ⟨hdeliver hd, fun he => ?_⟩, hdiscard⟩
    · rw [jobAfter, if_pos rfl, if_pos hn]
    · rw [after, if_pos ⟨rfl, hn⟩, window, hw]
      rfl
    · rw [hdeliver hd, he]
      rfl

/-! ### The scrub read -/

theorem exec_scrubReadCompletion {s : State} {r : LineRef} {b : Bool}
    (hf : s.inFlight = some ⟨.scrub, .scrub r b⟩) : exec .scrubReadCompletion s = .next (s.scrubDone r b) := by
  show execScrubReadCompletion s = _
  unfold execScrubReadCompletion
  rw [hf]

theorem State.scrubDone_of_poisoned (s : State) (r : LineRef) : s.scrubDone r true =
    { s with inFlight := none, draw := s.draw + 1, scrubPointer := nextLine r.line } := rfl

theorem State.scrubDone_handles (s : State) (r : LineRef) : s.scrubDone r false =
    { s.handleRead (s.readLine r) none with
      inFlight := none, draw := s.draw + 1, scrubPointer := nextLine r.line } := by
  have draw : (s.handleRead (s.readLine r) none).draw = s.draw :=
    (State.Mends.handleReads s [s.readLine r] fun _ => none).draw
  rw [← draw]
  rfl

/-- Settles O45: a read of a line poisoned at the grant, and one whose line is handled. -/
theorem scrubReadMovesOn : Obligations.ScrubReadMovesOn := by
  intro s r b hf
  have run := exec_scrubReadCompletion hf
  refine ⟨fun h => ?_, fun hb hc => ?_, fun hb => ?_⟩
  · have done : s.scrubDone r b =
        { s with inFlight := none, draw := s.draw + 1, scrubPointer := nextLine r.line } := by
      cases b with
      | true => exact s.scrubDone_of_poisoned r
      | false =>
        have clean : s.handleRead (s.readLine r) none = s := by
          rw [State.readLine, h.resolve_left Bool.false_ne_true]
          rfl
        rw [State.scrubDone_handles, clean]
    rw [run, done]
    rfl
  · have done : s.scrubDone r b =
        { s.poisonLine r.line with
          inFlight := none, draw := s.draw + 1, scrubPointer := nextLine r.line } := by
      rw [hb, State.scrubDone_handles, State.readLine, hc]
      rfl
    have poisoned := State.poisonLine_eq s r.line
    refine ⟨_, run.trans (congrArg Host.Outcome.next done), ?_, (congrArg State.mem poisoned).trans rfl,
      (congrArg State.flips poisoned).trans rfl, rfl, rfl⟩
    show r.line ∈ (s.poisonLine r.line).poisoned
    rw [poisoned]
    exact (mem_insertRising ..).2 (.inr rfl)
  · rw [run, hb, State.scrubDone_handles]
    rfl

end Sys2Proof.Machine


/-! PROOFS. Notices that reach a port (R183 to R187): O49. -/

namespace Sys2Proof.Machine

/-! ### Kinds and windows -/

theorem Notice.sameKey_iff (m n : Notice) : m.sameKey n = true ↔
    (∃ w, m = .leaseLow w ∧ n = .leaseLow w) ∨ (∃ w, m = .leaseExpired w ∧ n = .leaseExpired w) ∨
    (∃ w, m = .claimRevoked w ∧ n = .claimRevoked w) ∨
    (∃ w k c l d, m = .linePoisoned w k c ∧ n = .linePoisoned w l d) ∨
    (m = .sparesExhausted ∧ n = .sparesExhausted) := by
  constructor
  · intro h
    unfold Notice.sameKey at h
    split at h
    · exact .inl ⟨_, rfl, by rw [eq_of_beq h]⟩
    · exact .inr (.inl ⟨_, rfl, by rw [eq_of_beq h]⟩)
    · exact .inr (.inr (.inl ⟨_, rfl, by rw [eq_of_beq h]⟩))
    · exact .inr (.inr (.inr (.inl ⟨_, _, _, _, _, rfl, by rw [eq_of_beq h]⟩)))
    · exact .inr (.inr (.inr (.inr ⟨rfl, rfl⟩)))
    · exact absurd h Bool.false_ne_true
  · rintro (⟨w, rfl, rfl⟩ | ⟨w, rfl, rfl⟩ | ⟨w, rfl, rfl⟩ | ⟨w, k, c, l, d, rfl, rfl⟩ | ⟨rfl, rfl⟩)
    · exact beq_self_eq_true w
    · exact beq_self_eq_true w
    · exact beq_self_eq_true w
    · exact beq_self_eq_true w
    · rfl

theorem Notice.sameKey_leaseLow {w : Nat} {m : Notice} :
    Notice.sameKey (.leaseLow w) m = true ↔ m = .leaseLow w := by
  rw [Notice.sameKey_iff]
  simp

theorem Notice.sameKey_leaseExpired {w : Nat} {m : Notice} :
    Notice.sameKey (.leaseExpired w) m = true ↔ m = .leaseExpired w := by
  rw [Notice.sameKey_iff]
  simp

theorem Notice.coalesced_eq (m : Notice) : m.coalesced =
    match m with
    | .linePoisoned w l k => .linePoisoned w l (min 255 (k + 1))
    | other => other := by
  cases m with
  | linePoisoned w l k => rw [Notice.coalesced, countUp_eq]
  | _ => rfl

theorem FetchMark.repeated_eq (m : FetchMark) (n : Notice) : m.repeated n =
    { m with
      repeats := min 255 (m.repeats + 1)
      repeatLine :=
        match m.repeatLine, n with
        | none, .linePoisoned _ l _ => some l
        | x, _ => x } := by
  rw [FetchMark.repeated, countUp_eq]
  obtain ⟨k, r, l⟩ := m
  cases l with
  | none => cases n <;> rfl
  | some x => rfl

/-! ### The storing of a notice -/

section Store

variable {u : Pcu} {n : Notice}

theorem Pcu.store_coalesces (h : ∃ m ∈ u.notices, n.sameKey m = true) : u.store n =
    { u with
      notices := u.notices.map (fun m => if n.sameKey m then m.coalesced else m)
      fetchMark := u.fetchMark.map (fun m => if n.sameKey m.notice then m.repeated n else m) } :=
  if_pos (List.any_eq_true.2 h)

theorem Pcu.store_new (h : ∀ m ∈ u.notices, n.sameKey m = false) : u.store n =
    if u.notices.length < 8 then { u with notices := u.notices ++ [n] } else { u with noticeLost := true } :=
  if_neg fun k => by
    obtain ⟨m, hm, hk⟩ := List.any_eq_true.1 k
    exact Bool.false_ne_true ((h m hm).symm.trans hk)

theorem Pcu.post_of_ready (h : u.state = .ready) : u.post n = (u.supersede n).store n := if_pos h

/-- A notice with no LEASE_LOW to remove is handled as it comes (R186). -/
theorem Pcu.supersede_eq_self (h : ∀ w, n = .leaseExpired w → .leaseLow w ∉ u.notices ∧
    ∀ m, u.fetchMark = some m → m.notice ≠ .leaseLow w) : u.supersede n = u := by
  cases n with
  | leaseExpired w =>
    obtain ⟨hqueue, hmark⟩ := h w rfl
    have notices : u.notices.filter (fun m => !Notice.sameKey (.leaseLow w) m) = u.notices :=
      List.filter_eq_self.2 fun m hm => by
        rw [Bool.not_eq_true', ← Bool.not_eq_true, Notice.sameKey_leaseLow]
        rintro rfl
        exact hqueue hm
    have mark : u.fetchMark.filter (fun m => !Notice.sameKey (.leaseLow w) m.notice) = u.fetchMark := by
      cases hm : u.fetchMark with
      | none => rfl
      | some m =>
        refine if_pos ?_
        rw [Bool.not_eq_true', ← Bool.not_eq_true, Notice.sameKey_leaseLow]
        exact hmark m hm
    show u.removeNotice _ = u
    rw [Pcu.removeNotice, notices, mark]
  | _ => rfl

end Store

/-! ### A LEASE_EXPIRED and its window's LEASE_LOW -/

section Supersede

variable {u : Pcu} {w : Nat}

theorem Pcu.notices_removeNotice : (u.removeNotice (.leaseLow w)).notices =
    u.notices.filter (fun m => m != .leaseLow w) := by
  refine List.filter_congr fun m _ => ?_
  rw [Bool.eq_iff_iff, Bool.not_eq_true', ← Bool.not_eq_true, Notice.sameKey_leaseLow, bne_iff_ne]

theorem Pcu.fetchMark_removeNotice {m : FetchMark} (h : u.fetchMark = some m) :
    (u.removeNotice (.leaseLow w)).fetchMark = if m.notice = .leaseLow w then none else some m := by
  show u.fetchMark.filter _ = _
  rw [h, Option.filter_some]
  split
  · next hk => rw [if_neg fun he => by rw [Notice.sameKey_leaseLow.2 he] at hk; exact Bool.noConfusion hk]
  · next hk => rw [if_pos (Notice.sameKey_leaseLow.1 (by simpa using hk))]

/-- Beside the LEASE_EXPIRED that stands, every notice keeps its contents. -/
theorem map_coalesced_leaseExpired (l : List Notice) :
    l.map (fun m => if Notice.sameKey (.leaseExpired w) m then m.coalesced else m) = l := by
  refine (List.map_congr_left fun m _ => ?_).trans l.map_id
  split
  · next h =>
    rw [Notice.sameKey_leaseExpired.1 h]
    rfl
  · rfl

/-- A LEASE_EXPIRED of a window whose LEASE_LOW stands: it coalesces or joins, and is never lost (R186). -/
theorem Pcu.post_leaseExpired (hr : u.state = .ready) (hmem : Notice.leaseLow w ∈ u.notices)
    (hlen : u.notices.length ≤ 8) : u.post (.leaseExpired w) =
      if .leaseExpired w ∈ u.notices then
        { u.removeNotice (.leaseLow w) with
          fetchMark := (u.removeNotice (.leaseLow w)).fetchMark.map (fun m =>
            if m.notice = .leaseExpired w then m.repeated (.leaseExpired w) else m) }
      else
        { u.removeNotice (.leaseLow w) with
          notices := (u.removeNotice (.leaseLow w)).notices ++ [.leaseExpired w] } := by
  have kept : Notice.leaseExpired w ∈ (u.removeNotice (.leaseLow w)).notices ↔
      Notice.leaseExpired w ∈ u.notices := by
    rw [Pcu.notices_removeNotice, List.mem_filter]
    exact and_iff_left rfl
  have room : (u.removeNotice (.leaseLow w)).notices.length < 8 := by
    rw [Pcu.notices_removeNotice]
    refine Nat.lt_of_lt_of_le (List.length_filter_lt_length_iff_exists.2 ⟨_, hmem, ?_⟩) hlen
    simp
  rw [Pcu.post_of_ready hr]
  show (u.removeNotice (.leaseLow w)).store _ = _
  by_cases h : Notice.leaseExpired w ∈ u.notices
  · rw [if_pos h, Pcu.store_coalesces ⟨_, kept.2 h, Notice.sameKey_leaseExpired.2 rfl⟩,
      map_coalesced_leaseExpired]
    simp only [Notice.sameKey_leaseExpired]
  · rw [if_neg h, Pcu.store_new fun m hm => ?_, if_pos room]
    rw [← Bool.not_eq_true, Notice.sameKey_leaseExpired]
    rintro rfl
    exact h (kept.1 hm)

end Supersede

/-- Settles O49: by whether the port is READY, and then by whether a LEASE_EXPIRED finds its LEASE_LOW. -/
theorem noticesCoalesceOrAreLost : Obligations.NoticesCoalesceOrAreLost := by
  refine ⟨Notice.sameKey_iff, fun u n => ⟨fun hr => if_neg hr, fun hr hn => ?_, fun hr w hw hmem hlen => ?_⟩⟩
  · rw [Pcu.post_of_ready hr, Pcu.supersede_eq_self hn]
    refine ⟨fun h => ?_, fun h hlen => ?_, fun h hlen => ?_⟩
    · rw [Pcu.store_coalesces h]
      simp only [Notice.coalesced_eq, FetchMark.repeated_eq] <;> rfl
    · rw [Pcu.store_new h, if_pos hlen]
    · rw [Pcu.store_new h, if_neg (Nat.not_lt_of_le hlen)]
  · subst hw
    have posted := Pcu.post_leaseExpired hr hmem hlen
    refine ⟨?_, fun h => ?_, fun h => ?_, fun m hm he => ?_, fun m hm hlow hne => ?_, fun m hm he h => ?_⟩
    · rw [posted]
      split <;> rfl
    · rw [posted, if_neg h, ← Pcu.notices_removeNotice]
    · rw [posted, if_pos h, ← Pcu.notices_removeNotice]
    all_goals
      have mark := Pcu.fetchMark_removeNotice (w := w) hm
    · rw [if_pos he] at mark
      rw [posted]
      split
      · dsimp only
        rw [mark]
        rfl
      · exact mark
    · rw [if_neg hlow] at mark
      rw [posted]
      split
      · dsimp only
        rw [mark, Option.map_some, if_neg hne]
      · exact mark
    · rw [if_neg (by rw [he]; exact Notice.noConfusion)] at mark
      rw [posted, if_pos h]
      dsimp only
      rw [mark, Option.map_some, if_pos he, FetchMark.repeated_eq]
      cases m.repeatLine <;> rfl

end Sys2Proof.Machine


/-! PROOFS. The ticks and the scrub timer (R101, R124, R204, R205): O48. -/

namespace Sys2Proof.Machine

/-! ### The expiry of the scrub timer -/

section Expire

variable {s : State}

theorem State.scrubExpire_due (hd : s.scrubDue = true) : s.scrubExpire =
    { s with scrubTimer := some s.scrubInterval, postponed := 4 } := by
  have pending : s.choose ≠ none := fun h => by
    rw [(State.choose_eq_none.1 h).1] at hd
    cases hd
  rw [State.scrubExpire, arrive_of_busy (.inr pending)]
  exact if_pos hd

variable (hd : s.scrubDue = false)
include hd

theorem State.scrubSignal_new : State.scrubSignal { s with scrubTimer := some s.scrubInterval } =
    { s with scrubTimer := some s.scrubInterval, scrubDue := true } :=
  if_neg (by rw [hd]; exact Bool.false_ne_true)

theorem State.scrubExpire_busy (h : s.inFlight ≠ none ∨ s.choose ≠ none) : s.scrubExpire =
    { s with scrubTimer := some s.scrubInterval, scrubDue := true } := by
  rw [State.scrubExpire, arrive_of_busy h, State.scrubSignal_new hd]

theorem State.scrubExpire_idle (hf : s.inFlight = none) (hc : s.choose = none) : s.scrubExpire =
    { s with
      scrubTimer := some s.scrubInterval, scrubDue := false, postponed := 0
      inFlight := some ⟨.scrub, .scrub (s.lineRef s.scrubPointer) (s.poisoned.contains s.scrubPointer)⟩ } := by
  obtain ⟨-, idle⟩ := State.choose_eq_none.1 hc
  have chosen : State.choose { s with scrubTimer := some s.scrubInterval, scrubDue := true } = some .scrub := by
    by_cases h4 : s.postponed = 4
    · exact if_pos (by rw [h4]; rfl)
    · exact State.choose_of_no_request (fun h => h4 h.2) idle
  rw [State.scrubExpire, State.scrubSignal_new hd, arrive_of_idle hf hc, chosen]
  rfl

omit hd in
/-- The timer restarts, whatever the arbiter makes of the expiry (R124). -/
theorem State.scrubTimer_scrubExpire : s.scrubExpire.scrubTimer = some s.scrubInterval := by
  cases hd : s.scrubDue with
  | true => rw [State.scrubExpire_due hd]
  | false =>
    by_cases h : s.inFlight = none ∧ s.choose = none
    · rw [State.scrubExpire_idle hd h.1 h.2]
    · rw [State.scrubExpire_busy hd (not_and_or.1 h)]

end Expire

/-! ### The millisecond tick -/

/-- Nothing falls on the present tick and is still to be taken (R205). -/
def State.Settled (s : State) : Prop := ∀ i w, s.window? i = some w →
  (∀ q l, w.holders.get q = some l → l.deadline ≠ some s.msCount ∧
    ∀ d k, l.deadline = some d → l.lowPoint = some k → (d - s.msCount).toNat = k → l.lowSent = true) ∧
  ∀ x ∈ w.waiters, x.deadline ≠ some s.msCount

section Settled

variable {s : State} (h : s.Settled) (i : Nat) (p : Port)
include h

theorem State.Settled.leaseLow : s.leaseLow i p = s := by
  unfold State.leaseLow
  split
  · rfl
  · next w hw =>
    obtain ⟨holders, -⟩ := h i w hw
    split
    · rfl
    · next l hl =>
      refine if_neg fun hdue => ?_
      obtain ⟨hsent, d, k, hd, hk, hr⟩ := Lease.lowDue_iff.1 hdue
      exact Bool.false_ne_true (hsent.symm.trans ((holders p l hl).2 d k hd hk hr))

theorem State.Settled.leaseExpire : s.leaseExpire i p = s := by
  unfold State.leaseExpire
  split
  · rfl
  · next w hw =>
    obtain ⟨holders, -⟩ := h i w hw
    split
    · rfl
    · next l hl => exact if_neg fun hr => (holders p l hl).1 (reached_iff.1 hr)

theorem State.Settled.waitExpire : s.waitExpire i p = s := by
  unfold State.waitExpire
  split
  · rfl
  · next w hw =>
    obtain ⟨-, waiters⟩ := h i w hw
    split
    · rfl
    · next x hx => exact if_neg fun hr => waiters x (List.mem_of_find?_eq_some hx) (reached_iff.1 hr)

omit i p in
theorem State.Settled.settleTick : s.settleTick = s := by
  have due (i : Nat) (p : Port) : s.dueEvents i p = s := by
    rw [State.dueEvents, h.leaseLow, h.leaseExpire, h.waitExpire]
  exact List.foldl_fixed' (fun i => List.foldl_fixed' (fun p => due i p) _) _

end Settled

theorem State.Calm.settleTick (s : State) : s.Calm s.settleTick := by
  have fold {α : Type} {f : State → α → State} (hf : ∀ t a, State.Calm t (f t a)) (l : List α) (t : State) :
      t.Calm (l.foldl f t) := by
    induction l generalizing t with
    | nil => exact .refl t
    | cons a l ih => exact (hf t a).trans (ih _)
  exact fold (fun t i => fold (fun u p =>
    ((State.Calm.leaseLow u i p).trans (.leaseExpire ..)).trans (.waitExpire ..)) _ t) _ s

/-- The events of a tick are the timer rows, one after another (log 8). -/
theorem State.settleTick_eq (s : State) : s.settleTick = s.afterRows timerRows := by
  unfold State.afterRows timerRows
  rw [List.foldl_flatMap]
  simp only [List.foldl_flatMap]
  rfl

section Ticks

variable {s : State}

theorem State.millisecondDue_iff : s.millisecondDue = true ↔ 1000 ≤ s.usCount := decide_eq_true_iff

theorem exec_millisecondTick_early (h : s.usCount < 1000) : exec .millisecondTick s = .next s :=
  congrArg Host.Outcome.next (if_neg (mt State.millisecondDue_iff.1 (Nat.not_le_of_lt h)))

theorem exec_millisecondTick (h : s.usCount = 1000) : exec .millisecondTick s = .next s.millisecond :=
  congrArg Host.Outcome.next (if_pos (State.millisecondDue_iff.2 h.ge))

theorem exec_microsecondTick_early (h : s.usCount < 1000) :
    exec .microsecondTick s = .next s.settleScrub.microsecond :=
  congrArg (fun t : State => Host.Outcome.next t.settleScrub.microsecond)
    (if_neg (mt State.millisecondDue_iff.1 (Nat.not_le_of_lt h)))

theorem exec_microsecondTick (h : s.usCount = 1000) :
    exec .microsecondTick s = .next s.millisecond.settleScrub.microsecond :=
  congrArg (fun t : State => Host.Outcome.next t.settleScrub.microsecond)
    (if_pos (State.millisecondDue_iff.2 h.ge))

theorem exec_scrubTimerExpiry (h : s.scrubTimer = some 0) :
    exec .scrubTimerExpiry s = .next s.scrubExpire := if_pos h

theorem State.millisecond_held (h : s.phase = .held) : s.millisecond = { s with usCount := 0 } := if_pos h

theorem State.millisecond_counts (h : s.phase ≠ .held) :
    s.millisecond = { s.settleTick with msCount := s.msCount + 1#32, usCount := 0 } := by
  rw [← (State.Calm.settleTick s).msCount]
  exact if_neg h

theorem State.usCount_millisecond (s : State) : s.millisecond.usCount = 0 := by
  unfold State.millisecond
  split <;> rfl

end Ticks

/-- Settles O48: the millisecond tick by the phase, the microsecond tick by the scrub timer, and the
timer's expiry by what the arbiter finds. -/
theorem ticksAndScrubTimer : Obligations.TicksAndScrubTimer := by
  refine ⟨fun s h => exec_millisecondTick_early h, fun s h hp => ?_, fun s h hp hs => ?_, fun s h hp => ?_,
    fun s t h hz ht => ?_, fun s h => ?_, fun s t h ht => ?_, fun s h hn => ?_, fun s n h hn => ?_,
    fun s hz => ⟨fun hd _ => ?_, fun hd hb => ?_, fun hd hf hc => ?_⟩⟩
  · rw [exec_millisecondTick h, State.millisecond_held hp]
  · rw [exec_millisecondTick h, State.millisecond_counts hp, State.Settled.settleTick hs]
  · rw [exec_millisecondTick h, State.millisecond_counts hp, State.settleTick_eq]
  · rw [exec_scrubTimerExpiry hz] at ht
    cases ht
    have settled : s.settleScrub = s.scrubExpire := if_pos hz
    have count := s.usCount_settleScrub.1
    rw [settled] at count
    rw [exec_microsecondTick_early h, settled, State.microsecond, count, State.scrubTimer_scrubExpire]
    rfl
  · obtain ⟨hus, hms⟩ := s.usCount_settleScrub
    exact ⟨_, exec_microsecondTick_early h, congrArg (· + 1) hus, hms⟩
  · rw [exec_millisecondTick h] at ht
    cases ht
    rw [exec_microsecondTick h, exec_microsecondTick_early (by rw [State.usCount_millisecond]; decide)]
  · have settled : s.settleScrub = s := if_neg (by rw [hn]; exact Option.some_ne_none _ ∘ Eq.symm)
    rw [exec_microsecondTick_early h, settled, State.microsecond, hn, Option.map_none, ← hn]
  · have settled : s.settleScrub = s := if_neg (by rw [hn]; exact fun e => Nat.succ_ne_zero n (Option.some.inj e))
    rw [exec_microsecondTick_early h, settled, State.microsecond, hn]
    rfl
  · rw [exec_scrubTimerExpiry hz, State.scrubExpire_due hd]
  · rw [exec_scrubTimerExpiry hz, State.scrubExpire_busy hd hb]
  · rw [exec_scrubTimerExpiry hz, State.scrubExpire_idle hd hf hc, ← hd]
    rfl

end Sys2Proof.Machine


/-! PROOFS. The handling of a line read (R110 to R121): O46. -/

namespace Sys2Proof.Machine

/-! ### The window a line counts against -/

theorem State.owner?_eq_none {s : State} {line : Nat} :
    s.owner? line = none ↔ ∀ i w, s.window? i = some w → w.covers line = false := by
  unfold State.owner?
  rw [List.find?_eq_none]
  refine ⟨fun h i w hw => ?_, fun h i _ => ?_⟩
  · have := h i (List.mem_range.2 (State.window?_eq_some_lt hw))
    rwa [hw, Option.any_some, Bool.not_eq_true] at this
  · rw [Option.any_eq_true]
    rintro ⟨w, hw, hc⟩
    exact Bool.false_ne_true ((h i w hw).symm.trans hc)

theorem State.owner?_some {s : State} {line i : Nat} (h : s.owner? line = some i) :
    ∃ w, s.window? i = some w ∧ w.covers line = true := by
  have := List.find?_some h
  rwa [Option.any_eq_true] at this

section Owner

variable {s : State} (hp : PlacementLawful s) {line i : Nat} {w : Window}
include hp

/-- No line counts against two windows (R2). -/
theorem PlacementLawful.owner? (hw : s.window? i = some w) (hc : w.covers line = true) :
    s.owner? line = some i := by
  obtain ⟨-, apart⟩ := hp
  cases ho : s.owner? line with
  | none => exact absurd ((State.owner?_eq_none.1 ho i w hw).symm.trans hc) Bool.false_ne_true
  | some k =>
    obtain ⟨v, hv, hvc⟩ := State.owner?_some ho
    by_cases h : k = i
    · rw [h]
    · exact absurd ⟨hvc, hc⟩ (apart k i v w h hv hw line)

theorem FaultsCounted.countFault (line : Nat) (f : FaultCounts → FaultCounts) :
    FaultsCounted s (s.countFault line f) line f := by
  intro k
  unfold State.countFault
  cases ho : s.owner? line with
  | none =>
    dsimp only
    cases hw : s.window? k with
    | none => rfl
    | some w => rw [Option.map_some, State.owner?_eq_none.1 ho k w hw]; rfl
  | some i =>
    obtain ⟨v, hv, hc⟩ := State.owner?_some ho
    dsimp only
    rw [hv]
    dsimp only
    by_cases h : k = i
    · rw [h, State.window?_setWindow_same _ (State.window?_eq_some_lt hv), hv, Option.map_some, hc]
      rfl
    · rw [State.window?_setWindow_ne _ _ h]
      cases hw : s.window? k with
      | none => rfl
      | some w =>
        have other : w.covers line = false := by
          rw [← Bool.not_eq_true]
          exact fun hk => h (Option.some.inj ((PlacementLawful.owner? hp hw hk).symm.trans ho))
        rw [Option.map_some, other]
        rfl

end Owner

theorem FaultsCounted.of_windows {s t u : State} {line : Nat} {f : FaultCounts → FaultCounts}
    (h : FaultsCounted s t line f) (e : u.windows = t.windows) : FaultsCounted s u line f := fun i => by
  rw [State.window?_of_windows e, h i]

theorem FaultsCounted.trans {s t u : State} {line : Nat} {f g : FaultCounts → FaultCounts}
    (h : FaultsCounted s t line f) (k : FaultsCounted t u line g) :
    FaultsCounted s u line (fun c => g (f c)) := fun i => by
  rw [k i, h i, Option.map_map]
  congr 1
  funext w
  cases hc : w.covers line with
  | true =>
    have : Window.covers { w with faults := f w.faults } line = true := hc
    simp only [Function.comp_apply, hc, if_true, this]
  | false => simp only [Function.comp_apply, hc, Bool.false_eq_true, if_false]

theorem placementLawful_faultsCounted {s t : State} {line : Nat} {f : FaultCounts → FaultCounts}
    (h : FaultsCounted s t line f) (hp : PlacementLawful s) : PlacementLawful t := by
  refine placementLawful_keep hp fun i v hv => ?_
  rw [h i] at hv
  obtain ⟨w, hw, rfl⟩ := Option.map_eq_some_iff.1 hv
  refine ⟨w, hw, ?_⟩
  split <;> exact ⟨rfl, rfl⟩

/-! ### The remap table after a retirement -/

theorem mem_remapAfter {t : List RemapEntry} {line k : Nat} {e : RemapEntry} :
    e ∈ remapAfter t line k ↔ e = ⟨line, k⟩ ∨ e ∈ t ∧ e.line ≠ line := by
  unfold remapAfter
  split
  · next h =>
    obtain ⟨x, hx, hl⟩ := List.any_eq_true.1 h
    rw [beq_iff_eq] at hl
    rw [List.mem_map]
    refine ⟨?_, ?_⟩
    · rintro ⟨y, hy, rfl⟩
      split
      · next hyl => exact .inl (by rw [beq_iff_eq.1 hyl])
      · next hyl => exact .inr ⟨hy, fun e => hyl (beq_iff_eq.2 e)⟩
    · rintro (rfl | ⟨he, hne⟩)
      · exact ⟨x, hx, by rw [if_pos (beq_iff_eq.2 hl), hl]⟩
      · exact ⟨e, he, if_neg fun h => hne (beq_iff_eq.1 h)⟩
  · next h =>
    have none {x : RemapEntry} (hx : x ∈ t) : x.line ≠ line := fun e =>
      h (List.any_eq_true.2 ⟨x, hx, beq_iff_eq.2 e⟩)
    rw [List.mem_append, List.mem_singleton, or_comm]
    exact or_congr_right ⟨fun hx => ⟨hx, none hx⟩, And.left⟩

theorem State.physOf_retired {s t : State} (hs : IntegrityLawful s) (ht : IntegrityLawful t)
    {line k : Nat} (h : t.remap = remapAfter s.remap line k) :
    t.physOf line = 16384 + k ∧ ∀ l, l ≠ line → t.physOf l = s.physOf l := by
  have entry {e : RemapEntry} : e ∈ t.remap ↔ e = ⟨line, k⟩ ∨ e ∈ s.remap ∧ e.line ≠ line := by
    rw [h]
    exact mem_remapAfter
  refine ⟨(State.physOf_eq ht line).1 ⟨line, k⟩ (entry.2 (.inl rfl)) rfl, fun l hl => ?_⟩
  obtain ⟨ofEntry, home⟩ := State.physOf_eq hs l
  obtain ⟨ofEntry', home'⟩ := State.physOf_eq ht l
  by_cases hx : ∃ e ∈ s.remap, e.line = l
  · obtain ⟨e, he, rfl⟩ := hx
    rw [ofEntry e he rfl, ofEntry' e (entry.2 (.inr ⟨he, hl⟩)) rfl]
  · rw [home fun e he heq => hx ⟨e, he, heq⟩, home' fun e he heq => ?_]
    rcases entry.1 he with rfl | ⟨he', -⟩
    · exact hl heq.symm
    · exact hx ⟨e, he', heq⟩

/-! ### A correctable line -/

section Correctable

variable (s : State) (line : Nat)

/-- The counts of a correction (R113). -/
theorem State.countCorrection_eq : s.countCorrection line =
    { s with
      correctedTotal := min 4294967295 (s.correctedTotal + 1)
      windows := (s.countCorrection line).windows } := by
  unfold State.countCorrection
  rw [State.countFault_eq, countUp_eq]

theorem FaultsCounted.countCorrection (hp : PlacementLawful s) :
    FaultsCounted s (s.countCorrection line) line
      (fun c => { c with corrected := min 65535 (c.corrected + 1) }) := by
  simp only [← countUp_eq]
  exact FaultsCounted.countFault (s := { s with correctedTotal := countUp 4294967295 s.correctedTotal }) hp line _

theorem State.postAll_eq (n : Notice) : s.postAll n = { s with pcus := (s.postAll n).pcus } := rfl

theorem State.handleRead_correctable {r : LineRead} (h : r.cls = .correctable) (stored : Option (List Byte)) :
    s.handleRead r stored = (s.countCorrection r.ref.line).rewriteSuspect r.ref (stored.getD r.bytes) := by
  unfold State.handleRead
  rw [h]

theorem State.handleRead_uncorrectable {r : LineRead} (h : r.cls = .uncorrectable)
    (stored : Option (List Byte)) : s.handleRead r stored = s.poisonLine r.ref.line := by
  unfold State.handleRead
  rw [h]

end Correctable

section Rewrite

variable {s : State} {r : LineRef} (bytes : List Byte)

theorem State.rewriteSuspect_first (h : r.line ∉ s.suspects) : s.rewriteSuspect r bytes =
    State.writeLine { s with suspects := joinSuspects s.suspects r.line } r.phys bytes :=
  if_neg fun k => h (List.contains_iff_mem.1 k)

variable (h : r.line ∈ s.suspects)
include h

theorem State.rewriteSuspect_retires {k : Nat} (hk : s.freeSpare? = some k) :
    s.rewriteSuspect r bytes = s.retire r.line k bytes := by
  unfold State.rewriteSuspect
  rw [if_pos (List.contains_iff_mem.2 h), hk]

theorem State.rewriteSuspect_exhausted (hk : ∀ k : Nat, s.spares[k]? ≠ some SpareState.free) :
    s.rewriteSuspect r bytes = (s.postAll .sparesExhausted).writeLine r.phys bytes := by
  have none : s.freeSpare? = none := by
    cases hf : s.freeSpare? with
    | none => rfl
    | some k => exact absurd (State.freeSpare?_some hf) (hk k)
  unfold State.rewriteSuspect
  rw [if_pos (List.contains_iff_mem.2 h), none]

omit h in
theorem State.correctedTotal_rewriteSuspect : (s.rewriteSuspect r bytes).correctedTotal = s.correctedTotal := by
  unfold State.rewriteSuspect
  split
  · split
    · next k _ =>
      obtain ⟨ws, fields⟩ := State.retire_eq s r.line k bytes
      exact (congrArg State.correctedTotal fields).trans rfl
    · rfl
  · rfl

end Rewrite

theorem FaultsCounted.retire {s : State} (hp : PlacementLawful s) (line k : Nat) (bytes : List Byte) :
    FaultsCounted s (s.retire line k bytes) line (fun c => { c with retirements := c.retirements + 1 }) :=
  (FaultsCounted.countFault (s := { s with
    suspects := s.suspects.erase line, spares := s.sparesAfter line k
    remap := remapAfter s.remap line k, retirementsTotal := s.retirementsTotal + 1 }) hp line _).of_windows rfl

/-! ### A line found uncorrectable -/

section Poison

variable {s : State} {line i : Nat} {w : Window}

theorem State.poisonLine_of_owner (ho : s.owner? line = some i) (hw : s.window? i = some w) :
    s.poisonLine line =
      (State.countFault { s with poisoned := insertRising s.poisoned line } line
        (fun c => { c with poisonings := min 65535 (c.poisonings + 1) })).postAll
        (.linePoisoned i (line - w.base) 1) := by
  unfold State.poisonLine
  dsimp only
  rw [ho]
  dsimp only
  rw [hw]
  simp only [countUp_eq]

theorem State.poisonLine_of_no_owner (h : ∀ i w, s.window? i = some w → w.covers line = false) :
    s.poisonLine line = { s with poisoned := insertRising s.poisoned line } := by
  unfold State.poisonLine
  rw [State.owner?_eq_none.2 h]

theorem FaultsCounted.poisonLine (hp : PlacementLawful s) (line : Nat) :
    FaultsCounted s (s.poisonLine line) line
      (fun c => { c with poisonings := min 65535 (c.poisonings + 1) }) := by
  have counted := FaultsCounted.countFault (s := { s with poisoned := insertRising s.poisoned line }) hp line
    (fun c => { c with poisonings := min 65535 (c.poisonings + 1) })
  cases ho : s.owner? line with
  | none =>
    have absent := State.owner?_eq_none.1 ho
    rw [State.poisonLine_of_no_owner absent]
    intro k
    cases hw : s.window? k with
    | none => exact hw
    | some w =>
      rw [Option.map_some, absent k w hw]
      exact hw
  | some i =>
    obtain ⟨w, hw, -⟩ := State.owner?_some ho
    rw [State.poisonLine_of_owner ho hw]
    exact counted.of_windows ((congrArg State.windows (State.postAll_eq _ _)).trans rfl)

end Poison

/-- Settles O46: the line's class decides, and for a correctable line the suspect list and the spares. -/
theorem linesReadAreHandled : Obligations.LinesReadAreHandled := by
  refine ⟨fun w line => Window.covers_iff, fun s l h => State.physOf_eq h l,
    fun s t r stored bytes hc hb ht => ?_, fun s t r stored hc ht => ?_, fun s r hc => ?_⟩
  · have frame := s.countCorrection_eq r.ref.line
    have counted (hp : PlacementLawful s) := FaultsCounted.countCorrection s r.ref.line hp
    have calm (hs : IntegrityLawful s) : IntegrityLawful (s.countCorrection r.ref.line) := by
      rw [frame]
      exact hs
    have lawful (hs : IntegrityLawful s) : IntegrityLawful t := ht ▸ integrityLawful_keeps.handled s r stored hs
    rw [State.handleRead_correctable s hc, ← hb] at ht
    generalize s.countCorrection r.ref.line = x at *
    have suspects : x.suspects = s.suspects := (congrArg State.suspects frame).trans rfl
    have spares : x.spares = s.spares := (congrArg State.spares frame).trans rfl
    have remap : x.remap = s.remap := (congrArg State.remap frame).trans rfl
    have pcus : x.pcus = s.pcus := (congrArg State.pcus frame).trans rfl
    have total : x.correctedTotal = min 4294967295 (s.correctedTotal + 1) :=
      (congrArg State.correctedTotal frame).trans rfl
    have retired : x.retirementsTotal = s.retirementsTotal := (congrArg State.retirementsTotal frame).trans rfl
    have mem : x.mem = s.mem := (congrArg State.mem frame).trans rfl
    have flips : x.flips = s.flips := (congrArg State.flips frame).trans rfl
    refine ⟨?_, fun hn => ?_, fun hm hs k hk hmin => ?_, fun hm hk => ?_⟩
    · rw [ht, State.correctedTotal_rewriteSuspect, total]
    · rw [State.rewriteSuspect_first bytes (by rwa [suspects])] at ht
      subst ht
      refine ⟨?_, remap, spares, pcus, retired, ?_, ?_, fun hp => (counted hp).of_windows rfl⟩
      · show joinSuspects x.suspects r.ref.line = _
        rw [suspects, joinSuspects, apply_ite (· ++ [r.ref.line])]
      · show Memory.writeBytes x.mem _ _ = _
        rw [mem]
      · show x.flips.filter _ = _
        rw [flips]
    · have free : x.freeSpare? = some k := State.freeSpare?_eq (by rwa [spares]) (by rwa [spares])
      rw [State.rewriteSuspect_retires bytes (by rwa [suspects]) free] at ht
      obtain ⟨ws, fields⟩ := State.retire_eq x r.ref.line k bytes
      rw [← ht] at fields
      obtain ⟨hnew, hspent, hother⟩ := State.getElem?_sparesAfter (line := r.ref.line) (calm hs) (by rwa [spares])
      have after : t.spares = x.sparesAfter r.ref.line k := (congrArg State.spares fields).trans rfl
      have table : t.remap = remapAfter s.remap r.ref.line k := by
        rw [← remap]
        exact (congrArg State.remap fields).trans rfl
      obtain ⟨moved, stayed⟩ := State.physOf_retired hs (lawful hs) table
      rw [remap] at hspent hother
      rw [spares] at hother
      refine ⟨?_, moved, by rwa [after], by rwa [after], by rwa [after], stayed, ?_, ?_, ?_, ?_, fun hp => ?_⟩
      · rw [← suspects]
        exact (congrArg State.suspects fields).trans rfl
      · rw [← retired]
        exact (congrArg State.retirementsTotal fields).trans rfl
      · rw [← pcus]
        exact (congrArg State.pcus fields).trans rfl
      · rw [← mem]
        exact (congrArg State.mem fields).trans rfl
      · rw [← flips]
        exact (congrArg State.flips fields).trans rfl
      · rw [ht]
        exact (counted hp).trans (FaultsCounted.retire (placementLawful_faultsCounted (counted hp) hp) _ _ _)
    · rw [State.rewriteSuspect_exhausted bytes (by rwa [suspects]) (by rwa [spares]), State.postAll_eq] at ht
      have pcu (q : Port) : x.pcu q = s.pcu q := congrArg (·.get q) pcus
      subst ht
      refine ⟨suspects, remap, spares, retired, fun q => ?_, ?_, ?_, fun hp => (counted hp).of_windows rfl⟩
      · rw [← pcu]
        exact State.pcu_postAll ..
      · show Memory.writeBytes x.mem _ _ = _
        rw [mem]
      · show x.flips.filter _ = _
        rw [flips]
  · rw [State.handleRead_uncorrectable s hc] at ht
    subst ht
    have frame := State.poisonLine_eq s r.ref.line
    refine ⟨?_, fun l => ?_, fun hp => .poisonLine hp _, fun i w hp hw hcov q => ?_, fun h => ?_⟩
    · rw [show (s.poisonLine r.ref.line).poisoned = insertRising s.poisoned r.ref.line from
        (congrArg State.poisoned frame).trans rfl]
      exact frame
    · rw [frame]
      exact mem_insertRising ..
    · rw [State.poisonLine_of_owner (PlacementLawful.owner? hp hw hcov) hw, State.pcu_postAll, State.pcu_countFault]
      rfl
    · rw [State.poisonLine_of_no_owner h]
  · unfold State.handleRead
    rw [hc]
    exact ⟨rfl, fun b => rfl⟩

end Sys2Proof.Machine


/-! PROOFS. Flips, words and lines (R108, R109): O47. -/

namespace Sys2Proof.Machine

section Word

variable {s : State} {phys word : Nat}

theorem State.getElem?_lineBytes_word (hw : word < 8) {k : Nat} (hk : k < 8) :
    (s.lineBytes phys)[8 * word + k]? = (s.wordBytes phys word)[k]? := by
  rw [State.getElem?_lineBytes, if_pos (by omega), show (8 * word + k) / 8 = word by omega,
    show (8 * word + k) % 8 = k by omega]

/-- A word with at most one flip gives its bytes as stored, but for a flipped data bit (R109). -/
theorem State.wordBytes_of_single (h : (s.flipsIn phys word).length ≤ 1) :
    (s.flipsIn phys word = [] ∧ s.wordBytes phys word = s.storedWord phys word) ∨
    (∃ n, s.flipsIn phys word = [.code n] ∧ s.wordBytes phys word = s.storedWord phys word) ∨
    ∃ byte bit, s.flipsIn phys word = [.data byte bit] ∧
      s.wordBytes phys word = (s.storedWord phys word).modify byte.val (fun b => b ^^^ (1#8 <<< bit.val)) := by
  rcases Nat.le_one_iff_eq_zero_or_eq_one.1 h with h0 | h1
  · have none := List.eq_nil_of_length_eq_zero h0
    exact .inl ⟨none, State.wordBytes_clean (State.wordClass_clean none)⟩
  · obtain ⟨b, hb⟩ := List.length_eq_one_iff.1 h1
    cases b with
    | data byte bit => exact .inr (.inr ⟨byte, bit, hb, State.wordBytes_data hb⟩)
    | code n => exact .inr (.inl ⟨n, hb, State.wordBytes_code hb⟩)

theorem State.getElem?_wordBytes (h : (s.flipsIn phys word).length ≤ 1) {k : Nat} (hk : k < 8) :
    (∀ byte bit, s.flipsIn phys word = [.data byte bit] → byte.val = k →
      (s.wordBytes phys word)[k]? =
        some (Memory.read s.mem (64 * phys + 8 * word + k) ^^^ (1#8 <<< bit.val))) ∧
    ((∀ byte bit, s.flipsIn phys word = [.data byte bit] → byte.val ≠ k) →
      (s.wordBytes phys word)[k]? = some (Memory.read s.mem (64 * phys + 8 * word + k))) := by
  rcases State.wordBytes_of_single h with ⟨hf, hb⟩ | ⟨n, hf, hb⟩ | ⟨byte, bit, hf, hb⟩
  · rw [hf, hb, State.getElem?_storedWord _ _ _ _ hk]
    exact ⟨fun _ _ e => (List.cons_ne_nil _ _ e.symm).elim, fun _ => rfl⟩
  · rw [hf, hb, State.getElem?_storedWord _ _ _ _ hk]
    exact ⟨fun _ _ e => StoredBit.noConfusion (List.cons.inj e).1, fun _ => rfl⟩
  · rw [hf, hb, List.getElem?_modify, State.getElem?_storedWord _ _ _ _ hk]
    refine ⟨fun b d e hk => ?_, fun hn => ?_⟩
    · cases e
      exact congrArg some (if_pos hk)
    · exact congrArg some (if_neg (hn byte bit rfl))

end Word

/-- A stored bit that flips changes the flips and the array's bytes alone (R108). -/
theorem exec_storedBitFlip (s : State) {phys word : Nat} (bit : StoredBit) (hp : phys < 16400) (hw : word < 8) :
    exec (.storedBitFlip phys word bit) s = .next (s.flipBit ⟨phys, word, bit⟩) := if_pos ⟨hp, hw⟩

theorem State.flips_flipBit (s : State) (f : Flip) :
    (f ∉ s.flips → (s.flipBit f).flips = s.flips ++ [f]) ∧
      (f ∈ s.flips → (s.flipBit f).flips = s.flips.erase f) := by
  have flips : (s.flipBit f).flips = if s.flips.contains f then s.flips.erase f else s.flips ++ [f] := by
    unfold State.flipBit
    dsimp only
    split <;> rfl
  rw [flips]
  exact ⟨fun h => if_neg (mt List.contains_iff_mem.1 h), fun h => if_pos (List.contains_iff_mem.2 h)⟩

/-- Settles O47: the flips of its words decide the line, and a flip toggles its stored bit. -/
theorem flipsDecideTheClass : Obligations.FlipsDecideTheClass := by
  refine ⟨fun s phys h => ?_, fun s phys h1 hw => ⟨?_, s.length_lineBytes phys, fun word k hw hk => ?_⟩,
    fun s phys word hw h => State.lineClass_uncorrectable hw (State.wordClass_double h),
    fun s phys word bit hm hp hw => ⟨_, exec_storedBitFlip s bit hp hw, ?_, fun a => ?_,
      s.flips_flipBit _⟩⟩
  · have clean := State.lineClass_eq_clean.2 fun v hv => State.wordClass_clean (h v hv)
    exact ⟨clean, State.lineBytes_clean clean⟩
  · obtain ⟨word, hw, hone⟩ := hw
    obtain ⟨b, hb⟩ := List.length_eq_one_iff.1 hone
    refine State.lineClass_correctable ⟨word, hw, State.wordClass_single hb⟩ fun v hv hd => ?_
    rcases Nat.le_one_iff_eq_zero_or_eq_one.1 (h1 v hv) with h0 | h1
    · rw [State.wordClass_clean (List.eq_nil_of_length_eq_zero h0)] at hd
      cases hd
    · obtain ⟨c, hc⟩ := List.length_eq_one_iff.1 h1
      rw [State.wordClass_single hc] at hd
      cases hd
  · rw [State.getElem?_lineBytes_word hw hk]
    exact State.getElem?_wordBytes (h1 word hw) hk
  · unfold State.flipBit
    cases bit <;> rfl
  · unfold State.flipBit
    cases bit with
    | code n => rfl
    | data byte k =>
      dsimp only
      rw [Memory.read_write hm]
      exact ite_congr rfl (fun h => by rw [h]; rfl) fun _ => rfl

end Sys2Proof.Machine


/-! PROOFS. The account of a port's completions (R171, R176 to R178): what is reserved, and for what. -/

namespace Sys2Proof.Machine

/-! ### Counting over windows and channels -/

theorem length_filter_of_agree {α : Type} {l : List α} (hl : l.Nodup) {a : α} (ha : a ∈ l) {f g : α → Bool}
    (h : ∀ b, b ≠ a → f b = g b) :
    (l.filter f).length + (g a).toNat = (l.filter g).length + (f a).toNat := by
  induction l with
  | nil => cases ha
  | cons x l ih =>
    rw [List.nodup_cons] at hl
    obtain ⟨hx, hl⟩ := hl
    by_cases hxa : x = a
    · subst hxa
      have same : l.filter f = l.filter g := List.filter_congr fun b hb => h b fun e => hx (e ▸ hb)
      rw [List.filter_cons, List.filter_cons, same]
      cases f x <;> cases g x <;> rfl
    · have step := ih hl ((List.mem_cons.1 ha).resolve_left fun e => hxa e.symm)
      rw [List.filter_cons, List.filter_cons, h x hxa]
      cases g x
      · exact step
      · simp only [if_true, List.length_cons]
        omega

/-- Whether a port waits on a window record, if it stands. -/
def waitsOn (w : Option Window) (p : Port) : Bool := w.any (fun w => w.waits p)

/-- Whether a port is still to receive the completion of a job, if there is one. -/
def delivers (j : Option Job) (p : Port) : Bool := j.any (fun j => j.owner == p && j.deliver)

theorem State.waitCount_setWindow (s : State) {i : Nat} (hi : i < 32) (w : Option Window) (p : Port) :
    (s.setWindow i w).waitCount p + (waitsOn (s.window? i) p).toNat =
      s.waitCount p + (waitsOn w p).toNat := by
  have count := length_filter_of_agree List.nodup_range (List.mem_range.2 hi)
    (f := fun k => waitsOn ((s.setWindow i w).window? k) p) (g := fun k => waitsOn (s.window? k) p)
    (fun k hk => by rw [State.window?_setWindow_ne _ _ hk])
  rw [State.window?_setWindow_same _ hi] at count
  exact count

theorem State.deliverCount_setJob (s : State) (c : Channel) (j : Option Job) (p : Port) :
    (s.setJob c j).deliverCount p + (delivers (s.job c) p).toNat =
      s.deliverCount p + (delivers j p).toNat := by
  have count := length_filter_of_agree (l := [Channel.c0, Channel.c1]) (by decide) (a := c)
    (by cases c <;> decide)
    (f := fun d => delivers ((s.setJob c j).job d) p) (g := fun d => delivers (s.job d) p)
    (fun d hd => by rw [State.job_setJob, if_neg hd])
  rw [State.job_setJob_same] at count
  exact count

/-! ### The account -/

/-- A pending access holds one reservation (R176). -/
def Pcu.pending (u : Pcu) : Nat := if u.access = none then 0 else 1

/-- The account of a PCU: `taken` says that a command is being taken, its reservation made and its
completion or its successor still to come; `n` counts the other reservations beside the pending access's. -/
structure Pcu.Accounts (u : Pcu) (taken : Bool) (n : Nat) : Prop where
  room : u.completions.length + u.reservations ≤ 8
  reserved : u.reservations = taken.toNat + u.pending + n
  head : u.access ≠ none → ∃ e, u.queue.head? = some e ∧ e.taken = true
  taking : taken = true → u.access = none ∧ u.queue ≠ []

/-- The account of every port in `D`: `tk` is the port whose command is being taken, and `L` names a port
for each completion that is about to be written. -/
structure State.Balanced (D : Port → Prop) (tk : Option Port) (L : List Port) (s : State) : Prop where
  distinct : EveryWindow s (fun w => (w.waiters.map Waiter.port).Nodup)
  account : ∀ q, D q → (s.pcu q).Accounts (tk == some q) (L.count q + s.waitCount q + s.deliverCount q)

/-- Between commands every port's account is settled. -/
def State.Accounted (s : State) : Prop := s.Balanced (fun _ => True) none []

theorem ClaimsLawful.distinct {s : State} (h : ClaimsLawful s) :
    EveryWindow s (fun w => (w.waiters.map Waiter.port).Nodup) := fun i w hw => by
  obtain ⟨⟨-, -, distinct, -⟩, -⟩ := h i w hw
  exact distinct

/-- The account of a port between commands, in the words of the statement. -/
theorem Pcu.accounts_iff {u : Pcu} {p : Port} {m n : Nat} :
    u.Accounts ((none : Option Port) == some p) (([] : List Port).count p + m + n) ↔
    u.completions.length + u.reservations ≤ 8 ∧
      u.reservations = (if u.access = none then 0 else 1) + m + n ∧
      (u.access ≠ none → ∃ e rest, u.queue = e :: rest ∧ e.taken = true) := by
  have sum : u.pending + (m + n) = (if u.access = none then 0 else 1) + m + n := (Nat.add_assoc ..).symm
  refine ⟨fun h => ⟨h.room, ?_, fun ha => ?_⟩, fun ⟨room, reserved, head⟩ => ⟨room, ?_, fun ha => ?_, fun hk => nomatch hk⟩⟩
  · rw [h.reserved, List.count_nil, Nat.zero_add, ← sum]
    exact congrArg (· + _) (Nat.zero_add _)
  · obtain ⟨e, he, ht⟩ := h.head ha
    obtain ⟨rest, hq⟩ := List.head?_eq_some_iff.1 he
    exact ⟨e, rest, hq, ht⟩
  · rw [reserved, List.count_nil, Nat.zero_add, ← sum]
    exact congrArg (· + _) (Nat.zero_add _).symm
  · obtain ⟨e, rest, hq, ht⟩ := head ha
    exact ⟨e, by rw [hq]; rfl, ht⟩

theorem State.Accounted.completionsLawful {s : State} (h : s.Accounted) : CompletionsLawful s :=
  fun q => Pcu.accounts_iff.1 (h.account q trivial)

theorem CompletionsLawful.accounted {s : State} (h : CompletionsLawful s) (hc : ClaimsLawful s) : s.Accounted :=
  ⟨hc.distinct, fun q _ => Pcu.accounts_iff.2 (h q)⟩

/-! ### The account of one PCU -/

namespace Pcu.Accounts

variable {u : Pcu} {n : Nat}

/-- A completion that was about to be written is written (R177, R181). -/
theorem complete {taken : Bool} (h : u.Accounts taken (n + 1)) (c : Completion) :
    (u.complete c).Accounts taken n where
  room := by
    have room := h.room
    have reserved := h.reserved
    show (u.completions ++ [c]).length + (u.reservations - 1) ≤ 8
    rw [List.length_append, List.length_singleton]
    omega
  reserved := by
    have reserved := h.reserved
    show u.reservations - 1 = taken.toNat + u.pending + n
    omega
  head := h.head
  taking := h.taking

/-- A taking begins: the command's reservation is made (R174). -/
theorem begins {e : Entry} (h : u.Accounts false n) (hq : u.queue.head? = some e) (he : e.taken = false)
    (room : u.completions.length + u.reservations < 8) :
    Pcu.Accounts { u with reservations := u.reservations + 1, wipePrepared := none } true n where
  room := room
  reserved := by
    have reserved := h.reserved
    show u.reservations + 1 = 1 + u.pending + n
    rw [Bool.toNat_false] at reserved
    omega
  head := h.head
  taking _ := by
    refine ⟨by_contra fun ha => ?_, fun hnil => ?_⟩
    · obtain ⟨x, hx, ht⟩ := h.head ha
      rw [hq] at hx
      cases hx
      exact Bool.false_ne_true (he.symm.trans ht)
    · rw [show u.queue = [] from hnil] at hq
      cases hq

/-- The command taken leaves the queue, its completion still to come (R177). -/
theorem leaves (h : u.Accounts true n) : u.popHead.Accounts false (n + 1) where
  room := h.room
  reserved := by
    have reserved := h.reserved
    show u.reservations = 0 + u.pending + (n + 1)
    rw [Bool.toNat_true] at reserved
    omega
  head ha := absurd (h.taking rfl).1 ha
  taking hk := nomatch hk

/-- The command taken finishes in its taking (R174). -/
theorem finishes (h : u.Accounts true n) (c : Completion) : (u.popHead.complete c).Accounts false n :=
  h.leaves.complete c

/-- The command taken becomes the pending access (R176). -/
theorem forms (h : u.Accounts true n) (a : Access) :
    Pcu.Accounts { u with
      queue := u.queue.modifyHead (fun e => { e with taken := true }), access := some a } false n where
  room := h.room
  reserved := by
    have reserved := h.reserved
    have none : u.pending = 0 := if_pos (h.taking rfl).1
    show u.reservations = 0 + 1 + n
    rw [Bool.toNat_true, none] at reserved
    omega
  head _ := by
    obtain ⟨e, rest, hq⟩ := List.exists_cons_of_ne_nil (h.taking rfl).2
    exact ⟨{ e with taken := true }, by rw [hq]; rfl, rfl⟩
  taking hk := nomatch hk

/-- The pending access ends (R89, R176). -/
theorem accessEnds {a : Access} (h : u.Accounts false n) (ha : u.access = some a) (c : Completion) :
    (Pcu.complete { u.popHead with access := none } c).Accounts false n := by
  have ended : Pcu.Accounts { u.popHead with access := none } false (n + 1) :=
    { room := h.room
      reserved := by
        have reserved := h.reserved
        have one : u.pending = 1 := if_neg (by rw [ha]; exact Option.some_ne_none a)
        show u.reservations = 0 + 0 + (n + 1)
        rw [Bool.toNat_false, one] at reserved
        omega
      head := fun hne => absurd rfl hne
      taking := fun hk => nomatch hk }
  exact ended.complete c

end Pcu.Accounts

/-! ### Changes that leave every account alone -/

/-- What of a PCU its account reads: the completions may get fewer, and the queue longer. -/
structure Pcu.SameAccount (u v : Pcu) : Prop where
  completions : v.completions.length ≤ u.completions.length
  reservations : v.reservations = u.reservations
  access : v.access = u.access
  queue : ∀ e, u.queue.head? = some e → v.queue.head? = some e

theorem Pcu.SameAccount.refl (u : Pcu) : u.SameAccount u := ⟨Nat.le_refl _, rfl, rfl, fun _ => id⟩

theorem Pcu.SameAccount.trans {u v w : Pcu} (h : u.SameAccount v) (k : v.SameAccount w) : u.SameAccount w :=
  ⟨k.completions.trans h.completions, k.reservations.trans h.reservations, k.access.trans h.access,
    fun e he => k.queue e (h.queue e he)⟩

theorem Pcu.Accounts.keeps {u v : Pcu} {taken : Bool} {n : Nat} (h : u.Accounts taken n)
    (k : u.SameAccount v) : v.Accounts taken n := by
  obtain ⟨hcompletions, hreservations, haccess, hqueue⟩ := k
  refine ⟨?_, ?_, fun ha => ?_, fun hk => ?_⟩
  · rw [hreservations]
    exact (Nat.add_le_add_right hcompletions _).trans h.room
  · rw [hreservations, h.reserved, Pcu.pending, Pcu.pending, haccess]
  · obtain ⟨e, he, ht⟩ := h.head (haccess ▸ ha)
    exact ⟨e, hqueue e he, ht⟩
  · obtain ⟨ha, hne⟩ := h.taking hk
    obtain ⟨e, rest, hcons⟩ := List.exists_cons_of_ne_nil hne
    refine ⟨haccess.trans ha, fun hnil => ?_⟩
    have := hqueue e (by rw [hcons]; rfl)
    rw [hnil] at this
    cases this

theorem Pcu.SameWork.sameAccount {u v : Pcu} (h : u.SameWork v) : u.SameAccount v := by
  obtain ⟨hcompletions, hqueue, haccess, -, -, hreservations, -⟩ := h
  exact ⟨by rw [hcompletions], hreservations, haccess, fun e he => by rwa [hqueue]⟩

/-- A change that leaves every port's account, and who waits where. -/
structure State.SameAccounts (s t : State) : Prop where
  pcu : ∀ q, (s.pcu q).SameAccount (t.pcu q)
  waiters : ∀ i, (t.window? i).map Window.waiters = (s.window? i).map Window.waiters
  jobs : ∀ c q, delivers (t.job c) q = delivers (s.job c) q

namespace State.SameAccounts

variable {s t u : State}

theorem refl (s : State) : s.SameAccounts s := ⟨fun _ => .refl _, fun _ => rfl, fun _ _ => rfl⟩

theorem trans (h : s.SameAccounts t) (k : t.SameAccounts u) : s.SameAccounts u :=
  ⟨fun q => (h.pcu q).trans (k.pcu q), fun i => (k.waiters i).trans (h.waiters i),
    fun c q => (k.jobs c q).trans (h.jobs c q)⟩

/-- A change of other fields. -/
theorem of_eq (hp : t.pcus = s.pcus) (hw : t.windows = s.windows) (h0 : t.c0 = s.c0) (h1 : t.c1 = s.c1) :
    s.SameAccounts t where
  pcu q := by
    rw [State.pcu, State.pcu, hp]
    exact .refl _
  waiters i := by rw [State.window?_of_windows hw]
  jobs c q := by
    cases c
    · exact congrArg (delivers · q) h0
    · exact congrArg (delivers · q) h1

theorem setPcu {p : Port} {v : Pcu} (h : (s.pcu p).SameAccount v) : s.SameAccounts (s.setPcu p v) where
  pcu q := by
    rw [State.pcu_setPcu]
    split
    · next hq => rw [hq]; exact h
    · exact .refl _
  waiters _ := rfl
  jobs _ _ := rfl

theorem setWindow {i : Nat} {w v : Window} (hw : s.window? i = some w) (h : v.waiters = w.waiters) :
    s.SameAccounts (s.setWindow i (some v)) where
  pcu _ := .refl _
  waiters k := by
    by_cases hk : k = i
    · rw [hk, State.window?_setWindow_same _ (State.window?_eq_some_lt hw), hw, Option.map_some, Option.map_some, h]
    · rw [State.window?_setWindow_ne _ _ hk]
  jobs _ _ := rfl

theorem setJob {c : Channel} {x : Option Job} (h : ∀ q, delivers x q = delivers (s.job c) q) :
    s.SameAccounts (s.setJob c x) where
  pcu q := by rw [State.pcu_setJob]; exact .refl _
  waiters i := by cases c <;> rfl
  jobs d q := by
    rw [State.job_setJob]
    split
    · next hd => rw [hd, h]
    · rfl

/-- The handling of lines gives notices and fault counts at most. -/
theorem handles (h : s.Handles t) : s.SameAccounts t where
  pcu q := (h.work q).sameAccount
  waiters i := by
    cases hs : s.window? i with
    | none => rw [(h.mends.absent i).2 hs]
    | some w =>
      obtain ⟨v, hv⟩ := Option.ne_none_iff_exists'.1 (mt (h.mends.absent i).1 (by rw [hs]; exact Option.some_ne_none _))
      have same : w.SameButFaults v := h.mends.present i w v hs hv
      have waiters : v.waiters = w.waiters := (congrArg Window.waiters same).trans rfl
      rw [hv, Option.map_some, Option.map_some, waiters]
  jobs c q := by rw [h.mends.job c]

theorem waitsOn (h : s.SameAccounts t) (i : Nat) (p : Port) :
    Machine.waitsOn (t.window? i) p = Machine.waitsOn (s.window? i) p := by
  have same := congrArg (Option.any (fun l : List Waiter => l.any (fun x => x.port == p))) (h.waiters i)
  rwa [Option.any_map, Option.any_map] at same

theorem waitCount (h : s.SameAccounts t) (p : Port) : t.waitCount p = s.waitCount p :=
  congrArg List.length (List.filter_congr fun i _ => h.waitsOn i p)

theorem deliverCount (h : s.SameAccounts t) (p : Port) : t.deliverCount p = s.deliverCount p :=
  congrArg List.length (List.filter_congr fun c _ => h.jobs c p)

end State.SameAccounts

namespace State.Balanced

variable {D : Port → Prop} {tk : Option Port} {L : List Port} {s t : State}

theorem keeps (h : s.Balanced D tk L) (k : s.SameAccounts t) : t.Balanced D tk L where
  distinct i v hv := by
    have same := k.waiters i
    rw [hv] at same
    obtain ⟨w, hw, heq⟩ := Option.map_eq_some_iff.1 same.symm
    show (v.waiters.map _).Nodup
    rw [← heq]
    exact h.distinct i w hw
  account q hq := by
    rw [k.waitCount, k.deliverCount]
    exact (h.account q hq).keeps (k.pcu q)

/-- A change of one port's PCU, with what it takes over and what it leaves to be written. -/
theorem setPcu {p : Port} {v : Pcu} {tk' : Option Port} {L' : List Port} (h : s.Balanced D tk L)
    (other : ∀ q, q ≠ p → (tk' == some q) = (tk == some q) ∧ L'.count q = L.count q)
    (own : D p → v.Accounts (tk' == some p) (L'.count p + s.waitCount p + s.deliverCount p)) :
    (s.setPcu p v).Balanced D tk' L' where
  distinct := h.distinct
  account q hq := by
    rw [State.pcu_setPcu]
    split
    · next hp =>
      subst hp
      exact own hq
    · next hp =>
      obtain ⟨htk, hL⟩ := other q hp
      rw [htk, hL]
      exact h.account q hq

/-- A completion that was about to be written is written (R177, R181). -/
theorem complete {p : Port} (h : s.Balanced D tk (p :: L)) (c : Completion) :
    (s.complete p c).Balanced D tk L := by
  refine h.setPcu (fun q hq => ⟨rfl, (List.count_cons_of_ne fun e => hq e.symm).symm⟩) fun hp => ?_
  have account := h.account p hp
  rw [List.count_cons_self, show L.count p + 1 + s.waitCount p + s.deliverCount p =
    L.count p + s.waitCount p + s.deliverCount p + 1 by omega] at account
  exact account.complete c

/-- Waits that have ended complete, one after another (R33, R48). -/
theorem completeWaits (o : OutcomeCode) (l : List Waiter) (h : s.Balanced D tk (l.map Waiter.port ++ L)) :
    (l.foldl (fun t x => t.completeWait x o) s).Balanced D tk L := by
  induction l generalizing s with
  | nil => exact h
  | cons x l ih => exact ih (h.complete _)

end State.Balanced

end Sys2Proof.Machine


/-! PROOFS. What the operations on windows, jobs and PCUs make of the accounts (R171, R177, R178). -/

namespace Sys2Proof.Machine

/-! ### Waiter queues -/

theorem Window.toNat_waits {w : Window} (h : (w.waiters.map Waiter.port).Nodup) (p : Port) :
    (w.waits p).toNat = (w.waiters.map Waiter.port).count p := by
  have waits : w.waits p = decide (p ∈ w.waiters.map Waiter.port) := by
    rw [Bool.eq_iff_iff, decide_eq_true_iff, Window.waits, List.any_eq_true, List.mem_map]
    simp only [beq_iff_eq]
  rw [waits, h.count]
  by_cases hp : p ∈ w.waiters.map Waiter.port
  · rw [if_pos hp, decide_eq_true hp]
    rfl
  · rw [if_neg hp, decide_eq_false hp]
    rfl

/-- The waiter that leaves a queue and those that stay. -/
theorem Window.removeWaiter_perm {w : Window} {p : Port} {x : Waiter}
    (h : (w.waiters.map Waiter.port).Nodup) (hx : w.waiters.find? (fun y => y.port == p) = some x) :
    ((w.removeWaiter p).waiters ++ [x]).Perm w.waiters := by
  obtain ⟨hp, before, after, hsplit, hbefore⟩ := List.find?_eq_some_iff_append.1 hx
  rw [beq_iff_eq] at hp
  have apart : ∀ y ∈ before ++ after, y.port ≠ p := by
    rw [hsplit, List.map_append, List.map_cons, List.nodup_middle, List.nodup_cons] at h
    obtain ⟨hnot, -⟩ := h
    rw [← List.map_append] at hnot
    exact fun y hy e => hnot (List.mem_map.2 ⟨y, hy, e.trans hp.symm⟩)
  have stay : (w.removeWaiter p).waiters = before ++ after := by
    show w.waiters.filter (fun y => y.port != p) = _
    rw [hsplit, List.filter_append, List.filter_cons_of_neg (by simp [hp]), ← List.filter_append]
    exact List.filter_eq_self.2 fun y hy => bne_iff_ne.2 (apart y hy)
  rw [stay, hsplit, List.append_assoc]
  exact List.Perm.append_left _ (List.perm_append_singleton ..)

theorem waitsOn_of_no_waiters {w : Option Window} (h : ∀ v, w = some v → v.waiters = []) (p : Port) :
    waitsOn w p = false := by
  cases w with
  | none => rfl
  | some v =>
    show v.waiters.any _ = false
    rw [h v rfl]
    rfl

theorem State.setWindow_of_le (s : State) {i : Nat} (h : 32 ≤ i) (w : Option Window) : s.setWindow i w = s := by
  unfold State.setWindow
  rw [Vector.setIfInBounds_eq_of_size_le h]

theorem foldl_completeWait_setWindow (l : List Waiter) (o : OutcomeCode) (s : State) (i : Nat)
    (w : Option Window) : (l.foldl (fun t x => t.completeWait x o) s).setWindow i w =
      l.foldl (fun t x => t.completeWait x o) (s.setWindow i w) := by
  induction l generalizing s with
  | nil => rfl
  | cons x l ih => exact ih (s.completeWait x o)

/-! ### Changes that leave the accounts -/

namespace State.SameAccounts

variable {s : State}

theorem setGuard (s : State) (i : Nat) (f : Guard → Guard) : s.SameAccounts (s.setGuard i f) := by
  unfold State.setGuard
  split
  · exact .refl s
  · next w hw => exact .setWindow hw rfl

theorem touch (s : State) (p : Port) (i : Nat) : s.SameAccounts (s.touch p i) := by
  unfold State.touch
  split
  · exact .refl s
  · next w hw =>
    split
    · exact .setWindow hw rfl
    · exact .refl s

theorem touchIf (s : State) (good : Bool) (p : Port) (i : Nat) : s.SameAccounts (s.touchIf good p i) := by
  cases good
  · exact .refl s
  · exact .touch ..

theorem touchStep (s : State) (j : Job) : s.SameAccounts (s.touchStep j) := by
  unfold State.touchStep
  cases j.source with
  | none => exact .touch ..
  | some x => exact (touch ..).trans (.touch ..)

theorem post (s : State) (p : Port) (n : Notice) : s.SameAccounts (s.post p n) :=
  .setPcu (Pcu.SameWork.post ..).sameAccount

/-- One change for each port, where the port calls for it. -/
theorem foldl {α : Type} {f : State → α → State} (h : ∀ t a, State.SameAccounts t (f t a)) (l : List α) (s : State) :
    s.SameAccounts (l.foldl f s) := by
  induction l generalizing s with
  | nil => exact .refl s
  | cons a l ih => exact (h s a).trans (ih _)

/-- The job of a channel changes, but not who is to receive its completion. -/
theorem setJob_of {c : Channel} {j k : Job} (hj : s.job c = some j) (ho : k.owner = j.owner)
    (hd : k.deliver = j.deliver) : s.SameAccounts (s.setJob c (some k)) :=
  .setJob fun q => by
    rw [hj]
    show (k.owner == q && k.deliver) = (j.owner == q && j.deliver)
    rw [ho, hd]

theorem endTeardown (u : Pcu) : u.SameAccount u.endTeardown := by
  unfold Pcu.endTeardown
  split
  · exact ⟨Nat.le_refl _, rfl, rfl, fun _ => id⟩
  · exact .refl u

end State.SameAccounts

namespace State.Balanced

variable {D : Port → Prop} {tk : Option Port} {L : List Port} {s : State}

/-! ### Windows -/

/-- Waiters leave a window's queue, their completions to be written (R33, R34, R37, R48). -/
theorem endWaits (h : s.Balanced D tk L) {i : Nat} {w v : Window} (hw : s.window? i = some w)
    {l : List Waiter} (perm : (v.waiters ++ l).Perm w.waiters) :
    (s.setWindow i (some v)).Balanced D tk (l.map Waiter.port ++ L) := by
  have hi := State.window?_eq_some_lt hw
  have before := h.distinct i w hw
  have split := perm.map Waiter.port
  rw [List.map_append] at split
  have after : (v.waiters.map Waiter.port).Nodup := (List.nodup_append.1 (split.nodup_iff.2 before)).1
  refine ⟨fun k x hx => ?_, fun q hq => ?_⟩
  · by_cases hk : k = i
    · rw [hk, State.window?_setWindow_same _ hi] at hx
      cases hx
      exact after
    · rw [State.window?_setWindow_ne _ _ hk] at hx
      exact h.distinct k x hx
  · have count : (s.setWindow i (some v)).waitCount q + (w.waits q).toNat =
        s.waitCount q + (v.waits q).toNat := by
      have := s.waitCount_setWindow hi (some v) q
      rwa [hw] at this
    rw [Window.toNat_waits before, Window.toNat_waits after, ← split.count_eq, List.count_append] at count
    have total : (l.map Waiter.port ++ L).count q + (s.setWindow i (some v)).waitCount q +
        (s.setWindow i (some v)).deliverCount q = L.count q + s.waitCount q + s.deliverCount q := by
      rw [List.count_append, show (s.setWindow i (some v)).deliverCount q = s.deliverCount q from rfl]
      omega
    rw [total]
    exact h.account q hq

/-- A record on which nobody waits takes the place of another. -/
theorem replaceWindow (h : s.Balanced D tk L) {i : Nat} {w : Option Window}
    (hold : ∀ v, s.window? i = some v → v.waiters = []) (hnew : ∀ v, w = some v → v.waiters = []) :
    (s.setWindow i w).Balanced D tk L := by
  rcases Nat.lt_or_ge i 32 with hi | hi
  · refine ⟨fun k x hx => ?_, fun q hq => ?_⟩
    · by_cases hk : k = i
      · rw [hk, State.window?_setWindow_same _ hi] at hx
        show (x.waiters.map _).Nodup
        rw [hnew x hx]
        exact List.nodup_nil
      · rw [State.window?_setWindow_ne _ _ hk] at hx
        exact h.distinct k x hx
    · have count := s.waitCount_setWindow hi w q
      rw [waitsOn_of_no_waiters hold, waitsOn_of_no_waiters hnew] at count
      rw [show (s.setWindow i w).waitCount q = s.waitCount q from count]
      exact h.account q hq
  · rw [State.setWindow_of_le s hi]
    exact h

theorem grantPass (h : s.Balanced D tk L) (i : Nat) : (s.grantPass i).Balanced D tk L := by
  cases hw : s.window? i with
  | none =>
    unfold State.grantPass
    rw [hw]
    exact h
  | some w =>
    rw [State.grantPass_of_window hw]
    refine completeWaits .ok w.passGrants (h.endWaits hw ?_)
    have stay : (w.afterPass s.msCount).waiters = w.waiters.drop w.passGrants.length :=
      (congrArg Window.waiters (w.afterPass_eq s.msCount)).trans rfl
    obtain ⟨rest, hrest⟩ := w.passGrants_prefix
    rw [stay, ← hrest, List.drop_left]
    exact List.perm_append_comm

/-- A waiter leaves the queue and its CLAIM completes (R34, R37). -/
theorem endWait (h : s.Balanced D tk L) {i : Nat} {w : Window} {p : Port} {x : Waiter}
    (hw : s.window? i = some w) (hx : w.waiters.find? (fun y => y.port == p) = some x) (o : OutcomeCode) :
    ((s.setWindow i (some (w.removeWaiter p))).completeWait x o).Balanced D tk L :=
  (h.endWaits hw (Window.removeWaiter_perm (h.distinct i w hw) hx)).complete _

theorem revoke (h : s.Balanced D tk L) (i : Nat) : (s.revoke i).Balanced D tk L := by
  unfold State.revoke
  cases hw : s.window? i with
  | none => exact h
  | some w =>
    have posted : s.SameAccounts
        (Port.all.foldl (fun t p => if w.holds p then t.post p (.claimRevoked i) else t) s) :=
      .foldl (fun t p => by split; exacts [.post .., .refl t]) _ s
    have windows : (Port.all.foldl (fun t p => if w.holds p then t.post p (.claimRevoked i) else t) s).window? i =
        some w := by
      rw [← hw]
      simp only [Port.all, List.foldl_cons, List.foldl_nil]
      split <;> split <;> split <;> split <;> rfl
    dsimp only
    rw [foldl_completeWait_setWindow]
    exact completeWaits .revoked w.waiters ((h.keeps posted).endWaits windows (List.Perm.refl w.waiters))

theorem leaseExpire (h : s.Balanced D tk L) (i : Nat) (p : Port) : (s.leaseExpire i p).Balanced D tk L := by
  unfold State.leaseExpire
  split
  · exact h
  · next w hw =>
    split
    · exact h
    · split
      · have ended : s.SameAccounts (s.setWindow i (some (w.removeHolder p))) := .setWindow hw rfl
        exact (h.keeps (ended.trans (.post ..))).grantPass i
      · exact h

theorem waitExpire (h : s.Balanced D tk L) (i : Nat) (p : Port) : (s.waitExpire i p).Balanced D tk L := by
  unfold State.waitExpire
  split
  · exact h
  · next w hw =>
    split
    · exact h
    · next x hx =>
      split
      · exact (h.endWait hw hx .timedOut).grantPass i
      · exact h

theorem leaseLow (h : s.Balanced D tk L) (i : Nat) (p : Port) : (s.leaseLow i p).Balanced D tk L := by
  refine h.keeps ?_
  unfold State.leaseLow
  split
  · exact .refl s
  · next w hw =>
    split
    · exact .refl s
    · split
      · refine State.SameAccounts.trans (.setWindow hw ?_) (.post ..)
        rfl
      · exact .refl s

/-! ### Jobs -/

/-- A channel is freed, the completion of its job to be written where it reports (R146). -/
theorem freeJob (h : s.Balanced D tk L) {c : Channel} {j : Job} (hj : s.job c = some j)
    (hd : j.deliver = true) : (s.setJob c none).Balanced D tk (j.owner :: L) := by
  refine ⟨fun i w hw => h.distinct i w (by cases c <;> exact hw), fun q hq => ?_⟩
  have count := s.deliverCount_setJob c none q
  rw [hj] at count
  have total : (j.owner :: L).count q + (s.setJob c none).waitCount q + (s.setJob c none).deliverCount q =
      L.count q + s.waitCount q + s.deliverCount q := by
    have waits : (s.setJob c none).waitCount q = s.waitCount q := by cases c <;> rfl
    have one : (delivers (some j) q).toNat = if j.owner == q then 1 else 0 := by
      show (j.owner == q && j.deliver).toNat = _
      rw [hd, Bool.and_true]
      cases j.owner == q <;> rfl
    rw [one] at count
    rw [List.count_cons, waits]
    have none : (delivers none q).toNat = 0 := rfl
    omega
  rw [total, State.pcu_setJob]
  exact h.account q hq

theorem endJob (h : s.Balanced D tk L) (c : Channel) (o : OutcomeCode) : (s.endJob c o).Balanced D tk L := by
  cases hj : s.job c with
  | none =>
    unfold State.endJob
    rw [hj]
    exact h
  | some j =>
    cases hd : j.deliver with
    | true =>
      rw [State.endJob_deliver hj hd]
      exact (h.freeJob hj hd).complete _
    | false =>
      have freed : s.SameAccounts (s.setJob c none) := .setJob fun q => by
        rw [hj]
        show false = (j.owner == q && j.deliver)
        rw [hd, Bool.and_false]
      refine h.keeps (freed.trans ?_)
      have same (u : Pcu) (hu : ((s.setJob c none).pcu j.owner).SameAccount u) :
          (s.setJob c none).SameAccounts ((s.setJob c none).setPcu j.owner u) := .setPcu hu
      by_cases hk : j.kind = .wipe
      · rw [State.endJob_discard_wipe hj hd hk]
        refine same _ ?_
        rw [State.pcu_setJob]
        exact ⟨Nat.le_refl _, rfl, rfl, fun _ => id⟩
      · rw [State.endJob_discard hj hd hk]
        refine same _ (Pcu.SameAccount.trans ?_ (State.SameAccounts.endTeardown _))
        rw [State.pcu_setJob]
        exact ⟨Nat.le_refl _, rfl, rfl, fun _ => id⟩

/-! ### A command taken -/

variable {p : Port}

theorem beginTake (h : s.Balanced D none L) (hp : D p) {tag : Byte} {c : Command} {rest : List Entry}
    (ht : s.takes p tag c rest) : (s.beginTake p).Balanced D (some p) L := by
  obtain ⟨-, hq, room⟩ := ht
  have begun := (h.account p hp).begins (by rw [hq]; rfl) rfl room
  refine h.setPcu (fun q hne => ⟨beq_eq_false_iff_ne.2 fun e => hne (Option.some.inj e).symm, rfl⟩) fun _ => ?_
  rw [beq_self_eq_true]
  exact begun

/-- The port's command is no longer being taken: what its PCU becomes has the account of that. -/
theorem taken (h : s.Balanced D (some p) L) {v : Pcu}
    (hv : ∀ n, (s.pcu p).Accounts true n → v.Accounts false n) : (s.setPcu p v).Balanced D none L := by
  refine h.setPcu (fun q hne => ⟨(beq_eq_false_iff_ne.2 fun e => hne (Option.some.inj e).symm).symm, rfl⟩)
    fun hp => ?_
  have account := h.account p hp
  rw [beq_self_eq_true] at account
  exact hv _ account

theorem finish (h : s.Balanced D (some p) L) (tag : Byte) (k : CommandKind) (o : OutcomeCode) :
    (s.finish p tag k o).Balanced D none L := h.taken fun _ a => a.finishes _

theorem formAccess (h : s.Balanced D (some p) L) (tag : Byte) (b : AccessBody) :
    (s.formAccess p tag b).Balanced D none L := h.taken fun _ a => a.forms _

/-- The CLAIM taken joins a waiter queue and leaves the command queue (R29). -/
theorem joinWait (h : s.Balanced D (some p) L) {i : Nat} {w : Window} (hw : s.window? i = some w)
    (hn : w.waits p = false) {x : Waiter} (hx : x.port = p) :
    ((s.setWindow i (some { w with waiters := w.waiters ++ [x] })).leaveQueue p).Balanced D none L := by
  have hi := State.window?_eq_some_lt hw
  have joined : Window.waits { w with waiters := w.waiters ++ [x] } p = true := by
    rw [Window.waits, List.any_append, Bool.or_eq_true]
    exact .inr (List.any_eq_true.2 ⟨x, List.mem_singleton_self x, beq_iff_eq.2 hx⟩)
  refine ⟨fun k v hv => ?_, fun q hq => ?_⟩
  · by_cases hk : k = i
    · have hv' : (s.setWindow i (some { w with waiters := w.waiters ++ [x] })).window? k = some v := hv
      rw [hk, State.window?_setWindow_same _ hi] at hv'
      cases hv'
      show ((w.waiters ++ [x]).map Waiter.port).Nodup
      rw [List.map_append, List.map_singleton, hx, List.nodup_append_comm, List.singleton_append, List.nodup_cons]
      refine ⟨fun hmem => ?_, h.distinct i w hw⟩
      obtain ⟨y, hy, hyp⟩ := List.mem_map.1 hmem
      exact Window.waits_eq_false.1 hn y hy hyp
    · refine h.distinct k v ?_
      rw [← State.window?_setWindow_ne s (some { w with waiters := w.waiters ++ [x] }) hk]
      exact hv
  · have count := s.waitCount_setWindow hi (some { w with waiters := w.waiters ++ [x] }) q
    rw [hw] at count
    have account := h.account q hq
    show Pcu.Accounts (State.pcu (s.setPcu p (s.pcu p).popHead) q) _
      (L.count q + (s.setWindow i (some { w with waiters := w.waiters ++ [x] })).waitCount q + s.deliverCount q)
    by_cases hp : q = p
    · subst hp
      rw [show waitsOn (some w) q = false from hn, show waitsOn (some { w with waiters := w.waiters ++ [x] }) q = true
        from joined, Bool.toNat_false, Bool.toNat_true] at count
      rw [beq_self_eq_true] at account
      have left := account.leaves
      rw [State.pcu_setPcu_same]
      have total : L.count q + (s.setWindow i (some { w with waiters := w.waiters ++ [x] })).waitCount q +
          s.deliverCount q = L.count q + s.waitCount q + s.deliverCount q + 1 := by omega
      rw [total]
      exact left
    · have same : waitsOn (some { w with waiters := w.waiters ++ [x] }) q = waitsOn (some w) q := by
        show (w.waiters ++ [x]).any _ = w.waiters.any _
        rw [List.any_append, List.any_cons, List.any_nil, Bool.or_false, hx,
          beq_eq_false_iff_ne.2 fun e => hp e.symm, Bool.or_false]
      rw [same] at count
      rw [State.pcu_setPcu_ne _ _ hp, Nat.add_right_cancel count]
      rwa [beq_eq_false_iff_ne.2 fun e => hp (Option.some.inj e).symm] at account

/-- The job of the command taken starts on a free channel (R133, R137). -/
theorem startJob (h : s.Balanced D (some p) L) {j : Job} (hf : s.freeChannel?.isSome = true)
    (ho : j.owner = p) (hd : j.deliver = true) : ((s.startJob j).leaveQueue p).Balanced D none L := by
  obtain ⟨c, hc⟩ := Option.isSome_iff_exists.1 hf
  have free : s.job c = none := by
    unfold State.freeChannel? at hc
    split at hc
    · next h0 =>
      cases hc
      exact Option.isNone_iff_eq_none.1 h0
    · split at hc
      · next h1 =>
        cases hc
        exact Option.isNone_iff_eq_none.1 h1
      · cases hc
  have started : s.startJob j = s.setJob c (some j) := by
    unfold State.startJob
    rw [hc]
  rw [started, State.leaveQueue, State.pcu_setJob]
  refine ⟨fun i w hw => h.distinct i w (by cases c <;> exact hw), fun q hq => ?_⟩
  have count := s.deliverCount_setJob c (some j) q
  have waits : (s.setJob c (some j)).waitCount q = s.waitCount q := by cases c <;> rfl
  have one : delivers (some j) q = (p == q) := by
    show (j.owner == q && j.deliver) = _
    rw [ho, hd, Bool.and_true]
  rw [free, one, show delivers none q = false from rfl, Bool.toNat_false, Nat.add_zero] at count
  have account := h.account q hq
  show Pcu.Accounts (State.pcu ((s.setJob c (some j)).setPcu p (s.pcu p).popHead) q) _
    (L.count q + (s.setJob c (some j)).waitCount q + (s.setJob c (some j)).deliverCount q)
  rw [waits, count]
  by_cases hp : q = p
  · subst hp
    rw [beq_self_eq_true] at account
    rw [State.pcu_setPcu_same, beq_self_eq_true]
    exact account.leaves
  · rw [State.pcu_setPcu_ne _ _ hp, State.pcu_setJob, beq_eq_false_iff_ne.2 fun e => hp e.symm]
    rwa [beq_eq_false_iff_ne.2 fun e => hp (Option.some.inj e).symm] at account

/-! ### The arbiter -/

theorem endAccess (h : s.Balanced D none L) (p : Port) (k : CommandKind) (o : OutcomeCode) (e : Extra) :
    (s.endAccess p k o e).Balanced D none L := by
  unfold State.endAccess
  dsimp only
  split
  · refine h.keeps (.setPcu (Pcu.SameAccount.trans ?_ (State.SameAccounts.endTeardown _)))
    exact ⟨Nat.le_refl _, rfl, rfl, fun _ => id⟩
  · split
    · exact h
    · next a ha => exact h.setPcu (fun _ _ => ⟨rfl, rfl⟩) fun hp => (h.account p hp).accessEnds ha _

theorem startAccess (h : s.Balanced D tk L) (x : Slot) (work : Work) : (s.startAccess x work).Balanced D tk L :=
  h.keeps (.of_eq rfl rfl rfl rfl)

theorem grantPort (h : s.Balanced D none L) (p : Port) : (s.grantPort p).Balanced D none L := by
  unfold State.grantPort
  split
  · exact h
  · split
    · dsimp only
      split
      · exact h.startAccess ..
      · exact h.endAccess ..
    · dsimp only
      split
      · exact h.startAccess ..
      · exact h.endAccess ..
    · exact h.startAccess ..

theorem grantChannel (h : s.Balanced D tk L) (c : Channel) : (s.grantChannel c).Balanced D tk L := by
  unfold State.grantChannel
  split
  · exact h
  · dsimp only
    split
    · split
      · exact h.startAccess ..
      · exact h.endJob ..
    · split
      · exact h.startAccess ..
      · exact h.endJob ..
    · exact h.startAccess ..
    · exact h.endJob ..

theorem grantNow (h : s.Balanced D none L) : s.grantNow.Balanced D none L := by
  unfold State.grantNow
  split
  · next r _ =>
    have turned (x : Slot) : State.Balanced D none L { s with rotation := x } := h.keeps (.of_eq rfl rfl rfl rfl)
    match r with
    | .scrub => exact h.keeps (.of_eq rfl rfl rfl rfl)
    | .slot (.port p) => exact (turned _).grantPort p
    | .slot (.channel c) => exact (turned _).grantChannel c
  · exact h

theorem arrive (h : s.Balanced D none L) (before : State) : (arrive before s).Balanced D none L := by
  unfold Machine.arrive
  split
  · exact h.grantNow
  · exact h

end State.Balanced

end Sys2Proof.Machine


/-! PROOFS. What the takings make of the accounts (R173 to R178). -/

namespace Sys2Proof.Machine

namespace State.SameAccounts

variable {s : State}

theorem compareMaster (s : State) (b : Bool) : s.SameAccounts (s.compareMaster b) := .of_eq rfl rfl rfl rfl

theorem wipeAuthority (s : State) (p : Port) (i sel : Byte) (key : Key) (w : Window) :
    s.SameAccounts (wipeAuthority s p i sel key w).2 := by
  rcases wipeAuthority_cases s p i sel key w with e | ⟨b, e⟩ | ⟨b, e⟩
  · rw [e]
    exact .refl s
  · rw [e]
    exact .setGuard ..
  · rw [e]
    exact .compareMaster ..

end State.SameAccounts

/-- A WIPE that has the authority still finds its window (R69, R70). -/
theorem window?_wipeAuthority {s : State} {p : Port} {i sel : Byte} {key : Key} {w : Window}
    (hw : s.window? i.toNat = some w) : ∃ v, (wipeAuthority s p i sel key w).2.window? i.toNat = some v := by
  have same := (State.SameAccounts.wipeAuthority s p i sel key w).waiters i.toNat
  rw [hw] at same
  obtain ⟨v, hv, -⟩ := Option.map_eq_some_iff.1 same
  exact ⟨v, hv⟩

theorem State.job_revokeJob_eq_none {s : State} {i : Nat} {c d : Channel} (h : s.job d = none) :
    (s.revokeJob i c).job d = none := by
  rw [State.job_revokeJob]
  split
  · next hd => exact State.revokedJob_of_free (hd ▸ h)
  · exact h

theorem State.freeChannel?_isSome_of_free {s t : State} (h : s.freeChannel?.isSome = true)
    (k : ∀ d, s.job d = none → t.job d = none) : t.freeChannel?.isSome = true := by
  rw [State.freeChannel?_isSome] at h ⊢
  exact h.imp (k .c0) (k .c1)

/-- An INJECT that passes its checks names a kind (R91). -/
theorem injectKindOf_of_ok {s : State} {p : Port} {line : BitVec 16} {kind : Byte}
    (h : injectOutcome s p line kind = .ok) : ∃ k, injectKindOf kind = some k := by
  unfold injectOutcome at h
  rw [firstFail_eq_ok (by simp [State.layoutChecks])] at h
  have passes := h (decide (line.toNat ≤ 16383) && (injectKindOf kind).isSome, .badParameter) (by simp)
  rw [Bool.and_eq_true] at passes
  exact Option.isSome_iff_exists.1 passes.2

/-- DEFINE WINDOW finds no window at its index (R12, check 4). -/
theorem window?_of_defineOutcome {s : State} {p : Port} {i : Byte} {base len : BitVec 16} {pol : Byte}
    {lease wait : BitVec 16} (h : defineOutcome s p i base len pol lease wait = .ok) :
    s.window? i.toNat = none := by
  unfold defineOutcome at h
  rw [firstFail_eq_ok (by simp [State.layoutChecks])] at h
  exact Option.isNone_iff_eq_none.1 (h ((s.window? i.toNat).isNone, .exists) (by simp))

theorem freeChannel?_of_copyStartOutcome {s : State} {a b : Place} {n : Nat}
    (h : copyStartOutcome s a b n = .ok) : s.freeChannel?.isSome = true :=
  State.freeChannel?_isSome.2 (channelFree_of_copyStartOutcome h)

theorem freeChannel?_of_fillStartOutcome {s : State} {b : Place} {n : Nat}
    (h : fillStartOutcome s b n = .ok) : s.freeChannel?.isSome = true :=
  State.freeChannel?_isSome.2 (channelFree_of_fillStartOutcome h)

namespace State.Balanced

variable {D : Port → Prop} {tk : Option Port} {L : List Port} {s : State} {p : Port}

theorem finishWith (h : s.Balanced D (some p) L) (tag : Byte) (k : CommandKind) (o : OutcomeCode)
    {effect : State} (he : o = .ok → effect.Balanced D (some p) L) :
    (s.finishWith p tag k o effect).Balanced D none L := by
  unfold State.finishWith
  split
  · next ho => exact (he ho).finish ..
  · exact h.finish ..

theorem doClaim (h : s.Balanced D (some p) L) (tag i kind wait : Byte) :
    (doClaim s p tag i kind wait).Balanced D none L := by
  unfold Machine.doClaim
  split
  · next ok =>
    obtain ⟨w, k, c, hw, hk, hc, -, -, -, -, hwaits⟩ := claimOutcome_ok ok
    rw [hw, hk, hc]
    dsimp only
    unfold claimDecide
    split
    · have granted : s.SameAccounts (s.setWindow i.toNat (some (w.grantClaim p k s.msCount))) :=
        .setWindow hw rfl
      exact (h.keeps granted).finish ..
    · split
      · exact h.joinWait hw hwaits rfl
      · exact h.finish ..
  · exact h.finish ..

theorem doRelease (h : s.Balanced D (some p) L) (tag i : Byte) : (doRelease s p tag i).Balanced D none L := by
  unfold Machine.doRelease
  dsimp only
  split
  · exact h.finish ..
  · next w hw =>
    split
    · have ended : s.SameAccounts (s.setWindow i.toNat (some (w.removeHolder p))) := .setWindow hw rfl
      exact ((h.keeps ended).finish ..).grantPass _
    · split
      · next x hx => exact ((h.endWait hw hx .cancelled).finish ..).grantPass _
      · exact h.finish ..

theorem doRenew (h : s.Balanced D (some p) L) (tag i : Byte) : (doRenew s p tag i).Balanced D none L := by
  unfold Machine.doRenew
  split
  · exact h.finish ..
  · next w hw =>
    split
    · have renewed : s.SameAccounts (s.setWindow i.toNat (some (w.beginTerm p s.msCount))) := .setWindow hw rfl
      exact (h.keeps renewed).finish ..
    · exact h.finish ..

theorem doUnlock (h : s.Balanced D (some p) L) (tag i sel : Byte) (key : Key) :
    (doUnlock s p tag i sel key).Balanced D none L := by
  unfold Machine.doUnlock
  split
  · next ok =>
    obtain ⟨w, x, hw, hx, -, -⟩ := unlockOutcome_ok ok
    rw [hw, hx]
    dsimp only
    have joined := h.keeps (.setGuard s i.toNat (fun g => { g with unlocked := g.unlocked.set p true }))
    unfold unlockCompare
    dsimp only
    split
    · split
      · exact (joined.keeps (.compareMaster ..)).finish ..
      · exact (h.keeps (.compareMaster ..)).finish ..
    · split
      · exact (joined.keeps (.setGuard ..)).finish ..
      · exact (h.keeps (.setGuard ..)).finish ..
  · exact h.finish ..

theorem doLock (h : s.Balanced D (some p) L) (tag i : Byte) : (doLock s p tag i).Balanced D none L := by
  unfold Machine.doLock
  split
  · exact h.finish ..
  · exact (h.keeps (.setGuard ..)).finish ..

theorem doSetMasterKey (h : s.Balanced D (some p) L) (tag : Byte) (a b : Key) :
    (doSetMasterKey s p tag a b).Balanced D none L := by
  have keyed : State.Balanced D (some p) L { s with masterKey := some b, masterAttempts := 4 } :=
    h.keeps (.of_eq rfl rfl rfl rfl)
  unfold Machine.doSetMasterKey
  dsimp only
  split
  · split
    · exact keyed.finish ..
    · split
      · exact h.finish ..
      · split
        · exact keyed.finish ..
        · exact (h.keeps (.compareMaster ..)).finish ..
  · exact h.finish ..

/-! ### Jobs -/

theorem revokeJob (h : s.Balanced D tk L) (i : Nat) (c : Channel) : (s.revokeJob i c).Balanced D tk L := by
  unfold State.revokeJob
  split
  · exact h
  · next j hj =>
    split
    · split
      · split
        · exact h.keeps (.setJob_of hj rfl rfl)
        · exact h
      · exact h.endJob ..
    · exact h

theorem wipeStart (h : s.Balanced D (some p) L) (hf : s.freeChannel?.isSome = true) (tag : Byte) {i : Nat}
    {w : Window} (hw : s.window? i = some w) : (s.wipeStart p tag i w).Balanced D none L := by
  have wiping : s.SameAccounts (s.setWindow i (some w.startWiping)) := .setWindow hw rfl
  have calm := State.Calm.revoke (s.setWindow i (some w.startWiping)) i
  have free := State.freeChannel?_isSome_of_free hf
    (t := (((s.setWindow i (some w.startWiping)).revoke i).revokeJob i .c0).revokeJob i .c1) fun d hd =>
      State.job_revokeJob_eq_none (State.job_revokeJob_eq_none ((calm.job d).trans hd))
  exact ((((h.keeps wiping).revoke i).revokeJob i .c0).revokeJob i .c1).startJob free rfl rfl

theorem doWipe (h : s.Balanced D (some p) L) (tag i sel : Byte) (key : Key) (b : Bool) :
    (doWipe s p tag i sel key b).Balanced D none L := by
  unfold Machine.doWipe
  split
  · next ok =>
    obtain ⟨-, -, w, hw, -⟩ := wipeOutcome_ok ok
    have compared := h.keeps (.wipeAuthority s p i sel key w)
    obtain ⟨v, hv⟩ := window?_wipeAuthority (p := p) (sel := sel) (key := key) hw
    obtain ⟨-, h0, h1, -⟩ := wipeAuthority_kept s p i sel key w
    rw [hw]
    dsimp only
    split
    · split
      · next hf =>
        rw [hv]
        refine compared.wipeStart (State.freeChannel?_isSome_of_free hf fun d hd => ?_) tag hv
        cases d
        · exact h0.trans hd
        · exact h1.trans hd
      · exact compared.finish ..
    · exact compared.finish ..
  · exact h.finish ..

theorem doCancelJob (h : s.Balanced D (some p) L) (tag job : Byte) :
    (doCancelJob s p tag job).Balanced D none L := by
  unfold Machine.doCancelJob
  split
  · exact h.finish ..
  · next c hc =>
    have found := List.find?_some hc
    rw [Option.any_eq_true] at found
    obtain ⟨j, hj, -⟩ := found
    rw [hj]
    dsimp only
    split
    · exact h.finish ..
    · split
      · exact h.finish ..
      · split
        · have ending : s.SameAccounts (s.setJob c (some { j with state := .ending .cancelled })) :=
            .setJob_of hj rfl rfl
          exact (h.keeps ending).finish ..
        · exact (h.endJob ..).finish ..

/-! ### Every taking -/

theorem carryOut (h : s.Balanced D (some p) L) (tag : Byte) (prep : Byte → Bool) (c : Command) :
    (carryOut s p tag prep c).Balanced D none L := by
  cases c with
  | defineWindow i base len pol lease wait =>
    refine h.finishWith _ _ _ fun ok => h.replaceWindow (fun v hv => ?_) fun v hv => ?_
    · rw [window?_of_defineOutcome ok] at hv
      cases hv
    · obtain ⟨x, -, rfl⟩ := Option.map_eq_some_iff.1 hv
      rfl
  | setWindowParams i sel pol lease wait =>
    refine h.finishWith _ _ _ fun _ => ?_
    cases hw : s.window? i.toNat with
    | none => exact h.replaceWindow (fun v hv => by rw [hw] at hv; cases hv) fun v hv => by cases hv
    | some w => exact h.keeps (.setWindow hw rfl)
  | deleteWindow i =>
    refine h.finishWith _ _ _ fun _ => (h.revoke i.toNat).replaceWindow (fun v hv => ?_) fun v hv => by cases hv
    rw [State.window?_revoke, if_pos rfl] at hv
    obtain ⟨w, -, rfl⟩ := Option.map_eq_some_iff.1 hv
    rfl
  | freeze => exact h.finishWith _ _ _ fun _ => h.keeps (.of_eq rfl rfl rfl rfl)
  | setMasterKey a b => exact h.doSetMasterKey ..
  | scrubSettings en iv =>
    refine h.finishWith _ _ _ fun _ => h.keeps ?_
    unfold State.applyScrub
    split <;> exact .of_eq rfl rfl rfl rfl
  | inject line kind =>
    show (doInject s p tag line kind).Balanced D none L
    unfold doInject
    split
    · next ok =>
      obtain ⟨k, hk⟩ := injectKindOf_of_ok ok
      rw [hk]
      exact h.formAccess ..
    · exact h.finish ..
  | claim i kind wait => exact h.doClaim ..
  | release i => exact h.doRelease ..
  | renew i => exact h.doRenew ..
  | setKey i level key => exact h.finishWith _ _ _ fun _ => h.keeps (.setGuard ..)
  | clearKey i => exact h.finishWith _ _ _ fun _ => h.keeps (.setGuard ..)
  | unlock i sel key => exact h.doUnlock ..
  | lock i => exact h.doLock ..
  | wipePrepare i =>
    exact h.finishWith _ _ _ fun _ => h.keeps (.setPcu ⟨Nat.le_refl _, rfl, rfl, fun _ => id⟩)
  | wipe i sel key => exact h.doWipe ..
  | read i o n =>
    show (doRead s p tag i o n).Balanced D none L
    unfold doRead
    split
    · exact h.formAccess ..
    · exact h.finish ..
  | write i o data => exact h.formAccess ..
  | copy si so di d n =>
    show (doCopy s p tag si so di d n).Balanced D none L
    unfold doCopy
    dsimp only
    split
    · next ok => exact h.startJob (freeChannel?_of_copyStartOutcome ok) rfl rfl
    · exact h.finish ..
  | fill di d n pat =>
    show (doFill s p tag di d n pat).Balanced D none L
    unfold doFill
    dsimp only
    split
    · next ok => exact h.startJob (freeChannel?_of_fillStartOutcome ok) rfl rfl
    · exact h.finish ..
  | cancelJob job => exact h.doCancelJob ..

theorem takeHead (h : s.Balanced D none L) (hp : D p) : (s.takeHead p).Balanced D none L := by
  cases hk : (s.pcu p).takeable with
  | false =>
    have none : s.dueHead p = none := if_neg (by rw [hk]; exact Bool.false_ne_true)
    unfold State.takeHead
    rw [none]
    exact h
  | true =>
    obtain ⟨tag, c, rest, ht⟩ := State.takes_of_takeable hk
    unfold State.takeHead
    rw [State.dueHead_of_takes ht]
    exact (h.beginTake hp ht).carryOut ..

theorem takeIfDue (h : s.Balanced D none L) (hp : D p) (before : State) :
    (takeIfDue before s p).Balanced D none L := by
  unfold Machine.takeIfDue
  split
  · exact h
  · exact h.takeHead hp

end State.Balanced

end Sys2Proof.Machine


/-! PROOFS. What the completions, the frames, a teardown and the ticks make of the accounts, and so every
step (R171, R178): O58. -/

namespace Sys2Proof.Machine

namespace State.SameAccounts

variable {s : State}

theorem endFlight (s : State) : s.SameAccounts s.endFlight := .of_eq rfl rfl rfl rfl

theorem setLink (s : State) (p : Port) (l : Link) : s.SameAccounts (s.setLink p l) := .of_eq rfl rfl rfl rfl

theorem setDecoder (s : State) (p : Port) (d : Decoder) : s.SameAccounts (s.setDecoder p d) := .setLink ..

/-- A change of a port's notices. -/
theorem setNotices (s : State) (p : Port) (l : List Notice) (b : Bool) (m : Option FetchMark) :
    s.SameAccounts (s.setPcu p { s.pcu p with notices := l, noticeLost := b, fetchMark := m }) :=
  .setPcu ⟨Nat.le_refl _, rfl, rfl, fun _ => id⟩

theorem clockBit (s : State) (p : Port) (b : Bool) : s.SameAccounts (s.clockBit p b) := by
  unfold State.clockBit
  split
  · dsimp only
    split
    · split
      · exact (setDecoder ..).trans (.setNotices ..)
      · exact .setDecoder ..
    · exact .setDecoder ..
  · exact .refl s

theorem clockBits (s : State) (p : Port) (bits : List Bool) : s.SameAccounts (s.clockBits p bits) :=
  .foldl (fun t b => .clockBit t p b) bits s

theorem rejectFrame (s : State) (p : Port) (r : RejectReason) : s.SameAccounts (s.rejectFrame p r) := .setLink ..

theorem endStatus (s : State) (p : Port) (f : Frame) : s.SameAccounts (s.endStatus p f) := by
  unfold State.endStatus
  split
  · dsimp only
    split
    · exact (setLink ..).trans (.setNotices ..)
    · exact .setLink ..
  · exact .setDecoder ..

theorem endFetchNotice (s : State) (p : Port) (f : Frame) : s.SameAccounts (s.endFetchNotice p f) := by
  unfold State.endFetchNotice
  split
  · exact .rejectFrame ..
  · refine (setDecoder s p .idle).trans ?_
    dsimp only
    split
    · unfold Pcu.fetched
      split
      · exact .setNotices ..
      · split
        · exact .setNotices ..
        · exact .setNotices ..
    · exact .setNotices ..

theorem endWindowInfo (s : State) (p : Port) (f : Frame) : s.SameAccounts (s.endWindowInfo p f) := by
  unfold State.endWindowInfo
  split
  · exact .rejectFrame ..
  · split
    · exact .setDecoder ..
    · split
      · exact .rejectFrame ..
      · exact .rejectFrame ..

theorem endDeviceInfo (s : State) (p : Port) (f : Frame) : s.SameAccounts (s.endDeviceInfo p f) := by
  unfold State.endDeviceInfo
  split
  · exact .rejectFrame ..
  · exact .setDecoder ..

theorem admitCommand (s : State) (p : Port) (tag : Byte) (c : Command) :
    s.SameAccounts (s.admitCommand p tag c) := by
  have admitted : (s.pcu p).SameAccount { s.pcu p with
      queue := (s.pcu p).queue ++ [{ tag := tag, command := c, taken := false }]
      outstanding := (s.pcu p).outstanding ++ [tag] } :=
    ⟨Nat.le_refl _, rfl, rfl, fun e he => by
      show ((s.pcu p).queue ++ _).head? = some e
      rw [List.head?_append, he]
      rfl⟩
  exact (setPcu admitted).trans (.setLink ..)

theorem sweepEnd (s : State) : s.SameAccounts s.sweepEnd where
  pcu q := by
    rw [State.pcu_sweepEnd]
    exact ⟨Nat.le_refl _, rfl, rfl, fun _ => id⟩
  waiters _ := rfl
  jobs _ _ := rfl

end State.SameAccounts

namespace State.Balanced

variable {D : Port → Prop} {L : List Port} {s : State}

/-! ### Completions -/

theorem stepDone (h : s.Balanced D none L) (c : Channel) (n : Nat) (good : Bool) :
    (s.stepDone c n good).Balanced D none L := by
  cases hj : s.job c with
  | none =>
    unfold State.stepDone
    rw [hj]
    exact h
  | some j =>
    have counted : s.SameAccounts (s.setJob c (some { j with bytesDone := j.bytesDone + n })) :=
      .setJob_of hj rfl rfl
    have good := h.keeps (counted.trans (.touchStep _ { j with bytesDone := j.bytesDone + n }))
    have bad := h.keeps (State.SameAccounts.setJob_of hj (k := j) rfl rfl)
    cases hs : j.state with
    | ending o =>
      rw [State.stepDone_ending hj hs]
      split
      · exact good.endJob ..
      · exact bad.endJob ..
    | running =>
      cases ‹Bool› with
      | false =>
        rw [State.stepDone_lost hj hs]
        exact bad.endJob ..
      | true =>
        rcases Nat.lt_or_ge (j.bytesDone + n) j.total with hn | hn
        · rw [State.stepDone_goes_on hj hs hn]
          exact good
        · rw [State.stepDone_ends hj hs hn]
          exact good.endJob ..

theorem wipeStepDone (h : s.Balanced D none L) (c : Channel) : (s.wipeStepDone c).Balanced D none L := by
  cases hj : s.job c with
  | none =>
    unfold State.wipeStepDone
    rw [hj]
    exact h
  | some j =>
    have counted := h.keeps (State.SameAccounts.setJob_of hj (k := { j with bytesDone := j.bytesDone + 64 }) rfl rfl)
    rcases Nat.lt_or_ge (j.bytesDone + 64) j.total with hn | hn
    · rw [State.wipeStepDone_goes_on hj hn]
      exact counted
    · rw [State.wipeStepDone_ends hj hn]
      generalize s.setJob c (some { j with bytesDone := j.bytesDone + 64 }) = u at counted
      unfold State.wipeEnd
      refine State.Balanced.endJob ?_ c .ok
      cases hw : u.window? j.dest.window with
      | none => exact counted.replaceWindow (fun v hv => by rw [hw] at hv; cases hv) fun v hv => by cases hv
      | some w => exact counted.keeps (.setWindow hw rfl)

/-- The end of a port's access, its lines handled (R89). -/
theorem accessDone {u : State} (h : s.Balanced D none L) (k : s.SameAccounts u) {p : Port} (hp : D p)
    (kind : CommandKind) (o : OutcomeCode) (e : Extra) (good : Bool) (i : Nat) :
    (Machine.takeIfDue s ((u.endFlight.endAccess p kind o e).touchIf good p i) p).Balanced D none L :=
  (((h.keeps (k.trans (.endFlight u))).endAccess p kind o e).keeps (.touchIf ..)).takeIfDue hp s

/-! ### Frames -/

theorem onRelease (h : s.Balanced D none L) (p : Port) (k : FrameSort) (ends : Frame → State)
    (he : ∀ f, (ends f).Balanced D none L) : (s.onRelease p k ends).Balanced D none L := by
  unfold State.onRelease
  split
  · exact h
  · exact h.keeps (.setDecoder ..)
  · split
    · exact he _
    · exact h

theorem endCommandFrame (h : s.Balanced D none L) {p : Port} (hp : D p) (f : Frame) :
    (s.endCommandFrame p f).Balanced D none L := by
  unfold State.endCommandFrame
  split
  · exact h.keeps (.rejectFrame ..)
  · exact ((h.keeps (.admitCommand ..)).takeIfDue hp s).arrive s
  · exact h.keeps (.rejectFrame ..)

theorem endCollect (h : s.Balanced D none L) {p : Port} (hp : D p) (f : Frame) :
    (s.endCollect p f).Balanced D none L := by
  unfold State.endCollect
  split
  · exact h.keeps (.rejectFrame ..)
  · split
    · refine State.Balanced.arrive (State.Balanced.takeIfDue (h.keeps ?_) hp s) s
      refine (State.SameAccounts.setDecoder s p .idle).trans (.setPcu ⟨?_, rfl, rfl, fun _ => id⟩)
      show (State.pcu (s.setDecoder p .idle) p).completions.tail.length ≤ _
      rw [List.length_tail]
      exact Nat.sub_le ..
    · exact h.keeps (.setDecoder ..)

/-! ### Teardown -/

/-- The windows without a port keep the accounts of the others (R192). -/
theorem withoutPort {p : Port} (h : s.Balanced (· ≠ p) none L) :
    (s.withoutPort p).Balanced (· ≠ p) none L where
  distinct i v hv := by
    rw [State.window?_withoutPort] at hv
    obtain ⟨w, hw, rfl⟩ := Option.map_eq_some_iff.1 hv
    show ((w.removePort p).waiters.map _).Nodup
    rw [w.waiters_removePort]
    exact (h.distinct i w hw).sublist (List.filter_sublist.map _)
  account q hq := by
    have waits (i : Nat) : waitsOn ((s.withoutPort p).window? i) q = waitsOn (s.window? i) q := by
      rw [State.window?_withoutPort, waitsOn, Option.any_map]
      cases s.window? i with
      | none => rfl
      | some w =>
        show (w.removePort p).waiters.any _ = w.waiters.any _
        rw [w.waiters_removePort, List.any_filter]
        congr 1
        funext x
        by_cases hx : x.port = q
        · rw [beq_iff_eq.2 hx, Bool.and_true]
          exact bne_iff_ne.2 fun e => hq (hx.symm.trans e)
        · rw [beq_eq_false_iff_ne.2 hx, Bool.and_false]
    rw [show (s.withoutPort p).waitCount q = s.waitCount q from
      congrArg List.length (List.filter_congr fun i _ => waits i)]
    exact h.account q hq

theorem tornClaims (h : s.Accounted) (p : Port) : (s.tornClaims p).Balanced (· ≠ p) none [] := by
  have emptied : ((s.teardownPcu p).setLink p Link.reset).Balanced (· ≠ p) none [] := by
    have others : s.Balanced (· ≠ p) none [] := ⟨h.distinct, fun q _ => h.account q trivial⟩
    exact (others.setPcu (fun _ _ => ⟨rfl, rfl⟩) fun hp => absurd rfl hp).keeps (.setLink ..)
  unfold State.tornClaims
  rw [State.teardownClaims_eq]
  generalize (List.range 32).filter (((s.teardownPcu p).setLink p Link.reset).claimsOn p) = l
  have removed := emptied.withoutPort
  generalize ((s.teardownPcu p).setLink p Link.reset).withoutPort p = u at removed
  induction l generalizing u with
  | nil => exact removed
  | cons i l ih => exact ih _ (removed.grantPass i)

end State.Balanced

section Teardown

variable {s : State} (p : Port)

/-- After the start of its teardown a port waits nowhere and awaits no completion (R191 to R193). -/
theorem State.counts_teardownStart :
    (s.teardownStart p).waitCount p = 0 ∧ (s.teardownStart p).deliverCount p = 0 := by
  refine ⟨List.length_eq_zero_iff.2 (List.filter_eq_nil_iff.2 fun i _ => ?_),
    List.length_eq_zero_iff.2 (List.filter_eq_nil_iff.2 fun c _ => ?_)⟩
  · show ¬ waitsOn ((s.teardownStart p).window? i) p = true
    rw [State.window?_of_windows (s.windows_teardownStart p) i]
    cases hw : s.window? i with
    | none =>
      have gone : (s.tornClaims p).window? i = none :=
        (State.window?_teardownClaims ..).trans (congrArg (Option.map _) hw)
      rw [gone]
      exact Bool.false_ne_true
    | some w =>
      obtain ⟨v, hv, -, hwaits, -⟩ :=
        State.window?_torn (s := (s.teardownPcu p).setLink p Link.reset) (p := p) hw
      rw [show (s.tornClaims p).window? i = some v from hv]
      show ¬ v.waits p = true
      rw [hwaits]
      exact Bool.false_ne_true
  · show ¬ delivers ((s.teardownStart p).job c) p = true
    rw [s.job_teardownStart, delivers, Option.any_eq_true]
    rintro ⟨j, hj, hd⟩
    rw [Bool.and_eq_true, beq_iff_eq] at hd
    obtain ⟨hdeliver, -⟩ := State.tornJob_owner hj hd.1
    exact Bool.false_ne_true (hdeliver.symm.trans hd.2)

/-- A teardown leaves who is to receive the completion of another port's job (R193). -/
theorem State.delivers_tornJob {q : Port} (hq : q ≠ p) (c : Channel) :
    delivers (s.tornJob p c) q = delivers (s.job c) q := by
  cases hj : s.job c with
  | none =>
    rw [State.tornJob, hj]
    rfl
  | some j =>
    by_cases ho : j.owner = p
    · have never {k : Job} (hk : k.owner = p) : delivers (some k) q = false := by
        show (k.owner == q && _) = false
        rw [hk, beq_eq_false_iff_ne.2 fun e => hq e.symm, Bool.false_and]
      rw [never ho, State.tornJob, hj, Option.bind_some, if_pos ho]
      split
      · exact never ho
      · split
        · exact never ho
        · rfl
    · rw [State.tornJob_other hj ho]

theorem State.Accounted.teardownStart (h : s.Accounted) : (s.teardownStart p).Accounted := by
  have torn := State.Balanced.tornClaims h p
  obtain ⟨hwait, hdeliver⟩ := State.counts_teardownStart (s := s) p
  have window (i : Nat) := State.window?_of_windows (s.windows_teardownStart p) i
  refine ⟨fun i w hw => torn.distinct i w ((window i).symm.trans hw), fun q _ => ?_⟩
  by_cases hq : q = p
  · subst hq
    rw [hwait, hdeliver, s.pcu_teardownStart]
    exact ⟨Nat.zero_le _, rfl, fun hne => absurd rfl hne, fun hk => nomatch hk⟩
  · have waits : (s.teardownStart p).waitCount q = (s.tornClaims p).waitCount q :=
      congrArg List.length (List.filter_congr fun i _ => by rw [window])
    have deliver : (s.teardownStart p).deliverCount q = (s.tornClaims p).deliverCount q :=
      congrArg List.length (List.filter_congr fun c _ => by
        show delivers _ q = delivers _ q
        rw [s.job_teardownStart, s.job_tornClaims, State.delivers_tornJob p hq])
    rw [waits, deliver, s.pcu_teardownStart_ne p hq]
    exact torn.account q hq

end Teardown

/-! ### Every command -/

namespace State.Accounted

variable {s t : State} (h : s.Accounted)
include h

theorem taking {p : Port} {k : CommandKind} (ht : exec (CommandKind.taking p k) s = .next t) : t.Accounted := by
  rcases exec_taking_cases ht with rfl | ⟨tag, c, rest, taken, -, rfl⟩
  · exact h
  · exact ((State.Balanced.beginTake h trivial taken).carryOut ..).arrive s

theorem endPortReset (p : Port) (f : Frame) : (s.endPortReset p f).Accounted := by
  unfold State.endPortReset
  split
  · exact State.Balanced.keeps h (.rejectFrame ..)
  · exact h.teardownStart p

theorem grant (ht : exec .grant s = .next t) : t.Accounted := by
  have granted : s.grantNow.Accounted := State.Balanced.grantNow h
  change execGrant s = .next t at ht
  unfold execGrant at ht
  split at ht
  · split at ht
    · cases ht
      exact State.Balanced.takeIfDue granted trivial s
    · cases ht
      exact granted
  · cases ht
    exact h

theorem settleTick : s.settleTick.Accounted := by
  have fold {α : Type} {f : State → α → State} (hf : ∀ u a, State.Accounted u → (f u a).Accounted) (l : List α)
      {u : State} (hu : u.Accounted) : (l.foldl f u).Accounted := by
    induction l generalizing u with
    | nil => exact hu
    | cons a l ih => exact ih (hf u a hu)
  exact fold (fun u i hu => fold (fun v p hv =>
    ((State.Balanced.leaseLow hv i p).leaseExpire i p).waitExpire i p) _ hu) _ h

theorem millisecond : s.millisecond.Accounted := by
  unfold State.millisecond
  split
  · exact State.Balanced.keeps h (.of_eq rfl rfl rfl rfl)
  · have settled := h.settleTick
    generalize s.settleTick = u at settled
    exact State.Balanced.keeps settled (.of_eq rfl rfl rfl rfl)

theorem scrubExpire : s.scrubExpire.Accounted := by
  refine State.Balanced.arrive (State.Balanced.keeps h ?_) s
  unfold State.scrubSignal
  split <;> exact .of_eq rfl rfl rfl rfl

theorem settleScrub : s.settleScrub.Accounted := by
  unfold State.settleScrub
  split
  · exact h.scrubExpire
  · exact h

/-- A tick finds the millisecond tick that is due taken (R204). -/
theorem dueTick : (if s.millisecondDue then s.millisecond else s).Accounted := by
  split
  · exact h.millisecond
  · exact h

theorem readCompletion (ht : exec .readCompletion s = .next t) : t.Accounted := by
  change execReadCompletion s = .next t at ht
  unfold execReadCompletion at ht
  split at ht
  · cases ht
    exact State.Balanced.accessDone h (.handles (.handleReads ..)) trivial ..
  · cases ht
    exact h

theorem writeCompletion (ht : exec .writeCompletion s = .next t) : t.Accounted := by
  change execWriteCompletion s = .next t at ht
  unfold execWriteCompletion at ht
  split at ht
  · cases ht
    exact State.Balanced.accessDone h (.handles (.writeLines ..)) trivial ..
  · cases ht
    exact h

theorem injectCompletion (ht : exec .injectCompletion s = .next t) : t.Accounted := by
  change execInjectCompletion s = .next t at ht
  unfold execInjectCompletion at ht
  split at ht
  · cases ht
    have planted : ∀ r k, s.SameAccounts (s.plant r k) := fun r k => .of_eq rfl rfl rfl rfl
    exact State.Balanced.accessDone h (planted ..) trivial _ _ _ false 0
  · cases ht
    exact h

theorem copyStepCompletion (ht : exec .copyStepCompletion s = .next t) : t.Accounted := by
  change execCopyStepCompletion s = .next t at ht
  unfold execCopyStepCompletion at ht
  split at ht
  · cases ht
    exact State.Balanced.stepDone
      (State.Balanced.keeps h ((State.SameAccounts.handles (.copyLines ..)).trans (.endFlight _))) ..
  · cases ht
    exact h

theorem fillStepCompletion (ht : exec .fillStepCompletion s = .next t) : t.Accounted := by
  change execFillStepCompletion s = .next t at ht
  unfold execFillStepCompletion at ht
  split at ht
  · cases ht
    exact State.Balanced.stepDone
      (State.Balanced.keeps h ((State.SameAccounts.handles (.fillLines ..)).trans (.endFlight _))) ..
  · cases ht
    exact h

theorem wipeStepCompletion (ht : exec .wipeStepCompletion s = .next t) : t.Accounted := by
  change execWipeStepCompletion s = .next t at ht
  unfold execWipeStepCompletion at ht
  split at ht
  · cases ht
    have written (r : LineRef) (b : List Byte) : s.SameAccounts (s.overwriteLine r b).endFlight :=
      .of_eq rfl rfl rfl rfl
    exact State.Balanced.wipeStepDone (State.Balanced.keeps h (written ..)) _
  · cases ht
    exact h

theorem scrubReadCompletion (ht : exec .scrubReadCompletion s = .next t) : t.Accounted := by
  change execScrubReadCompletion s = .next t at ht
  unfold execScrubReadCompletion at ht
  split at ht
  · next r b _ =>
    cases ht
    have done {u : State} (k : s.SameAccounts u) (n : Nat) :
        State.Accounted { u.endFlight with scrubPointer := n } :=
      State.Balanced.keeps h (k.trans (.of_eq rfl rfl rfl rfl))
    cases b with
    | true => exact done (.refl s) (nextLine r.line)
    | false =>
      exact done (.handles (.handleReads s [s.readLine r] fun _ => none)) (nextLine r.line)
  · cases ht
    exact h

theorem sweepLineWrite (ht : exec .sweepLineWrite s = .next t) : t.Accounted := by
  have written (r : LineRef) (b : List Byte) : (s.overwriteLine r b).Accounted :=
    State.Balanced.keeps h (.of_eq rfl rfl rfl rfl)
  change execSweepLineWrite s = .next t at ht
  unfold execSweepLineWrite at ht
  have zeroed := written (s.lineRef s.sweepPointer) (List.replicate 64 0#8)
  generalize s.overwriteLine (s.lineRef s.sweepPointer) (List.replicate 64 0#8) = u at *
  split at ht
  · cases ht
    split
    · exact State.Balanced.keeps zeroed (.sweepEnd u)
    · exact State.Balanced.keeps zeroed (.of_eq rfl rfl rfl rfl)
  · cases ht
    exact h

theorem frameStart {p : Port} (ht : exec (.frameStart p) s = .next t) : t.Accounted := by
  change execFrameStart p s = .next t at ht
  unfold execFrameStart at ht
  split at ht
  · split at ht
    · cases ht
      exact State.Balanced.keeps h (.setDecoder ..)
    · cases ht
      exact State.Balanced.keeps h (.setDecoder ..)
  · cases ht
    exact h

theorem clocked (p : Port) (bits : List Bool) : (s.clockBits p bits).Accounted :=
  State.Balanced.keeps h (.clockBits s p bits)

/-- Every command but a reset. -/
theorem exec {c : Instr} (h1 : ∀ r l, c ≠ .powerOn r l) (h2 : c ≠ .resetAssert) (h3 : ∀ l, c ≠ .resetRelease l)
    (ht : exec c s = .next t) : t.Accounted := by
  have released (p : Port) (k : FrameSort) {ends : Frame → State} (he : ∀ f, (ends f).Accounted) :
      (s.onRelease p k ends).Accounted := State.Balanced.onRelease h p k ends he
  cases c with
  | powerOn r l => exact absurd rfl (h1 r l)
  | resetAssert => exact absurd rfl h2
  | resetRelease l => exact absurd rfl (h3 l)
  | sweepLineWrite => exact h.sweepLineWrite ht
  | frameStart p => exact h.frameStart ht
  | commandFrame p e =>
    cases e with
    | clock bits => exact Host.Outcome.next.inj ht ▸ h.clocked p bits
    | release => exact Host.Outcome.next.inj ht ▸ released p _ fun f => State.Balanced.endCommandFrame h trivial f
  | status p e =>
    cases e with
    | clock bits => exact Host.Outcome.next.inj ht ▸ h.clocked p bits
    | release => exact Host.Outcome.next.inj ht ▸ released p _ fun f => State.Balanced.keeps h (.endStatus s p f)
  | collect p e =>
    cases e with
    | clock bits => exact Host.Outcome.next.inj ht ▸ h.clocked p bits
    | release => exact Host.Outcome.next.inj ht ▸ released p _ fun f => State.Balanced.endCollect h trivial f
  | fetchNotice p e =>
    cases e with
    | clock bits => exact Host.Outcome.next.inj ht ▸ h.clocked p bits
    | release => exact Host.Outcome.next.inj ht ▸ released p _ fun f => State.Balanced.keeps h (.endFetchNotice s p f)
  | windowInfo p e =>
    cases e with
    | clock bits => exact Host.Outcome.next.inj ht ▸ h.clocked p bits
    | release => exact Host.Outcome.next.inj ht ▸ released p _ fun f => State.Balanced.keeps h (.endWindowInfo s p f)
  | deviceInfo p e =>
    cases e with
    | clock bits => exact Host.Outcome.next.inj ht ▸ h.clocked p bits
    | release => exact Host.Outcome.next.inj ht ▸ released p _ fun f => State.Balanced.keeps h (.endDeviceInfo s p f)
  | portReset p e =>
    cases e with
    | clock bits => exact Host.Outcome.next.inj ht ▸ h.clocked p bits
    | release => exact Host.Outcome.next.inj ht ▸ released p _ fun f => h.endPortReset p f
  | emptyFrame p =>
    exact Host.Outcome.next.inj ht ▸ released p _ fun _ => State.Balanced.keeps h (.setDecoder s p .idle)
  | teardownEnd p =>
    exact Host.Outcome.next.inj ht ▸ State.Balanced.keeps h (.setPcu (State.SameAccounts.endTeardown _))
  | defineWindow p => exact h.taking (k := .defineWindow) ht
  | setWindowParams p => exact h.taking (k := .setWindowParams) ht
  | deleteWindow p => exact h.taking (k := .deleteWindow) ht
  | claim p => exact h.taking (k := .claim) ht
  | release p => exact h.taking (k := .release) ht
  | renew p => exact h.taking (k := .renew) ht
  | setKey p => exact h.taking (k := .setKey) ht
  | clearKey p => exact h.taking (k := .clearKey) ht
  | unlock p => exact h.taking (k := .unlock) ht
  | lock p => exact h.taking (k := .lock) ht
  | setMasterKey p => exact h.taking (k := .setMasterKey) ht
  | freeze p => exact h.taking (k := .freeze) ht
  | wipePrepare p => exact h.taking (k := .wipePrepare) ht
  | wipe p => exact h.taking (k := .wipe) ht
  | read p => exact h.taking (k := .read) ht
  | write p => exact h.taking (k := .write) ht
  | inject p => exact h.taking (k := .inject) ht
  | scrubSettings p => exact h.taking (k := .scrubSettings) ht
  | copy p => exact h.taking (k := .copy) ht
  | fill p => exact h.taking (k := .fill) ht
  | cancelJob p => exact h.taking (k := .cancelJob) ht
  | grant => exact h.grant ht
  | readCompletion => exact h.readCompletion ht
  | writeCompletion => exact h.writeCompletion ht
  | injectCompletion => exact h.injectCompletion ht
  | copyStepCompletion => exact h.copyStepCompletion ht
  | fillStepCompletion => exact h.fillStepCompletion ht
  | wipeStepCompletion => exact h.wipeStepCompletion ht
  | scrubReadCompletion => exact h.scrubReadCompletion ht
  | leaseLowPoint i p => exact Host.Outcome.next.inj ht ▸ State.Balanced.leaseLow h i p
  | leaseExpiry i p => exact Host.Outcome.next.inj ht ▸ State.Balanced.leaseExpire h i p
  | waitExpiry i p => exact Host.Outcome.next.inj ht ▸ State.Balanced.waitExpire h i p
  | scrubTimerExpiry =>
    change execScrubTimerExpiry s = .next t at ht
    unfold execScrubTimerExpiry at ht
    split at ht
    · exact Host.Outcome.next.inj ht ▸ h.scrubExpire
    · exact Host.Outcome.next.inj ht ▸ h
  | storedBitFlip phys word bit =>
    change execStoredBitFlip phys word bit s = .next t at ht
    unfold execStoredBitFlip at ht
    split at ht
    · rw [← Host.Outcome.next.inj ht]
      refine State.Balanced.keeps h ?_
      unfold State.flipBit
      cases bit <;> exact .of_eq rfl rfl rfl rfl
    · exact Host.Outcome.next.inj ht ▸ h
  | millisecondTick => exact Host.Outcome.next.inj ht ▸ h.dueTick
  | microsecondTick =>
    rw [← Host.Outcome.next.inj ht]
    have due := h.dueTick.settleScrub
    generalize State.settleScrub _ = u at due
    exact State.Balanced.keeps due (.of_eq rfl rfl rfl rfl)

end State.Accounted

/-- Every step keeps the accounts settled, a reset by emptying them (R199, R203). -/
theorem completionsLawful_step {s t : State} (hc : ClaimsLawful s) (h : CompletionsLawful s)
    (ht : step s = .next t) : CompletionsLawful t := by
  unfold Machine.step at ht
  split at ht
  · cases ht
    exact h
  · next c rest _ =>
    by_cases reset : (∃ r l, c = .powerOn r l) ∨ c = .resetAssert ∨ ∃ l, c = .resetRelease l
    · rcases exec_reset reset ht with rfl | ⟨ph, lp, ms, us, rm, sp, rfl, -⟩
      · exact h
      · exact completionsLawful_afterReset
    · simp only [not_or, not_exists] at reset
      obtain ⟨hpower, hassert, hrelease⟩ := reset
      have before : State.Accounted { s with pending := rest } :=
        State.Balanced.keeps (h.accounted hc) (.of_eq rfl rfl rfl rfl)
      exact (before.exec hpower hassert hrelease ht).completionsLawful

/-- Settles O58: the queues as every step keeps them, and the accounts of the completions. -/
theorem stepsKeepQueuesBounded : Obligations.StepsKeepQueuesBounded :=
  ⟨fun _ _ hq hn h => queuesLawful_keeps.everyStep
      (fun _ _ _ _ _ _ _ _ _ => ⟨queuesLawful_afterReset, noticesLawful_afterReset⟩) ⟨hq, hn⟩ h,
    fun _ _ hc hs h => completionsLawful_step hc hs h⟩

end Sys2Proof.Machine
